-- ==== Sys2Proof/Word.lean ====
section
/-! DEFINITION. The word and byte types and the one integer operation the rules write throughout. -/

namespace Sys2Proof

/-- A register or a command word: 32 bits (R7 `REGW`, R22). -/
abbrev Word := BitVec 32

/-- One byte of buffer memory (R60). -/
abbrev Byte := BitVec 8

/-- `ceil(a / b)` of R8, for `b > 0`. -/
def ceilDiv (a b : Nat) : Nat := (a + b - 1) / b

end Sys2Proof
end

