-- ==== Sys2Proof/Config.lean ====
section
/-! DEFINITION. What an implementation fixes (R7) and the values the spec leaves unspecified. -/

namespace Sys2Proof

/-- The parameters of R7 that a rule can observe or that bound the workers. `REG_BASE` is observed by no rule (R7) and
has no place here (assumption 3). -/
structure Platform where
  /-- `MEM_BYTES`, `0 < MEM_BYTES <= 2^32` (R7). -/
  memBytes : Nat
  /-- `NWORKERS`, at least 1 (R7). -/
  workers : Nat
  deriving DecidableEq, Repr

/-- The range R7 gives each parameter. -/
def Platform.legal (p : Platform) : Bool := 0 < p.memBytes && p.memBytes ≤ 0x100000000 && 1 ≤ p.workers

/-- DESIGN CHOICE, unsafe (assumptions 1 and 2): the parameters of the reset state. 0x1000 bytes is the size the
spec's own programs assume (95_test_vectors.md); no statement rests on it. -/
def Platform.reset : Platform := { memBytes := 0x1000, workers := 1 }

/-- DESIGN CHOICE, safe (assumption 4): what a byte of buffer memory holds after power-on. It has no body: an arbitrary
byte for every address, the same until someone writes it (R39, R342). -/
opaque Config.powerOnByte : Nat → Byte

/-- DESIGN CHOICE, safe (assumption 5): a byte whose value the spec calls unspecified (R67, R178, R341, R346). The first
argument counts the occasions, the second is the address. -/
opaque Config.freeByte : Nat → Nat → Byte

/-- DESIGN CHOICE, safe (assumption 5): a result register whose value the spec calls unspecified (R178). The first
argument counts the occasions, the second is the result's number. -/
opaque Config.freeWord : Nat → Nat → Word

/-- DESIGN CHOICE, safe (assumption 13): which of its two values an output byte of a running command shows, true for the
old one (R346). The first argument counts the occasions, the second is the address. -/
opaque Config.freeChoice : Nat → Nat → Bool

end Sys2Proof
end

