-- ==== Sys2Proof/Syntax.lean ====
section
/-! DEFINITION. The commands: one constructor per row of the opcode table (R93). -/

namespace Sys2Proof

/-- The `QB` field (R90): how many bits a code has. `0b11` is reserved and has no constructor. -/
inductive Width where
  | q4
  | q2
  | q8
  deriving DecidableEq, Repr

/-- The `CW` field (R90): how a block lies in the matrix. -/
inductive Orient where
  | rowWise
  | colWise
  deriving DecidableEq, Repr

/-- The `ET` field (R90): binary32 or binary16 elements. -/
inductive ElemType where
  | f32
  | f16
  deriving DecidableEq, Repr

/-- The commands of R93. A field the row leaves free is an argument; a field the row fixes is not. The Boolean
argument is `ZPEN`: true when a zero-points buffer is present. -/
inductive Instr where
  /-- `GEOM` (R135). -/
  | geom (w : Width) (o : Orient) (zpen : Bool)
  /-- `R2Q.S` (R162). -/
  | r2qS (w : Width) (et : ElemType)
  /-- `R2Q.A` (R163). -/
  | r2qA (w : Width) (et : ElemType)
  /-- `NORM` (R176). -/
  | norm (w : Width)
  /-- `PACK.Q4` (R189). -/
  | packQ4
  /-- `PACK.Q2` (R189). -/
  | packQ2
  /-- `PACK.Q8` (R189). -/
  | packQ8
  /-- `UNPACK.Q4` (R190). -/
  | unpackQ4
  /-- `UNPACK.Q2` (R190). -/
  | unpackQ2
  /-- `UNPACK.Q8` (R190). -/
  | unpackQ8
  /-- `QT.S` (R201). -/
  | qtS (o : Orient) (et : ElemType)
  /-- `QT.A` (R201). -/
  | qtA (o : Orient) (et : ElemType)
  /-- `DQT.S` (R231). -/
  | dqtS (o : Orient) (et : ElemType)
  /-- `DQT.A` (R231). -/
  | dqtA (o : Orient) (et : ElemType)
  /-- `QDQC.S` (R251). -/
  | qdqcS (w : Width) (et : ElemType)
  /-- `QDQC.A` (R251). -/
  | qdqcA (w : Width) (et : ElemType)
  /-- `QDQR` (R260). -/
  | qdqr (w : Width) (zpen : Bool) (et : ElemType)
  /-- `LPACK.S32` (R279). -/
  | lpackS32
  /-- `LPACK.S64` (R279). -/
  | lpackS64
  /-- `LPACK.S128` (R279). -/
  | lpackS128
  /-- `LPACK.A32` (R279). -/
  | lpackA32
  /-- `LUNPACK.S32` (R280). -/
  | lunpackS32
  /-- `LUNPACK.S64` (R280). -/
  | lunpackS64
  /-- `LUNPACK.S128` (R280). -/
  | lunpackS128
  /-- `LUNPACK.A32` (R280). -/
  | lunpackA32
  deriving DecidableEq, Repr

end Sys2Proof
end

