-- ==== Sys2Proof/Machine/State.lean ====
section
/-! DEFINITION. The state of the block (R20) and of what drives it, as plain data; the ways a step can stop; reset. -/

namespace Sys2Proof.Machine

/-! ### Types of the fields -/

/-- `STATUS.PHASE` (R24, R30). -/
inductive Phase where
  /-- No command since reset. -/
  | idle
  /-- A command is running. -/
  | busy
  /-- The last command completed. -/
  | done
  /-- The last command ended in error. -/
  | error
  deriving DecidableEq, Repr

/-- The error names of R313; `ERR` 0 is the absence of one. -/
inductive CmdError where
  /-- Code 1 (R314). -/
  | illegalCommand
  /-- Code 2 (R315). -/
  | configError
  /-- Code 3 (R318). -/
  | unimplemented
  /-- Code 4 (R320). -/
  | operandError
  /-- Code 5 (R317). -/
  | addressError
  /-- Code 6 (R316). -/
  | alignError
  deriving DecidableEq, Repr

/-- Registers 0 and 2 to 12 (R22): what the host writes and what a launch latches (R31). -/
structure HostRegs where
  cmd : Word
  rows : Word
  cols : Word
  blksz : Word
  ld : Word
  matAddr : Word
  pkAddr : Word
  scAddr : Word
  zpAddr : Word
  opa : Word
  opb : Word
  opc : Word
  deriving DecidableEq, Repr

/-- Registers 16 to 22 (R22), read only. -/
structure Results where
  res0 : Word
  res1 : Word
  res2 : Word
  res3 : Word
  res4 : Word
  res5 : Word
  res6 : Word
  deriving DecidableEq, Repr

/-- A finite floating-point value (R10): `(-1)^neg * mag * 2^-149`. The unit is the smallest binary32 magnitude, so
every finite binary32 and every finite binary16 value is one of these. -/
structure Flt where
  neg : Bool
  mag : Nat
  deriving DecidableEq, Repr

/-- A tile index: `(tr, tc)` of R203, R236 and R254; `(n, kb)` of R283. -/
structure Tile where
  r : Nat
  c : Nat
  deriving DecidableEq, Repr

/-- How far a tile in flight has come: the steps of R204 to R206, R255 to R257, R281 and R282, with the reading back of
the stored scale (R70) as a step of its own. A dequantizing tile has the last step only. -/
inductive Stage where
  | params
  | zeroPoints
  | recips
  | codes
  deriving DecidableEq, Repr

/-- Tile-local scratch (R37): the transpose buffer as pairs of a source address and the element read there, the
zero-point accumulators, and the reciprocal-scale cache. -/
structure Scratch where
  buffer : List (Nat × Flt)
  zacc : List Nat
  rcache : List Flt
  deriving DecidableEq, Repr

/-- A tile that a worker has begun and not ended (R36, R37). -/
structure InFlight where
  tile : Tile
  stage : Stage
  scratch : Scratch
  deriving DecidableEq, Repr

/-- Buffer memory (R60): the bytes written so far, as (address, byte) pairs with addresses strictly rising. What an
address without an entry reads as is `unlistedByte` of Machine/Ops.lean. -/
abbrev Memory := List Host.Cell

/-- A move of the world around the sequencer: the host's (R21, R95), reset (R340), or the choice of the worker that
goes on next (R36). -/
inductive Event where
  /-- `WR reg, value`. -/
  | writeReg (i : Fin 32) (v : Word)
  /-- `RD reg`. -/
  | readReg (i : Fin 32)
  /-- `MW addr, bytes`. -/
  | writeMem (a : Word) (bytes : List Byte)
  /-- `MR addr, n`. -/
  | readMem (a : Word) (n : Nat)
  /-- `WAIT`: `RD STATUS` until the phase is not `BUSY`. -/
  | wait
  /-- The reset event. -/
  | reset
  /-- The pending tile with this number, modulo how many there are, goes on by one step. -/
  | worker (k : Nat)
  deriving DecidableEq, Repr

/-- What one host read returned. -/
inductive HostRead where
  | reg (i : Fin 32) (v : Word)
  | mem (a : Word) (bytes : List Byte)
  deriving DecidableEq, Repr

/-- The two granularities R75 allows: a command as one step, or tile by tile with `BUSY` seen in between. -/
inductive Grain where
  | atomic
  | tiled
  deriving DecidableEq, Repr

/-! ### The state -/

/-- The state. The fields down to `mem` are the spec's (R20); the others are the model's own, and no rule of the spec
lets a command's effect depend on them but through the parameters of R7. -/
structure State where
  /-- Registers 0 and 2 to 12 (R22). -/
  regs : HostRegs
  /-- Registers 16 to 22 (R22). -/
  res : Results
  /-- `STATUS.PHASE` (R24). -/
  phase : Phase
  /-- `STATUS.EMPTY` (R24). -/
  empty : Bool
  /-- `STATUS.ERR` (R24, R313). -/
  err : Option CmdError
  /-- The latched command context (R31). -/
  ctx : HostRegs
  /-- The tiles not yet performed (R32), without repeats. -/
  pending : List Tile
  /-- The tiles begun and not ended, with their scratch (R37). -/
  flight : List InFlight
  /-- Buffer memory (R60). -/
  mem : Memory
  /-- The parameters of R7 (assumptions 1 and 2). -/
  plat : Platform
  /-- Which granularity of R75 is run (assumption 9). -/
  grain : Grain
  /-- The running command's result is unspecified (assumptions 5 and 13). -/
  spoiled : Bool
  /-- Buffer memory as it was when the command now running tile by tile was launched: the old values of R346; empty when
  none runs so (assumption 13). -/
  launchMem : Memory
  /-- How many times a free value was taken (assumption 8). -/
  fresh : Nat
  /-- The moves still to come (assumption 10). -/
  agenda : List Event
  /-- What the host has read, latest first (assumption 12). -/
  readback : List HostRead
  deriving DecidableEq, Repr

/-! ### How a step can stop -/

/-- The machine's faults. -/
inductive Fault where
  /-- Raised by a host move that touches a buffer address the memory does not have (R60). Safe: the model stops where
  the spec gives no effect (assumption 15). -/
  | hostAddress (a : Nat)
  deriving DecidableEq, Repr

/-- The machine's refusals. -/
inductive Refusal where
  /-- Raised by an arm of `exec` whose instruction has no meaning yet. Safe. No arm raises it: every row is modelled. -/
  | notModelled (mnemonic : String)
  deriving DecidableEq, Repr

/-! ### Reset -/

/-- All registers 0 (R39). -/
def HostRegs.zero : HostRegs :=
  { cmd := 0, rows := 0, cols := 0, blksz := 0, ld := 0, matAddr := 0, pkAddr := 0, scAddr := 0, zpAddr := 0,
    opa := 0, opb := 0, opc := 0 }

/-- All results 0 (R39). -/
def Results.zero : Results := { res0 := 0, res1 := 0, res2 := 0, res3 := 0, res4 := 0, res5 := 0, res6 := 0 }

/-- The state right after reset (R39, R340), at power-on: no byte of buffer memory written yet (R342). The model's own
fields stand at the values of assumptions 1, 2, 5, 8, 9, 10, 12 and 13. -/
def State.reset : State :=
  { regs := HostRegs.zero
    res := Results.zero
    phase := .idle
    empty := false
    err := none
    ctx := HostRegs.zero
    pending := []
    flight := []
    mem := []
    plat := Platform.reset
    grain := .atomic
    spoiled := false
    launchMem := []
    fresh := 0
    agenda := []
    readback := [] }

end Sys2Proof.Machine
end

