-- ==== Sys2Proof/Machine/Float.lean ====
section
/-! DEFINITION. The floating-point primitives of R10 and R11: IEEE 754 binary32 with round to nearest even, on finite
values. `none` stands for a NaN or an infinity, which R178 leaves without a meaning. Magnitudes are natural numbers of
units of 2^-149 (see `Flt`), so every intermediate is exact and is rounded in one place, `roundTo`. -/

namespace Sys2Proof.Machine

/-! ### Rounding -/

/-- The nearest natural to `num / den`, a tie going to the even one. -/
def nearestEven (num den : Nat) : Nat :=
  let q := num / den
  let r := num % den
  if 2 * r < den then q else if den < 2 * r then q + 1 else if q % 2 = 0 then q else q + 1

/-- The number with at most `p` significant bits nearest to `num / den`, a tie going to the even significand, in a
format whose least magnitude is 1. -/
def roundTo (p num den : Nat) : Nat :=
  let e := Nat.log2 (num / den) + 1 - p
  nearestEven num (den * 2 ^ e) * 2 ^ e

/-- 1.0 in units of 2^-149. -/
def unitOne : Nat := 2 ^ 149

/-- The least binary32 magnitude that is too large, 2^128, in units of 2^-149. -/
def limit32 : Nat := 2 ^ 149 * 2 ^ 128

/-- The least binary16 magnitude, 2^-24, in units of 2^-149. -/
def unit16 : Nat := 2 ^ 125

/-- The least binary16 magnitude that is too large, 2^16, in units of 2^-24. -/
def limit16 : Nat := 2 ^ 40

/-- `num / den` units rounded to binary32; `none` when it overflows to infinity. -/
def round32 (neg : Bool) (num den : Nat) : Option Flt :=
  let m := roundTo 24 num den
  if m < limit32 then some { neg := neg, mag := m } else none

/-! ### Bit patterns -/

/-- A magnitude as exponent and fraction fields, for a format with `f` fraction bits whose least magnitude is 1. -/
def packMagnitude (f n : Nat) : Nat :=
  let e := Nat.log2 n - f
  2 ^ f * e + n / 2 ^ e

/-- The magnitude of exponent field `e` and fraction field `m`, for a format with `f` fraction bits. -/
def unpackMagnitude (f e m : Nat) : Nat := if e = 0 then m else (2 ^ f + m) * 2 ^ (e - 1)

/-- `f32(b)` of R10 on finite patterns. -/
def f32 (b : BitVec 32) : Option Flt :=
  let e := (b.extractLsb' 23 8).toNat
  if e = 255 then none
  else some { neg := b.getLsbD 31, mag := unpackMagnitude 23 e (b.extractLsb' 0 23).toNat }

/-- `bits32(a)` of R10. -/
def bits32 (a : Flt) : BitVec 32 := BitVec.ofBool a.neg ++ BitVec.ofNat 31 (packMagnitude 23 a.mag)

/-- `widen(f16(b))` of R10 on finite patterns: a binary16 value is kept as the binary32 value it widens to, which is
exact. -/
def f16 (b : BitVec 16) : Option Flt :=
  let e := (b.extractLsb' 10 5).toNat
  if e = 31 then none
  else some { neg := b.getLsbD 15, mag := unit16 * unpackMagnitude 10 e (b.extractLsb' 0 10).toNat }

/-- `bits16` of R10, on a value that is a binary16 value. -/
def bits16 (a : Flt) : BitVec 16 := BitVec.ofBool a.neg ++ BitVec.ofNat 15 (packMagnitude 10 (a.mag / unit16))

/-- `narrow(a)` of R10, kept as the binary32 value it widens to; `none` when it overflows to infinity (R155). -/
def narrow (a : Flt) : Option Flt :=
  let n := roundTo 11 a.mag unit16
  if n < limit16 then some { neg := a.neg, mag := unit16 * n } else none

/-! ### Arithmetic -/

/-- `of_nat(n)` of R10, `n <= 255`. -/
def ofNat (n : Nat) : Flt := { neg := false, mag := unitOne * n }

/-- 8.5, the pattern 0x41080000 (R285). -/
def eightAndAHalf : Flt := { neg := false, mag := 17 * (unitOne / 2) }

/-- The number a value stands for, in units; both zeros stand for 0 (R9, R10). -/
def value (a : Flt) : Int := if a.neg then -(a.mag : Int) else a.mag

/-- `a == 0` of R10: true of both zeros. -/
def isZero (a : Flt) : Bool := a.mag == 0

/-- `a < b` as reals (R9). -/
def ltF (a b : Flt) : Bool := value a < value b

/-- `fabs(a)` of R10. -/
def fabs (a : Flt) : Flt := { a with neg := false }

/-- `fneg(a)` of R150: the sign bit flipped. -/
def fneg (a : Flt) : Flt := { a with neg := !a.neg }

/-- `fadd(a, b)` of R10. An exact sum of zero is `+0.0`, but `-0.0 + -0.0` is `-0.0` (IEEE 754, round to nearest;
PRESUMED, assumption 20). -/
def fadd (a b : Flt) : Option Flt :=
  let v := value a + value b
  let neg := if v = 0 then a.neg && b.neg else v < 0
  round32 neg v.natAbs 1

/-- `fsub(a, b)` of R10. -/
def fsub (a b : Flt) : Option Flt := fadd a (fneg b)

/-- `fmul(a, b)` of R10. -/
def fmul (a b : Flt) : Option Flt := round32 (a.neg != b.neg) (a.mag * b.mag) unitOne

/-- `fdiv(a, b)` of R10. A zero divisor gives no finite value; the guard of R151 keeps it from every rule (DEDUCED,
assumption 18). -/
def fdiv (a b : Flt) : Option Flt :=
  if b.mag = 0 then none else round32 (a.neg != b.neg) (unitOne * a.mag) b.mag

/-- `round_away(a)` of R10: the nearest integer, a tie going away from zero, with the sign of `a`. -/
def roundAway (a : Flt) : Flt := { a with mag := unitOne * ((unitOne / 2 + a.mag) / unitOne) }

/-- `floor(a)` of R285, used on values that are not negative. -/
def truncate (a : Flt) : Flt := { a with mag := unitOne * (a.mag / unitOne) }

/-- `to_nat(a)` of R10, on a non-negative integer. -/
def toNat (a : Flt) : Nat := a.mag / unitOne

/-- `clamp(v, lo, hi)` of R9, on floats compared as reals. -/
def clampF (v lo hi : Flt) : Flt := if ltF v lo then lo else if ltF hi v then hi else v

/-- `min(a, b)` of R9; on a tie of the two zeros the second is taken, which no rule observes (R153; DEDUCED,
assumption 19). -/
def minF (a b : Flt) : Flt := if ltF a b then a else b

/-- `max(a, b)` of R9; on a tie of the two zeros the second is taken, which no rule observes (R153; DEDUCED,
assumption 19). -/
def maxF (a b : Flt) : Flt := if ltF b a then a else b

/-! ### Element types (R11) -/

/-- `esz(ET)` of R11. -/
def esz : ElemType → Nat
  | .f32 => 4
  | .f16 => 2

/-- `elem_round(a, ET)` of R11; `none` when narrowing overflows (R155). -/
def elemRound (et : ElemType) (a : Flt) : Option Flt :=
  match et with
  | .f32 => some a
  | .f16 => narrow a

/-- The pattern `ElemWrite` of R11 stores, as a natural; `none` when narrowing overflows. -/
def elemBits (et : ElemType) (a : Flt) : Option Nat :=
  match et with
  | .f32 => some (bits32 a).toNat
  | .f16 => (narrow a).map fun h => (bits16 h).toNat

/-- The value `ElemRead` of R11 makes of a pattern; `none` on a NaN or an infinity. -/
def elemValue (et : ElemType) (n : Nat) : Option Flt :=
  match et with
  | .f32 => f32 (BitVec.ofNat 32 n)
  | .f16 => f16 (BitVec.ofNat 16 n)

end Sys2Proof.Machine
end

