-- ==== Sys2Proof/Machine/Ops.lean ====
section
/-! DEFINITION. The named operations over buffer memory and registers, and the two ways a command is over: in error
(R312) and completed (R311). -/

namespace Sys2Proof.Machine

/-! ### Buffer memory (R60 to R63) -/

/-- What an address reads as that nobody has written since power-on: an arbitrary byte (R39, R342; assumption 4). -/
def unlistedByte (a : Nat) : Byte := Config.powerOnByte a

/-- The byte written at an address, if one was. -/
def lookupByte : Memory → Nat → Option Byte
  | [], _ => none
  | (k, b) :: rest, a => if k = a then some b else lookupByte rest a

/-- The byte at an address: the last one written to it (R61). -/
def readByte (m : Memory) (a : Nat) : Byte :=
  match lookupByte m a with
  | some b => b
  | none => unlistedByte a

/-- The memory with one byte written. -/
def writeByte : Memory → Nat → Byte → Memory
  | [], a, b => [(a, b)]
  | (k, v) :: rest, a, b =>
    if a < k then (a, b) :: (k, v) :: rest
    else if a = k then (a, b) :: rest
    else (k, v) :: writeByte rest a b

/-- The memory with bytes written one after the other. -/
def writeCells (m : Memory) : List Host.Cell → Memory
  | [] => m
  | (a, b) :: rest => writeCells (writeByte m a b) rest

/-- The canonical form: addresses strictly rising. An address that was never written has no entry, and an entry is a
byte somebody wrote (assumption 4). -/
abbrev memWf (m : Memory) : Prop := m.Pairwise fun x y => x.1 < y.1

/-- Every listed address exists (R60). -/
abbrev memBounded (m : Memory) (size : Nat) : Prop := ∀ x ∈ m, x.1 < size

/-- `MemRead(a, n)`: little-endian (R62). -/
def memRead (m : Memory) (a : Nat) : Nat → Nat
  | 0 => 0
  | n + 1 => (readByte m a).toNat + 256 * memRead m (a + 1) n

/-- The bytes `MemWrite(a, n, v)` stores: little-endian (R62). -/
def wordCells (a : Nat) : Nat → Nat → List Host.Cell
  | 0, _ => []
  | n + 1, v => (a, BitVec.ofNat 8 v) :: wordCells (a + 1) n (v / 256)

/-- A run of bytes at an address. -/
def byteCells (a : Nat) : List Byte → List Host.Cell
  | [] => []
  | b :: rest => (a, b) :: byteCells (a + 1) rest

/-- A run of bytes read from an address. -/
def readBytes (m : Memory) (a : Nat) : Nat → List Byte
  | 0 => []
  | n + 1 => readByte m a :: readBytes m (a + 1) n

/-- `ElemRead(a, ET)` of R11; `none` on a NaN or an infinity. -/
def elemRead (et : ElemType) (m : Memory) (a : Nat) : Option Flt := elemValue et (memRead m a (esz et))

/-- The bytes `ElemWrite(a, ET, f)` of R11 stores; `none` when narrowing overflows. -/
def elemCells (et : ElemType) (a : Nat) (f : Flt) : Option (List Host.Cell) :=
  (elemBits et f).map fun v => wordCells a (esz et) v

/-! ### Extents (R66) -/

/-- One buffer of a command: `[base, base + size)`, and whether the command writes it. -/
structure Extent where
  base : Nat
  size : Nat
  written : Bool
  deriving DecidableEq, Repr

/-- An address of the extent. -/
def inExtent (e : Extent) (a : Nat) : Bool := e.base ≤ a && a < e.base + e.size

/-- The extent lies in memory; one of size 0 always does (R66, R317). -/
def extentFits (memBytes : Nat) (e : Extent) : Bool := e.size == 0 || e.base + e.size ≤ memBytes

/-- Two extents share a byte (R67). An empty extent shares none (DEDUCED, assumption 17). -/
def intersects (x y : Extent) : Bool :=
  x.size != 0 && y.size != 0 && x.base < y.base + y.size && y.base < x.base + x.size

/-- Two buffers share a byte and one of them is written (R67). -/
def clash (x y : Extent) : Bool := intersects x y && (x.written || y.written)

/-- Some two buffers of the command clash (R67). -/
def anyClash : List Extent → Bool
  | [] => false
  | x :: rest => rest.any (clash x) || anyClash rest

/-- The address lies in a buffer that the command writes. -/
def inWritten (es : List Extent) (a : Nat) : Bool := es.any fun e => e.written && inExtent e a

/-- Free bytes for every address of an extent (assumptions 5, 13, 14). -/
def freeCells (epoch : Nat) (e : Extent) : List Host.Cell :=
  (List.range e.size).map fun k => (e.base + k, Config.freeByte epoch (e.base + k))

/-- Free bytes for every address of the buffers that a command writes. -/
def freeOutputs (epoch : Nat) (es : List Extent) : List Host.Cell :=
  (es.filter fun e => e.written).flatMap (freeCells epoch)

/-! ### Lists of parts that must all exist -/

/-- `f` of every element, or `none` when one of them is `none`. -/
def collect {α β : Type} (f : α → Option β) : List α → Option (List β)
  | [] => some []
  | a :: rest =>
    match f a with
    | none => none
    | some b =>
      match collect f rest with
      | none => none
      | some bs => some (b :: bs)

/-- The cells of every element joined, or `none` when one element has none. -/
def collectCells {α : Type} (f : α → Option (List Host.Cell)) (l : List α) : Option (List Host.Cell) :=
  (collect f l).map List.flatten

/-- The naturals from `a` up to but excluding `b`. -/
def span (a b : Nat) : List Nat := (List.range (b - a)).map fun k => a + k

/-! ### The end of a command -/

/-- `raise E` (R312): the phase is `ERROR`, `ERR` is the code, `EMPTY` is 0, no tile is pending, and no result register
and no byte of memory is written. This is what the block has in the place of an exception (R310). -/
def raiseError (e : CmdError) (s : State) : State :=
  { s with phase := .error, empty := false, err := some e, pending := [], flight := [], spoiled := false,
           launchMem := [] }

/-- Completion (R311): the phase is `DONE`, `ERR` is 0, and `EMPTY` tells the silent degrade (R321). -/
def complete (isEmpty : Bool) (s : State) : State :=
  { s with phase := .done, empty := isEmpty, err := none, pending := [], flight := [], spoiled := false,
           launchMem := [] }

/-- Step 1 of R311: `CMD` written, the context latched (R31), `EMPTY` and `ERR` cleared, the phase `BUSY`. There is no
return from an error: a launch leaves `ERROR` exactly as it leaves `DONE` or `IDLE` (R324). -/
def latch (w : Word) (s : State) : State :=
  let r := { s.regs with cmd := w }
  { s with regs := r, ctx := r, phase := .busy, empty := false, err := none, pending := [], flight := [],
           spoiled := false, launchMem := [] }

/-- Completion of a scalar command whose result R178 leaves unspecified: `DONE` as after any other (R323), and its two
result registers hold free values (assumptions 5 and 7). -/
def completeUnspecified (s : State) : State :=
  complete false
    { s with res := { s.res with res0 := Config.freeWord s.fresh 0, res1 := Config.freeWord s.fresh 1 },
             fresh := s.fresh + 1 }

/-- Completion of a bulk command whose result is unspecified (R67, R178, R346): `DONE` as after any other (R323), and
every byte of its output buffers is free (assumptions 5 and 6). -/
def spoilOutputs (es : List Extent) (s : State) : State :=
  { s with mem := writeCells s.mem (freeOutputs s.fresh es), fresh := s.fresh + 1 }

end Sys2Proof.Machine
end

