-- ==== Sys2Proof/Machine/Flags.lean ====
section
/-! DEFINITION. The flags: the fields of `STATUS` (R24) and its value as a register (R330). -/

namespace Sys2Proof.Machine

/-- `STATUS.PHASE` as R24 codes it. -/
def phaseCode : Phase → Nat
  | .idle => 0
  | .busy => 1
  | .done => 2
  | .error => 3

/-- The error codes of R313. -/
def errorCode : CmdError → Nat
  | .illegalCommand => 1
  | .configError => 2
  | .unimplemented => 3
  | .operandError => 4
  | .addressError => 5
  | .alignError => 6

/-- `STATUS.ERR`: the code, 0 when there is none (R24, R313). -/
def errField : Option CmdError → Nat
  | none => 0
  | some e => errorCode e

/-- `STATUS` (R24): `PHASE` in bits 1:0, `EMPTY` in bit 2, `ERR` in bits 7:4, the rest 0. -/
def statusWord (s : State) : Word :=
  BitVec.ofNat 24 0 ++ BitVec.ofNat 4 (errField s.err) ++ 0#1 ++ BitVec.ofBool s.empty ++
    BitVec.ofNat 2 (phaseCode s.phase)

end Sys2Proof.Machine
end

