-- ==== Sys2Proof/Machine/Operands.lean ====
section
/-! DEFINITION. The operand forms: the constants of a width (R12), the supported block sizes and block shapes (R13,
R26), the lanes of a register (R97), float operands (R96), and the host's view of the register slots (R22, R34). -/

namespace Sys2Proof.Machine

/-! ### Widths (R12) -/

/-- `qbits`. -/
def qbits : Width → Nat
  | .q4 => 4
  | .q2 => 2
  | .q8 => 8

/-- `N = 8 / qbits`: values in a byte (R12). -/
def perByte (w : Width) : Nat := 8 / qbits w

/-- `qmax = 2^qbits - 1` (R12). -/
def qmax (w : Width) : Nat := 2 ^ qbits w - 1

/-- `mid = 2^(qbits-1)` (R12). -/
def mid (w : Width) : Nat := 2 ^ (qbits w - 1)

/-! ### Blocks (R6, R13, R26) -/

/-- The supported values of `BLKSZ` (R6). -/
def supportedBlock (b : Nat) : Bool := b == 16 || b == 32 || b == 64 || b == 128 || b == 256

/-- `block_rows` of R13. -/
def blockRows : Orient → Nat → Nat
  | .colWise, b => b
  | .rowWise, _ => 1

/-- `block_cols` of R13. -/
def blockCols : Orient → Nat → Nat
  | .colWise, _ => 1
  | .rowWise, b => b

/-! ### Lanes (R97) -/

/-- Lane `i` of a register: bits `8i+7 : 8i`. -/
def lane (v : Word) (i : Nat) : Nat := (v.toNat / 256 ^ i) % 256

/-- The first `n` lanes, slot 0 first. -/
def lanes (v : Word) (n : Nat) : List Nat := (List.range n).map (lane v)

/-- The register whose lanes are the given values, every further lane 0 (R97). -/
def fromLanes (l : List Nat) : Word := BitVec.ofNat 32 (l.foldr (fun x acc => x + 256 * acc) 0)

/-! ### Float results (R96) -/

/-- `RES0` of `R2Q`: the scale's pattern in the element type, zero-extended; `none` when narrowing overflows (R96,
R155). -/
def scaleResult (et : ElemType) (s : Flt) : Option Word := (elemBits et s).map (BitVec.ofNat 32)

/-! ### Register slots (R22, R34) -/

/-- What the host reads in slot `i`; a slot that is not implemented reads 0 (R34). -/
def readSlot (s : State) (i : Fin 32) : Word :=
  match i.val with
  | 0 => s.regs.cmd
  | 1 => statusWord s
  | 2 => s.regs.rows
  | 3 => s.regs.cols
  | 4 => s.regs.blksz
  | 5 => s.regs.ld
  | 6 => s.regs.matAddr
  | 7 => s.regs.pkAddr
  | 8 => s.regs.scAddr
  | 9 => s.regs.zpAddr
  | 10 => s.regs.opa
  | 11 => s.regs.opb
  | 12 => s.regs.opc
  | 16 => s.res.res0
  | 17 => s.res.res1
  | 18 => s.res.res2
  | 19 => s.res.res3
  | 20 => s.res.res4
  | 21 => s.res.res5
  | 22 => s.res.res6
  | _ => 0

/-- A host write to one of the slots 2 to 12; a write to any other slot is ignored (R34). Slot 0 launches and is not
written here (R23). -/
def writeSlot (r : HostRegs) (i : Fin 32) (v : Word) : HostRegs :=
  match i.val with
  | 2 => { r with rows := v }
  | 3 => { r with cols := v }
  | 4 => { r with blksz := v }
  | 5 => { r with ld := v }
  | 6 => { r with matAddr := v }
  | 7 => { r with pkAddr := v }
  | 8 => { r with scAddr := v }
  | 9 => { r with zpAddr := v }
  | 10 => { r with opa := v }
  | 11 => { r with opb := v }
  | 12 => { r with opc := v }
  | _ => r

end Sys2Proof.Machine
end

