-- ==== Sys2Proof/Machine/Geometry.lean ====
section
/-! DEFINITION. BlockGeometry (R130 to R138) and the command `GEOM` (R135). -/

namespace Sys2Proof.Machine

/-- The seven outputs of R131. -/
structure Geometry where
  metaRows : Nat
  metaCols : Nat
  qRows : Nat
  qCols : Nat
  qBytes : Nat
  scCount : Nat
  zpBytes : Nat
  deriving DecidableEq, Repr

/-- `geometry(rows, cols, block_size, qbits, cw, zpen)` of R131, over the naturals. -/
def geometry (rows cols blk : Nat) (w : Width) (o : Orient) (zpen : Bool) : Geometry :=
  let br := blockRows o blk
  let bc := blockCols o blk
  let mr := ceilDiv rows br
  let mc := ceilDiv cols bc
  let qr := ceilDiv (mr * br * qbits w) 8
  let qc := mc * bc
  { metaRows := mr
    metaCols := mc
    qRows := qr
    qCols := qc
    qBytes := qr * qc
    scCount := mr * mc
    zpBytes := if zpen then ceilDiv (mr * qbits w) 8 * mc else 0 }

/-- The least number that does not fit a register, 2^32 (R137). -/
def tooLarge : Nat := 0x100000000

/-- Every output fits a register (R137). -/
def geometryFits (g : Geometry) : Bool :=
  g.metaRows < tooLarge && g.metaCols < tooLarge && g.qRows < tooLarge && g.qCols < tooLarge &&
    g.qBytes < tooLarge && g.scCount < tooLarge && g.zpBytes < tooLarge

/-- The result registers of R135. -/
def geometryResults (g : Geometry) : Results :=
  { res0 := BitVec.ofNat 32 g.metaRows
    res1 := BitVec.ofNat 32 g.metaCols
    res2 := BitVec.ofNat 32 g.qRows
    res3 := BitVec.ofNat 32 g.qCols
    res4 := BitVec.ofNat 32 g.qBytes
    res5 := BitVec.ofNat 32 g.scCount
    res6 := BitVec.ofNat 32 g.zpBytes }

/-- The geometry of a command's context. -/
def contextGeometry (c : HostRegs) (w : Width) (o : Orient) (zpen : Bool) : Geometry :=
  geometry c.rows.toNat c.cols.toNat c.blksz.toNat w o zpen

/-- `GEOM` (R135): an unsupported block size gives seven zeros and `EMPTY` (R134), a result that does not fit gives
`ConfigError` (R137). -/
def execGeom (w : Width) (o : Orient) (zpen : Bool) (s : State) : Host.Outcome State Fault Refusal :=
  if supportedBlock s.ctx.blksz.toNat then
    let g := contextGeometry s.ctx w o zpen
    if geometryFits g then .next (complete false { s with res := geometryResults g })
    else .next (raiseError .configError s)
  else .next (complete true { s with res := Results.zero })

end Sys2Proof.Machine
end

