-- ==== Sys2Proof/Machine/Packer.lean ====
section
/-! DEFINITION. BitPacker (R185 to R191) and the commands `PACK` (R189) and `UNPACK` (R190). -/

namespace Sys2Proof.Machine

/-- The sum of R186 over the values of the slots, slot 0 first. -/
def packSum (w : Width) : List Nat → Nat
  | [] => 0
  | v :: rest => v + 2 ^ qbits w * packSum w rest

/-- `pack(values, qbits)` of R186. -/
def pack (w : Width) (values : List Nat) : Byte := BitVec.ofNat 8 (packSum w values)

/-- The value in slot `i` of a byte (R100, R187). -/
def slotOf (w : Width) (b : Byte) (i : Nat) : Nat := b.toNat / 2 ^ (i * qbits w) % 2 ^ qbits w

/-- `unpack(byte, qbits)` of R187. -/
def unpack (w : Width) (b : Byte) : List Nat := (List.range (perByte w)).map (slotOf w b)

/-- `PACK`: the used lanes of `OPA` in one byte, or `OperandError` when one of them exceeds `qmax` (R189, R191). -/
def runPack (w : Width) (s : State) : State :=
  let values := lanes s.ctx.opa (perByte w)
  if values.all (fun v => v ≤ qmax w) then
    complete false { s with res := { s.res with res0 := (pack w values).setWidth 32 } }
  else raiseError .operandError s

/-- `UNPACK`: the low byte of `OPA` in lanes (R190). -/
def runUnpack (w : Width) (s : State) : State :=
  complete false { s with res := { s.res with res0 := fromLanes (unpack w (s.ctx.opa.setWidth 8)) } }

/-- `PACK.Q4` (R189). -/
def execPackQ4 (s : State) : Host.Outcome State Fault Refusal := .next (runPack .q4 s)

/-- `PACK.Q2` (R189). -/
def execPackQ2 (s : State) : Host.Outcome State Fault Refusal := .next (runPack .q2 s)

/-- `PACK.Q8` (R189). -/
def execPackQ8 (s : State) : Host.Outcome State Fault Refusal := .next (runPack .q8 s)

/-- `UNPACK.Q4` (R190). -/
def execUnpackQ4 (s : State) : Host.Outcome State Fault Refusal := .next (runUnpack .q4 s)

/-- `UNPACK.Q2` (R190). -/
def execUnpackQ2 (s : State) : Host.Outcome State Fault Refusal := .next (runUnpack .q2 s)

/-- `UNPACK.Q8` (R190). -/
def execUnpackQ8 (s : State) : Host.Outcome State Fault Refusal := .next (runUnpack .q8 s)

end Sys2Proof.Machine
end

