-- ==== Sys2Proof/Machine/Layout.lean ====
section
/-! DEFINITION. Where the tiles of a bulk command find and leave their bytes, as plain data: the element addresses of R65,
the layouts R101 to R106, and the tile decompositions of R203, R236, R254 and R283. What is done with them is in
Machine/Tiles.lean. -/

namespace Sys2Proof.Machine

/-! ### What a tile is made of -/

/-- A block of a quantizing tile: where its scale goes, and the addresses of its elements in scan order (R159). -/
structure Block where
  scaleAddr : Nat
  elems : List Nat
  deriving DecidableEq, Repr

/-- What one slot of a packed byte holds. Blocks are numbered within the tile. -/
inductive Slot where
  /-- The code of the element at an address, under a block's scale and zero point. -/
  | elem (addr blk : Nat)
  /-- The code of the value 0.0 under a block's scale and zero point (R284). -/
  | zeroCode (blk : Nat)
  /-- A block's zero point itself (R210). -/
  | zeroPoint (blk : Nat)
  deriving DecidableEq, Repr

/-- A tile of a quantizing command. `accs` is how many zero-point accumulators it has (R37); a zero-point byte names the
accumulators in its slots, a data byte what its slots hold. -/
structure QuantTile where
  accs : Nat
  blocks : List Block
  zpBytes : List (Nat × List Nat)
  dataBytes : List (Nat × List Slot)
  deriving DecidableEq, Repr

/-- Where a dequantized element takes its zero point from. -/
inductive ZpSource where
  /-- The implied 8 (R235, R287). -/
  | implied
  /-- A nibble of a byte (R234). -/
  | nibble (addr slot : Nat)
  /-- A whole byte, 0 to 255 (R287). -/
  | byte (addr : Nat)
  deriving DecidableEq, Repr

/-- One element of a dequantizing tile (R234, R287). -/
structure DeqElem where
  dst : Nat
  codeAddr : Nat
  codeSlot : Nat
  scaleAddr : Nat
  zp : ZpSource
  deriving DecidableEq, Repr

/-- The work of one tile. -/
inductive TileWork where
  | quant (t : QuantTile)
  | deq (l : List DeqElem)
  deriving DecidableEq, Repr

/-! ### Addresses (R65) -/

/-- Element `(row, col)` of the row-major Matrix (R65). -/
def rowMajorAddr (c : HostRegs) (e row col : Nat) : Nat :=
  c.matAddr.toNat + (row * c.ld.toNat + col) * e

/-- Element `(row, col)` of the column-major Matrix of `DQT` (R65, R233). -/
def colMajorAddr (c : HostRegs) (e row col : Nat) : Nat :=
  c.matAddr.toNat + (col * c.rows.toNat + row) * e

/-- Scale `k` of the ScaleBuffer (R65). -/
def scaleAddr (c : HostRegs) (e k : Nat) : Nat := c.scAddr.toNat + k * e

/-- Byte `k` of the PackedBuffer (R65). -/
def packedAddr (c : HostRegs) (k : Nat) : Nat := c.pkAddr.toNat + k

/-- Byte `k` of the ZeroPointBuffer (R65). -/
def zpByteAddr (c : HostRegs) (k : Nat) : Nat := c.zpAddr.toNat + k

/-- The tiles of a grid of `rows` by `cols`. -/
def tileGrid (rows cols : Nat) : List Tile :=
  (List.range rows).flatMap fun r => (List.range cols).map fun k => { r := r, c := k }

/-! ### The transposed layout (R203 to R206, R234, R236) -/

/-- The source rows and columns of a tile of `QT` or `DQT` (R203): `r0`, `r1`, `c0`, `c1`. -/
structure TileBounds where
  r0 : Nat
  r1 : Nat
  c0 : Nat
  c1 : Nat
  deriving DecidableEq, Repr

/-- The bounds of R203: `2 * block_rows` rows by `block_cols` columns, cut at the matrix edge. -/
def transposedBounds (c : HostRegs) (o : Orient) (t : Tile) : TileBounds :=
  let br := blockRows o c.blksz.toNat
  let bc := blockCols o c.blksz.toNat
  { r0 := t.r * (2 * br)
    r1 := min (t.r * (2 * br) + 2 * br) c.rows.toNat
    c0 := t.c * bc
    c1 := min (t.c * bc + bc) c.cols.toNat }

/-- The tile set of R203 and R236: `t_r` by `t_c` tiles. -/
def transposedTiles (c : HostRegs) (o : Orient) : List Tile :=
  tileGrid (ceilDiv c.rows.toNat (2 * blockRows o c.blksz.toNat)) (ceilDiv c.cols.toNat (blockCols o c.blksz.toNat))

/-- Byte index of the code of `(row, col)` (R101). -/
def transposedByte (c : HostRegs) (o : Orient) (row col : Nat) : Nat :=
  col * (contextGeometry c .q4 o true).qRows + row / 2

/-- Scale index of block `(mr, mc)` (R103). -/
def transposedScale (c : HostRegs) (o : Orient) (mr mc : Nat) : Nat :=
  mc * (contextGeometry c .q4 o true).metaRows + mr

/-- Zero-point byte index of block `(mr, mc)` (R102). -/
def transposedZp (c : HostRegs) (o : Orient) (mr mc : Nat) : Nat :=
  mc * ceilDiv (contextGeometry c .q4 o true).metaRows 2 + mr / 2

/-- Sub-block `k` of a tile (R203, R204): its rows are `r0 + k*block_rows` up to `min(r0 + (k+1)*block_rows, r1)`. -/
def qtBlock (c : HostRegs) (o : Orient) (et : ElemType) (t : Tile) (k : Nat) : Block :=
  let br := blockRows o c.blksz.toNat
  let b := transposedBounds c o t
  { scaleAddr := scaleAddr c (esz et) (transposedScale c o (2 * t.r + k) t.c)
    elems := (span (b.r0 + k * br) (min (b.r0 + (k + 1) * br) b.r1)).flatMap fun row =>
      (span b.c0 b.c1).map fun col => rowMajorAddr c (esz et) row col }

/-- A tile of `QT` (R203 to R206). Sub-block 1 is absent when its row range is empty; its accumulator then stays at
`mid` (R209). -/
def qtTile (c : HostRegs) (asym : Bool) (o : Orient) (et : ElemType) (t : Tile) : QuantTile :=
  let br := blockRows o c.blksz.toNat
  let b := transposedBounds c o t
  let code := fun row col => Slot.elem (rowMajorAddr c (esz et) row col) (row / br % 2)
  { accs := 2
    blocks := if b.r0 + br < b.r1 then [qtBlock c o et t 0, qtBlock c o et t 1] else [qtBlock c o et t 0]
    zpBytes := if asym then [(zpByteAddr c (transposedZp c o (2 * t.r) t.c), [0, 1])] else []
    dataBytes := (span b.c0 b.c1).flatMap fun col =>
      (List.range (ceilDiv (b.r1 - b.r0) 2)).map fun p =>
        let row := b.r0 + 2 * p
        (packedAddr c (transposedByte c o row col),
          [code row col, if row + 1 < b.r1 then code (row + 1) col else Slot.zeroPoint (row / br % 2)]) }

/-- One element of a `DQT` tile (R234). -/
def dqtElem (c : HostRegs) (asym : Bool) (o : Orient) (et : ElemType) (row col : Nat) : DeqElem :=
  let mr := row / blockRows o c.blksz.toNat
  let mc := col / blockCols o c.blksz.toNat
  { dst := colMajorAddr c (esz et) row col
    codeAddr := packedAddr c (transposedByte c o row col)
    codeSlot := row % 2
    scaleAddr := scaleAddr c (esz et) (transposedScale c o mr mc)
    zp := if asym then .nibble (zpByteAddr c (transposedZp c o mr mc)) (mr % 2) else .implied }

/-- A tile of `DQT` (R236). -/
def dqtTile (c : HostRegs) (asym : Bool) (o : Orient) (et : ElemType) (t : Tile) : List DeqElem :=
  let b := transposedBounds c o t
  (span b.c0 b.c1).flatMap fun col => (span b.r0 b.r1).map fun row => dqtElem c asym o et row col

/-! ### The row-major layout (R104, R254 to R257) -/

/-- Columns in a tile of `QDQC` (R254). -/
def qdqTileCols : Nat := 16

/-- The bounds of R254: `block_size` rows by 16 columns, cut at the matrix edge. -/
def rowMajorBounds (c : HostRegs) (t : Tile) : TileBounds :=
  { r0 := t.r * c.blksz.toNat
    r1 := min (t.r * c.blksz.toNat + c.blksz.toNat) c.rows.toNat
    c0 := qdqTileCols * t.c
    c1 := min (qdqTileCols * t.c + qdqTileCols) c.cols.toNat }

/-- The tile set of R254. -/
def rowMajorTiles (c : HostRegs) : List Tile :=
  tileGrid (ceilDiv c.rows.toNat c.blksz.toNat) (ceilDiv c.cols.toNat qdqTileCols)

/-- The block of one column of a `QDQC` tile (R255). -/
def qdqcBlock (c : HostRegs) (et : ElemType) (t : Tile) (col : Nat) : Block :=
  let b := rowMajorBounds c t
  { scaleAddr := scaleAddr c (esz et) (t.r * c.cols.toNat + col)
    elems := (span b.r0 b.r1).map fun row => rowMajorAddr c (esz et) row col }

/-- A tile of `QDQC` (R254 to R257): one block per column, and column groups of `N` columns share a byte. -/
def qdqcTile (c : HostRegs) (w : Width) (asym : Bool) (et : ElemType) (t : Tile) : QuantTile :=
  let b := rowMajorBounds c t
  let n := perByte w
  let cols := c.cols.toNat
  let groups := span (b.c0 / n) (b.c1 / n)
  { accs := b.c1 - b.c0
    blocks := (span b.c0 b.c1).map (qdqcBlock c et t)
    zpBytes :=
      if asym then
        groups.map fun g =>
          (zpByteAddr c ((t.r * cols + g * n) / n), (List.range n).map fun i => g * n + i - b.c0)
      else []
    dataBytes := (span b.r0 b.r1).flatMap fun row =>
      groups.map fun g =>
        (packedAddr c ((row * cols + g * n) / n),
          (List.range n).map fun i =>
            Slot.elem (rowMajorAddr c (esz et) row (g * n + i)) (g * n + i - b.c0)) }

/-! ### The legacy layout (R106, R276 to R287) -/

/-- The legacy variants of R276. -/
inductive Legacy where
  | s32
  | s64
  | s128
  | a32
  deriving DecidableEq, Repr

/-- `BlkLen` (R276). -/
def blkLen : Legacy → Nat
  | .s32 => 32
  | .s64 => 64
  | .s128 => 128
  | .a32 => 32

/-- The asymmetric variant (R276). -/
def legacyAsym : Legacy → Bool
  | .s32 => false
  | .s64 => false
  | .s128 => false
  | .a32 => true

/-- `z`: zero-point bytes in a blob (R276). -/
def legacyZ (v : Legacy) : Nat := if legacyAsym v then 1 else 0

/-- `blob = 4 + z + BlkLen / 2` (R277). -/
def blobSize (v : Legacy) : Nat := 4 + legacyZ v + blkLen v / 2

/-- `kblocks = ceil(K / BlkLen)` (R277). -/
def kBlocks (c : HostRegs) (v : Legacy) : Nat := ceilDiv c.rows.toNat (blkLen v)

/-- Where the blob of block `kb` of column `n` starts (R106, R281). -/
def blobBase (c : HostRegs) (v : Legacy) (n kb : Nat) : Nat :=
  c.pkAddr.toNat + (n * kBlocks c v + kb) * blobSize v

/-- `klen`: how many elements block `kb` has (R278). -/
def blockLen (c : HostRegs) (v : Legacy) (kb : Nat) : Nat := min (blkLen v) (c.rows.toNat - kb * blkLen v)

/-- Where the data bytes of a blob start (R106, R282). -/
def blobData (c : HostRegs) (v : Legacy) (n kb : Nat) : Nat := blobBase c v n kb + 4 + legacyZ v

/-- The tile set of R283: one tile `(n, kb)` per block. -/
def legacyTiles (c : HostRegs) (v : Legacy) : List Tile := tileGrid c.cols.toNat (kBlocks c v)

/-- A tile of `LPACK` (R281, R282): chunks that hold a real element are written, padding in them is the code of 0.0
(R284), other chunks are left alone (R291). -/
def lpackTile (c : HostRegs) (v : Legacy) (t : Tile) : QuantTile :=
  let k0 := t.c * blkLen v
  let klen := blockLen c v t.c
  let code := fun j => if j < klen then Slot.elem (rowMajorAddr c 4 (k0 + j) t.r) 0 else Slot.zeroCode 0
  { accs := 1
    blocks := [{ scaleAddr := blobBase c v t.r t.c
                 elems := (span k0 (k0 + klen)).map fun k => rowMajorAddr c 4 k t.r }]
    zpBytes := if legacyAsym v then [(blobBase c v t.r t.c + 4, [0])] else []
    dataBytes := (List.range (ceilDiv klen 32)).flatMap fun ch =>
      (List.range 16).map fun l => (blobData c v t.r t.c + 16 * ch + l, [code (32 * ch + l), code (32 * ch + l + 16)]) }

/-- One element of a `LUNPACK` tile (R287): `j` is its position in the block. -/
def lunpackElem (c : HostRegs) (v : Legacy) (n kb j : Nat) : DeqElem :=
  { dst := rowMajorAddr c 4 (kb * blkLen v + j) n
    codeAddr := blobData c v n kb + 16 * (j / 32) + j % 16
    codeSlot := j % 32 / 16
    scaleAddr := blobBase c v n kb
    zp := if legacyAsym v then .byte (blobBase c v n kb + 4) else .implied }

/-- A tile of `LUNPACK` (R283): the elements its block has. -/
def lunpackTile (c : HostRegs) (v : Legacy) (t : Tile) : List DeqElem :=
  (List.range (blockLen c v t.c)).map fun j => lunpackElem c v t.r t.c j

end Sys2Proof.Machine
end

