-- ==== Sys2Proof/Machine/Range.lean ====
section
/-! DEFINITION. RangeToQuantParam (R150 to R161) and the commands `R2Q.S` (R162) and `R2Q.A` (R163). `none` is the
non-finite case of R178. -/

namespace Sys2Proof.Machine

/-- `rcp(scale)` of R151: 0 for either zero, else 1/scale. -/
def rcp (scale : Flt) : Option Flt := if isZero scale then some (ofNat 0) else fdiv (ofNat 1) scale

/-- `range2scale(min, max, qbits)` of R152. -/
def range2scale (lo hi : Flt) (w : Width) : Option Flt :=
  let v := if ltF (fabs hi) (fabs lo) then lo else hi
  fdiv v (fneg (ofNat (mid w)))

/-- `range2scalezp(min, max, qbits)` of R153. -/
def range2scalezp (lo hi : Flt) (w : Width) : Option (Flt × Nat) :=
  let lo' := minF lo (ofNat 0)
  let hi' := maxF hi (ofNat 0)
  match fsub hi' lo' with
  | none => none
  | some range =>
    match fdiv range (ofNat (qmax w)) with
    | none => none
    | some scale =>
      match (if isZero scale then some lo' else fdiv (fneg lo') scale) with
      | none => none
      | some zf =>
        let zc := clampF zf (ofNat 0) (ofNat (qmax w))
        some (scale, toNat (roundAway zc))

/-- The scale and zero point of a range: R153 when a zero-points buffer is present, else R152 with the implied zero point
`mid` of R161. -/
def quantParams (asym : Bool) (w : Width) (lo hi : Flt) : Option (Flt × Nat) :=
  if asym then range2scalezp lo hi w else (range2scale lo hi w).map fun s => (s, mid w)

/-- The block scan of R159: both ends start at the first element, and only a strictly smaller or larger element
replaces one. -/
def scanStep (p : Flt × Flt) (x : Flt) : Flt × Flt :=
  (if ltF x p.1 then x else p.1, if ltF p.2 x then x else p.2)

/-- `(min, max)` of a block's elements in scan order (R159); a block with no element has none. -/
def blockScan : List Flt → Option (Flt × Flt)
  | [] => none
  | x :: rest => some (rest.foldl scanStep (x, x))

/-- The two results of `R2Q`: `RES0` the scale in the element type, `RES1` the zero point (R96, R162, R163). -/
def rangeResults (asym : Bool) (w : Width) (et : ElemType) (lo hi : Word) : Option (Word × Word) :=
  match f32 lo, f32 hi with
  | some a, some b =>
    match quantParams asym w a b with
    | none => none
    | some (scale, zp) => (scaleResult et scale).map fun r => (r, BitVec.ofNat 32 zp)
  | _, _ => none

/-- `R2Q`: the results of the context's `OPA` (min) and `OPB` (max); a non-finite value leaves them unspecified
(R178). -/
def runRange (asym : Bool) (w : Width) (et : ElemType) (s : State) : State :=
  match rangeResults asym w et s.ctx.opa s.ctx.opb with
  | some (r0, r1) => complete false { s with res := { s.res with res0 := r0, res1 := r1 } }
  | none => completeUnspecified s

/-- `R2Q.S` (R162). -/
def execR2qS (w : Width) (et : ElemType) (s : State) : Host.Outcome State Fault Refusal :=
  .next (runRange false w et s)

/-- `R2Q.A` (R163). -/
def execR2qA (w : Width) (et : ElemType) (s : State) : Host.Outcome State Fault Refusal :=
  .next (runRange true w et s)

end Sys2Proof.Machine
end

