-- ==== Sys2Proof/Machine/Normalizer.lean ====
section
/-! DEFINITION. The fixed-point normaliser (R170 to R178), the two legacy mappings (R285, R286), and the command `NORM`
(R176). `none` is the non-finite case of R178. -/

namespace Sys2Proof.Machine

/-- The code of R171 from the reciprocal scale: the product rounded, then the sum rounded, then rounded away from zero
and clamped. -/
def quantizeWith (v rs : Flt) (zp : Nat) (w : Width) : Option Nat :=
  match fmul v rs with
  | none => none
  | some p =>
    match fadd p (ofNat zp) with
    | none => none
    | some x => some (toNat (clampF (roundAway x) (ofNat 0) (ofNat (qmax w))))

/-- `quantize(v, scale, zp, qbits)` of R171. -/
def quantize (v scale : Flt) (zp : Nat) (w : Width) : Option Nat :=
  match rcp scale with
  | none => none
  | some rs => quantizeWith v rs zp w

/-- The legacy symmetric mapping of R285: add 8.5, clamp, truncate. -/
def legacySymCode (v rs : Flt) : Option Nat :=
  match fmul v rs with
  | none => none
  | some p => (fadd p eightAndAHalf).map fun x => toNat (truncate (clampF x (ofNat 0) (ofNat 15)))

/-- The legacy asymmetric mapping of R286: rounded before the zero point is added. -/
def legacyAsymCode (v rs : Flt) (zp : Nat) : Option Nat :=
  match fmul v rs with
  | none => none
  | some p => (fadd (roundAway p) (ofNat zp)).map fun x => toNat (clampF x (ofNat 0) (ofNat 15))

/-- The two results of `NORM`: the code and the reciprocal scale (R96, R176). -/
def normResults (w : Width) (v scale : Word) (zp : Nat) : Option (Word × Word) :=
  match f32 v, f32 scale with
  | some a, some b =>
    match rcp b, quantize a b zp w with
    | some rs, some code => some (BitVec.ofNat 32 code, bits32 rs)
    | _, _ => none
  | _, _ => none

/-- `NORM` (R176): a zero point above `qmax` is an `OperandError` (R177); a non-finite value leaves the results
unspecified (R178). -/
def execNorm (w : Width) (s : State) : Host.Outcome State Fault Refusal :=
  if qmax w < s.ctx.opc.toNat then .next (raiseError .operandError s)
  else
    match normResults w s.ctx.opa s.ctx.opb s.ctx.opc.toNat with
    | some (r0, r1) => .next (complete false { s with res := { s.res with res0 := r0, res1 := r1 } })
    | none => .next (completeUnspecified s)

end Sys2Proof.Machine
end

