-- ==== Sys2Proof/Machine/Tiles.lean ====
section
/-! DEFINITION. What a tile computes: parameters, zero-point bytes and codes of a quantizing tile (R204 to R206, R255 to
R257, R281, R282), elements of a dequantizing one (R234, R287). Each part is a function to the bytes it writes, so that
a tile done at once and a tile done step by step use the same text. `none` is the non-finite case of R178. -/

namespace Sys2Proof.Machine

/-- Which float-to-code mapping a command uses (R171, R285, R286). -/
inductive Mapping where
  | general
  | legacySym
  | legacyAsym
  deriving DecidableEq, Repr

/-- What the quantizing of every tile of a command has in common. -/
structure QuantMode where
  width : Width
  asym : Bool
  et : ElemType
  mapping : Mapping
  deriving DecidableEq, Repr

/-- A block's scale as computed (R152, R153) and its zero point. -/
structure BlockParam where
  scale : Flt
  zp : Nat
  deriving DecidableEq, Repr

/-- The parameters of a block whose elements `elem` gives (R159, R204). -/
def blockParam (q : QuantMode) (elem : Nat → Option Flt) (b : Block) : Option BlockParam :=
  match collect elem b.elems with
  | none => none
  | some xs =>
    match blockScan xs with
    | none => none
    | some (lo, hi) => (quantParams q.asym q.width lo hi).map fun p => { scale := p.1, zp := p.2 }

/-- The reciprocal of a block's scale as stored (R70, R155, R174). -/
def storedRecip (q : QuantMode) (p : BlockParam) : Option Flt :=
  match elemRound q.et p.scale with
  | none => none
  | some s => rcp s

/-- The zero-point accumulators after the blocks present have set theirs; the rest stay at `mid` (R209). -/
def accumulators (q : QuantMode) (t : QuantTile) (ps : List BlockParam) : List Nat :=
  ps.map (fun p => p.zp) ++ List.replicate (t.accs - ps.length) (mid q.width)

/-- The scale bytes of a tile (R204, R255, R281). -/
def scaleCells (q : QuantMode) : List Block → List BlockParam → Option (List Host.Cell)
  | b :: bs, p :: ps =>
    match elemCells q.et b.scaleAddr p.scale with
    | none => none
    | some cells => (scaleCells q bs ps).map fun rest => cells ++ rest
  | _, _ => some []

/-- The zero-point bytes of a tile (R205, R256, R281). -/
def zpCells (q : QuantMode) (t : QuantTile) (zacc : List Nat) : List Host.Cell :=
  t.zpBytes.map fun z => (z.1, pack q.width (z.2.map fun k => zacc.getD k (mid q.width)))

/-- The code of a value under the command's mapping (R171, R285, R286). -/
def codeOf (q : QuantMode) (v rs : Flt) (zp : Nat) : Option Nat :=
  match q.mapping with
  | .general => quantizeWith v rs zp q.width
  | .legacySym => legacySymCode v rs
  | .legacyAsym => legacyAsymCode v rs zp

/-- What a slot holds (R206, R210, R257, R282, R284). -/
def slotValue (q : QuantMode) (elem : Nat → Option Flt) (rs : List Flt) (zacc : List Nat) : Slot → Option Nat
  | .elem a k =>
    match elem a, rs[k]? with
    | some v, some r => codeOf q v r (zacc.getD k (mid q.width))
    | _, _ => none
  | .zeroCode k =>
    match rs[k]? with
    | some r => codeOf q (ofNat 0) r (zacc.getD k (mid q.width))
    | none => none
  | .zeroPoint k => some (zacc.getD k (mid q.width))

/-- One packed byte of a tile (R206, R257, R282). -/
def dataCell (q : QuantMode) (elem : Nat → Option Flt) (rs : List Flt) (zacc : List Nat) (d : Nat × List Slot) :
    Option Host.Cell :=
  (collect (slotValue q elem rs zacc) d.2).map fun values => (d.1, pack q.width values)

/-- The packed bytes of a tile. -/
def dataCells (q : QuantMode) (elem : Nat → Option Flt) (rs : List Flt) (zacc : List Nat) (t : QuantTile) :
    Option (List Host.Cell) :=
  collect (dataCell q elem rs zacc) t.dataBytes

/-- All bytes a quantizing tile writes, from the elements alone (R73): scales, zero points, codes. -/
def quantTileCells (q : QuantMode) (elem : Nat → Option Flt) (t : QuantTile) : Option (List Host.Cell) :=
  match collect (blockParam q elem) t.blocks with
  | none => none
  | some ps =>
    match scaleCells q t.blocks ps, collect (storedRecip q) ps with
    | some sc, some rs =>
      let zacc := accumulators q t ps
      (dataCells q elem rs zacc t).map fun d => sc ++ zpCells q t zacc ++ d
    | _, _ => none

/-- The zero point of a dequantized element (R234, R235, R287). -/
def zpOf (m : Memory) : ZpSource → Nat
  | .implied => 8
  | .nibble a k => slotOf .q4 (readByte m a) k
  | .byte a => (readByte m a).toNat

/-- The value of a dequantized element: `(code - zero point) * scale` (R234, R287). -/
def deqValue (et : ElemType) (m : Memory) (d : DeqElem) : Option Flt :=
  match elemRead et m d.scaleAddr with
  | none => none
  | some s =>
    match fsub (ofNat (slotOf .q4 (readByte m d.codeAddr) d.codeSlot)) (ofNat (zpOf m d.zp)) with
    | none => none
    | some x => fmul x s

/-- The bytes of a dequantized element (R234, R240, R287). -/
def deqCells (et : ElemType) (m : Memory) (d : DeqElem) : Option (List Host.Cell) :=
  match deqValue et m d with
  | none => none
  | some x => elemCells et d.dst x

/-- All bytes a tile writes, as a function of the memory it starts from (R73). -/
def tileCells (q : QuantMode) (m : Memory) : TileWork → Option (List Host.Cell)
  | .quant t => quantTileCells q (elemRead q.et m) t
  | .deq l => collectCells (deqCells q.et m) l

end Sys2Proof.Machine
end

