-- ==== Sys2Proof/Machine/Bulk.lean ====
section
/-! DEFINITION. The bulk commands in common: the checks in the order of R319, the extents of R66, the tiles, the result
as a function of registers and memory (R73), and the running of a command as a whole or tile by tile (R75, R311). -/

namespace Sys2Proof.Machine

/-- A bulk command with its free fields. -/
inductive Job where
  | qt (asym : Bool) (o : Orient) (et : ElemType)
  | dqt (asym : Bool) (o : Orient) (et : ElemType)
  | qdqc (asym : Bool) (w : Width) (et : ElemType)
  | lpack (v : Legacy)
  | lunpack (v : Legacy)
  deriving DecidableEq, Repr

/-- The bulk command of an instruction; the scalar commands and `QDQR` have none. -/
def jobOf : Instr → Option Job
  | .qtS o et => some (.qt false o et)
  | .qtA o et => some (.qt true o et)
  | .dqtS o et => some (.dqt false o et)
  | .dqtA o et => some (.dqt true o et)
  | .qdqcS w et => some (.qdqc false w et)
  | .qdqcA w et => some (.qdqc true w et)
  | .lpackS32 => some (.lpack .s32)
  | .lpackS64 => some (.lpack .s64)
  | .lpackS128 => some (.lpack .s128)
  | .lpackA32 => some (.lpack .a32)
  | .lunpackS32 => some (.lunpack .s32)
  | .lunpackS64 => some (.lunpack .s64)
  | .lunpackS128 => some (.lunpack .s128)
  | .lunpackA32 => some (.lunpack .a32)
  | .geom _ _ _ => none
  | .r2qS _ _ => none
  | .r2qA _ _ => none
  | .norm _ => none
  | .packQ4 => none
  | .packQ2 => none
  | .packQ8 => none
  | .unpackQ4 => none
  | .unpackQ2 => none
  | .unpackQ8 => none
  | .qdqr _ _ _ => none

/-- Width, mode, element type and mapping of a command. -/
def jobMode : Job → QuantMode
  | .qt asym _ et => { width := .q4, asym := asym, et := et, mapping := .general }
  | .dqt asym _ et => { width := .q4, asym := asym, et := et, mapping := .general }
  | .qdqc asym w et => { width := w, asym := asym, et := et, mapping := .general }
  | .lpack v =>
    { width := .q4, asym := legacyAsym v, et := .f32,
      mapping := if legacyAsym v then .legacyAsym else .legacySym }
  | .lunpack v => { width := .q4, asym := legacyAsym v, et := .f32, mapping := .general }

/-! ### The checks (R319) -/

/-- Test 4 of R319: the command takes its block size from `BLKSZ` and the size is not supported. -/
def jobEmpty (j : Job) (c : HostRegs) : Bool :=
  match j with
  | .qt _ _ _ => !supportedBlock c.blksz.toNat
  | .dqt _ _ _ => !supportedBlock c.blksz.toNat
  | .qdqc _ _ _ => !supportedBlock c.blksz.toNat
  | .lpack _ => false
  | .lunpack _ => false

/-- `rows * cols / N` bytes of packed codes (R252). -/
def qdqPackedBytes (c : HostRegs) (w : Width) : Nat := c.rows.toNat * c.cols.toNat / perByte w

/-- `ceil(rows / block_size) * cols` scales (R252). -/
def qdqScales (c : HostRegs) : Nat := ceilDiv c.rows.toNat c.blksz.toNat * c.cols.toNat

/-- `ceil(rows / block_size) * cols / N` zero-point bytes, none without a zero-points buffer (R252). -/
def qdqZpBytes (c : HostRegs) (w : Width) (asym : Bool) : Nat := if asym then qdqScales c / perByte w else 0

/-- The legacy packed buffer in bytes (R277). -/
def legacyBytes (c : HostRegs) (v : Legacy) : Nat := c.cols.toNat * kBlocks c v * blobSize v

/-- Test 5 of R319: a cause of R315. The ScaleBuffer's size is its number of elements, as R252 gives it (DEDUCED,
assumption 16). -/
def jobConfigError (j : Job) (c : HostRegs) : Bool :=
  match j with
  | .qt asym o _ => !geometryFits (contextGeometry c .q4 o asym)
  | .dqt asym o _ => !geometryFits (contextGeometry c .q4 o asym)
  | .qdqc asym w _ =>
    c.cols.toNat % perByte w != 0 || tooLarge ≤ qdqPackedBytes c w || tooLarge ≤ qdqScales c ||
      tooLarge ≤ qdqZpBytes c w asym
  | .lpack v => tooLarge ≤ legacyBytes c v
  | .lunpack v =>
    tooLarge ≤ legacyBytes c v ||
      (c.ld.toNat < c.cols.toNat && 2 ≤ c.rows.toNat && 1 ≤ c.cols.toNat)

/-- Test 6 of R319: a misaligned floating-point buffer (R64, R316). -/
def jobMisaligned (j : Job) (c : HostRegs) : Bool :=
  match j with
  | .qt _ _ et => c.matAddr.toNat % esz et != 0 || c.scAddr.toNat % esz et != 0
  | .dqt _ _ et => c.matAddr.toNat % esz et != 0 || c.scAddr.toNat % esz et != 0
  | .qdqc _ _ et => c.matAddr.toNat % esz et != 0 || c.scAddr.toNat % esz et != 0
  | .lpack _ => c.matAddr.toNat % 4 != 0
  | .lunpack _ => c.matAddr.toNat % 4 != 0

/-- The size of the row-major Matrix in bytes (R66). -/
def rowMajorBytes (c : HostRegs) (e : Nat) : Nat :=
  if c.rows.toNat = 0 ∨ c.cols.toNat = 0 then 0
  else ((c.rows.toNat - 1) * c.ld.toNat + c.cols.toNat) * e

/-- The extents of the buffers a command uses (R66), and which of them it writes (R28). The ZeroPointBuffer is used only
when it is present. -/
def jobExtents (j : Job) (c : HostRegs) : List Extent :=
  let mat := c.matAddr.toNat
  let pk := c.pkAddr.toNat
  let sc := c.scAddr.toNat
  let zp := c.zpAddr.toNat
  match j with
  | .qt asym o et =>
    let g := contextGeometry c .q4 o asym
    [⟨mat, rowMajorBytes c (esz et), false⟩, ⟨pk, g.qBytes, true⟩, ⟨sc, g.scCount * esz et, true⟩] ++
      if asym then [⟨zp, g.zpBytes, true⟩] else []
  | .dqt asym o et =>
    let g := contextGeometry c .q4 o asym
    [⟨mat, c.rows.toNat * c.cols.toNat * esz et, true⟩, ⟨pk, g.qBytes, false⟩, ⟨sc, g.scCount * esz et, false⟩] ++
      if asym then [⟨zp, g.zpBytes, false⟩] else []
  | .qdqc asym w et =>
    [⟨mat, rowMajorBytes c (esz et), false⟩, ⟨pk, qdqPackedBytes c w, true⟩, ⟨sc, qdqScales c * esz et, true⟩] ++
      if asym then [⟨zp, qdqZpBytes c w asym, true⟩] else []
  | .lpack v => [⟨mat, rowMajorBytes c 4, false⟩, ⟨pk, legacyBytes c v, true⟩]
  | .lunpack v => [⟨mat, rowMajorBytes c 4, true⟩, ⟨pk, legacyBytes c v, false⟩]

/-- The error a bulk launch ends in, if it does: tests 5, 6 and 7 of R319 in that order. -/
def jobError (j : Job) (c : HostRegs) (memBytes : Nat) : Option CmdError :=
  if jobConfigError j c then some .configError
  else if jobMisaligned j c then some .alignError
  else if (jobExtents j c).all (extentFits memBytes) then none
  else some .addressError

/-! ### The tiles -/

/-- The tile set of a command (R203, R236, R254, R283). -/
def jobTiles (j : Job) (c : HostRegs) : List Tile :=
  match j with
  | .qt _ o _ => transposedTiles c o
  | .dqt _ o _ => transposedTiles c o
  | .qdqc _ _ _ => rowMajorTiles c
  | .lpack v => legacyTiles c v
  | .lunpack v => legacyTiles c v

/-- The work of one tile. -/
def jobWork (j : Job) (c : HostRegs) (t : Tile) : TileWork :=
  match j with
  | .qt asym o et => .quant (qtTile c asym o et t)
  | .dqt asym o et => .deq (dqtTile c asym o et t)
  | .qdqc asym w et => .quant (qdqcTile c w asym et t)
  | .lpack v => .quant (lpackTile c v t)
  | .lunpack v => .deq (lunpackTile c v t)

/-- The bytes one tile writes, from the memory at launch (R73). -/
def jobTileCells (j : Job) (c : HostRegs) (m : Memory) (t : Tile) : Option (List Host.Cell) :=
  tileCells (jobMode j) m (jobWork j c t)

/-- The bytes a command writes, from its context and the memory at launch (R73); `none` when its result is unspecified:
two of its buffers clash (R67), or a value is not finite (R178). -/
def jobResult (j : Job) (c : HostRegs) (m : Memory) : Option (List Host.Cell) :=
  if anyClash (jobExtents j c) then none else collectCells (jobTileCells j c m) (jobTiles j c)

/-! ### Running -/

/-- Steps 3 and 4 of R311 as one step: every tile performed, then `DONE`. -/
def performAll (j : Job) (s : State) : State :=
  match jobResult j s.ctx s.mem with
  | some cells => complete false { s with mem := writeCells s.mem cells }
  | none => complete false (spoilOutputs (jobExtents j s.ctx) s)

/-- The beginning of step 3 of R311: every tile pending, none in flight, the phase `BUSY`. -/
def dispatchTiles (j : Job) (s : State) : State :=
  { s with phase := .busy, empty := false, err := none, pending := jobTiles j s.ctx, flight := [],
           spoiled := (jobResult j s.ctx s.mem).isNone, launchMem := s.mem }

/-- A bulk command (R311): the silent degrade (R321), the checks of R319, then the tiles, in one step or one by one as
R75 allows. -/
def runBulk (j : Job) (s : State) : State :=
  if jobEmpty j s.ctx then complete true s
  else
    match jobError j s.ctx s.plat.memBytes with
    | some e => raiseError e s
    | none =>
      match s.grain with
      | .atomic => performAll j s
      | .tiled => dispatchTiles j s

end Sys2Proof.Machine
end

