-- ==== Sys2Proof/Machine/Dequantizer.lean ====
section
/-! DEFINITION. The block dequantizer: `DQT.S` and `DQT.A` (R231). -/

namespace Sys2Proof.Machine

/-- `DQT.S` (R231, R235). -/
def execDqtS (o : Orient) (et : ElemType) (s : State) : Host.Outcome State Fault Refusal :=
  .next (runBulk (.dqt false o et) s)

/-- `DQT.A` (R231). -/
def execDqtA (o : Orient) (et : ElemType) (s : State) : Host.Outcome State Fault Refusal :=
  .next (runBulk (.dqt true o et) s)

end Sys2Proof.Machine
end

