-- ==== Sys2Proof/Machine/Legacy.lean ====
section
/-! DEFINITION. The legacy GEMM-B packers (R279) and unpackers (R280). -/

namespace Sys2Proof.Machine

/-- `LPACK.S32` (R279). -/
def execLpackS32 (s : State) : Host.Outcome State Fault Refusal := .next (runBulk (.lpack .s32) s)

/-- `LPACK.S64` (R279). -/
def execLpackS64 (s : State) : Host.Outcome State Fault Refusal := .next (runBulk (.lpack .s64) s)

/-- `LPACK.S128` (R279). -/
def execLpackS128 (s : State) : Host.Outcome State Fault Refusal := .next (runBulk (.lpack .s128) s)

/-- `LPACK.A32` (R279). -/
def execLpackA32 (s : State) : Host.Outcome State Fault Refusal := .next (runBulk (.lpack .a32) s)

/-- `LUNPACK.S32` (R280). -/
def execLunpackS32 (s : State) : Host.Outcome State Fault Refusal := .next (runBulk (.lunpack .s32) s)

/-- `LUNPACK.S64` (R280). -/
def execLunpackS64 (s : State) : Host.Outcome State Fault Refusal := .next (runBulk (.lunpack .s64) s)

/-- `LUNPACK.S128` (R280). -/
def execLunpackS128 (s : State) : Host.Outcome State Fault Refusal := .next (runBulk (.lunpack .s128) s)

/-- `LUNPACK.A32` (R280). -/
def execLunpackA32 (s : State) : Host.Outcome State Fault Refusal := .next (runBulk (.lunpack .a32) s)

end Sys2Proof.Machine
end

