-- ==== Sys2Proof/Machine/RowMajor.lean ====
section
/-! DEFINITION. The row-major quantizer: `QDQC.S`, `QDQC.A` (R251) and `QDQR` (R260). -/

namespace Sys2Proof.Machine

/-- `QDQC.S` (R251, R262). -/
def execQdqcS (w : Width) (et : ElemType) (s : State) : Host.Outcome State Fault Refusal :=
  .next (runBulk (.qdqc false w et) s)

/-- `QDQC.A` (R251). -/
def execQdqcA (w : Width) (et : ElemType) (s : State) : Host.Outcome State Fault Refusal :=
  .next (runBulk (.qdqc true w et) s)

/-- `QDQR` (R260, R318): `Unimplemented`, before anything is examined. -/
def execQdqr (_w : Width) (_zpen : Bool) (_et : ElemType) (s : State) : Host.Outcome State Fault Refusal :=
  .next (raiseError .unimplemented s)

end Sys2Proof.Machine
end

