-- ==== Sys2Proof/Machine/Transpose.lean ====
section
/-! DEFINITION. The block-transpose quantizer: `QT.S` and `QT.A` (R201). -/

namespace Sys2Proof.Machine

/-- `QT.S` (R201, R211). -/
def execQtS (o : Orient) (et : ElemType) (s : State) : Host.Outcome State Fault Refusal :=
  .next (runBulk (.qt false o et) s)

/-- `QT.A` (R201). -/
def execQtA (o : Orient) (et : ElemType) (s : State) : Host.Outcome State Fault Refusal :=
  .next (runBulk (.qt true o et) s)

end Sys2Proof.Machine
end

