-- ==== Sys2Proof/Machine/Dispatch.lean ====
section
/-! DEFINITION. One arm per command: its meaning (R91). -/

namespace Sys2Proof.Machine

def exec (i : Instr) (s : State) : Host.Outcome State Fault Refusal :=
  match i with
  | .geom w o zpen => Sys2Proof.Machine.execGeom w o zpen s
  | .r2qS w et => Sys2Proof.Machine.execR2qS w et s
  | .r2qA w et => Sys2Proof.Machine.execR2qA w et s
  | .norm w => Sys2Proof.Machine.execNorm w s
  | .packQ4 => Sys2Proof.Machine.execPackQ4 s
  | .packQ2 => Sys2Proof.Machine.execPackQ2 s
  | .packQ8 => Sys2Proof.Machine.execPackQ8 s
  | .unpackQ4 => Sys2Proof.Machine.execUnpackQ4 s
  | .unpackQ2 => Sys2Proof.Machine.execUnpackQ2 s
  | .unpackQ8 => Sys2Proof.Machine.execUnpackQ8 s
  | .qtS o et => Sys2Proof.Machine.execQtS o et s
  | .qtA o et => Sys2Proof.Machine.execQtA o et s
  | .dqtS o et => Sys2Proof.Machine.execDqtS o et s
  | .dqtA o et => Sys2Proof.Machine.execDqtA o et s
  | .qdqcS w et => Sys2Proof.Machine.execQdqcS w et s
  | .qdqcA w et => Sys2Proof.Machine.execQdqcA w et s
  | .qdqr w zpen et => Sys2Proof.Machine.execQdqr w zpen et s
  | .lpackS32 => Sys2Proof.Machine.execLpackS32 s
  | .lpackS64 => Sys2Proof.Machine.execLpackS64 s
  | .lpackS128 => Sys2Proof.Machine.execLpackS128 s
  | .lpackA32 => Sys2Proof.Machine.execLpackA32 s
  | .lunpackS32 => Sys2Proof.Machine.execLunpackS32 s
  | .lunpackS64 => Sys2Proof.Machine.execLunpackS64 s
  | .lunpackS128 => Sys2Proof.Machine.execLunpackS128 s
  | .lunpackA32 => Sys2Proof.Machine.execLunpackA32 s

end Sys2Proof.Machine
end

