-- ==== Sys2Proof/WellFormed.lean ====
section
/-! DEFINITION. Which commands an encoding exists for: the `QB` column of R92. -/

namespace Sys2Proof

/-- Only the bit-packer knows 8-bit codes (R92, R185). -/
def Width.isNarrow : Width → Bool
  | .q4 => true
  | .q2 => true
  | .q8 => false

/-- The legal values of the free fields (R92). Orientation, `ZPEN` and `ET` are free in every row that has them, so the
one check is the width of the commands that take one. -/
def Instr.wf : Instr → Bool
  | .geom w _ _ => w.isNarrow
  | .r2qS w _ => w.isNarrow
  | .r2qA w _ => w.isNarrow
  | .norm w => w.isNarrow
  | .packQ4 => true
  | .packQ2 => true
  | .packQ8 => true
  | .unpackQ4 => true
  | .unpackQ2 => true
  | .unpackQ8 => true
  | .qtS _ _ => true
  | .qtA _ _ => true
  | .dqtS _ _ => true
  | .dqtA _ _ => true
  | .qdqcS w _ => w.isNarrow
  | .qdqcA w _ => w.isNarrow
  | .qdqr w _ _ => w.isNarrow
  | .lpackS32 => true
  | .lpackS64 => true
  | .lpackS128 => true
  | .lpackA32 => true
  | .lunpackS32 => true
  | .lunpackS64 => true
  | .lunpackS128 => true
  | .lunpackA32 => true

end Sys2Proof
end

