-- ==== Sys2Proof/Decode.lean ====
section
/-! DEFINITION. The command word: its decoder (R90 to R94), its encoder, and the match and mask table of R93. -/

namespace Sys2Proof

/-- Why a word is illegal: the reasons R94 lists. -/
inductive DecodeError where
  /-- `OP` is 0x0 or 0xB to 0xF. -/
  | reservedOpcode
  /-- A bit of 31:11 is set. -/
  | reservedBits
  /-- `QB` is `0b11`. -/
  | reservedWidth
  /-- `QB` is a width the operation does not take. -/
  | widthNotAllowed
  /-- A field the operation does not use is not zero. -/
  | fieldNotZero
  deriving DecidableEq, Repr

/-- The fields of `CMD32` (R90). -/
structure CmdFields where
  op : BitVec 4
  qb : BitVec 2
  cw : Bool
  zpen : Bool
  et : Bool
  lv : BitVec 2
  reserved : BitVec 21
  deriving DecidableEq, Repr

/-- Bits 3:0, 5:4, 6, 7, 8, 10:9 and 31:11 of the word (R90). -/
def splitFields (w : Word) : CmdFields :=
  { op := w.extractLsb' 0 4
    qb := w.extractLsb' 4 2
    cw := w.getLsbD 6
    zpen := w.getLsbD 7
    et := w.getLsbD 8
    lv := w.extractLsb' 9 2
    reserved := w.extractLsb' 11 21 }

/-- `QB` as a width (R90); `0b11` is reserved. -/
def widthOf (qb : BitVec 2) : Except DecodeError Width :=
  match qb.toNat with
  | 0 => .ok .q4
  | 1 => .ok .q2
  | 2 => .ok .q8
  | _ => .error .reservedWidth

/-- `CW`: 1 column-wise, 0 row-wise (R90). -/
def orientOf (cw : Bool) : Orient := if cw then .colWise else .rowWise

/-- `ET`: 0 binary32, 1 binary16 (R90). -/
def elemTypeOf (et : Bool) : ElemType := if et then .f16 else .f32

/-- One row of R92 that takes a width of 4 or 2 bits: the width is checked, then the fields that must be zero. -/
def narrowRow (f : CmdFields) (mustBeZero : Bool) (mk : Width → Instr) : Except DecodeError Instr :=
  match widthOf f.qb with
  | .error e => .error e
  | .ok w => if w.isNarrow then (if mustBeZero then .ok (mk w) else .error .fieldNotZero) else .error .widthNotAllowed

/-- One row of R92 whose `QB` must be 0. -/
def fixedRow (f : CmdFields) (mustBeZero : Bool) (i : Instr) : Except DecodeError Instr :=
  match widthOf f.qb with
  | .error e => .error e
  | .ok .q4 => if mustBeZero then .ok i else .error .fieldNotZero
  | .ok _ => .error .widthNotAllowed

/-- The bit-packer's rows of R92: every width but the reserved one. -/
def packerRow (f : CmdFields) (i4 i2 i8 : Instr) : Except DecodeError Instr :=
  match widthOf f.qb with
  | .error e => .error e
  | .ok w =>
    if f.cw || f.zpen || f.et || f.lv != 0 then .error .fieldNotZero
    else .ok (match w with | .q4 => i4 | .q2 => i2 | .q8 => i8)

/-- The legacy rows of R92: `LV` selects the variant. -/
def legacyRow (f : CmdFields) (s32 s64 s128 a32 : Instr) : Except DecodeError Instr :=
  fixedRow f (!f.cw && !f.zpen && !f.et)
    (match f.lv.toNat with | 0 => s32 | 1 => s64 | 2 => s128 | _ => a32)

/-- The strict decoder of R92 and R94, total on every word. -/
def decode (w : Word) : Except DecodeError Instr :=
  let f := splitFields w
  if f.reserved != 0 then .error .reservedBits
  else
    match f.op.toNat with
    | 0x1 => narrowRow f (!f.et && f.lv == 0) (fun q => .geom q (orientOf f.cw) f.zpen)
    | 0x2 => narrowRow f (!f.cw && f.lv == 0)
        (fun q => if f.zpen then .r2qA q (elemTypeOf f.et) else .r2qS q (elemTypeOf f.et))
    | 0x3 => narrowRow f (!f.cw && !f.zpen && !f.et && f.lv == 0) (fun q => .norm q)
    | 0x4 => packerRow f .packQ4 .packQ2 .packQ8
    | 0x5 => packerRow f .unpackQ4 .unpackQ2 .unpackQ8
    | 0x6 => fixedRow f (f.lv == 0)
        (if f.zpen then .qtA (orientOf f.cw) (elemTypeOf f.et) else .qtS (orientOf f.cw) (elemTypeOf f.et))
    | 0x7 => fixedRow f (f.lv == 0)
        (if f.zpen then .dqtA (orientOf f.cw) (elemTypeOf f.et) else .dqtS (orientOf f.cw) (elemTypeOf f.et))
    | 0x8 => narrowRow f (f.lv == 0)
        (fun q => if f.cw then (if f.zpen then .qdqcA q (elemTypeOf f.et) else .qdqcS q (elemTypeOf f.et))
          else .qdqr q f.zpen (elemTypeOf f.et))
    | 0x9 => legacyRow f .lpackS32 .lpackS64 .lpackS128 .lpackA32
    | 0xA => legacyRow f .lunpackS32 .lunpackS64 .lunpackS128 .lunpackA32
    | _ => .error .reservedOpcode

/-! ### The encoder -/

/-- `QB` of a width (R90). -/
def widthBits : Width → BitVec 2
  | .q4 => 0b00#2
  | .q2 => 0b01#2
  | .q8 => 0b10#2

/-- `CW` of an orientation (R90). -/
def orientBit : Orient → BitVec 1
  | .rowWise => 0#1
  | .colWise => 1#1

/-- `ET` of an element type (R90). -/
def elemTypeBit : ElemType → BitVec 1
  | .f32 => 0#1
  | .f16 => 1#1

/-- `ZPEN` (R90). -/
def zpenBit (z : Bool) : BitVec 1 := BitVec.ofBool z

/-- The fields of R90 joined into a word, the reserved bits 0. -/
def assemble (op : BitVec 4) (qb : BitVec 2) (cw zpen et : BitVec 1) (lv : BitVec 2) : Word :=
  0#21 ++ lv ++ et ++ zpen ++ cw ++ qb ++ op

/-- The word of a command (R90 to R93). -/
def encode : Instr → Word
  | .geom w o z => assemble 0x1#4 (widthBits w) (orientBit o) (zpenBit z) 0#1 0#2
  | .r2qS w et => assemble 0x2#4 (widthBits w) 0#1 0#1 (elemTypeBit et) 0#2
  | .r2qA w et => assemble 0x2#4 (widthBits w) 0#1 1#1 (elemTypeBit et) 0#2
  | .norm w => assemble 0x3#4 (widthBits w) 0#1 0#1 0#1 0#2
  | .packQ4 => assemble 0x4#4 (widthBits .q4) 0#1 0#1 0#1 0#2
  | .packQ2 => assemble 0x4#4 (widthBits .q2) 0#1 0#1 0#1 0#2
  | .packQ8 => assemble 0x4#4 (widthBits .q8) 0#1 0#1 0#1 0#2
  | .unpackQ4 => assemble 0x5#4 (widthBits .q4) 0#1 0#1 0#1 0#2
  | .unpackQ2 => assemble 0x5#4 (widthBits .q2) 0#1 0#1 0#1 0#2
  | .unpackQ8 => assemble 0x5#4 (widthBits .q8) 0#1 0#1 0#1 0#2
  | .qtS o et => assemble 0x6#4 0#2 (orientBit o) 0#1 (elemTypeBit et) 0#2
  | .qtA o et => assemble 0x6#4 0#2 (orientBit o) 1#1 (elemTypeBit et) 0#2
  | .dqtS o et => assemble 0x7#4 0#2 (orientBit o) 0#1 (elemTypeBit et) 0#2
  | .dqtA o et => assemble 0x7#4 0#2 (orientBit o) 1#1 (elemTypeBit et) 0#2
  | .qdqcS w et => assemble 0x8#4 (widthBits w) 1#1 0#1 (elemTypeBit et) 0#2
  | .qdqcA w et => assemble 0x8#4 (widthBits w) 1#1 1#1 (elemTypeBit et) 0#2
  | .qdqr w z et => assemble 0x8#4 (widthBits w) 0#1 (zpenBit z) (elemTypeBit et) 0#2
  | .lpackS32 => assemble 0x9#4 0#2 0#1 0#1 0#1 0b00#2
  | .lpackS64 => assemble 0x9#4 0#2 0#1 0#1 0#1 0b01#2
  | .lpackS128 => assemble 0x9#4 0#2 0#1 0#1 0#1 0b10#2
  | .lpackA32 => assemble 0x9#4 0#2 0#1 0#1 0#1 0b11#2
  | .lunpackS32 => assemble 0xA#4 0#2 0#1 0#1 0#1 0b00#2
  | .lunpackS64 => assemble 0xA#4 0#2 0#1 0#1 0#1 0b01#2
  | .lunpackS128 => assemble 0xA#4 0#2 0#1 0#1 0#1 0b10#2
  | .lunpackA32 => assemble 0xA#4 0#2 0#1 0#1 0#1 0b11#2

/-! ### The match and mask table -/

/-- One row of R93. -/
structure OpcodeRow where
  mnemonic : String
  pattern : Word
  mask : Word
  deriving DecidableEq, Repr

/-- `M(w)` of R93. -/
def OpcodeRow.selects (r : OpcodeRow) (w : Word) : Bool := w &&& r.mask == r.pattern

/-- The rows of R93, in its order. -/
def opcodeRows : List OpcodeRow :=
  [⟨"GEOM", 0x00000001#32, 0xFFFFFF2F#32⟩,
   ⟨"R2Q.S", 0x00000002#32, 0xFFFFFEEF#32⟩,
   ⟨"R2Q.A", 0x00000082#32, 0xFFFFFEEF#32⟩,
   ⟨"NORM", 0x00000003#32, 0xFFFFFFEF#32⟩,
   ⟨"PACK.Q4", 0x00000004#32, 0xFFFFFFFF#32⟩,
   ⟨"PACK.Q2", 0x00000014#32, 0xFFFFFFFF#32⟩,
   ⟨"PACK.Q8", 0x00000024#32, 0xFFFFFFFF#32⟩,
   ⟨"UNPACK.Q4", 0x00000005#32, 0xFFFFFFFF#32⟩,
   ⟨"UNPACK.Q2", 0x00000015#32, 0xFFFFFFFF#32⟩,
   ⟨"UNPACK.Q8", 0x00000025#32, 0xFFFFFFFF#32⟩] ++
  [⟨"QT.S", 0x00000006#32, 0xFFFFFEBF#32⟩,
   ⟨"QT.A", 0x00000086#32, 0xFFFFFEBF#32⟩,
   ⟨"DQT.S", 0x00000007#32, 0xFFFFFEBF#32⟩,
   ⟨"DQT.A", 0x00000087#32, 0xFFFFFEBF#32⟩,
   ⟨"QDQC.S", 0x00000048#32, 0xFFFFFEEF#32⟩,
   ⟨"QDQC.A", 0x000000C8#32, 0xFFFFFEEF#32⟩,
   ⟨"QDQR", 0x00000008#32, 0xFFFFFE6F#32⟩,
   ⟨"LPACK.S32", 0x00000009#32, 0xFFFFFFFF#32⟩,
   ⟨"LPACK.S64", 0x00000209#32, 0xFFFFFFFF#32⟩,
   ⟨"LPACK.S128", 0x00000409#32, 0xFFFFFFFF#32⟩,
   ⟨"LPACK.A32", 0x00000609#32, 0xFFFFFFFF#32⟩,
   ⟨"LUNPACK.S32", 0x0000000A#32, 0xFFFFFFFF#32⟩,
   ⟨"LUNPACK.S64", 0x0000020A#32, 0xFFFFFFFF#32⟩,
   ⟨"LUNPACK.A32", 0x0000060A#32, 0xFFFFFFFF#32⟩,
   ⟨"LUNPACK.S128", 0x0000040A#32, 0xFFFFFFFF#32⟩]

/-- The row of a command (R93). -/
def mnemonicOf : Instr → String
  | .geom _ _ _ => "GEOM"
  | .r2qS _ _ => "R2Q.S"
  | .r2qA _ _ => "R2Q.A"
  | .norm _ => "NORM"
  | .packQ4 => "PACK.Q4"
  | .packQ2 => "PACK.Q2"
  | .packQ8 => "PACK.Q8"
  | .unpackQ4 => "UNPACK.Q4"
  | .unpackQ2 => "UNPACK.Q2"
  | .unpackQ8 => "UNPACK.Q8"
  | .qtS _ _ => "QT.S"
  | .qtA _ _ => "QT.A"
  | .dqtS _ _ => "DQT.S"
  | .dqtA _ _ => "DQT.A"
  | .qdqcS _ _ => "QDQC.S"
  | .qdqcA _ _ => "QDQC.A"
  | .qdqr _ _ _ => "QDQR"
  | .lpackS32 => "LPACK.S32"
  | .lpackS64 => "LPACK.S64"
  | .lpackS128 => "LPACK.S128"
  | .lpackA32 => "LPACK.A32"
  | .lunpackS32 => "LUNPACK.S32"
  | .lunpackS64 => "LUNPACK.S64"
  | .lunpackS128 => "LUNPACK.S128"
  | .lunpackA32 => "LUNPACK.A32"

/-- The command read from the low `nbits` bits of `w`, every higher bit 0. A command is one register word, not bytes in
memory, so no byte order enters. -/
def decodeTableWord (nbits w : Nat) : Option Instr :=
  match decode (BitVec.ofNat 32 (w % 2 ^ nbits)) with
  | .ok i => some i
  | .error _ => none

end Sys2Proof
end

