-- ==== Sys2Proof/Machine/Sequencer.lean ====
section
/-! DEFINITION. A running bulk command, tile by tile: the workers (R36, R37), the steps of a tile (R204 to R206, R255 to
R257, R281, R282), and completion at the barrier (R71). Used when the granularity is `tiled` (R75, assumption 9). -/

namespace Sys2Proof.Machine

/-- The bulk command that the latched word launched (R31). -/
def contextJob (c : HostRegs) : Option Job :=
  match decode c.cmd with
  | .ok i => jobOf i
  | .error _ => none

/-- The extents of the running command; none when no bulk command is running. -/
def runningExtents (s : State) : List Extent :=
  if s.phase = .busy then
    match contextJob s.ctx with
    | some j => jobExtents j s.ctx
    | none => []
  else []

/-- The element of a source address in the transpose buffer (R215). -/
def bufferElem (buffer : List (Nat × Flt)) (a : Nat) : Option Flt := buffer.lookup a

/-- The transpose buffer of a tile: its source elements, each with its address (R37, R215). -/
def readBuffer (q : QuantMode) (m : Memory) (t : QuantTile) : Option (List (Nat × Flt)) :=
  collect (fun a => (elemRead q.et m a).map fun x => (a, x)) (t.blocks.flatMap fun b => b.elems)

/-- The scratch a quantizing tile starts with: the accumulators at `mid` (R209). -/
def freshScratch (q : QuantMode) (t : QuantTile) (buffer : List (Nat × Flt)) : Scratch :=
  { buffer := buffer, zacc := List.replicate t.accs (mid q.width), rcache := [] }

/-- The end of a tile: it is no longer pending and its scratch is gone (R36, R37). -/
def endTile (t : Tile) (s : State) : State :=
  { s with pending := s.pending.filter (fun u => u != t), flight := s.flight.filter (fun f => f.tile != t) }

/-- The scratch and the step of one tile in flight replaced. -/
def updateFlight (f : InFlight) (s : State) : State :=
  { s with flight := s.flight.map fun g => if g.tile = f.tile then f else g }

/-- A worker begins a tile: its scratch is created and its source elements are read (R37). A tile that meets a
non-finite element ends without writing; the result of such a command is unspecified as a whole (R178). -/
def startTile (j : Job) (t : Tile) (s : State) : State :=
  match jobWork j s.ctx t with
  | .quant qt =>
    match readBuffer (jobMode j) s.mem qt with
    | some buffer =>
      { s with flight :=
          s.flight ++ [{ tile := t, stage := .params, scratch := freshScratch (jobMode j) qt buffer }] }
    | none => endTile t s
  | .deq _ =>
    { s with flight :=
        s.flight ++ [{ tile := t, stage := .codes, scratch := { buffer := [], zacc := [], rcache := [] } }] }

/-- Step (a) of a quantizing tile: parameters derived, scales written (R204, R255, R281). -/
def stageParams (q : QuantMode) (qt : QuantTile) (f : InFlight) (s : State) : State :=
  match collect (blockParam q (bufferElem f.scratch.buffer)) qt.blocks with
  | none => endTile f.tile s
  | some ps =>
    match scaleCells q qt.blocks ps with
    | none => endTile f.tile s
    | some cells =>
      updateFlight { f with stage := .zeroPoints, scratch := { f.scratch with zacc := accumulators q qt ps } }
        { s with mem := writeCells s.mem cells }

/-- Step (b): the zero-point bytes written (R205, R256). -/
def stageZeroPoints (q : QuantMode) (qt : QuantTile) (f : InFlight) (s : State) : State :=
  updateFlight { f with stage := .recips } { s with mem := writeCells s.mem (zpCells q qt f.scratch.zacc) }

/-- The beginning of step (c): the stored scales read back and their reciprocals kept (R70, R206). -/
def stageRecips (q : QuantMode) (qt : QuantTile) (f : InFlight) (s : State) : State :=
  match collect (fun b : Block => (elemRead q.et s.mem b.scaleAddr).bind rcp) qt.blocks with
  | none => endTile f.tile s
  | some rs => updateFlight { f with stage := .codes, scratch := { f.scratch with rcache := rs } } s

/-- Step (c): the codes of the buffered elements written (R206, R257, R282); the tile is done. -/
def stageCodes (q : QuantMode) (qt : QuantTile) (f : InFlight) (s : State) : State :=
  match dataCells q (bufferElem f.scratch.buffer) f.scratch.rcache f.scratch.zacc qt with
  | none => endTile f.tile s
  | some cells => endTile f.tile { s with mem := writeCells s.mem cells }

/-- The one step of a dequantizing tile (R236). -/
def stageDequantize (et : ElemType) (l : List DeqElem) (f : InFlight) (s : State) : State :=
  match collectCells (deqCells et s.mem) l with
  | none => endTile f.tile s
  | some cells => endTile f.tile { s with mem := writeCells s.mem cells }

/-- A worker takes its tile one step further. -/
def advanceTile (j : Job) (f : InFlight) (s : State) : State :=
  match jobWork j s.ctx f.tile with
  | .quant qt =>
    match f.stage with
    | .params => stageParams (jobMode j) qt f s
    | .zeroPoints => stageZeroPoints (jobMode j) qt f s
    | .recips => stageRecips (jobMode j) qt f s
    | .codes => stageCodes (jobMode j) qt f s
  | .deq l => stageDequantize (jobMode j).et l f s

/-- A pending tile goes on: its worker advances it, or a free worker begins it; when no worker is free, the tile begun
first advances instead (R36, R359). -/
def workOn (j : Job) (t : Tile) (s : State) : State :=
  match s.flight.find? (fun f => f.tile == t) with
  | some f => advanceTile j f s
  | none =>
    if s.flight.length < s.plat.workers then startTile j t s
    else
      match s.flight with
      | [] => s
      | f :: _ => advanceTile j f s

/-- The barrier (R71): no tile is pending, and the command completes. -/
def finish (s : State) : State :=
  if s.spoiled then complete false (spoilOutputs (runningExtents s) s) else complete false s

/-- One step of the running command, if there is one: the pending tile number `k`, modulo how many there are, goes on,
or the command completes (R32, R36). The tile order is free; `k` is the choice. -/
def progress (k : Nat) (s : State) : State :=
  if s.phase = .busy then
    match s.pending with
    | [] => finish s
    | t :: rest =>
      match contextJob s.ctx with
      | some j => workOn j ((t :: rest).getD (k % (rest.length + 1)) t) s
      | none => s
  else s

end Sys2Proof.Machine
end

