-- ==== Sys2Proof/Machine/HostMoves.lean ====
section
/-! DEFINITION. The moves of the host (R21, R34, R95), the launch they cause (R23, R311), and reset (R340, R341). -/

namespace Sys2Proof.Machine

/-- A launch (R311 steps 1 and 2): the word is latched, and an illegal word ends the command at once (R94, R314). -/
def launch (w : Word) (s : State) : Host.Outcome State Fault Refusal :=
  match decode w with
  | .ok i => exec i (latch w s)
  | .error _ => .next (raiseError .illegalCommand (latch w s))

/-- A host write to a register slot: ignored while `BUSY`; slot 0 launches; read-only and unimplemented slots ignore it
(R23, R34). -/
def hostWriteReg (i : Fin 32) (v : Word) (s : State) : Host.Outcome State Fault Refusal :=
  if s.phase = .busy then .next s
  else if i = 0 then launch v s
  else .next { s with regs := writeSlot s.regs i v }

/-- A host read of a register slot (R34). -/
def hostReadReg (i : Fin 32) (s : State) : State := { s with readback := .reg i (readSlot s i) :: s.readback }

/-- The addresses `a .. a+n-1` all exist (R60). -/
def rangeExists (s : State) (a n : Nat) : Bool := n == 0 || a + n ≤ s.plat.memBytes

/-- A host write to buffer memory (R61). One that touches a buffer of the running command leaves that command's result
unspecified (R346, assumption 13). -/
def hostWriteMem (a : Nat) (bytes : List Byte) (s : State) : State :=
  let touched := (span a (a + bytes.length)).any fun x => (runningExtents s).any fun e => inExtent e x
  { s with mem := writeCells s.mem (byteCells a bytes), spoiled := s.spoiled || touched }

/-- The byte of the running command's outputs that the host reads (R346, assumption 13): the old value or the new one,
the choice left open; any byte when the command's result is itself unspecified, since its new value is then. -/
def outputByte (s : State) (a : Nat) : Byte :=
  if s.spoiled then Config.freeByte s.fresh a
  else
    match contextJob s.ctx with
    | none => Config.freeByte s.fresh a
    | some j =>
      match jobResult j s.ctx s.launchMem with
      | none => Config.freeByte s.fresh a
      | some cells =>
        if Config.freeChoice s.fresh a then readByte s.launchMem a else readByte (writeCells s.launchMem cells) a

/-- What the host reads at an address: what stands there, but for the outputs of a running command (R61, R346). -/
def hostReadByte (s : State) (a : Nat) : Byte :=
  if inWritten (runningExtents s) a then outputByte s a else readByte s.mem a

/-- A host read of buffer memory. -/
def hostReadMem (a : Word) (n : Nat) (s : State) : State :=
  { s with readback := .mem a ((span a.toNat (a.toNat + n)).map (hostReadByte s)) :: s.readback, fresh := s.fresh + 1 }

/-- The reset event (R340): registers, context, phase and tiles as after reset, buffer memory not written. In the middle
of a command every byte of its output buffers becomes unspecified (R341, assumption 14). The host, the parameters and
the granularity are outside the block and stay. -/
def resetEvent (s : State) : State :=
  { s with
    regs := HostRegs.zero
    res := Results.zero
    phase := .idle
    empty := false
    err := none
    ctx := HostRegs.zero
    pending := []
    flight := []
    mem := writeCells s.mem (freeOutputs s.fresh (runningExtents s))
    spoiled := false
    launchMem := []
    fresh := s.fresh + 1 }

/-- `WAIT` (R95): read `STATUS`; while the phase is `BUSY` the command goes on and the wait is repeated. -/
def hostWait (s : State) : State :=
  let seen := hostReadReg 1 s
  if s.phase = .busy then { progress 0 seen with agenda := .wait :: s.agenda } else seen

/-- One move of the agenda. A buffer address that does not exist is a fault (R60, assumption 15). -/
def perform (e : Event) (s : State) : Host.Outcome State Fault Refusal :=
  match e with
  | .writeReg i v => hostWriteReg i v s
  | .readReg i => .next (hostReadReg i s)
  | .writeMem a bytes =>
    if rangeExists s a.toNat bytes.length then .next (hostWriteMem a.toNat bytes s)
    else .fault (.hostAddress (a.toNat + bytes.length - 1))
  | .readMem a n =>
    if rangeExists s a.toNat n then .next (hostReadMem a n s) else .fault (.hostAddress (a.toNat + n - 1))
  | .wait => .next (hostWait s)
  | .reset => .next (resetEvent s)
  | .worker k => .next (progress k s)

/-- One step of the whole: the next move of the agenda, or, when there is none, the running command goes on by itself
(R356); a block that runs nothing stays as it is until the host writes `CMD` (R340). -/
def nextMove (s : State) : Host.Outcome State Fault Refusal :=
  match s.agenda with
  | [] => .next (progress 0 s)
  | e :: rest => perform e { s with agenda := rest }

/-- The host's next move is a write of a command word to `CMD`, with no command running (assumption 10). -/
def placeCommand (w : Word) (s : State) : State :=
  { s with
    agenda := .writeReg 0 w :: s.agenda
    phase := if s.phase = .busy then .idle else s.phase
    pending := []
    flight := [] }

end Sys2Proof.Machine
end

