-- ==== Sys2Proof/Machine/Step.lean ====
section
/-! DEFINITION. One step of the machine, and where it takes its next command from. -/

namespace Sys2Proof.Machine

/-- One step: see `nextMove`. -/
def step (s : State) : Host.Outcome State Fault Refusal := nextMove s

/-- `s` with the host about to write the low `nbits` bits of `w` to `CMD` (assumption 10). -/
def State.withFetchWord (s : State) (nbits w : Nat) : State :=
  placeCommand (BitVec.ofNat 32 (w % 2 ^ nbits)) s

end Sys2Proof.Machine
end

