-- ==== Sys2Proof/Safety.lean ====
section
/-! DEFINITION. What every state a run reaches is like, in the terms the statements use: parameters in the ranges of R7,
the legal values of `STATUS` (R24), tiles and scratch only while `BUSY` (R30, R32, R37), a context that equals the registers (R31), and a buffer memory
in canonical form inside `MEM_BYTES` (R60, R66). -/

namespace Sys2Proof.Machine

/-- `ERR != 0` exactly when the phase is `ERROR`; `EMPTY = 1` only when it is `DONE` (R24). -/
def StatusLegal (s : State) : Prop := (s.err ≠ none ↔ s.phase = .error) ∧ (s.empty = true → s.phase = .done)

/-- Tiles are pending or in flight only while `BUSY` (R30, R32); pending tiles are a set; every tile in flight is pending
and in flight once (R36), and no more are in flight than there are workers (R359). -/
def TilesLegal (s : State) : Prop :=
  (s.phase ≠ .busy → s.pending = [] ∧ s.flight = [] ∧ s.spoiled = false ∧ s.launchMem = []) ∧
    s.pending.Nodup ∧ (s.flight.map InFlight.tile).Nodup ∧ (∀ f ∈ s.flight, f.tile ∈ s.pending) ∧
    s.flight.length ≤ s.plat.workers

/-- While `BUSY` the context equals the registers (R31), its word is a bulk command's, that command passed its checks
(R311), and the pending tiles are tiles of it (R32); unless its result is unspecified it is what the memory at launch
gives (R73). -/
def ContextLegal (s : State) : Prop :=
  s.phase = .busy →
    s.ctx = s.regs ∧
      ∃ j, contextJob s.ctx = some j ∧ jobEmpty j s.ctx = false ∧ jobError j s.ctx s.plat.memBytes = none ∧
        (∀ t ∈ s.pending, t ∈ jobTiles j s.ctx) ∧ (s.spoiled = false → jobResult j s.ctx s.launchMem ≠ none)

/-- Buffer memory in canonical form, listing only addresses that exist (R60), now and at launch. -/
def MemoryLegal (s : State) : Prop :=
  memWf s.mem ∧ memBounded s.mem s.plat.memBytes ∧ memWf s.launchMem ∧ memBounded s.launchMem s.plat.memBytes

/-- The invariant of the machine. -/
structure Inv (s : State) : Prop where
  platform : s.plat.legal = true
  status : StatusLegal s
  tiles : TilesLegal s
  context : ContextLegal s
  memory : MemoryLegal s

/-- The command's result is specified: no two of its buffers clash (R67) and nothing non-finite is met (R178). -/
def Specified (j : Job) (s : State) : Prop := jobResult j s.ctx s.mem ≠ none

/-- The command passes its checks: a supported block size where one is needed, and none of tests 5 to 7 of R319. -/
def Passes (j : Job) (s : State) : Prop :=
  jobEmpty j s.ctx = false ∧ jobError j s.ctx s.plat.memBytes = none

end Sys2Proof.Machine
end

