-- ==== Sys2Proof/Certificates/Slice0/Obligations.lean ====
section
/-! DEFINITION. The statements for the provers. The functions under `Claim` write the rules of the spec a second time,
in the spec's own form (R131, R208, R234, R258, R282, R287), without the model's layouts and tiles. -/

namespace Sys2Proof.Claim

open Sys2Proof.Machine

/-- The elements of a matrix of `rows` by `cols`, by increasing row and, within a row, increasing column (R159). -/
def positions (rows cols : Nat) : List (Nat × Nat) :=
  (List.range rows).flatMap fun row => (List.range cols).map fun col => (row, col)

/-- Element `(row, col)` of the row-major Matrix (R11, R65). -/
def source (c : HostRegs) (m : Memory) (et : ElemType) (x : Nat × Nat) : Option Flt :=
  elemRead et m (c.matAddr.toNat + (x.1 * c.ld.toNat + x.2) * esz et)

/-- Scale and zero point of the elements at some positions (R159, R152, R153, R161). -/
def params (c : HostRegs) (m : Memory) (asym : Bool) (w : Width) (et : ElemType) (block : List (Nat × Nat)) :
    Option (Flt × Nat) :=
  match collect (source c m et) block with
  | none => none
  | some xs =>
    match blockScan xs with
    | none => none
    | some (lo, hi) => if asym then range2scalezp lo hi w else (range2scale lo hi w).map fun s => (s, mid w)

/-- The code of an element under the stored scale and the zero point of its block (R208, R258). -/
def code (c : HostRegs) (m : Memory) (asym : Bool) (w : Width) (et : ElemType) (block : List (Nat × Nat))
    (x : Nat × Nat) : Option Nat :=
  match source c m et x, params c m asym w et block with
  | some v, some (s, z) =>
    match elemRound et s with
    | none => none
    | some s' => quantize v s' z w
  | _, _ => none

/-- The byte of some slots, when every slot has a value (R186). -/
def packed (w : Width) (slots : List (Option Nat)) : Option Byte := (collect id slots).map (pack w)

/-- `B(mr, mc)` of R208. -/
def gridBlock (c : HostRegs) (o : Orient) (mr mc : Nat) : List (Nat × Nat) :=
  (positions c.rows.toNat c.cols.toNat).filter fun x =>
    x.1 / blockRows o c.blksz.toNat == mr && x.2 / blockCols o c.blksz.toNat == mc

/-- `meta_rows` of R131. -/
def metaRows (c : HostRegs) (o : Orient) : Nat := ceilDiv c.rows.toNat (blockRows o c.blksz.toNat)

/-- `meta_cols` of R131. -/
def metaCols (c : HostRegs) (o : Orient) : Nat := ceilDiv c.cols.toNat (blockCols o c.blksz.toNat)

/-- `q_rows` of R131 for 4-bit codes. -/
def qRows (c : HostRegs) (o : Orient) : Nat := ceilDiv (metaRows c o * blockRows o c.blksz.toNat * 4) 8

/-- What R208 says of the memory after `QT`: scales, zero-point bytes, packed bytes, and every other byte as before. -/
structure QtResult (asym : Bool) (o : Orient) (et : ElemType) (c : HostRegs) (m m' : Memory) : Prop where
  scales : ∀ mr mc, mr < metaRows c o → mc < metaCols c o →
    ((params c m asym .q4 et (gridBlock c o mr mc)).bind fun p => elemBits et p.1) =
      some (memRead m' (c.scAddr.toNat + (mc * metaRows c o + mr) * esz et) (esz et))
  zeroPoints : asym = true → ∀ p mc, p < ceilDiv (metaRows c o) 2 → mc < metaCols c o →
    packed .q4
        [(params c m asym .q4 et (gridBlock c o (2 * p) mc)).map Prod.snd,
          if 2 * p + 1 < metaRows c o then (params c m asym .q4 et (gridBlock c o (2 * p + 1) mc)).map Prod.snd
          else some 8] =
      some (readByte m' (c.zpAddr.toNat + (mc * ceilDiv (metaRows c o) 2 + p)))
  codes : ∀ p col, p < ceilDiv c.rows.toNat 2 → col < c.cols.toNat →
    packed .q4
        [code c m asym .q4 et
            (gridBlock c o (2 * p / blockRows o c.blksz.toNat) (col / blockCols o c.blksz.toNat)) (2 * p, col),
          if 2 * p + 1 < c.rows.toNat then
            code c m asym .q4 et
              (gridBlock c o ((2 * p + 1) / blockRows o c.blksz.toNat) (col / blockCols o c.blksz.toNat))
              (2 * p + 1, col)
          else
            (params c m asym .q4 et
              (gridBlock c o (2 * p / blockRows o c.blksz.toNat) (col / blockCols o c.blksz.toNat))).map Prod.snd] =
      some (readByte m' (c.pkAddr.toNat + (col * qRows c o + p)))
  frame : ∀ a,
    (∀ mr mc k, mr < metaRows c o → mc < metaCols c o → k < esz et →
      a ≠ c.scAddr.toNat + (mc * metaRows c o + mr) * esz et + k) →
    (asym = true → ∀ p mc, p < ceilDiv (metaRows c o) 2 → mc < metaCols c o →
      a ≠ c.zpAddr.toNat + (mc * ceilDiv (metaRows c o) 2 + p)) →
    (∀ p col, p < ceilDiv c.rows.toNat 2 → col < c.cols.toNat → a ≠ c.pkAddr.toNat + (col * qRows c o + p)) →
    readByte m' a = readByte m a

/-- The value of element `(row, col)` after `DQT` (R234). -/
def dequantized (asym : Bool) (o : Orient) (et : ElemType) (c : HostRegs) (m : Memory) (row col : Nat) : Option Flt :=
  let mr := row / blockRows o c.blksz.toNat
  let mc := col / blockCols o c.blksz.toNat
  let z :=
    if asym then
      (unpack .q4 (readByte m (c.zpAddr.toNat + (mc * ceilDiv (metaRows c o) 2 + mr / 2)))).getD (mr % 2) 0
    else 8
  let q := (unpack .q4 (readByte m (c.pkAddr.toNat + (col * qRows c o + row / 2)))).getD (row % 2) 0
  match elemRead et m (c.scAddr.toNat + (mc * metaRows c o + mr) * esz et), fsub (ofNat q) (ofNat z) with
  | some s, some d => fmul d s
  | _, _ => none

/-- What R237 says of the memory after `DQT`. -/
structure DqtResult (asym : Bool) (o : Orient) (et : ElemType) (c : HostRegs) (m m' : Memory) : Prop where
  elements : ∀ row col, row < c.rows.toNat → col < c.cols.toNat →
    ((dequantized asym o et c m row col).bind (elemBits et)) =
      some (memRead m' (c.matAddr.toNat + (col * c.rows.toNat + row) * esz et) (esz et))
  frame : ∀ a,
    (∀ row col k, row < c.rows.toNat → col < c.cols.toNat → k < esz et →
      a ≠ c.matAddr.toNat + (col * c.rows.toNat + row) * esz et + k) →
    readByte m' a = readByte m a

/-- `B(mr, col)` of R258. -/
def columnBlock (c : HostRegs) (mr col : Nat) : List (Nat × Nat) :=
  ((List.range c.rows.toNat).filter fun row => row / c.blksz.toNat == mr).map fun row => (row, col)

/-- What R258 says of the memory after `QDQC`. -/
structure QdqcResult (asym : Bool) (w : Width) (et : ElemType) (c : HostRegs) (m m' : Memory) : Prop where
  scales : ∀ mr col, mr < ceilDiv c.rows.toNat c.blksz.toNat → col < c.cols.toNat →
    ((params c m asym w et (columnBlock c mr col)).bind fun p => elemBits et p.1) =
      some (memRead m' (c.scAddr.toNat + (mr * c.cols.toNat + col) * esz et) (esz et))
  zeroPoints : asym = true → ∀ mr g, mr < ceilDiv c.rows.toNat c.blksz.toNat → g < c.cols.toNat / perByte w →
    packed w
        ((List.range (perByte w)).map fun i =>
          (params c m asym w et (columnBlock c mr (g * perByte w + i))).map Prod.snd) =
      some (readByte m' (c.zpAddr.toNat + (mr * c.cols.toNat + g * perByte w) / perByte w))
  codes : ∀ row g, row < c.rows.toNat → g < c.cols.toNat / perByte w →
    packed w
        ((List.range (perByte w)).map fun i =>
          code c m asym w et (columnBlock c (row / c.blksz.toNat) (g * perByte w + i)) (row, g * perByte w + i)) =
      some (readByte m' (c.pkAddr.toNat + (row * c.cols.toNat + g * perByte w) / perByte w))
  frame : ∀ a,
    (∀ mr col k, mr < ceilDiv c.rows.toNat c.blksz.toNat → col < c.cols.toNat → k < esz et →
      a ≠ c.scAddr.toNat + (mr * c.cols.toNat + col) * esz et + k) →
    (asym = true → ∀ mr g, mr < ceilDiv c.rows.toNat c.blksz.toNat → g < c.cols.toNat / perByte w →
      a ≠ c.zpAddr.toNat + (mr * c.cols.toNat + g * perByte w) / perByte w) →
    (∀ row g, row < c.rows.toNat → g < c.cols.toNat / perByte w →
      a ≠ c.pkAddr.toNat + (row * c.cols.toNat + g * perByte w) / perByte w) →
    readByte m' a = readByte m a

/-- The elements of block `kb` of column `n` of a legacy operand (R278). -/
def legacyBlock (v : Legacy) (c : HostRegs) (n kb : Nat) : List (Nat × Nat) :=
  ((List.range c.rows.toNat).filter fun k => k / blkLen v == kb).map fun k => (k, n)

/-- Where the blob of block `kb` of column `n` stands (R106). -/
def blobAt (v : Legacy) (c : HostRegs) (n kb : Nat) : Nat :=
  c.pkAddr.toNat + (n * ceilDiv c.rows.toNat (blkLen v) + kb) * (4 + legacyZ v + blkLen v / 2)

/-- The code of a value in a block of a legacy operand: R285, or R286 in the asymmetric variant. -/
def legacyCode (v : Legacy) (x : Option Flt) (p : Option (Flt × Nat)) : Option Nat :=
  match x, p with
  | some a, some (s, z) =>
    match rcp s with
    | none => none
    | some rs => if legacyAsym v then legacyAsymCode a rs z else legacySymCode a rs
  | _, _ => none

/-- `code(j)` of R282: the element at position `j` of the block, or the value 0.0 past its end (R284). -/
def blobCode (v : Legacy) (c : HostRegs) (m : Memory) (n kb j : Nat) : Option Nat :=
  legacyCode v
    (if kb * blkLen v + j < c.rows.toNat ∧ j < blkLen v then source c m .f32 (kb * blkLen v + j, n)
     else some (ofNat 0))
    (params c m (legacyAsym v) .q4 .f32 (legacyBlock v c n kb))

/-- What R281 and R282 say of the memory after `LPACK`. `klen` is the number of elements of the block. -/
structure LpackResult (v : Legacy) (c : HostRegs) (m m' : Memory) : Prop where
  scales : ∀ n kb, n < c.cols.toNat → kb < ceilDiv c.rows.toNat (blkLen v) →
    ((params c m (legacyAsym v) .q4 .f32 (legacyBlock v c n kb)).map fun p => (bits32 p.1).toNat) =
      some (memRead m' (blobAt v c n kb) 4)
  zeroPoints : legacyAsym v = true → ∀ n kb, n < c.cols.toNat → kb < ceilDiv c.rows.toNat (blkLen v) →
    ((params c m true .q4 .f32 (legacyBlock v c n kb)).map fun p => BitVec.ofNat 8 p.2) =
      some (readByte m' (blobAt v c n kb + 4))
  codes : ∀ n kb ch l, n < c.cols.toNat → kb < ceilDiv c.rows.toNat (blkLen v) →
    ch < ceilDiv (legacyBlock v c n kb).length 32 → l < 16 →
    packed .q4 [blobCode v c m n kb (32 * ch + l), blobCode v c m n kb (32 * ch + l + 16)] =
      some (readByte m' (blobAt v c n kb + 4 + legacyZ v + 16 * ch + l))
  frame : ∀ a,
    (∀ n kb k, n < c.cols.toNat → kb < ceilDiv c.rows.toNat (blkLen v) →
      k < 4 + legacyZ v + 16 * ceilDiv (legacyBlock v c n kb).length 32 → a ≠ blobAt v c n kb + k) →
    readByte m' a = readByte m a

/-- The value of element `(k, n)` after `LUNPACK` (R287). -/
def legacyDequantized (v : Legacy) (c : HostRegs) (m : Memory) (k n : Nat) : Option Flt :=
  let kb := k / blkLen v
  let j := k % blkLen v
  let base := blobAt v c n kb
  let z := if legacyAsym v then (readByte m (base + 4)).toNat else 8
  let q := (unpack .q4 (readByte m (base + 4 + legacyZ v + 16 * (j / 32) + j % 16))).getD (j % 32 / 16) 0
  match f32 (BitVec.ofNat 32 (memRead m base 4)), fsub (ofNat q) (ofNat z) with
  | some s, some d => fmul d s
  | _, _ => none

/-- What R287 and R292 say of the memory after `LUNPACK`. -/
structure LunpackResult (v : Legacy) (c : HostRegs) (m m' : Memory) : Prop where
  elements : ∀ k n, k < c.rows.toNat → n < c.cols.toNat →
    ((legacyDequantized v c m k n).map fun x => (bits32 x).toNat) =
      some (memRead m' (c.matAddr.toNat + (k * c.ld.toNat + n) * 4) 4)
  frame : ∀ a,
    (∀ k n i, k < c.rows.toNat → n < c.cols.toNat → i < 4 →
      a ≠ c.matAddr.toNat + (k * c.ld.toNat + n) * 4 + i) →
    readByte m' a = readByte m a

/-- The commands that pack a legacy operand. -/
def lpackInstr : Legacy → Instr
  | .s32 => .lpackS32
  | .s64 => .lpackS64
  | .s128 => .lpackS128
  | .a32 => .lpackA32

/-- The commands that unpack one. -/
def lunpackInstr : Legacy → Instr
  | .s32 => .lunpackS32
  | .s64 => .lunpackS64
  | .s128 => .lunpackS128
  | .a32 => .lunpackA32

/-- The packer's commands. -/
def packInstr : Width → Instr
  | .q4 => .packQ4
  | .q2 => .packQ2
  | .q8 => .packQ8

/-- The unpacker's commands. -/
def unpackInstr : Width → Instr
  | .q4 => .unpackQ4
  | .q2 => .unpackQ2
  | .q8 => .unpackQ8

/-! ### When a bulk command has a result -/

/-- Every block has a scale that can be stored, and every element a code (R178 met nowhere), for `QT`. -/
structure QtDefined (asym : Bool) (o : Orient) (et : ElemType) (c : HostRegs) (m : Memory) : Prop where
  scales : ∀ mr < metaRows c o, ∀ mc < metaCols c o,
    ((params c m asym .q4 et (gridBlock c o mr mc)).bind fun p => elemBits et p.1).isSome = true
  codes : ∀ row < c.rows.toNat, ∀ col < c.cols.toNat,
    (code c m asym .q4 et (gridBlock c o (row / blockRows o c.blksz.toNat) (col / blockCols o c.blksz.toNat))
      (row, col)).isSome = true

/-- Every element has a value that can be stored, for `DQT`. -/
def DqtDefined (asym : Bool) (o : Orient) (et : ElemType) (c : HostRegs) (m : Memory) : Prop :=
  ∀ row < c.rows.toNat, ∀ col < c.cols.toNat,
    ((dequantized asym o et c m row col).bind (elemBits et)).isSome = true

/-- Every block has a scale that can be stored, and every element a code, for `QDQC`. -/
structure QdqcDefined (asym : Bool) (w : Width) (et : ElemType) (c : HostRegs) (m : Memory) : Prop where
  scales : ∀ mr < ceilDiv c.rows.toNat c.blksz.toNat, ∀ col < c.cols.toNat,
    ((params c m asym w et (columnBlock c mr col)).bind fun p => elemBits et p.1).isSome = true
  codes : ∀ row < c.rows.toNat, ∀ col < c.cols.toNat,
    (code c m asym w et (columnBlock c (row / c.blksz.toNat) col) (row, col)).isSome = true

/-- Every block has a scale, and every position of its chunks a code, for `LPACK`. -/
structure LpackDefined (v : Legacy) (c : HostRegs) (m : Memory) : Prop where
  scales : ∀ n < c.cols.toNat, ∀ kb < ceilDiv c.rows.toNat (blkLen v),
    (params c m (legacyAsym v) .q4 .f32 (legacyBlock v c n kb)).isSome = true
  codes : ∀ n < c.cols.toNat, ∀ kb < ceilDiv c.rows.toNat (blkLen v),
    ∀ j < 32 * ceilDiv (legacyBlock v c n kb).length 32, (blobCode v c m n kb j).isSome = true

/-- Every element has a value, for `LUNPACK`. -/
def LunpackDefined (v : Legacy) (c : HostRegs) (m : Memory) : Prop :=
  ∀ k < c.rows.toNat, ∀ n < c.cols.toNat, (legacyDequantized v c m k n).isSome = true

/-- A bulk command that passes its checks, whose buffers do not clash (R67), run as one step (R75) on a buffer memory in
canonical form. -/
structure Ready (j : Job) (s : State) : Prop where
  passes : Passes j s
  apart : anyClash (jobExtents j s.ctx) = false
  memory : memWf s.mem
  whole : s.grain = .atomic

/-! ### The causes of R315 to R317 and R321, written a second time -/

/-- Test 4 of R319. -/
def unsupported : Job → HostRegs → Prop
  | .qt _ _ _, c => c.blksz.toNat ∉ [16, 32, 64, 128, 256]
  | .dqt _ _ _, c => c.blksz.toNat ∉ [16, 32, 64, 128, 256]
  | .qdqc _ _ _, c => c.blksz.toNat ∉ [16, 32, 64, 128, 256]
  | .lpack _, _ => False
  | .lunpack _, _ => False

/-- Some value of R131 is `2^32` or more. -/
def geometryTooLarge (g : Geometry) : Prop :=
  ∃ n ∈ [g.metaRows, g.metaCols, g.qRows, g.qCols, g.qBytes, g.scCount, g.zpBytes], 2 ^ 32 ≤ n

/-- The causes of R315. -/
def configCause : Job → HostRegs → Prop
  | .qt asym o _, c => geometryTooLarge (geometry c.rows.toNat c.cols.toNat c.blksz.toNat .q4 o asym)
  | .dqt asym o _, c => geometryTooLarge (geometry c.rows.toNat c.cols.toNat c.blksz.toNat .q4 o asym)
  | .qdqc asym w _, c =>
    c.cols.toNat % perByte w ≠ 0 ∨ 2 ^ 32 ≤ c.rows.toNat * c.cols.toNat / perByte w ∨
      2 ^ 32 ≤ ceilDiv c.rows.toNat c.blksz.toNat * c.cols.toNat ∨
      (asym = true ∧ 2 ^ 32 ≤ ceilDiv c.rows.toNat c.blksz.toNat * c.cols.toNat / perByte w)
  | .lpack v, c => 2 ^ 32 ≤ c.cols.toNat * ceilDiv c.rows.toNat (blkLen v) * (4 + legacyZ v + blkLen v / 2)
  | .lunpack v, c =>
    2 ^ 32 ≤ c.cols.toNat * ceilDiv c.rows.toNat (blkLen v) * (4 + legacyZ v + blkLen v / 2) ∨
      (c.ld.toNat < c.cols.toNat ∧ 2 ≤ c.rows.toNat ∧ 1 ≤ c.cols.toNat)

/-- The element type of a command's floating-point buffers (R64). -/
def elemTypeOfJob : Job → ElemType
  | .qt _ _ et => et
  | .dqt _ _ et => et
  | .qdqc _ _ et => et
  | .lpack _ => .f32
  | .lunpack _ => .f32

/-- The command has a ScaleBuffer. -/
def hasScaleBuffer : Job → Bool
  | .qt _ _ _ => true
  | .dqt _ _ _ => true
  | .qdqc _ _ _ => true
  | .lpack _ => false
  | .lunpack _ => false

/-- The cause of R316. -/
def alignCause (j : Job) (c : HostRegs) : Prop :=
  ¬ esz (elemTypeOfJob j) ∣ c.matAddr.toNat ∨
    (hasScaleBuffer j = true ∧ ¬ esz (elemTypeOfJob j) ∣ c.scAddr.toNat)

/-- The table of R66 as (base, size) pairs, a buffer that is not used left out. -/
def bufferSizes (j : Job) (c : HostRegs) : List (Nat × Nat) :=
  let rows := c.rows.toNat
  let cols := c.cols.toNat
  let strided := fun e => if rows = 0 ∨ cols = 0 then 0 else ((rows - 1) * c.ld.toNat + cols) * e
  match j with
  | .qt asym o et =>
    let g := geometry rows cols c.blksz.toNat .q4 o asym
    [(c.matAddr.toNat, strided (esz et)), (c.pkAddr.toNat, g.qBytes), (c.scAddr.toNat, g.scCount * esz et)] ++
      if asym = true then [(c.zpAddr.toNat, g.zpBytes)] else []
  | .dqt asym o et =>
    let g := geometry rows cols c.blksz.toNat .q4 o asym
    [(c.matAddr.toNat, rows * cols * esz et), (c.pkAddr.toNat, g.qBytes), (c.scAddr.toNat, g.scCount * esz et)] ++
      if asym = true then [(c.zpAddr.toNat, g.zpBytes)] else []
  | .qdqc asym w et =>
    [(c.matAddr.toNat, strided (esz et)), (c.pkAddr.toNat, rows * cols / perByte w),
      (c.scAddr.toNat, ceilDiv rows c.blksz.toNat * cols * esz et)] ++
      if asym = true then [(c.zpAddr.toNat, ceilDiv rows c.blksz.toNat * cols / perByte w)] else []
  | .lpack v =>
    [(c.matAddr.toNat, strided 4),
      (c.pkAddr.toNat, cols * ceilDiv rows (blkLen v) * (4 + legacyZ v + blkLen v / 2))]
  | .lunpack v =>
    [(c.matAddr.toNat, strided 4),
      (c.pkAddr.toNat, cols * ceilDiv rows (blkLen v) * (4 + legacyZ v + blkLen v / 2))]

/-- The cause of R317. -/
def addressCause (j : Job) (c : HostRegs) (memBytes : Nat) : Prop :=
  ∃ b ∈ bufferSizes j c, 0 < b.2 ∧ memBytes < b.1 + b.2

/-! ### Other terms -/

/-- A finite binary32 value. -/
def IsBinary32 (f : Flt) : Prop := ∃ b : BitVec 32, f32 b = some f

/-- A finite binary16 value, kept as the binary32 value it widens to. -/
def IsBinary16 (f : Flt) : Prop := ∃ b : BitVec 16, f16 b = some f

/-- The words for which `p` holds are exactly `n`. -/
def Count (p : Word → Prop) (n : Nat) : Prop := ∃ l : List Word, l.Nodup ∧ l.length = n ∧ ∀ w, w ∈ l ↔ p w

/-- The word decodes. -/
def Legal (w : Word) : Prop := ∃ i, decode w = .ok i

/-- A register of R22 that exists and that the host writes without launching (R34). -/
def Writable (i : Fin 32) : Prop := 2 ≤ i.val ∧ i.val ≤ 12

/-- Tiles performed one after the other, each from the memory the one before left (R36). -/
def performInOrder (j : Job) (c : HostRegs) (m : Memory) : List Tile → Memory
  | [] => m
  | t :: rest => performInOrder j c (writeCells m ((jobTileCells j c m t).getD [])) rest

/-- The magnitude at which rounding to binary32 overflows, halfway between the greatest finite value and 2^128, in units
of 2^-149. -/
def overflow32 : Nat := unitOne * (2 ^ 128 - 2 ^ 103)

/-- The same for binary16: halfway between 65504 and 2^16. -/
def overflow16 : Nat := unitOne * (2 ^ 16 - 2 ^ 4)

/-- The value is a binary32 value nearest to `num / den` units, and on a tie its significand is even (R10). Distances are
compared after multiplying by `den`. -/
def Nearest32 (num : Int) (den : Nat) (f : Flt) : Prop :=
  IsBinary32 f ∧
    ∀ g, IsBinary32 g →
      (value f * den - num).natAbs ≤ (value g * den - num).natAbs ∧
        ((value f * den - num).natAbs = (value g * den - num).natAbs → value g ≠ value f →
          (bits32 f).getLsbD 0 = false)

/-- An operation of R10 answers its exact result `num / den` rounded once: no finite value exactly when the result rounds
to infinity, and else the nearest value. -/
def RoundedOnce (num : Int) (den : Nat) (r : Option Flt) : Prop :=
  (r = none ↔ overflow32 * den ≤ num.natAbs) ∧ ∀ f, r = some f → Nearest32 num den f

/-- The stage after a stage of a quantizing tile (R204 to R206, R255 to R257, R281, R282; the split is assumption 25). -/
def nextStage : Stage → Option Stage
  | .params => some .zeroPoints
  | .zeroPoints => some .recips
  | .recips => some .codes
  | .codes => none

/-- The stage in which a tile of a command is begun. -/
def firstStage : Job → Stage
  | .qt _ _ _ => .params
  | .dqt _ _ _ => .codes
  | .qdqc _ _ _ => .params
  | .lpack _ => .params
  | .lunpack _ => .codes

/-- Tile `t` of the running command gone on by one step (R36): begun, taken to its next stage, or ended, which a tile not
in flight does only when it has no specified result. `pending` and `flight` are what the step leaves; in each case
the other tiles' entries are as they were. -/
inductive GoesOn (j : Job) (t : Tile) (s : State) (pending : List Tile) (flight : List InFlight) : Prop where
  | begun (g : InFlight) (idle : ∀ f ∈ s.flight, f.tile ≠ t) (tile : g.tile = t) (stage : g.stage = firstStage j)
      (same : pending = s.pending) (entries : flight = s.flight ++ [g])
  | advanced (f g : InFlight) (busy : f ∈ s.flight) (before : f.tile = t) (after : g.tile = t)
      (stage : nextStage f.stage = some g.stage) (same : pending = s.pending)
      (entries : flight = s.flight.map fun h => if h.tile = t then g else h)
  | ended (reason : (∃ f ∈ s.flight, f.tile = t) ∨ jobTileCells j s.ctx s.mem t = none)
      (rest : pending = s.pending.filter fun u => u != t) (entries : flight = s.flight.filter fun f => f.tile != t)

/-- The step `u` of the running command takes tile `t` of it on, and changes no byte outside the output buffers. -/
def TakesOn (j : Job) (t : Tile) (s : State) (u : Host.Outcome State Fault Refusal) : Prop :=
  ∃ m pending flight, u = .next { s with mem := m, pending := pending, flight := flight } ∧
    GoesOn j t s pending flight ∧
      ∀ a, inWritten (runningExtents s) a = false → readByte m a = readByte s.mem a

/-- The bytes of the output buffers are free values and all others are those of `m`. -/
def OutputsFree (es : List Extent) (epoch : Nat) (m m' : Memory) : Prop :=
  ∀ a, readByte m' a = if inWritten es a = true then Config.freeByte epoch a else readByte m a

/-- The running command gone on as some choices of the next tile say (R36). -/
def schedule (s : State) : List Nat → State
  | [] => s
  | k :: rest => schedule (progress k s) rest

/-- `n` steps of the machine, when each of them gives a next state. -/
def steps : Nat → State → Option State
  | 0, s => some s
  | n + 1, s =>
    match step s with
    | .next t => steps n t
    | .fault _ => none
    | .refused _ => none

end Sys2Proof.Claim

open Sys2Proof Sys2Proof.Machine

/-! ### The command word -/

/-- Decoding and encoding agree on all words and all commands: a word decodes to a command exactly when the command is
well formed and the word is its encoding (R90, R92). -/
def Obligations.DecodeIsTheInverseOfEncode : Prop :=
  ∀ (w : Word) (i : Instr), decode w = .ok i ↔ i.wf = true ∧ encode i = w

/-- R93: a word decodes exactly when a row selects it, and then the row is the command's; no word is selected by two
rows; and the legal words are counted as the rule counts them. -/
def Obligations.LegalWordsAreThoseOfTheRows : Prop :=
  (∀ (w : Word) (i : Instr), decode w = .ok i → ∃ r ∈ opcodeRows, r.mnemonic = mnemonicOf i ∧ r.selects w = true) ∧
  (∀ w : Word, (∀ r ∈ opcodeRows, r.selects w = false) ↔ ∃ e, decode w = .error e) ∧
  opcodeRows.Pairwise (fun r r' => ∀ w : Word, ¬ (r.selects w = true ∧ r'.selects w = true)) ∧
  Claim.Count Claim.Legal 64 ∧
  ∀ p ∈ [(["GEOM"], 8), (["R2Q.S", "R2Q.A"], 8), (["NORM"], 2), (["PACK.Q4", "PACK.Q2", "PACK.Q8"], 3),
      (["UNPACK.Q4", "UNPACK.Q2", "UNPACK.Q8"], 3), (["QT.S", "QT.A"], 8), (["DQT.S", "DQT.A"], 8),
      (["QDQC.S", "QDQC.A"], 8), (["QDQR"], 8), (["LPACK.S32", "LPACK.S64", "LPACK.S128", "LPACK.A32"], 4),
      (["LUNPACK.S32", "LUNPACK.S64", "LUNPACK.S128", "LUNPACK.A32"], 4)],
    Claim.Count (fun w => ∃ i, decode w = .ok i ∧ mnemonicOf i ∈ p.1) p.2

/-- The example words of R95 decode to the commands it names, and the all-zero word to none (R94). -/
def Obligations.ExampleWordsDecode : Prop :=
  decode 0x000000C6#32 = .ok (.qtA .colWise .f32) ∧ decode 0x00000106#32 = .ok (.qtS .rowWise .f16) ∧
    decode 0x000000C1#32 = .ok (.geom .q4 .colWise true) ∧ decode 0x00000058#32 = .ok (.qdqcS .q2 .f32) ∧
    decode 0x00000008#32 = .ok (.qdqr .q4 false .f32) ∧ decode 0x00000000#32 = .error .reservedOpcode

/-! ### Launching -/

/-- A step at which the host writes a legal word to `CMD`, no command running, is the meaning of the decoded command on
the state in which the word stands in `CMD`, the context is latched, `EMPTY` and `ERR` are cleared and the phase is
`BUSY` (R23, R31, R311). -/
def Obligations.StepRunsTheDecodedCommand : Prop :=
  ∀ (s : State) (rest : List Event) (w : Word) (i : Instr),
    s.agenda = .writeReg 0 w :: rest → s.phase ≠ .busy → decode w = .ok i →
      step s = exec i (latch w { s with agenda := rest }) ∧
      latch w { s with agenda := rest } =
        { s with
          agenda := rest, regs := { s.regs with cmd := w }, ctx := { s.regs with cmd := w }, phase := .busy,
          empty := false, err := none, pending := [], flight := [], spoiled := false, launchMem := [] }

/-- Whatever word is written to `CMD` while no command runs, the word stands in `CMD` and is what the host reads
there, the context is latched, and the command is launched on that state: the meaning of the decoded command, or
`IllegalCommand` for a word that decodes to none (R23, R31, R314). No other register that the host writes changes. That a
command still runs after its launch only in tile-by-tile granularity is the model's choice between what R75 allows
(assumption 9). -/
def Obligations.WritingCmdLaunches : Prop :=
  ∀ (s : State) (rest : List Event) (w : Word),
    s.agenda = .writeReg 0 w :: rest → s.phase ≠ .busy →
      ∃ t, step s = .next t ∧ t.regs = { s.regs with cmd := w } ∧ readSlot t 0 = w ∧ t.ctx = t.regs ∧
        t.agenda = rest ∧ t.phase ≠ .idle ∧ (t.phase = .busy → s.grain = .tiled) ∧
        (∀ i, decode w = .ok i → exec i (latch w { s with agenda := rest }) = .next t) ∧
        (∀ e, decode w = .error e → t = raiseError .illegalCommand (latch w { s with agenda := rest }))

/-- R314: a word that no row selects ends in `IllegalCommand`; only `CMD` and `STATUS` change (and the hidden context,
R31). -/
def Obligations.IllegalWordIsAnError : Prop :=
  ∀ (s : State) (rest : List Event) (w : Word),
    s.agenda = .writeReg 0 w :: rest → s.phase ≠ .busy → (∀ r ∈ opcodeRows, r.selects w = false) →
      step s =
        .next
          { s with
            agenda := rest, regs := { s.regs with cmd := w }, ctx := { s.regs with cmd := w }, phase := .error,
            empty := false, err := some .illegalCommand, pending := [], flight := [], spoiled := false, launchMem := [] }

/-! ### Registers and `STATUS` -/

/-- R34 (a), (b), (c): what a host write to a slot other than 0 does, and what a slot that is not implemented reads. A
write while `BUSY`, to a read-only slot or to one that is not implemented changes nothing. -/
def Obligations.RegisterWritesAndReads : Prop :=
  (∀ (s : State) (rest : List Event) (i : Fin 32) (v : Word), s.agenda = .writeReg i v :: rest →
    (s.phase = .busy → step s = .next { s with agenda := rest }) ∧
    (s.phase ≠ .busy → i ≠ 0 → ¬ Claim.Writable i → step s = .next { s with agenda := rest }) ∧
    (s.phase ≠ .busy → Claim.Writable i →
      ∃ r, step s = .next { s with agenda := rest, regs := r } ∧
        ∀ k, readSlot { s with agenda := rest, regs := r } k = if k = i then v else readSlot s k)) ∧
  (∀ (s : State) (i : Fin 32), (13 ≤ i.val ∧ i.val ≤ 15) ∨ 23 ≤ i.val → readSlot s i = 0) ∧
  (∀ (s : State) (rest : List Event) (i : Fin 32), s.agenda = .readReg i :: rest →
    step s = .next { s with agenda := rest, readback := .reg i (readSlot s i) :: s.readback }) ∧
  (∀ s : State, s.phase = .busy → (readSlot s 1).toNat % 4 = 1)

/-- R348: result registers are written at completion only: a step that leaves the block `BUSY` or in `ERROR` leaves all
of them as they were. -/
def Obligations.ResultsAreWrittenAtCompletionOnly : Prop :=
  ∀ s t : State, step s = .next t → t.phase = .busy ∨ t.phase = .error → t.res = s.res

/-- The fields of `STATUS` stand where R24 puts them, and the column `STATUS` of R330: what the host reads there after
each outcome, while running and after reset. -/
def Obligations.StatusAfterEachOutcome : Prop :=
  (∀ s : State,
    (readSlot s 1).toNat = phaseCode s.phase + (if s.empty = true then 4 else 0) + 16 * errField s.err) ∧
  (∀ s, readSlot (complete false s) 1 = 0x00000002#32) ∧ (∀ s, readSlot (complete true s) 1 = 0x00000006#32) ∧
    (∀ s, readSlot (raiseError .illegalCommand s) 1 = 0x00000013#32) ∧
    (∀ s, readSlot (raiseError .configError s) 1 = 0x00000023#32) ∧
    (∀ s, readSlot (raiseError .unimplemented s) 1 = 0x00000033#32) ∧
    (∀ s, readSlot (raiseError .operandError s) 1 = 0x00000043#32) ∧
    (∀ s, readSlot (raiseError .addressError s) 1 = 0x00000053#32) ∧
    (∀ s, readSlot (raiseError .alignError s) 1 = 0x00000063#32) ∧
    (∀ w s, readSlot (latch w s) 1 = 0x00000001#32) ∧ readSlot State.reset 1 = 0x00000000#32

/-! ### Reset -/

/-- R39: what reset leaves. Buffer memory holds an arbitrary byte at every address: the model's `Config.powerOnByte`. -/
def Obligations.ResetState : Prop :=
  (∀ i : Fin 32, readSlot State.reset i = 0) ∧ State.reset.phase = .idle ∧ State.reset.empty = false ∧
    State.reset.err = none ∧ State.reset.pending = [] ∧ State.reset.flight = [] ∧ State.reset.ctx = HostRegs.zero ∧
    ∀ a, readByte State.reset.mem a = Config.powerOnByte a

/-- The reset event at any moment (R340, R341): registers, context and sequencer as after reset, no byte outside the
output buffers of a running command changed, every byte inside them a free value (assumption 14). -/
def Obligations.ResetEvent : Prop :=
  ∀ (s : State) (rest : List Event), s.agenda = .reset :: rest → memWf s.mem →
    ∃ t, step s = .next t ∧ (∀ i : Fin 32, readSlot t i = 0) ∧ t.phase = .idle ∧ t.empty = false ∧ t.err = none ∧
      t.ctx = HostRegs.zero ∧ t.pending = [] ∧ t.flight = [] ∧
      (s.phase ≠ .busy → t.mem = s.mem) ∧
      ∀ a, readByte t.mem a =
        if inWritten (runningExtents s) a = true then Config.freeByte s.fresh a else readByte s.mem a

/-- With no move of the host to come and no command running the block does nothing (R340). -/
def Obligations.IdleBlockDoesNothing : Prop :=
  ∀ s : State, s.agenda = [] → s.phase ≠ .busy → step s = .next s

/-! ### Buffer memory -/

/-- R61 for the host: a written range reads back as written, every other byte as before, nothing else changes; a read
returns the bytes and changes no byte. -/
def Obligations.HostWritesAndReadsMemory : Prop :=
  (∀ (s : State) (rest : List Event) (a : Word) (bytes : List Byte),
    s.agenda = .writeMem a bytes :: rest → s.phase ≠ .busy → memWf s.mem →
      a.toNat + bytes.length ≤ s.plat.memBytes →
      ∃ m, step s = .next { s with agenda := rest, mem := m } ∧ memWf m ∧
        (∀ k b, bytes[k]? = some b → readByte m (a.toNat + k) = b) ∧
        ∀ x, x < a.toNat ∨ a.toNat + bytes.length ≤ x → readByte m x = readByte s.mem x) ∧
  (∀ (s : State) (rest : List Event) (a : Word) (n : Nat),
    s.agenda = .readMem a n :: rest → s.phase ≠ .busy → a.toNat + n ≤ s.plat.memBytes →
      ∃ t bytes, step s = .next t ∧ t.mem = s.mem ∧ t.readback = .mem a bytes :: s.readback ∧ bytes.length = n ∧
        ∀ k < n, bytes[k]? = some (readByte s.mem (a.toNat + k)))

/-- R62: `MemRead` is the little-endian sum, `MemWrite` stores the little-endian bytes and nothing else, the one reads
what the other wrote, and an element has 4 or 2 bytes. -/
def Obligations.LittleEndianMemory : Prop :=
  esz .f32 = 4 ∧ esz .f16 = 2 ∧
  (∀ (m : Memory) (a n : Nat),
    memRead m a n = ((List.range n).map fun k => (readByte m (a + k)).toNat * 256 ^ k).sum) ∧
  ∀ (m : Memory) (a n v : Nat), memWf m →
    (∀ k < n, (readByte (writeCells m (wordCells a n v)) (a + k)).toNat = v / 256 ^ k % 256) ∧
    (∀ x, x < a ∨ a + n ≤ x → readByte (writeCells m (wordCells a n v)) x = readByte m x) ∧
    memRead (writeCells m (wordCells a n v)) a n = v % 256 ^ n

/-- A host move to an address that the memory does not have is a fault (R60; the model's choice, assumption 15). -/
def Obligations.HostAddressOutsideMemoryFaults : Prop :=
  (∀ (s : State) (rest : List Event) (a : Word) (bytes : List Byte),
    s.agenda = .writeMem a bytes :: rest → bytes ≠ [] → s.plat.memBytes < a.toNat + bytes.length →
      step s = .fault (.hostAddress (a.toNat + bytes.length - 1))) ∧
  (∀ (s : State) (rest : List Event) (a : Word) (n : Nat),
    s.agenda = .readMem a n :: rest → n ≠ 0 → s.plat.memBytes < a.toNat + n →
      step s = .fault (.hostAddress (a.toNat + n - 1)))

/-- The host's accesses to buffer memory at any moment, a command running or not (R61, R346; the model's choice,
assumption 13). A write stores its bytes, and makes the running command's result unspecified exactly when it touches a
buffer of it. A read gives an output byte of the running command its old or its new value, the choice open, or a free
value when the result is itself unspecified; elsewhere it gives the byte that stands there. -/
def Obligations.HostAccessWhileBusy : Prop :=
  (∀ (s : State) (rest : List Event) (a : Word) (bytes : List Byte),
    s.agenda = .writeMem a bytes :: rest → memWf s.mem → a.toNat + bytes.length ≤ s.plat.memBytes →
      ∃ m sp, step s = .next { s with agenda := rest, mem := m, spoiled := sp } ∧ memWf m ∧
        (∀ k b, bytes[k]? = some b → readByte m (a.toNat + k) = b) ∧
        (∀ x, x < a.toNat ∨ a.toNat + bytes.length ≤ x → readByte m x = readByte s.mem x) ∧
        (sp = true ↔ s.spoiled = true ∨ ∃ x, a.toNat ≤ x ∧ x < a.toNat + bytes.length ∧
          ∃ e ∈ runningExtents s, inExtent e x = true)) ∧
  (∀ (s : State) (rest : List Event) (a : Word) (n : Nat),
    s.agenda = .readMem a n :: rest → a.toNat + n ≤ s.plat.memBytes →
      ∃ bytes,
        step s = .next { s with agenda := rest, readback := .mem a bytes :: s.readback, fresh := s.fresh + 1 } ∧
        bytes.length = n ∧
        ∀ k < n, ∃ b, bytes[k]? = some b ∧
          (inWritten (runningExtents s) (a.toNat + k) = false → b = readByte s.mem (a.toNat + k)) ∧
          (inWritten (runningExtents s) (a.toNat + k) = true → s.spoiled = true →
            b = Config.freeByte s.fresh (a.toNat + k)) ∧
          (inWritten (runningExtents s) (a.toNat + k) = true → s.spoiled = false →
            ∀ j cells, contextJob s.ctx = some j → jobResult j s.ctx s.launchMem = some cells →
              b = if Config.freeChoice s.fresh (a.toNat + k) = true then readByte s.launchMem (a.toNat + k)
                else readByte (writeCells s.launchMem cells) (a.toNat + k))) ∧
  ∀ (j : Job) (s : State) (choices : List Nat) (x : Nat), contextJob s.ctx = some j → Passes j s → Specified j s →
    (Claim.schedule (dispatchTiles j s) choices).phase = .busy → inWritten (jobExtents j s.ctx) x = true →
      hostReadByte (Claim.schedule (dispatchTiles j s) choices) x =
        if Config.freeChoice s.fresh x = true then readByte s.mem x else readByte (performAll j s).mem x

/-! ### Floating point -/

/-- `f32` and `bits32` are inverses on finite values, `f16` and `bits16` too; narrowing gives back what widening a
binary16 value gave; every result of the binary32 operations is a finite binary32 value, and every narrowed value a
binary16 value (R10). -/
def Obligations.FloatPatternsRoundTrip : Prop :=
  (∀ (b : BitVec 32) (f : Flt), f32 b = some f → bits32 f = b) ∧
  (∀ (b : BitVec 16) (f : Flt), f16 b = some f → bits16 f = b ∧ narrow f = some f ∧ Claim.IsBinary32 f) ∧
  (∀ (neg : Bool) (num den : Nat) (f : Flt), 0 < den → round32 neg num den = some f → Claim.IsBinary32 f) ∧
  (∀ a f : Flt, narrow a = some f → Claim.IsBinary16 f)

/-- Rounding is to nearest, ties to even (R10): the result is a number `m * 2^e` with a `p`-bit significand, no such
number is nearer to `num / den`, and when another one is equally near, the result's significand, counted in units of
the last place of `num / den`, is even. Distances are compared after multiplying by `den`. -/
def Obligations.RoundingIsToNearest : Prop :=
  ∀ p num den : Nat, 0 < p → 0 < den →
    (∃ m e, m ≤ 2 ^ p ∧ roundTo p num den = m * 2 ^ e) ∧
    ∀ m e : Nat, m ≤ 2 ^ p →
      ((roundTo p num den * den : Nat) - (num : Nat) : Int).natAbs ≤
          ((m * 2 ^ e * den : Nat) - (num : Nat) : Int).natAbs ∧
        (((roundTo p num den * den : Nat) - (num : Nat) : Int).natAbs =
            ((m * 2 ^ e * den : Nat) - (num : Nat) : Int).natAbs →
          m * 2 ^ e ≠ roundTo p num den → 2 ^ (Nat.log2 (num / den) + 1 - p) * 2 ∣ roundTo p num den)

/-! ### Scalar commands -/

/-- R135: `GEOM` writes the seven values of R131, or ends in `ConfigError` when one is `2^32` or more (R137), or writes
seven zeros and sets `EMPTY` for a block size that is not supported (R134). -/
def Obligations.GeomComputesTheGeometry : Prop :=
  ∀ (w : Width) (o : Orient) (zpen : Bool) (s : State),
    let rows := s.ctx.rows.toNat
    let cols := s.ctx.cols.toNat
    let blk := s.ctx.blksz.toNat
    let br := match o with | .colWise => blk | .rowWise => 1
    let bc := match o with | .colWise => 1 | .rowWise => blk
    let mr := ceilDiv rows br
    let mc := ceilDiv cols bc
    let qr := ceilDiv (mr * br * qbits w) 8
    let qc := mc * bc
    let zb := if zpen = true then ceilDiv (mr * qbits w) 8 * mc else 0
    (blk ∈ [16, 32, 64, 128, 256] → (∀ n ∈ [mr, mc, qr, qc, qr * qc, mr * mc, zb], n < 2 ^ 32) →
      exec (.geom w o zpen) s =
        .next (complete false { s with res := { res0 := BitVec.ofNat 32 mr, res1 := BitVec.ofNat 32 mc,
                                                res2 := BitVec.ofNat 32 qr, res3 := BitVec.ofNat 32 qc,
                                                res4 := BitVec.ofNat 32 (qr * qc),
                                                res5 := BitVec.ofNat 32 (mr * mc), res6 := BitVec.ofNat 32 zb } })) ∧
    (blk ∈ [16, 32, 64, 128, 256] → (∃ n ∈ [mr, mc, qr, qc, qr * qc, mr * mc, zb], 2 ^ 32 ≤ n) →
      exec (.geom w o zpen) s = .next (raiseError .configError s)) ∧
    (blk ∉ [16, 32, 64, 128, 256] →
      exec (.geom w o zpen) s =
        .next (complete true { s with res := { res0 := 0, res1 := 0, res2 := 0, res3 := 0, res4 := 0, res5 := 0,
                                               res6 := 0 } }))

/-- The shape law of R133, the packed shape of R132 and the bounds of R137, for every supported block size. -/
def Obligations.GeometryShapeLaw : Prop :=
  ∀ (rows cols blk : Nat) (w : Width) (o : Orient) (zpen : Bool), blk ∈ [16, 32, 64, 128, 256] →
    let g := geometry rows cols blk w o zpen
    rows ≤ g.metaRows * blockRows o blk ∧ cols ≤ g.metaCols * blockCols o blk ∧
      (1 ≤ rows → g.metaRows * blockRows o blk - blockRows o blk < rows) ∧
      (1 ≤ cols → g.metaCols * blockCols o blk - blockCols o blk < cols) ∧
      g.qBytes = g.qRows * g.qCols ∧
      g.metaRows * blockRows o blk * qbits w * (g.metaCols * blockCols o blk) ≤ g.qRows * g.qCols * 8 ∧
      (w = .q4 → o = .colWise → 2 * g.qRows = g.metaRows * blk) ∧
      (w = .q4 → o = .rowWise → g.qRows = ceilDiv rows 2) ∧
      (w.isNarrow = true → rows < 2 ^ 32 → cols < 2 ^ 32 →
        g.metaRows < 2 ^ 32 ∧ g.metaCols < 2 ^ 32 ∧ g.qRows < 2 ^ 32 ∧ g.qCols ≤ 2 ^ 32)

/-- R162: `R2Q.S` writes the scale of R152 in the element type and `mid`. -/
def Obligations.SymmetricRangeToScale : Prop :=
  ∀ (w : Width) (et : ElemType) (s : State) (lo hi scale : Flt) (bits : Nat),
    f32 s.ctx.opa = some lo → f32 s.ctx.opb = some hi →
    fdiv (if (value lo).natAbs ≤ (value hi).natAbs then hi else lo) (fneg (ofNat (2 ^ (qbits w - 1)))) = some scale →
    elemBits et scale = some bits →
      exec (.r2qS w et) s =
        .next (complete false { s with res := { s.res with res0 := BitVec.ofNat 32 bits,
                                                           res1 := BitVec.ofNat 32 (2 ^ (qbits w - 1)) } })

/-- R152: the symmetric scale is the end of larger magnitude, `max` on a tie, over `-mid`; it always exists, has the sign
opposite to that end, and is the exact quotient unless that is subnormal. -/
def Obligations.SymmetricScaleLaw : Prop :=
  ∀ (w : Width) (lo hi : Flt), w.isNarrow = true → Claim.IsBinary32 lo → Claim.IsBinary32 hi →
    let v := if lo.mag ≤ hi.mag then hi else lo
    ∃ scale, range2scale lo hi w = some scale ∧ fdiv v (fneg (ofNat (2 ^ (qbits w - 1)))) = some scale ∧
      scale.neg = (!v.neg) ∧
      (2 ^ 23 * mid w ≤ v.mag → scale.mag * mid w = v.mag)

/-- R163 with R153: `R2Q.A` writes the scale and the zero point of the range with zero forced into it. -/
def Obligations.AsymmetricRangeToScale : Prop :=
  ∀ (w : Width) (et : ElemType) (s : State) (lo hi range scale zf : Flt) (bits : Nat),
    f32 s.ctx.opa = some lo → f32 s.ctx.opb = some hi →
    fsub (if 0 < value hi then hi else ofNat 0) (if value lo < 0 then lo else ofNat 0) = some range →
    fdiv range (ofNat (2 ^ qbits w - 1)) = some scale →
    (if isZero scale = true then some (if value lo < 0 then lo else ofNat 0)
      else fdiv (fneg (if value lo < 0 then lo else ofNat 0)) scale) = some zf →
    elemBits et scale = some bits →
      exec (.r2qA w et) s =
        .next (complete false
          { s with res := { s.res with
              res0 := BitVec.ofNat 32 bits,
              res1 := BitVec.ofNat 32
                (toNat (roundAway (clampF zf (ofNat 0) (ofNat (2 ^ qbits w - 1))))) } })

/-- R159: the ends of a scanned block are the first element of least value and the first of greatest; a block without
elements has none. -/
def Obligations.BlockScanFindsTheEnds : Prop :=
  blockScan [] = none ∧
  ∀ (xs : List Flt), xs ≠ [] →
    ∃ (i j : Nat) (lo hi : Flt), blockScan xs = some (lo, hi) ∧ xs[i]? = some lo ∧ xs[j]? = some hi ∧
      (∀ x ∈ xs, value lo ≤ value x ∧ value x ≤ value hi) ∧
      (∀ k < i, ∀ x, xs[k]? = some x → value lo < value x) ∧ ∀ k < j, ∀ x, xs[k]? = some x → value x < value hi

/-- R154 and R159: a block of zeros has a zero scale in both modes, in symmetric mode of the sign opposite to its first
zero, and in asymmetric mode `+0.0` with zero point 0. -/
def Obligations.ZeroBlockHasZeroScale : Prop :=
  ∀ (w : Width) (x : Flt) (xs : List Flt), (∀ y ∈ x :: xs, isZero y = true) →
    ∃ lo hi, blockScan (x :: xs) = some (lo, hi) ∧ range2scale lo hi w = some { neg := !x.neg, mag := 0 } ∧
      range2scalezp lo hi w = some ({ neg := false, mag := 0 }, 0)

/-- R176 and R177: `NORM` writes the code and the reciprocal scale, and a zero point above `qmax` is an
`OperandError`. -/
def Obligations.NormQuantizesOneValue : Prop :=
  ∀ (w : Width) (s : State),
    (2 ^ qbits w - 1 < s.ctx.opc.toNat → exec (.norm w) s = .next (raiseError .operandError s)) ∧
    ∀ (v scale rs p x : Flt), s.ctx.opc.toNat ≤ 2 ^ qbits w - 1 →
      f32 s.ctx.opa = some v → f32 s.ctx.opb = some scale →
      (if isZero scale = true then some (ofNat 0) else fdiv (ofNat 1) scale) = some rs →
      fmul v rs = some p → fadd p (ofNat s.ctx.opc.toNat) = some x →
        exec (.norm w) s =
          .next (complete false
            { s with res := { s.res with
                res0 := BitVec.ofNat 32 (toNat (clampF (roundAway x) (ofNat 0) (ofNat (2 ^ qbits w - 1)))),
                res1 := bits32 rs } })

/-- R156 and R172: a zero point is at most `qmax`; a code is in range before packing, by any of the three mappings; and in
symmetric mode the element opposite to the extreme one is clamped (the example of the rule). -/
def Obligations.CodesAndZeroPointsInRange : Prop :=
  (∀ (w : Width) (lo hi scale : Flt) (zp : Nat), range2scalezp lo hi w = some (scale, zp) → zp ≤ 2 ^ qbits w - 1) ∧
  (∀ (v scale : Flt) (zp : Nat) (w : Width) (c : Nat), quantize v scale zp w = some c → c ≤ 2 ^ qbits w - 1) ∧
  (∀ (v rs : Flt) (c : Nat), legacySymCode v rs = some c → c ≤ 15) ∧
  (∀ (v rs : Flt) (zp c : Nat), legacyAsymCode v rs zp = some c → c ≤ 15) ∧
  quantize (fneg (ofNat 8)) (fneg (ofNat 1)) 8 .q4 = some 15

/-- R173: a zero scale of either sign gives every value the zero point as its code, in symmetric mode `mid`. -/
def Obligations.ZeroScaleGivesTheZeroPoint : Prop :=
  ∀ (w : Width) (v scale : Flt) (zp : Nat), isZero scale = true → zp ≤ 2 ^ qbits w - 1 →
    quantize v scale zp w = some zp ∧ quantize v scale (mid w) w = some (2 ^ (qbits w - 1))

/-- R189 and R191: `PACK` puts the used lanes of `OPA` in one byte, and a used lane above `qmax` is an
`OperandError`. R190: `UNPACK` spreads the low byte of `OPA` over the lanes of `RES0`. -/
def Obligations.PackAndUnpackLanes : Prop :=
  ∀ (w : Width) (s : State),
    let v := fun i : Nat => (s.ctx.opa.toNat / 256 ^ i) % 256
    ((∀ i < 8 / qbits w, v i ≤ 2 ^ qbits w - 1) →
      exec (Claim.packInstr w) s =
        .next (complete false
          { s with res := { s.res with
              res0 := BitVec.ofNat 32 ((List.range (8 / qbits w)).map fun i => v i * 2 ^ (i * qbits w)).sum } })) ∧
    ((∃ i < 8 / qbits w, 2 ^ qbits w - 1 < v i) →
      exec (Claim.packInstr w) s = .next (raiseError .operandError s)) ∧
    exec (Claim.unpackInstr w) s =
      .next (complete false
        { s with res := { s.res with
            res0 := BitVec.ofNat 32
              ((List.range (8 / qbits w)).map fun i =>
                (s.ctx.opa.toNat % 256 / 2 ^ (i * qbits w)) % 2 ^ qbits w * 2 ^ (8 * i)).sum } })

/-- R188: packing and unpacking are inverses of each other. -/
def Obligations.PackAndUnpackAreInverse : Prop :=
  (∀ (w : Width) (values : List Nat), values.length = perByte w → (∀ v ∈ values, v ≤ 2 ^ qbits w - 1) →
    unpack w (pack w values) = values) ∧
  ∀ (w : Width) (b : Byte), pack w (unpack w b) = b

/-- A scalar command that meets a non-finite value, as an operand or as what one of its operations overflows to, completes
with `STATUS` as after any other (R323): whenever the values of SymmetricRangeToScale, AsymmetricRangeToScale or
NormQuantizesOneValue do not all exist. Its two result registers hold free values (R178; the model's choice,
assumptions 5 and 7) and nothing else changes. -/
def Obligations.NonFiniteScalarCompletes : Prop :=
  ∀ (w : Width) (et : ElemType) (s : State),
    let t := complete false
      { s with res := { s.res with res0 := Config.freeWord s.fresh 0, res1 := Config.freeWord s.fresh 1 },
               fresh := s.fresh + 1 }
    (f32 s.ctx.opa = none ∨ f32 s.ctx.opb = none →
      exec (.r2qS w et) s = .next t ∧ exec (.r2qA w et) s = .next t ∧
        (s.ctx.opc.toNat ≤ 2 ^ qbits w - 1 → exec (.norm w) s = .next t)) ∧
    ((¬ ∃ (lo hi scale : Flt) (bits : Nat), f32 s.ctx.opa = some lo ∧ f32 s.ctx.opb = some hi ∧
        fdiv (if (value lo).natAbs ≤ (value hi).natAbs then hi else lo) (fneg (ofNat (2 ^ (qbits w - 1)))) =
          some scale ∧
        elemBits et scale = some bits) → exec (.r2qS w et) s = .next t) ∧
    ((¬ ∃ (lo hi range scale zf : Flt) (bits : Nat), f32 s.ctx.opa = some lo ∧ f32 s.ctx.opb = some hi ∧
        fsub (if 0 < value hi then hi else ofNat 0) (if value lo < 0 then lo else ofNat 0) = some range ∧
        fdiv range (ofNat (2 ^ qbits w - 1)) = some scale ∧
        (if isZero scale = true then some (if value lo < 0 then lo else ofNat 0)
          else fdiv (fneg (if value lo < 0 then lo else ofNat 0)) scale) = some zf ∧
        elemBits et scale = some bits) → exec (.r2qA w et) s = .next t) ∧
    (s.ctx.opc.toNat ≤ 2 ^ qbits w - 1 →
      (¬ ∃ v scale rs p x : Flt, f32 s.ctx.opa = some v ∧ f32 s.ctx.opb = some scale ∧
        (if isZero scale = true then some (ofNat 0) else fdiv (ofNat 1) scale) = some rs ∧
        fmul v rs = some p ∧ fadd p (ofNat s.ctx.opc.toNat) = some x) → exec (.norm w) s = .next t)

/-! ### Bulk commands: checks -/

/-- R321: a block size that is not supported is no error: `QT`, `DQT` and `QDQC` complete with `EMPTY` set and touch
nothing, `GEOM` writes seven zeros; whatever the other registers hold. The legacy commands have no such path: whatever
`BLKSZ` holds, none of them sets `EMPTY`. -/
def Obligations.UnsupportedBlockSizeDegradesSilently : Prop :=
  (∀ (i : Instr) (j : Job) (s : State), jobOf i = some j → Claim.unsupported j s.ctx →
    exec i s = .next (complete true s)) ∧
  (∀ (w : Width) (o : Orient) (zpen : Bool) (s : State), s.ctx.blksz.toNat ∉ [16, 32, 64, 128, 256] →
    exec (.geom w o zpen) s = .next (complete true { s with res := Results.zero })) ∧
  ∀ (v : Legacy) (i : Instr) (s : State), i = Claim.lpackInstr v ∨ i = Claim.lunpackInstr v →
    ∃ t, exec i s = .next t ∧ t.empty = false

/-- The causes of R315 end the command in `ConfigError`, and nothing else does. That the ScaleBuffer of `QDQC` is counted
in elements, as R252 gives its size, is the model's reading (assumption 16). -/
def Obligations.ConfigErrorCauses : Prop :=
  (∀ (i : Instr) (j : Job) (s : State), jobOf i = some j → ¬ Claim.unsupported j s.ctx →
    Claim.configCause j s.ctx → exec i s = .next (raiseError .configError s)) ∧
  (∀ (w : Width) (o : Orient) (zpen : Bool) (s : State), s.ctx.blksz.toNat ∈ [16, 32, 64, 128, 256] →
    Claim.geometryTooLarge (geometry s.ctx.rows.toNat s.ctx.cols.toNat s.ctx.blksz.toNat w o zpen) →
      exec (.geom w o zpen) s = .next (raiseError .configError s)) ∧
  ∀ (i : Instr) (s t : State), exec i s = .next t → t.err = some .configError →
    (∃ j, jobOf i = some j ∧ ¬ Claim.unsupported j s.ctx ∧ Claim.configCause j s.ctx) ∨
      ∃ w o zpen, i = .geom w o zpen ∧ s.ctx.blksz.toNat ∈ [16, 32, 64, 128, 256] ∧
        Claim.geometryTooLarge (geometry s.ctx.rows.toNat s.ctx.cols.toNat s.ctx.blksz.toNat w o zpen)

/-- A misaligned floating-point buffer ends a command that met no earlier test in `AlignError`, whatever the sizes are
(R316), and nothing else does. What counts as an earlier `ConfigError` of `QDQC` is the model's reading
(assumption 16). -/
def Obligations.AlignErrorCause : Prop :=
  (∀ (i : Instr) (j : Job) (s : State), jobOf i = some j → ¬ Claim.unsupported j s.ctx →
    ¬ Claim.configCause j s.ctx → Claim.alignCause j s.ctx → exec i s = .next (raiseError .alignError s)) ∧
  ∀ (i : Instr) (s t : State), exec i s = .next t → t.err = some .alignError →
    ∃ j, jobOf i = some j ∧ ¬ Claim.unsupported j s.ctx ∧ ¬ Claim.configCause j s.ctx ∧ Claim.alignCause j s.ctx

/-- A used buffer of non-zero size that leaves memory ends a command that met no earlier test in `AddressError` (R317),
and nothing else does; a buffer that is not used is not tested. That a ScaleBuffer of `QDQC` with fewer than `2^32`
elements but `2^32` bytes or more ends here, and not in `ConfigError`, is the model's reading (assumption 16). -/
def Obligations.AddressErrorCause : Prop :=
  (∀ (i : Instr) (j : Job) (s : State), jobOf i = some j → ¬ Claim.unsupported j s.ctx →
    ¬ Claim.configCause j s.ctx → ¬ Claim.alignCause j s.ctx →
    Claim.addressCause j s.ctx s.plat.memBytes → exec i s = .next (raiseError .addressError s)) ∧
  ∀ (i : Instr) (s t : State), exec i s = .next t → t.err = some .addressError →
    ∃ j, jobOf i = some j ∧ ¬ Claim.unsupported j s.ctx ∧ ¬ Claim.configCause j s.ctx ∧
      ¬ Claim.alignCause j s.ctx ∧ Claim.addressCause j s.ctx s.plat.memBytes

/-- A bulk command passes its checks exactly when none of tests 4 to 7 of R319 meets it. The part of test 5 that counts the
ScaleBuffer of `QDQC` in elements is the model's reading (assumption 16). -/
def Obligations.PassingTheChecks : Prop :=
  ∀ (j : Job) (s : State),
    Passes j s ↔ ¬ Claim.unsupported j s.ctx ∧ ¬ Claim.configCause j s.ctx ∧ ¬ Claim.alignCause j s.ctx ∧
      ¬ Claim.addressCause j s.ctx s.plat.memBytes

/-- R318 and R260: `QDQR` fails, whatever the registers hold. -/
def Obligations.QdqrAlwaysFails : Prop :=
  ∀ (w : Width) (zpen : Bool) (et : ElemType) (s : State),
    exec (.qdqr w zpen et) s = .next (raiseError .unimplemented s)

/-- R312: a command that ends in error leaves an error code, `EMPTY` clear and no tile pending, and every register, every
result and all of buffer memory as they were. -/
def Obligations.ErrorsWriteNothing : Prop :=
  ∀ (i : Instr) (s t : State), exec i s = .next t → t.phase = .error →
    t.err ≠ none ∧ t.empty = false ∧ t.pending = [] ∧ t.flight = [] ∧ t.regs = s.regs ∧ t.ctx = s.ctx ∧
      t.res = s.res ∧ t.mem = s.mem

/-- R67: buffers clash when some byte lies in two of them and the command writes one of the two. -/
def Obligations.ClashMeansASharedByte : Prop :=
  ∀ es : List Extent,
    anyClash es = false ↔
      es.Pairwise fun x y => (x.written = true ∨ y.written = true) →
        ∀ a, ¬ (inExtent x a = true ∧ inExtent y a = true)

/-! ### Bulk commands: results -/

/-- R208: what `QT.S` and `QT.A` write, and that they write nothing else. -/
def Obligations.QtWritesItsResult : Prop :=
  ∀ (o : Orient) (et : ElemType) (s : State),
    (Claim.Ready (.qt false o et) s → Claim.QtDefined false o et s.ctx s.mem →
      ∃ m, exec (.qtS o et) s = .next (complete false { s with mem := m }) ∧ memWf m ∧
        Claim.QtResult false o et s.ctx s.mem m) ∧
    (Claim.Ready (.qt true o et) s → Claim.QtDefined true o et s.ctx s.mem →
      ∃ m, exec (.qtA o et) s = .next (complete false { s with mem := m }) ∧ memWf m ∧
        Claim.QtResult true o et s.ctx s.mem m)

/-- R237 with R234: what `DQT.S` and `DQT.A` write, and that they write nothing else. -/
def Obligations.DqtWritesItsResult : Prop :=
  ∀ (o : Orient) (et : ElemType) (s : State),
    (Claim.Ready (.dqt false o et) s → Claim.DqtDefined false o et s.ctx s.mem →
      ∃ m, exec (.dqtS o et) s = .next (complete false { s with mem := m }) ∧ memWf m ∧
        Claim.DqtResult false o et s.ctx s.mem m) ∧
    (Claim.Ready (.dqt true o et) s → Claim.DqtDefined true o et s.ctx s.mem →
      ∃ m, exec (.dqtA o et) s = .next (complete false { s with mem := m }) ∧ memWf m ∧
        Claim.DqtResult true o et s.ctx s.mem m)

/-- R258: what `QDQC.S` and `QDQC.A` write, and that they write nothing else. -/
def Obligations.QdqcWritesItsResult : Prop :=
  ∀ (w : Width) (et : ElemType) (s : State), w.isNarrow = true →
    (Claim.Ready (.qdqc false w et) s → Claim.QdqcDefined false w et s.ctx s.mem →
      ∃ m, exec (.qdqcS w et) s = .next (complete false { s with mem := m }) ∧ memWf m ∧
        Claim.QdqcResult false w et s.ctx s.mem m) ∧
    (Claim.Ready (.qdqc true w et) s → Claim.QdqcDefined true w et s.ctx s.mem →
      ∃ m, exec (.qdqcA w et) s = .next (complete false { s with mem := m }) ∧ memWf m ∧
        Claim.QdqcResult true w et s.ctx s.mem m)

/-- R292 with R281 and R282: what each `LPACK` writes, and that it writes nothing else. -/
def Obligations.LpackWritesItsResult : Prop :=
  ∀ (v : Legacy) (s : State), Claim.Ready (.lpack v) s → Claim.LpackDefined v s.ctx s.mem →
    ∃ m, exec (Claim.lpackInstr v) s = .next (complete false { s with mem := m }) ∧ memWf m ∧
      Claim.LpackResult v s.ctx s.mem m

/-- R292 with R287: what each `LUNPACK` writes, and that it writes nothing else. -/
def Obligations.LunpackWritesItsResult : Prop :=
  ∀ (v : Legacy) (s : State), Claim.Ready (.lunpack v) s → Claim.LunpackDefined v s.ctx s.mem →
    ∃ m, exec (Claim.lunpackInstr v) s = .next (complete false { s with mem := m }) ∧ memWf m ∧
      Claim.LunpackResult v s.ctx s.mem m

/-- R238: a block of zeros has a zero scale in both modes; a zero scale dequantizes every code to a zero, whatever the
zero point, and the zero has the sign of the product. -/
def Obligations.ZeroScaleDequantizesToZero : Prop :=
  (∀ (asym : Bool) (w : Width) (xs : List Flt), xs ≠ [] → (∀ x ∈ xs, isZero x = true) →
    ∃ lo hi p, blockScan xs = some (lo, hi) ∧ quantParams asym w lo hi = some p ∧ isZero p.1 = true) ∧
  ∀ (q z : Nat) (scale : Flt), q ≤ 15 → z ≤ 255 → isZero scale = true →
    ∃ d x, fsub (ofNat q) (ofNat z) = some d ∧ value d = (unitOne : Int) * ((q : Int) - z) ∧ (q = z → d.neg = false) ∧
      fmul d scale = some x ∧ isZero x = true ∧ x.neg = (d.neg != scale.neg)

/-- A bulk command that passes its checks and whose result is unspecified (R67, R178) completes with `STATUS` as after
any other (R323), as one step or tile by tile (R75); every byte of its output buffers is a free value and no other byte
changes (the model's choice, assumptions 5 and 6). -/
def Obligations.UnspecifiedBulkCompletes : Prop :=
  ∀ (i : Instr) (j : Job) (s : State), jobOf i = some j → Passes j s → ¬ Specified j s → memWf s.mem →
    (s.grain = .atomic →
      ∃ m, exec i s = .next (complete false { s with mem := m, fresh := s.fresh + 1 }) ∧ memWf m ∧
        Claim.OutputsFree (jobExtents j s.ctx) s.fresh s.mem m) ∧
    (s.grain = .tiled → contextJob s.ctx = some j →
      exec i s = .next (dispatchTiles j s) ∧ (dispatchTiles j s).spoiled = true ∧
        ∀ choices, (Claim.schedule (dispatchTiles j s) choices).phase ≠ .busy →
          ∃ m, Claim.schedule (dispatchTiles j s) choices =
              complete false { s with mem := m, fresh := s.fresh + 1 } ∧
            memWf m ∧ Claim.OutputsFree (jobExtents j s.ctx) s.fresh s.mem m)

/-! ### Bulk commands: buffers, tiles and schedules -/

/-- A bulk command writes only inside the buffers that R28 says it writes, and every tile only there (R60, R66). -/
def Obligations.WritesStayInTheOutputBuffers : Prop :=
  ∀ (j : Job) (c : HostRegs) (m : Memory) (t : Tile) (cells : List Host.Cell),
    jobEmpty j c = false → jobConfigError j c = false → t ∈ jobTiles j c → jobTileCells j c m t = some cells →
      ∀ x ∈ cells, inWritten (jobExtents j c) x.1 = true

/-- What a bulk command writes depends on no byte outside its buffers (R60, R342). -/
def Obligations.ReadsStayInTheBuffers : Prop :=
  ∀ (j : Job) (c : HostRegs) (m m' : Memory), jobEmpty j c = false → jobConfigError j c = false →
    (∀ e ∈ jobExtents j c, ∀ a, inExtent e a = true → readByte m a = readByte m' a) →
      jobResult j c m = jobResult j c m'

/-- R69: two tiles of a command share no output byte, and what a tile writes does not depend on whether another tile has
been performed before it. -/
def Obligations.TilesAreIndependent : Prop :=
  ∀ (j : Job) (c : HostRegs) (m : Memory) (t u : Tile) (cells cells' : List Host.Cell),
    jobEmpty j c = false → jobConfigError j c = false → anyClash (jobExtents j c) = false → memWf m →
      t ∈ jobTiles j c → u ∈ jobTiles j c → t ≠ u →
      jobTileCells j c m t = some cells → jobTileCells j c m u = some cells' →
        (∀ x ∈ cells, ∀ y ∈ cells', x.1 ≠ y.1) ∧ jobTileCells j c (writeCells m cells) u = some cells'

/-- R73: the tiles performed one after the other in any order leave the same memory. -/
def Obligations.TileOrderIsNotObservable : Prop :=
  ∀ (j : Job) (c : HostRegs) (m : Memory) (cells : List Host.Cell) (order : List Tile),
    jobEmpty j c = false → jobConfigError j c = false → memWf m → jobResult j c m = some cells →
      order.Perm (jobTiles j c) → Claim.performInOrder j c m order = writeCells m cells

/-- R36: whichever pending tile the workers take next, some choice in the model's agenda takes it: when the tile is in
flight or a worker is free, the step begins the tile, takes it to its next stage or ends it, and leaves the other tiles
alone. When neither is so the choice takes the tile begun first instead (the model's choice, assumption 22). -/
def Obligations.AnyPendingTileMayGoNext : Prop :=
  ∀ (s : State) (j : Job) (t : Tile), Inv s → s.phase = .busy → contextJob s.ctx = some j → t ∈ s.pending →
    ∃ k, ∀ rest,
      ((∃ f ∈ s.flight, f.tile = t) ∨ s.flight.length < s.plat.workers →
        Claim.TakesOn j t { s with agenda := rest } (step { s with agenda := .worker k :: rest })) ∧
      ∀ f more, s.flight = f :: more → (∀ g ∈ s.flight, g.tile ≠ t) → s.plat.workers ≤ s.flight.length →
        Claim.TakesOn j f.tile { s with agenda := rest } (step { s with agenda := .worker k :: rest })

/-- A bulk command that passes its checks is performed by its launch as one step, or leaves every tile pending and the
phase `BUSY`, as the field `grain` says (the model's choice between what R75 allows, assumption 9). A specified command run
tile by tile, whatever the schedule and the number of workers, is in the end in the state that it reaches as one step
(R75). -/
def Obligations.TiledRunEqualsAtomicRun : Prop :=
  (∀ (i : Instr) (j : Job) (s : State), jobOf i = some j → Passes j s →
    (s.grain = .atomic → exec i s = .next (performAll j s)) ∧
    (s.grain = .tiled →
      exec i s = .next (dispatchTiles j s) ∧ (dispatchTiles j s).phase = .busy ∧
        (dispatchTiles j s).pending = jobTiles j s.ctx ∧ (dispatchTiles j s).flight = [] ∧
        (dispatchTiles j s).mem = s.mem ∧ ((dispatchTiles j s).spoiled = true ↔ ¬ Specified j s))) ∧
  ∀ (j : Job) (s : State) (choices : List Nat), contextJob s.ctx = some j → Passes j s → Specified j s →
    memWf s.mem →
      (Claim.schedule (dispatchTiles j s) choices).phase ≠ .busy →
        Claim.schedule (dispatchTiles j s) choices = performAll j s

/-- A running command that the host leaves alone ends in `DONE` (R327, R356), here after at most five steps for each
pending tile and one more. The bound is the model's choice, not the spec's: the five steps of a tile (assumption 25), the
tile that goes on next (assumption 22), and that the command goes on by itself when the agenda is empty
(assumption 11). The host's `WAIT` (R95) reads `STATUS`, and while the phase is `BUSY` the command goes on by one step
(assumption 22) and the wait is repeated. It is over one step after the command is, and the last `STATUS` it has read is
that of `DONE`. -/
def Obligations.RunningCommandEnds : Prop :=
  (∀ s : State, Inv s → s.phase = .busy → s.agenda = [] →
    ∃ t, Claim.steps (5 * s.pending.length + 1) s = some t ∧ t.phase = .done) ∧
  (∀ (s : State) (rest : List Event), s.agenda = .wait :: rest →
    (s.phase ≠ .busy →
      step s = .next { s with agenda := rest, readback := .reg 1 (readSlot s 1) :: s.readback }) ∧
    (s.phase = .busy →
      step s = .next { progress 0 { s with agenda := rest, readback := .reg 1 (readSlot s 1) :: s.readback } with
                       agenda := .wait :: rest })) ∧
  ∀ (s : State) (rest : List Event), Inv s → s.phase = .busy → s.agenda = .wait :: rest →
    ∃ n t older, n ≤ 5 * s.pending.length + 2 ∧ Claim.steps n s = some t ∧ t.phase = .done ∧ t.agenda = rest ∧
      t.readback = .reg 1 0x00000002#32 :: older

/-- R327 and R330: as one step, every command ends in `DONE` or in `ERROR`, and changes nothing but results, memory and
the sequencer's own fields. -/
def Obligations.EveryCommandEnds : Prop :=
  ∀ (i : Instr) (s : State), s.grain = .atomic →
    ∃ t, exec i s = .next t ∧ (t.phase = .done ∨ t.phase = .error) ∧ t.pending = [] ∧ t.flight = [] ∧
      t.spoiled = false ∧ t.launchMem = [] ∧ (t.err ≠ none ↔ t.phase = .error) ∧ t.regs = s.regs ∧ t.ctx = s.ctx ∧
      t.plat = s.plat ∧ t.grain = s.grain ∧ t.agenda = s.agenda ∧ t.readback = s.readback ∧
      (t.res = s.res ∨ t.mem = s.mem)

/-- Which result registers a command may change (R29). -/
def Obligations.OtherResultsAreKept : Prop :=
  ∀ (i : Instr) (s t : State), exec i s = .next t →
    (jobOf i ≠ none → t.res = s.res) ∧
    ((∀ w o z, i ≠ .geom w o z) →
      t.res.res2 = s.res.res2 ∧ t.res.res3 = s.res.res3 ∧ t.res.res4 = s.res.res4 ∧ t.res.res5 = s.res.res5 ∧
        t.res.res6 = s.res.res6) ∧
    (∀ w, i = Claim.packInstr w ∨ i = Claim.unpackInstr w → t.res.res1 = s.res.res1) ∧
    (jobOf i = none → t.mem = s.mem)

/-- What a command does depends on its context and on buffer memory, not on what earlier commands left in the registers'
other copies, the phase, `EMPTY`, `ERR` or the tiles (R16). Where the result is unspecified (R67, R178) this is the model's
choice: the two runs agree on their free values because those are functions of the counter `fresh`, which the hypotheses
make equal (assumptions 5 and 8). -/
def Obligations.NoStateFromEarlierCommands : Prop :=
  ∀ (i : Instr) (s s' t : State), s.ctx = s'.ctx → s.mem = s'.mem → s.res = s'.res → s.plat = s'.plat →
    s.grain = s'.grain → s.fresh = s'.fresh → exec i s = .next t →
      exec i s' = .next { t with regs := s'.regs, agenda := s'.agenda, readback := s'.readback }

/-! ### The invariant -/

/-- Every step keeps the invariant of Safety.lean: parameters in range (R7), legal `STATUS` (R24), tiles and scratch only while `BUSY` (R30, R32,
R37), a context equal to the registers (R31), and memory in canonical form inside `MEM_BYTES` (R60). -/
def Obligations.EveryStepKeepsTheInvariant : Prop :=
  ∀ s t : State, Inv s → step s = .next t → Inv t

/-- The invariant holds at reset. -/
def Obligations.ResetHasTheInvariant : Prop := Inv State.reset

/-! ### A run that the host has disturbed, and the arithmetic -/

/-- A command run tile by tile whose result has become unspecified, by a host write to one of its buffers (R346) or from
its launch (R67, R178), completes with `STATUS` as after any other (R323): whenever the tiles are over, every byte of its
output buffers is a free value and no other byte has changed (the model's choice, assumptions 5, 6 and 13). -/
def Obligations.SpoiledRunFreesItsOutputs : Prop :=
  ∀ (s : State) (choices : List Nat), Inv s → s.phase = .busy → s.spoiled = true →
    (Claim.schedule s choices).phase ≠ .busy →
      ∃ m, Claim.schedule s choices = complete false { s with mem := m, fresh := s.fresh + 1 } ∧ memWf m ∧
        Claim.OutputsFree (runningExtents s) s.fresh s.mem m

/-- R10: each operation is the exact sum, difference, product or quotient rounded once, to nearest and on a tie to even, an
overflow giving no finite value (R178); narrowing is the same for binary16 and keeps the sign; rounding to an integer
goes to the nearest one and on a tie away from zero; truncating goes to the integer at or below a magnitude (R285).
Values are in units of 2^-149. That narrowing, rounding to an integer and truncating keep the sign of a value that they
take to zero is presumed (assumption 20). -/
def Obligations.ArithmeticIsRoundedOnce : Prop :=
  (∀ a b : Flt, Claim.RoundedOnce (value a + value b) 1 (fadd a b)) ∧
  (∀ a b : Flt, Claim.RoundedOnce (value a - value b) 1 (fsub a b)) ∧
  (∀ a b : Flt, Claim.RoundedOnce (value a * value b) unitOne (fmul a b)) ∧
  (∀ a b : Flt, b.mag ≠ 0 → Claim.RoundedOnce (value a * unitOne * (value b).sign) b.mag (fdiv a b)) ∧
  (∀ a : Flt, narrow a = none ↔ Claim.overflow16 ≤ a.mag) ∧
  (∀ a f : Flt, narrow a = some f →
    Claim.IsBinary16 f ∧ f.neg = a.neg ∧
      ∀ g, Claim.IsBinary16 g →
        (value f - value a).natAbs ≤ (value g - value a).natAbs ∧
          ((value f - value a).natAbs = (value g - value a).natAbs → value g ≠ value f →
            (bits16 f).getLsbD 0 = false)) ∧
  (∀ a : Flt, (roundAway a).neg = a.neg ∧
    ∃ n, (roundAway a).mag = unitOne * n ∧ unitOne * (2 * n) ≤ 2 * a.mag + unitOne ∧
      2 * a.mag + unitOne < unitOne * (2 * n + 2)) ∧
  (∀ a : Flt, Claim.IsBinary32 a → Claim.IsBinary32 (roundAway a)) ∧
  ∀ a : Flt, (truncate a).neg = a.neg ∧
    ∃ n, (truncate a).mag = unitOne * n ∧ unitOne * n ≤ a.mag ∧ a.mag < unitOne * (n + 1)
end

