-- ==== Sys2Proof/Laws/Memory.lean ====
section
/-! SUPPORT. The laws of buffer memory: a read after a write, the canonical form, and what stays listed. -/

namespace Sys2Proof.Machine

/-! ### One byte -/

theorem lookupByte_writeByte (m : Memory) (a b : Nat) (v : Byte) (h : memWf m) :
    lookupByte (writeByte m a v) b = if a = b then some v else lookupByte m b := by
  induction m with
  | nil => simp [writeByte, lookupByte]
  | cons x rest ih =>
    obtain ⟨k, u⟩ := x
    have hk : ∀ y ∈ rest, k < y.1 := (List.pairwise_cons.mp h).1
    have ih := ih (List.pairwise_cons.mp h).2
    unfold writeByte
    split
    · simp only [lookupByte]
    · split
      · next hk1 => subst hk1; simp only [lookupByte]; split <;> rfl
      · next h1 h2 =>
        simp only [lookupByte, ih]
        split
        · next hkb => rw [if_neg (by omega)]
        · rfl

/-- A byte reads as the last value written to it, and every other byte as before (R61). -/
theorem readByte_writeByte (m : Memory) (a b : Nat) (v : Byte) (h : memWf m) :
    readByte (writeByte m a v) b = if a = b then v else readByte m b := by
  unfold readByte
  rw [lookupByte_writeByte m a b v h]
  by_cases hab : a = b <;> simp [hab]

theorem mem_writeByte {m : Memory} {a : Nat} {v : Byte} {x : Host.Cell} (h : x ∈ writeByte m a v) :
    x = (a, v) ∨ x ∈ m := by
  induction m with
  | nil => simpa [writeByte] using h
  | cons y rest ih =>
    obtain ⟨k, u⟩ := y
    unfold writeByte at h
    split at h
    · simpa using h
    · split at h
      · rcases List.mem_cons.mp h with h | h
        · exact .inl h
        · exact .inr (List.mem_cons_of_mem _ h)
      · rcases List.mem_cons.mp h with h | h
        · exact .inr (by simp [h])
        · exact (ih h).imp_right (List.mem_cons_of_mem _)

/-- A write keeps the canonical form. -/
theorem memWf_writeByte {m : Memory} (h : memWf m) (a : Nat) (v : Byte) : memWf (writeByte m a v) := by
  induction m with
  | nil => simp [writeByte]
  | cons y rest ih =>
    obtain ⟨k, u⟩ := y
    obtain ⟨h1, h2⟩ := List.pairwise_cons.mp h
    unfold writeByte
    split
    · next hak =>
      refine List.pairwise_cons.mpr ⟨?_, h⟩
      intro x hx
      rcases List.mem_cons.mp hx with hx | hx
      · subst hx; exact hak
      · exact Nat.lt_trans hak (h1 x hx)
    · split
      · next heq => subst heq; exact List.pairwise_cons.mpr ⟨h1, h2⟩
      · next hn1 hn2 =>
        refine List.pairwise_cons.mpr ⟨?_, ih h2⟩
        intro x hx
        rcases mem_writeByte hx with hx | hx
        · subst hx; simp only; omega
        · exact h1 x hx

/-- A write to an address that exists lists only addresses that exist. -/
theorem memBounded_writeByte {m : Memory} {n : Nat} (h : memBounded m n) {a : Nat} (ha : a < n) (v : Byte) :
    memBounded (writeByte m a v) n := by
  intro x hx
  rcases mem_writeByte hx with hx | hx
  · subst hx; exact ha
  · exact h x hx

/-! ### Runs of bytes -/

@[simp] theorem writeCells_nil (m : Memory) : writeCells m [] = m := rfl

@[simp] theorem writeCells_cons (m : Memory) (a : Nat) (b : Byte) (l : List Host.Cell) :
    writeCells m ((a, b) :: l) = writeCells (writeByte m a b) l := rfl

theorem writeCells_append (m : Memory) (k l : List Host.Cell) :
    writeCells m (k ++ l) = writeCells (writeCells m k) l := by
  induction k generalizing m with
  | nil => rfl
  | cons x rest ih => obtain ⟨a, b⟩ := x; simp [ih]

theorem memWf_writeCells {m : Memory} (h : memWf m) (l : List Host.Cell) : memWf (writeCells m l) := by
  induction l generalizing m with
  | nil => exact h
  | cons x rest ih => obtain ⟨a, b⟩ := x; exact ih (memWf_writeByte h a b)

theorem memBounded_writeCells {m : Memory} {n : Nat} (h : memBounded m n) {l : List Host.Cell}
    (hl : ∀ x ∈ l, x.1 < n) : memBounded (writeCells m l) n := by
  induction l generalizing m with
  | nil => exact h
  | cons x rest ih =>
    obtain ⟨a, b⟩ := x
    exact ih (memBounded_writeByte h (hl (a, b) (by simp)) b) fun y hy => hl y (List.mem_cons_of_mem _ hy)

/-- An address that no cell names keeps its byte. -/
theorem readByte_writeCells_of_not_mem {m : Memory} (h : memWf m) {l : List Host.Cell} {a : Nat}
    (ha : ∀ x ∈ l, x.1 ≠ a) : readByte (writeCells m l) a = readByte m a := by
  induction l generalizing m with
  | nil => rfl
  | cons x rest ih =>
    obtain ⟨k, b⟩ := x
    rw [writeCells_cons, ih (memWf_writeByte h k b) fun y hy => ha y (List.mem_cons_of_mem _ hy),
      readByte_writeByte m k a b h, if_neg (ha (k, b) (by simp))]

/-- An address that some cell names, all cells that name it holding one byte, reads as that byte. -/
theorem readByte_writeCells_of_mem {m : Memory} (h : memWf m) {l : List Host.Cell} {a : Nat} {v : Byte}
    (hmem : (a, v) ∈ l) (hall : ∀ x ∈ l, x.1 = a → x.2 = v) : readByte (writeCells m l) a = v := by
  induction l generalizing m with
  | nil => simp at hmem
  | cons x rest ih =>
    obtain ⟨k, b⟩ := x
    rw [writeCells_cons]
    by_cases hr : (a, v) ∈ rest
    · exact ih (memWf_writeByte h k b) hr fun y hy => hall y (List.mem_cons_of_mem _ hy)
    · have hx : (k, b) = (a, v) := by
        rcases List.mem_cons.mp hmem with hx | hx
        · exact hx.symm
        · exact absurd hx hr
      have hnot : ∀ y ∈ rest, y.1 ≠ a := by
        intro y hy hya
        have := hall y (List.mem_cons_of_mem _ hy) hya
        exact hr (by rw [show (a, v) = y from Prod.ext hya.symm this.symm]; exact hy)
      rw [readByte_writeCells_of_not_mem (memWf_writeByte h k b) hnot, readByte_writeByte m k a b h]
      injection hx with h1 h2
      rw [if_pos h1, h2]

/-- The memory of the reset state is in canonical form. -/
theorem memWf_reset : memWf State.reset.mem := List.Pairwise.nil

/-! ### Equal bytes, equal data -/

theorem lookupByte_eq_none {m : Memory} {a : Nat} (h : ∀ x ∈ m, x.1 ≠ a) : lookupByte m a = none := by
  induction m with
  | nil => rfl
  | cons x rest ih =>
    obtain ⟨k, b⟩ := x
    simp only [lookupByte]
    rw [if_neg (h (k, b) (by simp)), ih fun y hy => h y (List.mem_cons_of_mem _ hy)]

/-- Two memories in canonical form that list the same bytes are the same data. -/
theorem memory_ext {m n : Memory} (hm : memWf m) (hn : memWf n) (h : ∀ a, lookupByte m a = lookupByte n a) :
    m = n := by
  induction m generalizing n with
  | nil =>
    cases n with
    | nil => rfl
    | cons y rest => obtain ⟨k, b⟩ := y; simpa [lookupByte] using h k
  | cons x rest ih =>
    obtain ⟨k, b⟩ := x
    obtain ⟨hx, hrest⟩ := List.pairwise_cons.mp hm
    cases n with
    | nil => simpa [lookupByte] using h k
    | cons y rest' =>
      obtain ⟨k', b'⟩ := y
      obtain ⟨hy, hrest'⟩ := List.pairwise_cons.mp hn
      have hk : k = k' := by
        by_contra hne
        rcases Nat.lt_or_gt_of_ne hne with hlt | hgt
        · have := h k
          rw [lookupByte, if_pos rfl, lookupByte_eq_none] at this
          · simp at this
          · intro z hz
            rcases List.mem_cons.mp hz with hz | hz
            · subst hz; simpa using (Ne.symm hne)
            · have := hy z hz; simp only at this; omega
        · have := h k'
          rw [lookupByte_eq_none, lookupByte, if_pos rfl] at this
          · simp at this
          · intro z hz
            rcases List.mem_cons.mp hz with hz | hz
            · subst hz; simpa using hne
            · have := hx z hz; simp only at this; omega
      subst hk
      have hb : b = b' := by simpa [lookupByte] using h k
      subst hb
      congr 1
      refine ih hrest hrest' fun a => ?_
      by_cases ha : k = a
      · subst ha
        rw [lookupByte_eq_none fun z hz => (Nat.ne_of_gt (hx z hz)),
          lookupByte_eq_none fun z hz => (Nat.ne_of_gt (hy z hz))]
      · simpa [lookupByte, ha] using h a

/-! ### Multi-byte values -/

theorem mem_wordCells {a n v : Nat} {x : Host.Cell} (h : x ∈ wordCells a n v) :
    ∃ k, k < n ∧ x = (a + k, BitVec.ofNat 8 (v / 256 ^ k)) := by
  induction n generalizing a v with
  | zero => simp [wordCells] at h
  | succ n ih =>
    rcases List.mem_cons.mp h with h | h
    · exact ⟨0, by omega, by simpa using h⟩
    · obtain ⟨k, hk, rfl⟩ := ih h
      refine ⟨k + 1, by omega, ?_⟩
      rw [Nat.div_div_eq_div_mul, pow_succ', Nat.add_assoc, Nat.add_comm 1 k]

theorem mem_wordCells_of_lt {a n v k : Nat} (h : k < n) :
    (a + k, BitVec.ofNat 8 (v / 256 ^ k)) ∈ wordCells a n v := by
  induction n generalizing a v k with
  | zero => omega
  | succ n ih =>
    cases k with
    | zero => simp [wordCells]
    | succ k =>
      refine List.mem_cons_of_mem _ ?_
      have := ih (a := a + 1) (v := v / 256) (k := k) (by omega)
      rwa [Nat.div_div_eq_div_mul, ← pow_succ', Nat.add_assoc, Nat.add_comm 1 k] at this

/-- A value whose bytes stand in memory in little-endian order is what is read (R62). -/
theorem memRead_of_bytes {m : Memory} {a n v : Nat}
    (h : ∀ k, k < n → readByte m (a + k) = BitVec.ofNat 8 (v / 256 ^ k)) : memRead m a n = v % 256 ^ n := by
  induction n generalizing a v with
  | zero => simp [memRead, Nat.mod_one]
  | succ n ih =>
    have h0 := h 0 (by omega)
    have hr : memRead m (a + 1) n = v / 256 % 256 ^ n := by
      refine ih fun k hk => ?_
      have := h (k + 1) (by omega)
      rwa [show a + (k + 1) = a + 1 + k by omega, pow_succ', ← Nat.div_div_eq_div_mul] at this
    simp only [Nat.add_zero, pow_zero, Nat.div_one] at h0
    have hv : v % 256 ^ (n + 1) = v % 256 + 256 * (v / 256 % 256 ^ n) := by rw [pow_succ', Nat.mod_mul]
    rw [memRead, hr, h0, BitVec.toNat_ofNat, hv]

theorem memRead_congr {m m' : Memory} {a n : Nat} (h : ∀ k, k < n → readByte m (a + k) = readByte m' (a + k)) :
    memRead m a n = memRead m' a n := by
  induction n generalizing a with
  | zero => rfl
  | succ n ih =>
    have h0 := h 0 (by omega)
    rw [memRead, memRead, Nat.add_zero] at *
    rw [h0, ih fun k hk => ?_]
    have := h (k + 1) (by omega)
    rwa [show a + (k + 1) = a + 1 + k by omega] at this

end Sys2Proof.Machine
end

