-- ==== Sys2Proof/Laws/Collect.lean ====
section
/-! SUPPORT. What `collect` and `collectCells` answer, and the naturals of a span. -/

namespace Sys2Proof.Machine

theorem mem_span {a b x : Nat} : x ∈ span a b ↔ a ≤ x ∧ x < b := by
  simp only [span, List.mem_map, List.mem_range]
  constructor
  · rintro ⟨k, hk, rfl⟩; omega
  · rintro ⟨h1, h2⟩; exact ⟨x - a, by omega, by omega⟩

@[simp] theorem length_span (a b : Nat) : (span a b).length = b - a := by simp [span]

@[simp] theorem collect_nil {α β : Type} (f : α → Option β) : collect f [] = some [] := rfl

theorem collect_cons {α β : Type} (f : α → Option β) (a : α) (l : List α) :
    collect f (a :: l) =
      match f a with
      | none => none
      | some b => match collect f l with | none => none | some bs => some (b :: bs) := rfl

theorem collect_cons_eq_some {α β : Type} {f : α → Option β} {a : α} {l : List α} {r : List β} :
    collect f (a :: l) = some r ↔ ∃ b bs, f a = some b ∧ collect f l = some bs ∧ r = b :: bs := by
  rw [collect_cons]
  cases hfa : f a with
  | none => simp
  | some b =>
    cases hl : collect f l with
    | none => simp
    | some bs => simp [eq_comm]

/-- What a successful `collect` says: part by part. -/
theorem collect_eq_some {α β : Type} {f : α → Option β} {l : List α} {r : List β} :
    collect f l = some r ↔ List.Forall₂ (fun a b => f a = some b) l r := by
  induction l generalizing r with
  | nil => cases r <;> simp
  | cons a l ih =>
    rw [collect_cons_eq_some]
    constructor
    · rintro ⟨b, bs, h1, h2, rfl⟩; exact .cons h1 (ih.mp h2)
    · intro h
      cases h with
      | cons h1 h2 => exact ⟨_, _, h1, ih.mpr h2, rfl⟩

theorem collect_length {α β : Type} {f : α → Option β} {l : List α} {r : List β} (h : collect f l = some r) :
    r.length = l.length := ((collect_eq_some.mp h).length_eq).symm

/-- Every element of the list has its part in the result. -/
theorem collect_of_mem {α β : Type} {f : α → Option β} {l : List α} {r : List β} (h : collect f l = some r)
    {a : α} (ha : a ∈ l) : ∃ b ∈ r, f a = some b := by
  induction l generalizing r with
  | nil => simp at ha
  | cons x l ih =>
    obtain ⟨b, bs, h1, h2, rfl⟩ := collect_cons_eq_some.mp h
    rcases List.mem_cons.mp ha with ha | ha
    · subst ha; exact ⟨b, by simp, h1⟩
    · obtain ⟨c, hc, hf⟩ := ih h2 ha
      exact ⟨c, List.mem_cons_of_mem _ hc, hf⟩

/-- Every part of the result comes from an element. -/
theorem mem_of_collect {α β : Type} {f : α → Option β} {l : List α} {r : List β} (h : collect f l = some r)
    {b : β} (hb : b ∈ r) : ∃ a ∈ l, f a = some b := by
  induction l generalizing r with
  | nil => simp only [collect_nil, Option.some.injEq] at h; subst h; simp at hb
  | cons x l ih =>
    obtain ⟨c, cs, h1, h2, rfl⟩ := collect_cons_eq_some.mp h
    rcases List.mem_cons.mp hb with hb | hb
    · subst hb; exact ⟨x, by simp, h1⟩
    · obtain ⟨a, ha, hf⟩ := ih h2 hb
      exact ⟨a, List.mem_cons_of_mem _ ha, hf⟩

/-- The part at a position comes from the element at that position. -/
theorem collect_getElem? {α β : Type} {f : α → Option β} {l : List α} {r : List β} (h : collect f l = some r)
    (k : Nat) : r[k]? = l[k]?.bind f := by
  induction l generalizing r k with
  | nil => simp only [collect_nil, Option.some.injEq] at h; subst h; simp
  | cons x l ih =>
    obtain ⟨c, cs, h1, h2, rfl⟩ := collect_cons_eq_some.mp h
    cases k with
    | zero => simp [h1]
    | succ k => simpa using ih h2 k

theorem collect_congr {α β : Type} {f g : α → Option β} {l : List α} (h : ∀ a ∈ l, f a = g a) :
    collect f l = collect g l := by
  induction l with
  | nil => rfl
  | cons a l ih =>
    rw [collect_cons, collect_cons, h a (by simp), ih fun b hb => h b (List.mem_cons_of_mem _ hb)]

/-- The cells of a successful `collectCells` are the cells of the elements. -/
theorem mem_collectCells {α : Type} {f : α → Option (List Host.Cell)} {l : List α} {cells : List Host.Cell}
    (h : collectCells f l = some cells) {x : Host.Cell} :
    x ∈ cells ↔ ∃ a ∈ l, ∃ cs, f a = some cs ∧ x ∈ cs := by
  unfold collectCells at h
  obtain ⟨r, hr, rfl⟩ := Option.map_eq_some_iff.mp h
  rw [List.mem_flatten]
  constructor
  · rintro ⟨cs, hcs, hx⟩
    obtain ⟨a, ha, hf⟩ := mem_of_collect hr hcs
    exact ⟨a, ha, cs, hf, hx⟩
  · rintro ⟨a, ha, cs, hf, hx⟩
    obtain ⟨b, hb, hf'⟩ := collect_of_mem hr ha
    rw [hf] at hf'
    injection hf' with hf'
    subst hf'
    exact ⟨cs, hb, hx⟩

/-- Every element of a successful `collectCells` has its cells. -/
theorem collectCells_of_mem {α : Type} {f : α → Option (List Host.Cell)} {l : List α} {cells : List Host.Cell}
    (h : collectCells f l = some cells) {a : α} (ha : a ∈ l) : ∃ cs, f a = some cs := by
  unfold collectCells at h
  obtain ⟨r, hr, -⟩ := Option.map_eq_some_iff.mp h
  obtain ⟨b, -, hf⟩ := collect_of_mem hr ha
  exact ⟨b, hf⟩

end Sys2Proof.Machine
end

