-- ==== Sys2Proof/Laws/State.lean ====
section
/-! SUPPORT. One lemma per field per update of the state, so that no proof unfolds a record update. -/

namespace Sys2Proof.Machine

/-! ### complete -/

@[simp] theorem complete_regs (b : Bool) (s : State) : (complete b s).regs = s.regs := rfl
@[simp] theorem complete_res (b : Bool) (s : State) : (complete b s).res = s.res := rfl
@[simp] theorem complete_phase (b : Bool) (s : State) : (complete b s).phase = .done := rfl
@[simp] theorem complete_empty (b : Bool) (s : State) : (complete b s).empty = b := rfl
@[simp] theorem complete_err (b : Bool) (s : State) : (complete b s).err = none := rfl
@[simp] theorem complete_ctx (b : Bool) (s : State) : (complete b s).ctx = s.ctx := rfl
@[simp] theorem complete_pending (b : Bool) (s : State) : (complete b s).pending = [] := rfl
@[simp] theorem complete_flight (b : Bool) (s : State) : (complete b s).flight = [] := rfl
@[simp] theorem complete_mem (b : Bool) (s : State) : (complete b s).mem = s.mem := rfl
@[simp] theorem complete_plat (b : Bool) (s : State) : (complete b s).plat = s.plat := rfl
@[simp] theorem complete_grain (b : Bool) (s : State) : (complete b s).grain = s.grain := rfl
@[simp] theorem complete_spoiled (b : Bool) (s : State) : (complete b s).spoiled = false := rfl
@[simp] theorem complete_launchMem (b : Bool) (s : State) : (complete b s).launchMem = [] := rfl
@[simp] theorem complete_fresh (b : Bool) (s : State) : (complete b s).fresh = s.fresh := rfl
@[simp] theorem complete_agenda (b : Bool) (s : State) : (complete b s).agenda = s.agenda := rfl
@[simp] theorem complete_readback (b : Bool) (s : State) : (complete b s).readback = s.readback := rfl

/-! ### raiseError -/

@[simp] theorem raiseError_regs (e : CmdError) (s : State) : (raiseError e s).regs = s.regs := rfl
@[simp] theorem raiseError_res (e : CmdError) (s : State) : (raiseError e s).res = s.res := rfl
@[simp] theorem raiseError_phase (e : CmdError) (s : State) : (raiseError e s).phase = .error := rfl
@[simp] theorem raiseError_empty (e : CmdError) (s : State) : (raiseError e s).empty = false := rfl
@[simp] theorem raiseError_err (e : CmdError) (s : State) : (raiseError e s).err = some e := rfl
@[simp] theorem raiseError_ctx (e : CmdError) (s : State) : (raiseError e s).ctx = s.ctx := rfl
@[simp] theorem raiseError_pending (e : CmdError) (s : State) : (raiseError e s).pending = [] := rfl
@[simp] theorem raiseError_flight (e : CmdError) (s : State) : (raiseError e s).flight = [] := rfl
@[simp] theorem raiseError_mem (e : CmdError) (s : State) : (raiseError e s).mem = s.mem := rfl
@[simp] theorem raiseError_plat (e : CmdError) (s : State) : (raiseError e s).plat = s.plat := rfl
@[simp] theorem raiseError_grain (e : CmdError) (s : State) : (raiseError e s).grain = s.grain := rfl
@[simp] theorem raiseError_spoiled (e : CmdError) (s : State) : (raiseError e s).spoiled = false := rfl
@[simp] theorem raiseError_launchMem (e : CmdError) (s : State) : (raiseError e s).launchMem = [] := rfl
@[simp] theorem raiseError_fresh (e : CmdError) (s : State) : (raiseError e s).fresh = s.fresh := rfl
@[simp] theorem raiseError_agenda (e : CmdError) (s : State) : (raiseError e s).agenda = s.agenda := rfl
@[simp] theorem raiseError_readback (e : CmdError) (s : State) : (raiseError e s).readback = s.readback := rfl

/-! ### latch -/

@[simp] theorem latch_regs (w : Word) (s : State) : (latch w s).regs = { s.regs with cmd := w } := rfl
@[simp] theorem latch_res (w : Word) (s : State) : (latch w s).res = s.res := rfl
@[simp] theorem latch_phase (w : Word) (s : State) : (latch w s).phase = .busy := rfl
@[simp] theorem latch_empty (w : Word) (s : State) : (latch w s).empty = false := rfl
@[simp] theorem latch_err (w : Word) (s : State) : (latch w s).err = none := rfl
@[simp] theorem latch_ctx (w : Word) (s : State) : (latch w s).ctx = { s.regs with cmd := w } := rfl
@[simp] theorem latch_pending (w : Word) (s : State) : (latch w s).pending = [] := rfl
@[simp] theorem latch_flight (w : Word) (s : State) : (latch w s).flight = [] := rfl
@[simp] theorem latch_mem (w : Word) (s : State) : (latch w s).mem = s.mem := rfl
@[simp] theorem latch_plat (w : Word) (s : State) : (latch w s).plat = s.plat := rfl
@[simp] theorem latch_grain (w : Word) (s : State) : (latch w s).grain = s.grain := rfl
@[simp] theorem latch_spoiled (w : Word) (s : State) : (latch w s).spoiled = false := rfl
@[simp] theorem latch_launchMem (w : Word) (s : State) : (latch w s).launchMem = [] := rfl
@[simp] theorem latch_fresh (w : Word) (s : State) : (latch w s).fresh = s.fresh := rfl
@[simp] theorem latch_agenda (w : Word) (s : State) : (latch w s).agenda = s.agenda := rfl
@[simp] theorem latch_readback (w : Word) (s : State) : (latch w s).readback = s.readback := rfl

/-! ### spoilOutputs -/

@[simp] theorem spoilOutputs_regs (es : List Extent) (s : State) : (spoilOutputs es s).regs = s.regs := rfl
@[simp] theorem spoilOutputs_res (es : List Extent) (s : State) : (spoilOutputs es s).res = s.res := rfl
@[simp] theorem spoilOutputs_phase (es : List Extent) (s : State) : (spoilOutputs es s).phase = s.phase := rfl
@[simp] theorem spoilOutputs_empty (es : List Extent) (s : State) : (spoilOutputs es s).empty = s.empty := rfl
@[simp] theorem spoilOutputs_err (es : List Extent) (s : State) : (spoilOutputs es s).err = s.err := rfl
@[simp] theorem spoilOutputs_ctx (es : List Extent) (s : State) : (spoilOutputs es s).ctx = s.ctx := rfl
@[simp] theorem spoilOutputs_pending (es : List Extent) (s : State) : (spoilOutputs es s).pending = s.pending := rfl
@[simp] theorem spoilOutputs_flight (es : List Extent) (s : State) : (spoilOutputs es s).flight = s.flight := rfl
@[simp] theorem spoilOutputs_mem (es : List Extent) (s : State) : (spoilOutputs es s).mem = writeCells s.mem (freeOutputs s.fresh es) := rfl
@[simp] theorem spoilOutputs_plat (es : List Extent) (s : State) : (spoilOutputs es s).plat = s.plat := rfl
@[simp] theorem spoilOutputs_grain (es : List Extent) (s : State) : (spoilOutputs es s).grain = s.grain := rfl
@[simp] theorem spoilOutputs_spoiled (es : List Extent) (s : State) : (spoilOutputs es s).spoiled = s.spoiled := rfl
@[simp] theorem spoilOutputs_launchMem (es : List Extent) (s : State) : (spoilOutputs es s).launchMem = s.launchMem := rfl
@[simp] theorem spoilOutputs_fresh (es : List Extent) (s : State) : (spoilOutputs es s).fresh = s.fresh + 1 := rfl
@[simp] theorem spoilOutputs_agenda (es : List Extent) (s : State) : (spoilOutputs es s).agenda = s.agenda := rfl
@[simp] theorem spoilOutputs_readback (es : List Extent) (s : State) : (spoilOutputs es s).readback = s.readback := rfl

/-! ### completeUnspecified -/

@[simp] theorem completeUnspecified_regs (s : State) : (completeUnspecified s).regs = s.regs := rfl
@[simp] theorem completeUnspecified_res (s : State) : (completeUnspecified s).res = { s.res with res0 := Config.freeWord s.fresh 0, res1 := Config.freeWord s.fresh 1 } := rfl
@[simp] theorem completeUnspecified_phase (s : State) : (completeUnspecified s).phase = .done := rfl
@[simp] theorem completeUnspecified_empty (s : State) : (completeUnspecified s).empty = false := rfl
@[simp] theorem completeUnspecified_err (s : State) : (completeUnspecified s).err = none := rfl
@[simp] theorem completeUnspecified_ctx (s : State) : (completeUnspecified s).ctx = s.ctx := rfl
@[simp] theorem completeUnspecified_pending (s : State) : (completeUnspecified s).pending = [] := rfl
@[simp] theorem completeUnspecified_flight (s : State) : (completeUnspecified s).flight = [] := rfl
@[simp] theorem completeUnspecified_mem (s : State) : (completeUnspecified s).mem = s.mem := rfl
@[simp] theorem completeUnspecified_plat (s : State) : (completeUnspecified s).plat = s.plat := rfl
@[simp] theorem completeUnspecified_grain (s : State) : (completeUnspecified s).grain = s.grain := rfl
@[simp] theorem completeUnspecified_spoiled (s : State) : (completeUnspecified s).spoiled = false := rfl
@[simp] theorem completeUnspecified_launchMem (s : State) : (completeUnspecified s).launchMem = [] := rfl
@[simp] theorem completeUnspecified_fresh (s : State) : (completeUnspecified s).fresh = s.fresh + 1 := rfl
@[simp] theorem completeUnspecified_agenda (s : State) : (completeUnspecified s).agenda = s.agenda := rfl
@[simp] theorem completeUnspecified_readback (s : State) : (completeUnspecified s).readback = s.readback := rfl

/-! ### endTile -/

@[simp] theorem endTile_regs (t : Tile) (s : State) : (endTile t s).regs = s.regs := rfl
@[simp] theorem endTile_res (t : Tile) (s : State) : (endTile t s).res = s.res := rfl
@[simp] theorem endTile_phase (t : Tile) (s : State) : (endTile t s).phase = s.phase := rfl
@[simp] theorem endTile_empty (t : Tile) (s : State) : (endTile t s).empty = s.empty := rfl
@[simp] theorem endTile_err (t : Tile) (s : State) : (endTile t s).err = s.err := rfl
@[simp] theorem endTile_ctx (t : Tile) (s : State) : (endTile t s).ctx = s.ctx := rfl
@[simp] theorem endTile_pending (t : Tile) (s : State) : (endTile t s).pending = s.pending.filter (fun u => u != t) := rfl
@[simp] theorem endTile_flight (t : Tile) (s : State) : (endTile t s).flight = s.flight.filter (fun f => f.tile != t) := rfl
@[simp] theorem endTile_mem (t : Tile) (s : State) : (endTile t s).mem = s.mem := rfl
@[simp] theorem endTile_plat (t : Tile) (s : State) : (endTile t s).plat = s.plat := rfl
@[simp] theorem endTile_grain (t : Tile) (s : State) : (endTile t s).grain = s.grain := rfl
@[simp] theorem endTile_spoiled (t : Tile) (s : State) : (endTile t s).spoiled = s.spoiled := rfl
@[simp] theorem endTile_launchMem (t : Tile) (s : State) : (endTile t s).launchMem = s.launchMem := rfl
@[simp] theorem endTile_fresh (t : Tile) (s : State) : (endTile t s).fresh = s.fresh := rfl
@[simp] theorem endTile_agenda (t : Tile) (s : State) : (endTile t s).agenda = s.agenda := rfl
@[simp] theorem endTile_readback (t : Tile) (s : State) : (endTile t s).readback = s.readback := rfl

/-! ### updateFlight -/

@[simp] theorem updateFlight_regs (f : InFlight) (s : State) : (updateFlight f s).regs = s.regs := rfl
@[simp] theorem updateFlight_res (f : InFlight) (s : State) : (updateFlight f s).res = s.res := rfl
@[simp] theorem updateFlight_phase (f : InFlight) (s : State) : (updateFlight f s).phase = s.phase := rfl
@[simp] theorem updateFlight_empty (f : InFlight) (s : State) : (updateFlight f s).empty = s.empty := rfl
@[simp] theorem updateFlight_err (f : InFlight) (s : State) : (updateFlight f s).err = s.err := rfl
@[simp] theorem updateFlight_ctx (f : InFlight) (s : State) : (updateFlight f s).ctx = s.ctx := rfl
@[simp] theorem updateFlight_pending (f : InFlight) (s : State) : (updateFlight f s).pending = s.pending := rfl
@[simp] theorem updateFlight_flight (f : InFlight) (s : State) : (updateFlight f s).flight = s.flight.map fun g => if g.tile = f.tile then f else g := rfl
@[simp] theorem updateFlight_mem (f : InFlight) (s : State) : (updateFlight f s).mem = s.mem := rfl
@[simp] theorem updateFlight_plat (f : InFlight) (s : State) : (updateFlight f s).plat = s.plat := rfl
@[simp] theorem updateFlight_grain (f : InFlight) (s : State) : (updateFlight f s).grain = s.grain := rfl
@[simp] theorem updateFlight_spoiled (f : InFlight) (s : State) : (updateFlight f s).spoiled = s.spoiled := rfl
@[simp] theorem updateFlight_launchMem (f : InFlight) (s : State) : (updateFlight f s).launchMem = s.launchMem := rfl
@[simp] theorem updateFlight_fresh (f : InFlight) (s : State) : (updateFlight f s).fresh = s.fresh := rfl
@[simp] theorem updateFlight_agenda (f : InFlight) (s : State) : (updateFlight f s).agenda = s.agenda := rfl
@[simp] theorem updateFlight_readback (f : InFlight) (s : State) : (updateFlight f s).readback = s.readback := rfl

/-! ### dispatchTiles -/

@[simp] theorem dispatchTiles_regs (j : Job) (s : State) : (dispatchTiles j s).regs = s.regs := rfl
@[simp] theorem dispatchTiles_res (j : Job) (s : State) : (dispatchTiles j s).res = s.res := rfl
@[simp] theorem dispatchTiles_phase (j : Job) (s : State) : (dispatchTiles j s).phase = .busy := rfl
@[simp] theorem dispatchTiles_empty (j : Job) (s : State) : (dispatchTiles j s).empty = false := rfl
@[simp] theorem dispatchTiles_err (j : Job) (s : State) : (dispatchTiles j s).err = none := rfl
@[simp] theorem dispatchTiles_ctx (j : Job) (s : State) : (dispatchTiles j s).ctx = s.ctx := rfl
@[simp] theorem dispatchTiles_pending (j : Job) (s : State) : (dispatchTiles j s).pending = jobTiles j s.ctx := rfl
@[simp] theorem dispatchTiles_flight (j : Job) (s : State) : (dispatchTiles j s).flight = [] := rfl
@[simp] theorem dispatchTiles_mem (j : Job) (s : State) : (dispatchTiles j s).mem = s.mem := rfl
@[simp] theorem dispatchTiles_plat (j : Job) (s : State) : (dispatchTiles j s).plat = s.plat := rfl
@[simp] theorem dispatchTiles_grain (j : Job) (s : State) : (dispatchTiles j s).grain = s.grain := rfl
@[simp] theorem dispatchTiles_spoiled (j : Job) (s : State) : (dispatchTiles j s).spoiled = (jobResult j s.ctx s.mem).isNone := rfl
@[simp] theorem dispatchTiles_launchMem (j : Job) (s : State) : (dispatchTiles j s).launchMem = s.mem := rfl
@[simp] theorem dispatchTiles_fresh (j : Job) (s : State) : (dispatchTiles j s).fresh = s.fresh := rfl
@[simp] theorem dispatchTiles_agenda (j : Job) (s : State) : (dispatchTiles j s).agenda = s.agenda := rfl
@[simp] theorem dispatchTiles_readback (j : Job) (s : State) : (dispatchTiles j s).readback = s.readback := rfl

/-! ### hostReadReg -/

@[simp] theorem hostReadReg_regs (i : Fin 32) (s : State) : (hostReadReg i s).regs = s.regs := rfl
@[simp] theorem hostReadReg_res (i : Fin 32) (s : State) : (hostReadReg i s).res = s.res := rfl
@[simp] theorem hostReadReg_phase (i : Fin 32) (s : State) : (hostReadReg i s).phase = s.phase := rfl
@[simp] theorem hostReadReg_empty (i : Fin 32) (s : State) : (hostReadReg i s).empty = s.empty := rfl
@[simp] theorem hostReadReg_err (i : Fin 32) (s : State) : (hostReadReg i s).err = s.err := rfl
@[simp] theorem hostReadReg_ctx (i : Fin 32) (s : State) : (hostReadReg i s).ctx = s.ctx := rfl
@[simp] theorem hostReadReg_pending (i : Fin 32) (s : State) : (hostReadReg i s).pending = s.pending := rfl
@[simp] theorem hostReadReg_flight (i : Fin 32) (s : State) : (hostReadReg i s).flight = s.flight := rfl
@[simp] theorem hostReadReg_mem (i : Fin 32) (s : State) : (hostReadReg i s).mem = s.mem := rfl
@[simp] theorem hostReadReg_plat (i : Fin 32) (s : State) : (hostReadReg i s).plat = s.plat := rfl
@[simp] theorem hostReadReg_grain (i : Fin 32) (s : State) : (hostReadReg i s).grain = s.grain := rfl
@[simp] theorem hostReadReg_spoiled (i : Fin 32) (s : State) : (hostReadReg i s).spoiled = s.spoiled := rfl
@[simp] theorem hostReadReg_launchMem (i : Fin 32) (s : State) : (hostReadReg i s).launchMem = s.launchMem := rfl
@[simp] theorem hostReadReg_fresh (i : Fin 32) (s : State) : (hostReadReg i s).fresh = s.fresh := rfl
@[simp] theorem hostReadReg_agenda (i : Fin 32) (s : State) : (hostReadReg i s).agenda = s.agenda := rfl
@[simp] theorem hostReadReg_readback (i : Fin 32) (s : State) : (hostReadReg i s).readback = .reg i (readSlot s i) :: s.readback := rfl

/-! ### hostReadMem -/

@[simp] theorem hostReadMem_regs (a : Word) (n : Nat) (s : State) :
    (hostReadMem a n s).regs = s.regs := rfl
@[simp] theorem hostReadMem_res (a : Word) (n : Nat) (s : State) :
    (hostReadMem a n s).res = s.res := rfl
@[simp] theorem hostReadMem_phase (a : Word) (n : Nat) (s : State) :
    (hostReadMem a n s).phase = s.phase := rfl
@[simp] theorem hostReadMem_empty (a : Word) (n : Nat) (s : State) :
    (hostReadMem a n s).empty = s.empty := rfl
@[simp] theorem hostReadMem_err (a : Word) (n : Nat) (s : State) :
    (hostReadMem a n s).err = s.err := rfl
@[simp] theorem hostReadMem_ctx (a : Word) (n : Nat) (s : State) :
    (hostReadMem a n s).ctx = s.ctx := rfl
@[simp] theorem hostReadMem_pending (a : Word) (n : Nat) (s : State) :
    (hostReadMem a n s).pending = s.pending := rfl
@[simp] theorem hostReadMem_flight (a : Word) (n : Nat) (s : State) :
    (hostReadMem a n s).flight = s.flight := rfl
@[simp] theorem hostReadMem_mem (a : Word) (n : Nat) (s : State) :
    (hostReadMem a n s).mem = s.mem := rfl
@[simp] theorem hostReadMem_plat (a : Word) (n : Nat) (s : State) :
    (hostReadMem a n s).plat = s.plat := rfl
@[simp] theorem hostReadMem_grain (a : Word) (n : Nat) (s : State) :
    (hostReadMem a n s).grain = s.grain := rfl
@[simp] theorem hostReadMem_spoiled (a : Word) (n : Nat) (s : State) :
    (hostReadMem a n s).spoiled = s.spoiled := rfl
@[simp] theorem hostReadMem_launchMem (a : Word) (n : Nat) (s : State) :
    (hostReadMem a n s).launchMem = s.launchMem := rfl
@[simp] theorem hostReadMem_fresh (a : Word) (n : Nat) (s : State) :
    (hostReadMem a n s).fresh = s.fresh + 1 := rfl
@[simp] theorem hostReadMem_agenda (a : Word) (n : Nat) (s : State) :
    (hostReadMem a n s).agenda = s.agenda := rfl
@[simp] theorem hostReadMem_readback (a : Word) (n : Nat) (s : State) :
    (hostReadMem a n s).readback = .mem a ((span a.toNat (a.toNat + n)).map (hostReadByte s)) :: s.readback := rfl

/-! ### hostWriteMem -/

@[simp] theorem hostWriteMem_regs (a : Nat) (bytes : List Byte) (s : State) :
    (hostWriteMem a bytes s).regs = s.regs := rfl
@[simp] theorem hostWriteMem_res (a : Nat) (bytes : List Byte) (s : State) :
    (hostWriteMem a bytes s).res = s.res := rfl
@[simp] theorem hostWriteMem_phase (a : Nat) (bytes : List Byte) (s : State) :
    (hostWriteMem a bytes s).phase = s.phase := rfl
@[simp] theorem hostWriteMem_empty (a : Nat) (bytes : List Byte) (s : State) :
    (hostWriteMem a bytes s).empty = s.empty := rfl
@[simp] theorem hostWriteMem_err (a : Nat) (bytes : List Byte) (s : State) :
    (hostWriteMem a bytes s).err = s.err := rfl
@[simp] theorem hostWriteMem_ctx (a : Nat) (bytes : List Byte) (s : State) :
    (hostWriteMem a bytes s).ctx = s.ctx := rfl
@[simp] theorem hostWriteMem_pending (a : Nat) (bytes : List Byte) (s : State) :
    (hostWriteMem a bytes s).pending = s.pending := rfl
@[simp] theorem hostWriteMem_flight (a : Nat) (bytes : List Byte) (s : State) :
    (hostWriteMem a bytes s).flight = s.flight := rfl
@[simp] theorem hostWriteMem_mem (a : Nat) (bytes : List Byte) (s : State) :
    (hostWriteMem a bytes s).mem = writeCells s.mem (byteCells a bytes) := rfl
@[simp] theorem hostWriteMem_plat (a : Nat) (bytes : List Byte) (s : State) :
    (hostWriteMem a bytes s).plat = s.plat := rfl
@[simp] theorem hostWriteMem_grain (a : Nat) (bytes : List Byte) (s : State) :
    (hostWriteMem a bytes s).grain = s.grain := rfl
@[simp] theorem hostWriteMem_launchMem (a : Nat) (bytes : List Byte) (s : State) :
    (hostWriteMem a bytes s).launchMem = s.launchMem := rfl
@[simp] theorem hostWriteMem_fresh (a : Nat) (bytes : List Byte) (s : State) :
    (hostWriteMem a bytes s).fresh = s.fresh := rfl
@[simp] theorem hostWriteMem_agenda (a : Nat) (bytes : List Byte) (s : State) :
    (hostWriteMem a bytes s).agenda = s.agenda := rfl
@[simp] theorem hostWriteMem_readback (a : Nat) (bytes : List Byte) (s : State) :
    (hostWriteMem a bytes s).readback = s.readback := rfl

/-! ### resetEvent -/

@[simp] theorem resetEvent_regs (s : State) : (resetEvent s).regs = HostRegs.zero := rfl
@[simp] theorem resetEvent_res (s : State) : (resetEvent s).res = Results.zero := rfl
@[simp] theorem resetEvent_phase (s : State) : (resetEvent s).phase = .idle := rfl
@[simp] theorem resetEvent_empty (s : State) : (resetEvent s).empty = false := rfl
@[simp] theorem resetEvent_err (s : State) : (resetEvent s).err = none := rfl
@[simp] theorem resetEvent_ctx (s : State) : (resetEvent s).ctx = HostRegs.zero := rfl
@[simp] theorem resetEvent_pending (s : State) : (resetEvent s).pending = [] := rfl
@[simp] theorem resetEvent_flight (s : State) : (resetEvent s).flight = [] := rfl
@[simp] theorem resetEvent_mem (s : State) : (resetEvent s).mem = writeCells s.mem (freeOutputs s.fresh (runningExtents s)) := rfl
@[simp] theorem resetEvent_plat (s : State) : (resetEvent s).plat = s.plat := rfl
@[simp] theorem resetEvent_grain (s : State) : (resetEvent s).grain = s.grain := rfl
@[simp] theorem resetEvent_spoiled (s : State) : (resetEvent s).spoiled = false := rfl
@[simp] theorem resetEvent_launchMem (s : State) : (resetEvent s).launchMem = [] := rfl
@[simp] theorem resetEvent_fresh (s : State) : (resetEvent s).fresh = s.fresh + 1 := rfl
@[simp] theorem resetEvent_agenda (s : State) : (resetEvent s).agenda = s.agenda := rfl
@[simp] theorem resetEvent_readback (s : State) : (resetEvent s).readback = s.readback := rfl

end Sys2Proof.Machine
end

