-- ==== Sys2Proof/Laws/Tiles.lean ====
section
/-! SUPPORT. Which addresses the parts of a tile write: its targets, whatever the values are. -/

namespace Sys2Proof.Machine

/-- A target of a quantizing tile's scales. -/
def IsScaleTarget (et : ElemType) (bs : List Block) (a : Nat) : Prop :=
  ∃ b ∈ bs, b.scaleAddr ≤ a ∧ a < b.scaleAddr + esz et

/-- The addresses a tile writes: its scales, its zero-point bytes and its packed bytes, or its elements. -/
def IsTarget (et : ElemType) : TileWork → Nat → Prop
  | .quant t, a => IsScaleTarget et t.blocks a ∨ (∃ z ∈ t.zpBytes, z.1 = a) ∨ ∃ d ∈ t.dataBytes, d.1 = a
  | .deq l, a => ∃ d ∈ l, d.dst ≤ a ∧ a < d.dst + esz et

/-- The cells of an element lie in its bytes. -/
theorem elemCells_target {et : ElemType} {a : Nat} {f : Flt} {cells : List Host.Cell}
    (h : elemCells et a f = some cells) {x : Host.Cell} (hx : x ∈ cells) : a ≤ x.1 ∧ x.1 < a + esz et := by
  unfold elemCells at h
  obtain ⟨v, -, rfl⟩ := Option.map_eq_some_iff.mp h
  obtain ⟨k, hk, rfl⟩ := mem_wordCells hx
  simp only
  omega

theorem scaleCells_target {q : QuantMode} {bs : List Block} {ps : List BlockParam} {cells : List Host.Cell}
    (h : scaleCells q bs ps = some cells) {x : Host.Cell} (hx : x ∈ cells) : IsScaleTarget q.et bs x.1 := by
  induction bs generalizing ps cells with
  | nil => simp only [scaleCells, Option.some.injEq] at h; subst h; simp at hx
  | cons b bs ih =>
    cases ps with
    | nil => simp only [scaleCells, Option.some.injEq] at h; subst h; simp at hx
    | cons p ps =>
      simp only [scaleCells] at h
      split at h
      · simp at h
      · next cs hcs =>
        obtain ⟨rest, hrest, rfl⟩ := Option.map_eq_some_iff.mp h
        rcases List.mem_append.mp hx with hx | hx
        · exact ⟨b, by simp, elemCells_target hcs hx⟩
        · obtain ⟨b', hb', hr⟩ := ih hrest hx
          exact ⟨b', List.mem_cons_of_mem _ hb', hr⟩

theorem zpCells_target {q : QuantMode} {t : QuantTile} {zacc : List Nat} {x : Host.Cell}
    (hx : x ∈ zpCells q t zacc) : ∃ z ∈ t.zpBytes, z.1 = x.1 := by
  obtain ⟨z, hz, rfl⟩ := List.mem_map.mp hx
  exact ⟨z, hz, rfl⟩

theorem dataCells_target {q : QuantMode} {elem : Nat → Option Flt} {rs : List Flt} {zacc : List Nat}
    {t : QuantTile} {cells : List Host.Cell} (h : dataCells q elem rs zacc t = some cells) {x : Host.Cell}
    (hx : x ∈ cells) : ∃ d ∈ t.dataBytes, d.1 = x.1 := by
  obtain ⟨d, hd, hf⟩ := mem_of_collect h hx
  unfold dataCell at hf
  obtain ⟨values, -, rfl⟩ := Option.map_eq_some_iff.mp hf
  exact ⟨d, hd, rfl⟩

theorem deqCells_target {et : ElemType} {m : Memory} {l : List DeqElem} {cells : List Host.Cell}
    (h : collectCells (deqCells et m) l = some cells) {x : Host.Cell} (hx : x ∈ cells) :
    ∃ d ∈ l, d.dst ≤ x.1 ∧ x.1 < d.dst + esz et := by
  obtain ⟨d, hd, cs, hcs, hx⟩ := (mem_collectCells h).mp hx
  unfold deqCells at hcs
  split at hcs
  · simp at hcs
  · exact ⟨d, hd, elemCells_target hcs hx⟩

/-- A quantizing tile's cells: scales, zero points and codes, from one set of parameters. -/
theorem quantTileCells_eq_some {q : QuantMode} {elem : Nat → Option Flt} {t : QuantTile} {cells : List Host.Cell}
    (h : quantTileCells q elem t = some cells) :
    ∃ ps sc rs d, collect (blockParam q elem) t.blocks = some ps ∧ scaleCells q t.blocks ps = some sc ∧
      collect (storedRecip q) ps = some rs ∧ dataCells q elem rs (accumulators q t ps) t = some d ∧
      cells = sc ++ zpCells q t (accumulators q t ps) ++ d := by
  unfold quantTileCells at h
  split at h
  · simp at h
  · next ps hps =>
    split at h
    · next sc rs hsc hrs =>
      obtain ⟨d, hd, rfl⟩ := Option.map_eq_some_iff.mp h
      exact ⟨ps, sc, rs, d, hps, hsc, hrs, hd, rfl⟩
    · simp at h

/-- A whole tile writes its targets only. -/
theorem tileCells_target {q : QuantMode} {m : Memory} {w : TileWork} {cells : List Host.Cell}
    (h : tileCells q m w = some cells) {x : Host.Cell} (hx : x ∈ cells) : IsTarget q.et w x.1 := by
  cases w with
  | quant t =>
    obtain ⟨ps, sc, rs, d, -, hsc, -, hd, rfl⟩ := quantTileCells_eq_some h
    rcases List.mem_append.mp hx with hx | hx
    · rcases List.mem_append.mp hx with hx | hx
      · exact .inl (scaleCells_target hsc hx)
      · exact .inr (.inl (zpCells_target hx))
    · exact .inr (.inr (dataCells_target hd hx))
  | deq l => exact deqCells_target h hx

end Sys2Proof.Machine
end

