-- ==== Sys2Proof/Laws/Ops.lean ====
section
/-! SUPPORT. For each shared operation, once, everything it can do. -/

namespace Sys2Proof.Machine

/-! ### Bulk commands -/

/-- A whole command performed: its cells written, or its outputs spoiled. -/
theorem performAll_cases (j : Job) (s : State) :
    (∃ cells, jobResult j s.ctx s.mem = some cells ∧
        performAll j s = complete false { s with mem := writeCells s.mem cells }) ∨
      (jobResult j s.ctx s.mem = none ∧ performAll j s = complete false (spoilOutputs (jobExtents j s.ctx) s)) := by
  unfold performAll
  cases h : jobResult j s.ctx s.mem with
  | some cells => exact .inl ⟨cells, rfl, rfl⟩
  | none => exact .inr ⟨rfl, rfl⟩

/-- A bulk command: silent degrade, an error, performed whole, or dispatched tile by tile. -/
theorem runBulk_cases (j : Job) (s : State) :
    (jobEmpty j s.ctx = true ∧ runBulk j s = complete true s) ∨
      (jobEmpty j s.ctx = false ∧ ∃ e, jobError j s.ctx s.plat.memBytes = some e ∧ runBulk j s = raiseError e s) ∨
      (jobEmpty j s.ctx = false ∧ jobError j s.ctx s.plat.memBytes = none ∧ s.grain = .atomic ∧
        runBulk j s = performAll j s) ∨
      (jobEmpty j s.ctx = false ∧ jobError j s.ctx s.plat.memBytes = none ∧ s.grain = .tiled ∧
        runBulk j s = dispatchTiles j s) := by
  unfold runBulk
  cases he : jobEmpty j s.ctx with
  | true => simp
  | false =>
    cases hj : jobError j s.ctx s.plat.memBytes with
    | some e => simp
    | none => cases hg : s.grain <;> simp

/-- The error a bulk launch ends in is one of three. -/
theorem jobError_cases {j : Job} {c : HostRegs} {n : Nat} {e : CmdError} (h : jobError j c n = some e) :
    (jobConfigError j c = true ∧ e = .configError) ∨
      (jobConfigError j c = false ∧ jobMisaligned j c = true ∧ e = .alignError) ∨
      (jobConfigError j c = false ∧ jobMisaligned j c = false ∧ (jobExtents j c).all (extentFits n) = false ∧
        e = .addressError) := by
  unfold jobError at h
  split at h
  · next h1 => exact .inl ⟨h1, by simpa using h.symm⟩
  · next h1 =>
    split at h
    · next h2 => exact .inr (.inl ⟨by simpa using h1, h2, by simpa using h.symm⟩)
    · next h2 =>
      split at h
      · simp at h
      · next h3 => exact .inr (.inr ⟨by simpa using h1, by simpa using h2, by simpa using h3, by simpa using h.symm⟩)

/-- What passing tests 5 to 7 of R319 says. -/
theorem jobError_eq_none {j : Job} {c : HostRegs} {n : Nat} (h : jobError j c n = none) :
    jobConfigError j c = false ∧ jobMisaligned j c = false ∧ ∀ e ∈ jobExtents j c, extentFits n e = true := by
  unfold jobError at h
  split at h
  · simp at h
  · next h1 =>
    split at h
    · simp at h
    · next h2 =>
      split at h
      · next h3 => exact ⟨by simpa using h1, by simpa using h2, by simpa using h3⟩
      · simp at h

/-- A specified result: no clash, and the cells are the cells of the tiles. -/
theorem jobResult_eq_some {j : Job} {c : HostRegs} {m : Memory} {cells : List Host.Cell}
    (h : jobResult j c m = some cells) :
    anyClash (jobExtents j c) = false ∧ collectCells (jobTileCells j c m) (jobTiles j c) = some cells := by
  unfold jobResult at h
  split at h
  · simp at h
  · next h1 => exact ⟨by simpa using h1, h⟩

/-! ### Scalar commands -/

/-- `R2Q`: both results, or both unspecified. -/
theorem runRange_cases (asym : Bool) (w : Width) (et : ElemType) (s : State) :
    (∃ r0 r1, rangeResults asym w et s.ctx.opa s.ctx.opb = some (r0, r1) ∧
        runRange asym w et s = complete false { s with res := { s.res with res0 := r0, res1 := r1 } }) ∨
      (rangeResults asym w et s.ctx.opa s.ctx.opb = none ∧ runRange asym w et s = completeUnspecified s) := by
  unfold runRange
  cases h : rangeResults asym w et s.ctx.opa s.ctx.opb with
  | some r => obtain ⟨r0, r1⟩ := r; exact .inl ⟨r0, r1, rfl, rfl⟩
  | none => exact .inr ⟨rfl, rfl⟩

/-- `NORM`: an error, both results, or both unspecified. -/
theorem execNorm_cases (w : Width) (s : State) :
    (qmax w < s.ctx.opc.toNat ∧ execNorm w s = .next (raiseError .operandError s)) ∨
      (s.ctx.opc.toNat ≤ qmax w ∧ ∃ r0 r1, normResults w s.ctx.opa s.ctx.opb s.ctx.opc.toNat = some (r0, r1) ∧
        execNorm w s = .next (complete false { s with res := { s.res with res0 := r0, res1 := r1 } })) ∨
      (s.ctx.opc.toNat ≤ qmax w ∧ normResults w s.ctx.opa s.ctx.opb s.ctx.opc.toNat = none ∧
        execNorm w s = .next (completeUnspecified s)) := by
  unfold execNorm
  split
  · next h => exact .inl ⟨h, rfl⟩
  · next h =>
    cases hr : normResults w s.ctx.opa s.ctx.opb s.ctx.opc.toNat with
    | some r => obtain ⟨r0, r1⟩ := r; exact .inr (.inl ⟨by omega, r0, r1, rfl, rfl⟩)
    | none => exact .inr (.inr ⟨by omega, rfl, rfl⟩)

/-- `PACK`: the byte, or an error. -/
theorem runPack_cases (w : Width) (s : State) :
    ((∀ v ∈ lanes s.ctx.opa (perByte w), v ≤ qmax w) ∧
        runPack w s =
          complete false
            { s with res := { s.res with res0 := (pack w (lanes s.ctx.opa (perByte w))).setWidth 32 } }) ∨
      ((∃ v ∈ lanes s.ctx.opa (perByte w), qmax w < v) ∧ runPack w s = raiseError .operandError s) := by
  unfold runPack
  by_cases h : ∀ v ∈ lanes s.ctx.opa (perByte w), v ≤ qmax w
  · left
    refine ⟨h, ?_⟩
    have : (lanes s.ctx.opa (perByte w)).all (fun v => v ≤ qmax w) = true := by simpa using h
    simp only [this, if_true]
  · right
    have : (lanes s.ctx.opa (perByte w)).all (fun v => v ≤ qmax w) = false := by
      rw [← Bool.not_eq_true]; simpa using h
    simp only [this]
    push Not at h
    exact ⟨h, rfl⟩

/-- `GEOM`: the shape, the silent degrade, or an error. -/
theorem execGeom_cases (w : Width) (o : Orient) (zpen : Bool) (s : State) :
    (supportedBlock s.ctx.blksz.toNat = true ∧ geometryFits (contextGeometry s.ctx w o zpen) = true ∧
        execGeom w o zpen s =
          .next (complete false { s with res := geometryResults (contextGeometry s.ctx w o zpen) })) ∨
      (supportedBlock s.ctx.blksz.toNat = true ∧ geometryFits (contextGeometry s.ctx w o zpen) = false ∧
        execGeom w o zpen s = .next (raiseError .configError s)) ∨
      (supportedBlock s.ctx.blksz.toNat = false ∧
        execGeom w o zpen s = .next (complete true { s with res := Results.zero })) := by
  unfold execGeom
  cases h : supportedBlock s.ctx.blksz.toNat with
  | false => simp
  | true => cases hg : geometryFits (contextGeometry s.ctx w o zpen) <;> simp [hg]

/-! ### The tiles of a running command -/

/-- A tile begun: it is in flight, or it ended because of a non-finite element. -/
theorem startTile_cases (j : Job) (t : Tile) (s : State) :
    (∃ f : InFlight, f.tile = t ∧ startTile j t s = { s with flight := s.flight ++ [f] }) ∨
      startTile j t s = endTile t s := by
  unfold startTile
  split
  · split
    · exact .inl ⟨_, rfl, rfl⟩
    · exact .inr rfl
  · exact .inl ⟨_, rfl, rfl⟩

/-- A tile advanced: it goes to its next stage or ends, having written cells at targets of its own or none. -/
theorem advanceTile_cases (j : Job) (f : InFlight) (s : State) :
    ∃ cells : List Host.Cell, (∀ x ∈ cells, IsTarget (jobMode j).et (jobWork j s.ctx f.tile) x.1) ∧
      (advanceTile j f s = endTile f.tile { s with mem := writeCells s.mem cells } ∨
        ∃ g : InFlight, g.tile = f.tile ∧
          advanceTile j f s = updateFlight g { s with mem := writeCells s.mem cells }) := by
  have nocells : ∀ x ∈ ([] : List Host.Cell), IsTarget (jobMode j).et (jobWork j s.ctx f.tile) x.1 := by simp
  unfold advanceTile
  split
  · next qt hw =>
    split
    · unfold stageParams
      split
      · exact ⟨[], nocells, .inl rfl⟩
      · next ps _ =>
        split
        · exact ⟨[], nocells, .inl rfl⟩
        · next cells hc =>
          refine ⟨cells, fun x hx => ?_, .inr ⟨_, ?_, rfl⟩⟩
          · rw [hw]; exact .inl (scaleCells_target hc hx)
          · rfl
    · refine ⟨zpCells (jobMode j) qt f.scratch.zacc, fun x hx => ?_, .inr ⟨{ f with stage := .recips }, rfl, rfl⟩⟩
      rw [hw]; exact .inr (.inl (zpCells_target hx))
    · unfold stageRecips
      split
      · exact ⟨[], nocells, .inl rfl⟩
      · refine ⟨[], nocells, .inr ⟨_, ?_, rfl⟩⟩
        rfl
    · unfold stageCodes
      split
      · exact ⟨[], nocells, .inl rfl⟩
      · next cells hc =>
        refine ⟨cells, fun x hx => ?_, .inl rfl⟩
        rw [hw]; exact .inr (.inr (dataCells_target hc hx))
  · next l hw =>
    unfold stageDequantize
    split
    · exact ⟨[], nocells, .inl rfl⟩
    · next cells hc =>
      refine ⟨cells, fun x hx => ?_, .inl rfl⟩
      rw [hw]; exact deqCells_target hc hx

/-- A pending tile gone on: begun, or a tile in flight advanced, or nothing because there is no worker. -/
theorem workOn_cases (j : Job) (t : Tile) (s : State) :
    (∃ f ∈ s.flight, workOn j t s = advanceTile j f s) ∨
      ((∀ f ∈ s.flight, f.tile ≠ t) ∧ s.flight.length < s.plat.workers ∧ workOn j t s = startTile j t s) ∨
      (s.flight = [] ∧ s.plat.workers = 0 ∧ workOn j t s = s) := by
  unfold workOn
  cases h : s.flight.find? (fun f => f.tile == t) with
  | some f => exact .inl ⟨f, List.mem_of_find?_eq_some h, rfl⟩
  | none =>
    have hn : ∀ f ∈ s.flight, f.tile ≠ t := by
      intro f hf
      simpa using (List.find?_eq_none.mp h) f hf
    simp only
    split
    · next hl => exact .inr (.inl ⟨hn, hl, rfl⟩)
    · next hl =>
      cases hf : s.flight with
      | nil => rw [hf] at hl; exact .inr (.inr ⟨rfl, by simpa using hl, rfl⟩)
      | cons f rest => exact .inl ⟨f, by simp, rfl⟩

/-- The barrier passed: completed, the outputs spoiled or as they are. -/
theorem finish_cases (s : State) :
    (s.spoiled = true ∧ finish s = complete false (spoilOutputs (runningExtents s) s)) ∨
      (s.spoiled = false ∧ finish s = complete false s) := by
  unfold finish
  cases s.spoiled <;> simp

/-- One step of the running command: nothing when none runs, the barrier, or one pending tile gone on. -/
theorem progress_cases (k : Nat) (s : State) :
    (s.phase ≠ .busy ∧ progress k s = s) ∨
      (s.phase = .busy ∧ s.pending = [] ∧ progress k s = finish s) ∨
      (s.phase = .busy ∧ ∃ j, contextJob s.ctx = some j ∧ ∃ t ∈ s.pending, progress k s = workOn j t s) ∨
      (s.phase = .busy ∧ s.pending ≠ [] ∧ contextJob s.ctx = none ∧ progress k s = s) := by
  unfold progress
  split
  · next hb =>
    cases hp : s.pending with
    | nil => exact .inr (.inl ⟨hb, rfl, rfl⟩)
    | cons t rest =>
      cases hj : contextJob s.ctx with
      | none => exact .inr (.inr (.inr ⟨hb, by simp, rfl, rfl⟩))
      | some j =>
        refine .inr (.inr (.inl ⟨hb, j, rfl, (t :: rest).getD (k % (rest.length + 1)) t, ?_, rfl⟩))
        have hlt : k % (rest.length + 1) < (t :: rest).length := Nat.mod_lt _ (by simp)
        rw [List.getD_eq_getElem _ _ hlt]
        exact List.getElem_mem hlt
  · next hb => exact .inl ⟨hb, rfl⟩

/-! ### The host's moves -/

/-- A launch: the decoded command run on the latched state, or the illegal-command error. -/
theorem launch_cases (w : Word) (s : State) :
    (∃ i, decode w = .ok i ∧ launch w s = exec i (latch w s)) ∨
      (∃ e, decode w = .error e ∧ launch w s = .next (raiseError .illegalCommand (latch w s))) := by
  unfold launch
  cases h : decode w with
  | ok i => exact .inl ⟨i, rfl, rfl⟩
  | error e => exact .inr ⟨e, rfl, rfl⟩

/-- A register write: ignored, a launch, or one register changed. -/
theorem hostWriteReg_cases (i : Fin 32) (v : Word) (s : State) :
    (s.phase = .busy ∧ hostWriteReg i v s = .next s) ∨
      (s.phase ≠ .busy ∧ i = 0 ∧ hostWriteReg i v s = launch v s) ∨
      (s.phase ≠ .busy ∧ i ≠ 0 ∧ hostWriteReg i v s = .next { s with regs := writeSlot s.regs i v }) := by
  unfold hostWriteReg
  by_cases hb : s.phase = .busy
  · exact .inl ⟨hb, by simp [hb]⟩
  · by_cases hi : i = 0
    · exact .inr (.inl ⟨hb, hi, by simp [hb, hi]⟩)
    · exact .inr (.inr ⟨hb, hi, by simp [hb, hi]⟩)

/-- An output byte read while `BUSY`: free when the result is unspecified or unknown, else the old value or the new. -/
theorem outputByte_cases (s : State) (a : Nat) :
    (s.spoiled = true ∧ outputByte s a = Config.freeByte s.fresh a) ∨
      (s.spoiled = false ∧ (∀ j, contextJob s.ctx = some j → jobResult j s.ctx s.launchMem = none) ∧
        outputByte s a = Config.freeByte s.fresh a) ∨
      (s.spoiled = false ∧ ∃ j cells, contextJob s.ctx = some j ∧ jobResult j s.ctx s.launchMem = some cells ∧
        outputByte s a =
          if Config.freeChoice s.fresh a then readByte s.launchMem a else readByte (writeCells s.launchMem cells) a) := by
  unfold outputByte
  cases s.spoiled with
  | true => exact .inl ⟨rfl, rfl⟩
  | false =>
    cases hj : contextJob s.ctx with
    | none => exact .inr (.inl ⟨rfl, by simp, rfl⟩)
    | some j =>
      cases hr : jobResult j s.ctx s.launchMem with
      | none => exact .inr (.inl ⟨rfl, by simpa using hr, by simp [hr]⟩)
      | some cells => exact .inr (.inr ⟨rfl, j, cells, rfl, hr, by simp [hr]⟩)

/-- A byte the host reads: an output byte of the running command, or the byte that stands there. -/
theorem hostReadByte_cases (s : State) (a : Nat) :
    (inWritten (runningExtents s) a = true ∧ hostReadByte s a = outputByte s a) ∨
      (inWritten (runningExtents s) a = false ∧ hostReadByte s a = readByte s.mem a) := by
  unfold hostReadByte
  cases inWritten (runningExtents s) a <;> simp

/-- A host write spoils the running command exactly when it touches a buffer of it. -/
theorem hostWriteMem_spoiled (a : Nat) (bytes : List Byte) (s : State) :
    (hostWriteMem a bytes s).spoiled = true ↔
      s.spoiled = true ∨ ∃ x ∈ span a (a + bytes.length), ∃ e ∈ runningExtents s, inExtent e x = true := by
  simp [hostWriteMem]

/-- A wait: one read of `STATUS` when nothing runs; else a read, one step of the running command, and the wait again. -/
theorem hostWait_cases (s : State) :
    (s.phase ≠ .busy ∧ hostWait s = hostReadReg 1 s) ∨
      (s.phase = .busy ∧ hostWait s = { progress 0 (hostReadReg 1 s) with agenda := .wait :: s.agenda }) := by
  unfold hostWait
  by_cases hb : s.phase = .busy
  · exact .inr ⟨hb, by simp [hb]⟩
  · exact .inl ⟨hb, by simp [hb]⟩

/-- A step: the head of the agenda performed, or the running command gone on. -/
theorem step_cases (s : State) :
    (s.agenda = [] ∧ step s = .next (progress 0 s)) ∨
      (∃ e rest, s.agenda = e :: rest ∧ step s = perform e { s with agenda := rest }) := by
  unfold step nextMove
  cases h : s.agenda with
  | nil => exact .inl ⟨rfl, rfl⟩
  | cons e rest => exact .inr ⟨e, rest, rfl, rfl⟩

end Sys2Proof.Machine
end

