-- ==== Sys2Proof/Laws/PerInstr.lean ====
section
/-! SUPPORT. One lemma per command, for the statements that hold of all of them. -/

namespace Sys2Proof.Laws

/-- The word of a well-formed command is selected by the row of the opcode table that bears its mnemonic (R93). -/
def EncodesInItsRow.Statement (i : Instr) : Prop :=
  i.wf = true → ∃ r ∈ opcodeRows, r.mnemonic = mnemonicOf i ∧ r.selects (encode i) = true

theorem EncodesInItsRow.geom (w : Width) (o : Orient) (z : Bool) : EncodesInItsRow.Statement (.geom w o z) := by
  unfold EncodesInItsRow.Statement
  cases w <;> cases o <;> cases z <;> decide

theorem EncodesInItsRow.r2qS (w : Width) (et : ElemType) : EncodesInItsRow.Statement (.r2qS w et) := by
  unfold EncodesInItsRow.Statement
  cases w <;> cases et <;> decide

theorem EncodesInItsRow.r2qA (w : Width) (et : ElemType) : EncodesInItsRow.Statement (.r2qA w et) := by
  unfold EncodesInItsRow.Statement
  cases w <;> cases et <;> decide

theorem EncodesInItsRow.norm (w : Width) : EncodesInItsRow.Statement (.norm w) := by
  unfold EncodesInItsRow.Statement
  cases w <;> decide

theorem EncodesInItsRow.packQ4 : EncodesInItsRow.Statement (.packQ4) := by
  unfold EncodesInItsRow.Statement
  decide

theorem EncodesInItsRow.packQ2 : EncodesInItsRow.Statement (.packQ2) := by
  unfold EncodesInItsRow.Statement
  decide

theorem EncodesInItsRow.packQ8 : EncodesInItsRow.Statement (.packQ8) := by
  unfold EncodesInItsRow.Statement
  decide

theorem EncodesInItsRow.unpackQ4 : EncodesInItsRow.Statement (.unpackQ4) := by
  unfold EncodesInItsRow.Statement
  decide

theorem EncodesInItsRow.unpackQ2 : EncodesInItsRow.Statement (.unpackQ2) := by
  unfold EncodesInItsRow.Statement
  decide

theorem EncodesInItsRow.unpackQ8 : EncodesInItsRow.Statement (.unpackQ8) := by
  unfold EncodesInItsRow.Statement
  decide

theorem EncodesInItsRow.qtS (o : Orient) (et : ElemType) : EncodesInItsRow.Statement (.qtS o et) := by
  unfold EncodesInItsRow.Statement
  cases o <;> cases et <;> decide

theorem EncodesInItsRow.qtA (o : Orient) (et : ElemType) : EncodesInItsRow.Statement (.qtA o et) := by
  unfold EncodesInItsRow.Statement
  cases o <;> cases et <;> decide

theorem EncodesInItsRow.dqtS (o : Orient) (et : ElemType) : EncodesInItsRow.Statement (.dqtS o et) := by
  unfold EncodesInItsRow.Statement
  cases o <;> cases et <;> decide

theorem EncodesInItsRow.dqtA (o : Orient) (et : ElemType) : EncodesInItsRow.Statement (.dqtA o et) := by
  unfold EncodesInItsRow.Statement
  cases o <;> cases et <;> decide

theorem EncodesInItsRow.qdqcS (w : Width) (et : ElemType) : EncodesInItsRow.Statement (.qdqcS w et) := by
  unfold EncodesInItsRow.Statement
  cases w <;> cases et <;> decide

theorem EncodesInItsRow.qdqcA (w : Width) (et : ElemType) : EncodesInItsRow.Statement (.qdqcA w et) := by
  unfold EncodesInItsRow.Statement
  cases w <;> cases et <;> decide

theorem EncodesInItsRow.qdqr (w : Width) (z : Bool) (et : ElemType) : EncodesInItsRow.Statement (.qdqr w z et) := by
  unfold EncodesInItsRow.Statement
  cases w <;> cases z <;> cases et <;> decide

theorem EncodesInItsRow.lpackS32 : EncodesInItsRow.Statement (.lpackS32) := by
  unfold EncodesInItsRow.Statement
  decide

theorem EncodesInItsRow.lpackS64 : EncodesInItsRow.Statement (.lpackS64) := by
  unfold EncodesInItsRow.Statement
  decide

theorem EncodesInItsRow.lpackS128 : EncodesInItsRow.Statement (.lpackS128) := by
  unfold EncodesInItsRow.Statement
  decide

theorem EncodesInItsRow.lpackA32 : EncodesInItsRow.Statement (.lpackA32) := by
  unfold EncodesInItsRow.Statement
  decide

theorem EncodesInItsRow.lunpackS32 : EncodesInItsRow.Statement (.lunpackS32) := by
  unfold EncodesInItsRow.Statement
  decide

theorem EncodesInItsRow.lunpackS64 : EncodesInItsRow.Statement (.lunpackS64) := by
  unfold EncodesInItsRow.Statement
  decide

theorem EncodesInItsRow.lunpackS128 : EncodesInItsRow.Statement (.lunpackS128) := by
  unfold EncodesInItsRow.Statement
  decide

theorem EncodesInItsRow.lunpackA32 : EncodesInItsRow.Statement (.lunpackA32) := by
  unfold EncodesInItsRow.Statement
  decide

end Sys2Proof.Laws
end

