-- ==== Sys2Proof/Tests/Slice0.lean ====
section
/-! SUPPORT. Tests: ill-formed commands refused; words written from R93 decoded; one step for each command against the
spec's worked examples; and for each statement a state that meets its hypotheses. -/

namespace Sys2Proof.Tests

open Sys2Proof.Machine

set_option Elab.async false

/-! ### Well-formedness: only the bit-packer takes 8-bit codes (R92) -/

theorem test_wf_refuses_geom : Instr.wf (.geom .q8 .colWise true) = false := by decide

theorem test_wf_refuses_r2qS : Instr.wf (.r2qS .q8 .f32) = false := by decide

theorem test_wf_refuses_r2qA : Instr.wf (.r2qA .q8 .f16) = false := by decide

theorem test_wf_refuses_norm : Instr.wf (.norm .q8) = false := by decide

theorem test_wf_refuses_qdqcS : Instr.wf (.qdqcS .q8 .f32) = false := by decide

theorem test_wf_refuses_qdqcA : Instr.wf (.qdqcA .q8 .f32) = false := by decide

theorem test_wf_refuses_qdqr : Instr.wf (.qdqr .q8 false .f32) = false := by decide

theorem test_wf_accepts_narrow : Instr.wf (.geom .q2 .rowWise false) = true := by decide


/-! ### Decoding: words written out from R90 and R93 -/

/-- The fields `LV`, `ET`, `ZPEN`, `CW`, `QB`, `OP` of R90 as six binary numbers, the reserved bits 0. -/
def word (lv : BitVec 2) (et zpen cw : BitVec 1) (qb : BitVec 2) (op : BitVec 4) : Word :=
  0#21 ++ lv ++ et ++ zpen ++ cw ++ qb ++ op

theorem test_decode_geom : decode (word 0b00#2 0#1 1#1 1#1 0b01#2 0b0001#4) = .ok (.geom .q2 .colWise true) := by decide +kernel

theorem test_decode_r2qS : decode (word 0b00#2 1#1 0#1 0#1 0b00#2 0b0010#4) = .ok (.r2qS .q4 .f16) := by decide +kernel

theorem test_decode_r2qA : decode (word 0b00#2 0#1 1#1 0#1 0b01#2 0b0010#4) = .ok (.r2qA .q2 .f32) := by decide +kernel

theorem test_decode_norm : decode (word 0b00#2 0#1 0#1 0#1 0b01#2 0b0011#4) = .ok (.norm .q2) := by decide +kernel

theorem test_decode_packQ4 : decode 0x00000004#32 = .ok .packQ4 := by decide +kernel

theorem test_decode_packQ2 : decode 0x00000014#32 = .ok .packQ2 := by decide +kernel

theorem test_decode_packQ8 : decode 0x00000024#32 = .ok .packQ8 := by decide +kernel

theorem test_decode_unpackQ4 : decode 0x00000005#32 = .ok .unpackQ4 := by decide +kernel

theorem test_decode_unpackQ2 : decode 0x00000015#32 = .ok .unpackQ2 := by decide +kernel

theorem test_decode_unpackQ8 : decode 0x00000025#32 = .ok .unpackQ8 := by decide +kernel

theorem test_decode_qtS : decode (word 0b00#2 1#1 0#1 0#1 0b00#2 0b0110#4) = .ok (.qtS .rowWise .f16) := by decide +kernel

theorem test_decode_qtA : decode (word 0b00#2 0#1 1#1 1#1 0b00#2 0b0110#4) = .ok (.qtA .colWise .f32) := by decide +kernel

theorem test_decode_dqtS : decode (word 0b00#2 0#1 0#1 1#1 0b00#2 0b0111#4) = .ok (.dqtS .colWise .f32) := by decide +kernel

theorem test_decode_dqtA : decode (word 0b00#2 1#1 1#1 0#1 0b00#2 0b0111#4) = .ok (.dqtA .rowWise .f16) := by decide +kernel

theorem test_decode_qdqcS : decode (word 0b00#2 0#1 0#1 1#1 0b01#2 0b1000#4) = .ok (.qdqcS .q2 .f32) := by decide +kernel

theorem test_decode_qdqcA : decode (word 0b00#2 1#1 1#1 1#1 0b00#2 0b1000#4) = .ok (.qdqcA .q4 .f16) := by decide +kernel

theorem test_decode_qdqr : decode (word 0b00#2 1#1 1#1 0#1 0b01#2 0b1000#4) = .ok (.qdqr .q2 true .f16) := by decide +kernel

theorem test_decode_lpackS32 : decode (word 0b00#2 0#1 0#1 0#1 0b00#2 0b1001#4) = .ok (.lpackS32) := by decide +kernel

theorem test_decode_lpackS64 : decode (word 0b01#2 0#1 0#1 0#1 0b00#2 0b1001#4) = .ok (.lpackS64) := by decide +kernel

theorem test_decode_lpackS128 : decode (word 0b10#2 0#1 0#1 0#1 0b00#2 0b1001#4) = .ok (.lpackS128) := by decide +kernel

theorem test_decode_lpackA32 : decode (word 0b11#2 0#1 0#1 0#1 0b00#2 0b1001#4) = .ok (.lpackA32) := by decide +kernel

theorem test_decode_lunpackS32 : decode (word 0b00#2 0#1 0#1 0#1 0b00#2 0b1010#4) = .ok (.lunpackS32) := by decide +kernel

theorem test_decode_lunpackS64 : decode (word 0b01#2 0#1 0#1 0#1 0b00#2 0b1010#4) = .ok (.lunpackS64) := by decide +kernel

theorem test_decode_lunpackS128 : decode (word 0b10#2 0#1 0#1 0#1 0b00#2 0b1010#4) = .ok (.lunpackS128) := by decide +kernel

theorem test_decode_lunpackA32 : decode (word 0b11#2 0#1 0#1 0#1 0b00#2 0b1010#4) = .ok (.lunpackA32) := by decide +kernel


/-- A reserved bit, a reserved width, a width the operation does not take, a field that must be 0, a reserved opcode
(R94). -/
theorem test_decode_refuses :
    decode 0x00000804#32 = .error .reservedBits ∧ decode 0x00000031#32 = .error .reservedWidth ∧
      decode 0x00000016#32 = .error .widthNotAllowed ∧ decode 0x00000044#32 = .error .fieldNotZero ∧
      decode 0x0000000B#32 = .error .reservedOpcode := by decide +kernel

/-! ### One step of each command -/

/-- A command running with these operands. -/
def scalar (opa opb opc : Word) : State :=
  { State.reset with ctx := { HostRegs.zero with opa := opa, opb := opb, opc := opc } }

/-- A command running on this shape: Matrix at 0, PackedBuffer at 256, ScaleBuffer at 512, ZeroPointBuffer at 768. -/
def bulk (rows cols blk ld : Word) (m : Memory) : State :=
  { State.reset with
    ctx := { HostRegs.zero with rows := rows, cols := cols, blksz := blk, ld := ld, pkAddr := 256, scAddr := 512,
                                zpAddr := 768 }
    mem := m }

/-- Little-endian words one after the other. -/
def wordsAt (a : Nat) : List Nat → Memory
  | [] => []
  | v :: rest => wordCells a 4 v ++ wordsAt (a + 4) rest

/-- Bytes one after the other. -/
def bytesAt (a : Nat) (l : List Nat) : Memory := byteCells a (l.map (BitVec.ofNat 8))

/-- The results of a step. -/
def resOf : Host.Outcome State Fault Refusal → Option Results
  | .next t => some t.res
  | .fault _ => none
  | .refused _ => none

/-- `STATUS` after a step. -/
def statusOf : Host.Outcome State Fault Refusal → Option Word
  | .next t => some (statusWord t)
  | .fault _ => none
  | .refused _ => none

/-- Bytes of memory after a step. -/
def bytesOf (a n : Nat) : Host.Outcome State Fault Refusal → List Nat
  | .next t => (readBytes t.mem a n).map BitVec.toNat
  | .fault _ => []
  | .refused _ => []

/-- R135. -/
theorem test_geom :
    resOf (execGeom .q4 .colWise true (bulk 4 4 16 0 [])) =
      some { res0 := 1, res1 := 4, res2 := 8, res3 := 4, res4 := 32, res5 := 4, res6 := 4 } := by
  decide +kernel

/-- R139, third line. -/
theorem test_geom_rows :
    resOf (execGeom .q4 .rowWise true (bulk 3 20 16 0 [])) =
      some { res0 := 3, res1 := 2, res2 := 2, res3 := 32, res4 := 64, res5 := 6, res6 := 4 } := by
  decide +kernel

/-- R162. -/
theorem test_r2qS :
    resOf (execR2qS .q4 .f32 (scalar 0xC1000000 0x41000000 0)) =
      some { res0 := 0xBF800000, res1 := 8, res2 := 0, res3 := 0, res4 := 0, res5 := 0, res6 := 0 } := by
  decide +kernel

/-- R164, the symmetric range `(-1.0, 2.0)` in half precision. -/
theorem test_r2qS_half :
    resOf (execR2qS .q4 .f16 (scalar 0xBF800000 0x40000000 0)) =
      some { res0 := 0xB400, res1 := 8, res2 := 0, res3 := 0, res4 := 0, res5 := 0, res6 := 0 } := by
  decide +kernel

/-- R163. -/
theorem test_r2qA :
    resOf (execR2qA .q4 .f32 (scalar 0xBF800000 0x40000000 0)) =
      some { res0 := 0x3E4CCCCD, res1 := 5, res2 := 0, res3 := 0, res4 := 0, res5 := 0, res6 := 0 } := by
  decide +kernel

/-- R164: 7.4999995 rounds to 7. -/
theorem test_r2qA_rounds :
    resOf (execR2qA .q4 .f32 (scalar 0xBF800000 0x3F800000 0)) =
      some { res0 := 0x3E088889, res1 := 7, res2 := 0, res3 := 0, res4 := 0, res5 := 0, res6 := 0 } := by
  decide +kernel

/-- R176. -/
theorem test_norm :
    resOf (execNorm .q4 (scalar 0x3F800000 0x3E4CCCCD 5)) =
      some { res0 := 10, res1 := 0x40A00000, res2 := 0, res3 := 0, res4 := 0, res5 := 0, res6 := 0 } := by
  decide +kernel

/-- R179: the product rounds to 1.5, then 6.5 goes away from zero. -/
theorem test_norm_tie :
    resOf (execNorm .q4 (scalar 0x3E99999A 0x3E4CCCCD 5)) =
      some { res0 := 7, res1 := 0x40A00000, res2 := 0, res3 := 0, res4 := 0, res5 := 0, res6 := 0 } := by
  decide +kernel

/-- R192. -/
theorem test_packQ4 :
    resOf (execPackQ4 (scalar 0xFFFF0F0F 0 0)) =
      some { res0 := 0xFF, res1 := 0, res2 := 0, res3 := 0, res4 := 0, res5 := 0, res6 := 0 } := by
  decide +kernel

/-- R192. -/
theorem test_packQ2 :
    resOf (execPackQ2 (scalar 0x00010203 0 0)) =
      some { res0 := 0x1B, res1 := 0, res2 := 0, res3 := 0, res4 := 0, res5 := 0, res6 := 0 } := by
  decide +kernel

/-- R192. -/
theorem test_packQ8 :
    resOf (execPackQ8 (scalar 0x123456C7 0 0)) =
      some { res0 := 0xC7, res1 := 0, res2 := 0, res3 := 0, res4 := 0, res5 := 0, res6 := 0 } := by
  decide +kernel

/-- R192. -/
theorem test_unpackQ4 :
    resOf (execUnpackQ4 (scalar 0xABCDEF88 0 0)) =
      some { res0 := 0x808, res1 := 0, res2 := 0, res3 := 0, res4 := 0, res5 := 0, res6 := 0 } := by
  decide +kernel

/-- R192. -/
theorem test_unpackQ2 :
    resOf (execUnpackQ2 (scalar 0x000000E4 0 0)) =
      some { res0 := 0x03020100, res1 := 0, res2 := 0, res3 := 0, res4 := 0, res5 := 0, res6 := 0 } := by
  decide +kernel

/-- R192. -/
theorem test_unpackQ8 :
    resOf (execUnpackQ8 (scalar 0x000000C7 0 0)) =
      some { res0 := 0xC7, res1 := 0, res2 := 0, res3 := 0, res4 := 0, res5 := 0, res6 := 0 } := by
  decide +kernel

/-- R192: slot 1 is 16. -/
theorem test_packQ4_error :
    statusOf (execPackQ4 (scalar 0x00001005 0 0)) = some 0x43 := by
  decide +kernel

/-- The first column of R217. -/
def column : Memory := wordsAt 0 [0xBF800000, 0, 0x3F800000, 0x40000000]

/-- R217. -/
theorem test_qtS :
    (bytesOf 512 4 (execQtS .colWise .f32 (bulk 4 1 16 1 column)),
      bytesOf 256 2 (execQtS .colWise .f32 (bulk 4 1 16 1 column))) = ([0x00, 0x00, 0x80, 0xBE], [0x8C, 0x04]) := by
  decide +kernel

/-- R217. -/
theorem test_qtA :
    (bytesOf 512 4 (execQtA .colWise .f32 (bulk 4 1 16 1 column)),
      bytesOf 256 2 (execQtA .colWise .f32 (bulk 4 1 16 1 column)),
      bytesOf 768 1 (execQtA .colWise .f32 (bulk 4 1 16 1 column))) =
      ([0xCD, 0xCC, 0x4C, 0x3E], [0x50, 0xFA], [0x85]) := by
  decide +kernel

/-- R243. -/
theorem test_dqtS :
    bytesOf 0 16 (execDqtS .colWise .f32 (bulk 4 1 16 0 (bytesAt 256 [0x8C, 0x04] ++ wordsAt 512 [0xBE800000]))) =
      [0, 0, 0x80, 0xBF, 0, 0, 0, 0x80, 0, 0, 0x80, 0x3F, 0, 0, 0, 0x40] := by
  decide +kernel

/-- R243. -/
theorem test_dqtA :
    bytesOf 0 16 (execDqtA .colWise .f32
      (bulk 4 1 16 0 (bytesAt 256 [0x50, 0xFA] ++ wordsAt 512 [0x3E4CCCCD] ++ bytesAt 768 [0x85]))) =
      [0, 0, 0x80, 0xBF, 0, 0, 0, 0, 0, 0, 0x80, 0x3F, 0, 0, 0, 0x40] := by
  decide +kernel

/-- The matrix of R268. -/
def threeByFour : Memory :=
  wordsAt 0 [0xBF800000, 0, 0x3F800000, 0xC0400000, 0, 0, 0x40000000, 0xBF800000, 0x40000000, 0, 0x40400000, 0]

/-- R268. -/
theorem test_qdqcS :
    bytesOf 256 3 (execQdqcS .q2 .f32 (bulk 3 4 16 4 threeByFour)) = [0x1B, 0x5A, 0x88] := by
  decide +kernel

/-- R268. -/
theorem test_qdqcA :
    (bytesOf 256 6 (execQdqcA .q4 .f32 (bulk 3 4 16 4 threeByFour)),
      bytesOf 768 2 (execQdqcA .q4 .f32 (bulk 3 4 16 4 threeByFour))) =
      ([0x00, 0x05, 0x05, 0xAA, 0x0F, 0xFF], [0x05, 0xF0]) := by
  decide +kernel

/-- R260. -/
theorem test_qdqr :
    statusOf (execQdqr .q4 false .f32 (bulk 3 4 5 4 [])) = some 0x33 := by
  decide +kernel

/-- The operand of R295 (a). -/
def pair : Memory := wordsAt 0 [0x41000000, 0xC1000000]

/-- The operand of R295 (b), first column. -/
def triple : Memory := wordsAt 0 [0xBF800000, 0, 0x40000000]

/-- R295 (a). -/
theorem test_lpackS32 :
    bytesOf 256 20 (execLpackS32 (bulk 2 1 0 1 pair)) =
      [0, 0, 0x80, 0xBF, 0x80, 0x8F, 0x88, 0x88, 0x88, 0x88, 0x88, 0x88, 0x88, 0x88, 0x88, 0x88, 0x88, 0x88, 0x88, 0x88] := by
  decide +kernel

/-- R295 (a) with a longer block: one chunk (R284). -/
theorem test_lpackS64 :
    bytesOf 256 20 (execLpackS64 (bulk 2 1 0 1 pair)) =
      [0, 0, 0x80, 0xBF, 0x80, 0x8F, 0x88, 0x88, 0x88, 0x88, 0x88, 0x88, 0x88, 0x88, 0x88, 0x88, 0x88, 0x88, 0x88, 0x88] := by
  decide +kernel

/-- R295 (a) with a longer block: one chunk (R284). -/
theorem test_lpackS128 :
    bytesOf 256 20 (execLpackS128 (bulk 2 1 0 1 pair)) =
      [0, 0, 0x80, 0xBF, 0x80, 0x8F, 0x88, 0x88, 0x88, 0x88, 0x88, 0x88, 0x88, 0x88, 0x88, 0x88, 0x88, 0x88, 0x88, 0x88] := by
  decide +kernel

/-- R295 (b). -/
theorem test_lpackA32 :
    bytesOf 256 21 (execLpackA32 (bulk 3 1 0 1 triple)) =
      [0xCD, 0xCC, 0x4C, 0x3E, 0x05, 0x50, 0x55, 0x5F, 0x55, 0x55, 0x55, 0x55, 0x55, 0x55, 0x55, 0x55, 0x55, 0x55, 0x55,
        0x55, 0x55] := by
  decide +kernel

/-- R295 (a). -/
theorem test_lunpackS32 :
    bytesOf 0 8 (execLunpackS32 (bulk 2 1 0 1 (wordsAt 256 [0xBF800000] ++ bytesAt 260 [0x80, 0x8F]))) =
      [0, 0, 0, 0x41, 0, 0, 0xE0, 0xC0] := by
  decide +kernel

/-- R295 (a). -/
theorem test_lunpackS64 :
    bytesOf 0 8 (execLunpackS64 (bulk 2 1 0 1 (wordsAt 256 [0xBF800000] ++ bytesAt 260 [0x80, 0x8F]))) =
      [0, 0, 0, 0x41, 0, 0, 0xE0, 0xC0] := by
  decide +kernel

/-- R295 (a). -/
theorem test_lunpackS128 :
    bytesOf 0 8 (execLunpackS128 (bulk 2 1 0 1 (wordsAt 256 [0xBF800000] ++ bytesAt 260 [0x80, 0x8F]))) =
      [0, 0, 0, 0x41, 0, 0, 0xE0, 0xC0] := by
  decide +kernel

/-- R295 (b). -/
theorem test_lunpackA32 :
    bytesOf 0 12 (execLunpackA32
      (bulk 3 1 0 1 (wordsAt 256 [0x3E4CCCCD] ++ bytesAt 260 [0x05, 0x50, 0x55, 0x5F]))) =
      [0, 0, 0x80, 0xBF, 0, 0, 0, 0, 0, 0, 0, 0x40] := by
  decide +kernel

/-! ### States that meet the hypotheses of the statements -/

/-- Where a step goes; the state itself when it goes nowhere. -/
def after (s : State) : State :=
  match step s with
  | .next t => t
  | .fault _ => s
  | .refused _ => s

/-- The host's next move. -/
def asks (e : Event) : State := { State.reset with agenda := [e] }

/-- A `QT.A.CW.F32` of a 1 by 2 matrix, `[1.0, -2.0]`, dispatched tile by tile with one worker. -/
def running : State :=
  let c : HostRegs :=
    { HostRegs.zero with cmd := 0xC6, rows := 1, cols := 2, blksz := 16, ld := 2, pkAddr := 256, scAddr := 512,
                         zpAddr := 768 }
  dispatchTiles (.qt true .colWise .f32)
    { State.reset with regs := c, ctx := c, grain := .tiled, mem := wordsAt 0 [0x3F800000, 0xC0000000] }

/-- The bytes of a tile of that command. -/
def tileBytes (t : Tile) : List Host.Cell :=
  (jobTileCells (.qt true .colWise .f32) running.ctx running.mem t).getD []

/-- The bytes of that command. -/
def allBytes : List Host.Cell := (jobResult (.qt true .colWise .f32) running.ctx running.mem).getD []

theorem witness_StepRunsTheDecodedCommand :
    (asks (.writeReg 0 0x04)).agenda = [.writeReg 0 0x04] ∧ (asks (.writeReg 0 0x04)).phase ≠ .busy ∧
      decode 0x04#32 = .ok .packQ4 := by decide +kernel

theorem witness_WritingCmdLaunches :
    (asks (.writeReg 0 0x04)).agenda = [.writeReg 0 0x04] ∧ (asks (.writeReg 0 0x04)).phase ≠ .busy ∧
      decode 0x04#32 = .ok .packQ4 ∧ decode 0x14B#32 = .error .reservedOpcode := by decide +kernel

theorem witness_IllegalWordIsAnError :
    (asks (.writeReg 0 0)).agenda = [.writeReg 0 0] ∧ (asks (.writeReg 0 0)).phase ≠ .busy ∧
      ∀ r ∈ opcodeRows, r.selects 0#32 = false := by decide +kernel

theorem witness_RegisterWritesAndReads :
    ({ running with agenda := [.writeReg 0 4] } : State).phase = .busy ∧
      (asks (.writeReg 1 7)).phase ≠ .busy ∧ (1 : Fin 32) ≠ 0 ∧ ¬ Claim.Writable 1 ∧ ¬ Claim.Writable 13 ∧
      (asks (.writeReg 2 7)).phase ≠ .busy ∧ Claim.Writable 2 ∧ Claim.Writable 12 ∧
      (asks (.readReg 22)).agenda = [.readReg 22] := by
  refine ⟨by decide +kernel, by decide +kernel, by decide, ?_, ?_, by decide +kernel, ?_, ?_, by decide +kernel⟩ <;>
    unfold Claim.Writable <;> decide

theorem witness_RegisterReads_unimplemented :
    (13 ≤ (13 : Fin 32).val ∧ (13 : Fin 32).val ≤ 15) ∧ (13 ≤ (15 : Fin 32).val ∧ (15 : Fin 32).val ≤ 15) ∧
      23 ≤ (23 : Fin 32).val ∧ 23 ≤ (31 : Fin 32).val := by decide

theorem witness_ResultsAreWrittenAtCompletionOnly_error :
    step (asks (.writeReg 0 0)) = .next (after (asks (.writeReg 0 0))) ∧
      (after (asks (.writeReg 0 0))).phase = .error := ⟨rfl, by decide +kernel⟩

theorem witness_ResultsAreWrittenAtCompletionOnly_busy :
    step { running with agenda := [.readReg 16] } = .next (after { running with agenda := [.readReg 16] }) ∧
      (after { running with agenda := [.readReg 16] }).phase = .busy := ⟨rfl, by decide +kernel⟩

theorem witness_ResetEvent :
    ({ running with agenda := [.reset] } : State).agenda = [.reset] ∧ memWf running.mem ∧
      (asks .reset).phase ≠ .busy ∧ inWritten (runningExtents running) 256 = true ∧
      inWritten (runningExtents running) 272 = false := by decide +kernel

theorem witness_IdleBlockDoesNothing : State.reset.agenda = [] ∧ State.reset.phase ≠ .busy := by decide

theorem witness_HostWritesAndReadsMemory :
    (asks (.writeMem 0xFFE [1, 2])).agenda = [.writeMem 0xFFE [1, 2]] ∧
      (asks (.writeMem 0xFFE [1, 2])).phase ≠ .busy ∧ memWf (asks (.writeMem 0xFFE [1, 2])).mem ∧
      (0xFFE#32).toNat + [(1 : Byte), 2].length ≤ (asks (.writeMem 0xFFE [1, 2])).plat.memBytes ∧
      (asks (.readMem 0xFFE 2)).agenda = [.readMem 0xFFE 2] ∧ (asks (.readMem 0xFFE 2)).phase ≠ .busy ∧
      (0xFFE#32).toNat + 2 ≤ (asks (.readMem 0xFFE 2)).plat.memBytes := by decide +kernel

theorem witness_LittleEndianMemory : memWf ([] : Memory) := by decide

theorem witness_HostAddressOutsideMemoryFaults :
    (asks (.writeMem 0xFFF [1, 2])).agenda = [.writeMem 0xFFF [1, 2]] ∧ [(1 : Byte), 2] ≠ [] ∧
      (asks (.writeMem 0xFFF [1, 2])).plat.memBytes < (0xFFF#32).toNat + [(1 : Byte), 2].length ∧
      (asks (.readMem 0x1000 1)).agenda = [.readMem 0x1000 1] ∧
      (asks (.readMem 0x1000 1)).plat.memBytes < (0x1000#32).toNat + 1 := by decide +kernel

theorem witness_HostAccessWhileBusy :
    ({ running with agenda := [.writeMem 256 [1]] } : State).agenda = [.writeMem 256 [1]] ∧
      (256#32).toNat + [(1 : Byte)].length ≤ running.plat.memBytes ∧
      ({ running with agenda := [.readMem 255 2] } : State).agenda = [.readMem 255 2] ∧
      (255#32).toNat + 2 ≤ running.plat.memBytes ∧ inWritten (runningExtents running) 256 = true ∧
      inWritten (runningExtents running) 255 = false ∧ memWf running.mem ∧ running.spoiled = false ∧
      jobResult (.qt true .colWise .f32) running.ctx running.launchMem = some allBytes := by decide +kernel

theorem witness_HostAccessWhileBusy_schedule :
    contextJob running.ctx = some (.qt true .colWise .f32) ∧ Passes (.qt true .colWise .f32) running ∧
      Specified (.qt true .colWise .f32) running ∧
      (Claim.schedule (dispatchTiles (.qt true .colWise .f32) running) [0, 0, 0]).phase = .busy ∧
      inWritten (jobExtents (.qt true .colWise .f32) running.ctx) 512 = true :=
  ⟨by decide +kernel, ⟨by decide +kernel, by decide +kernel⟩, by unfold Specified; decide +kernel,
    by decide +kernel, by decide +kernel⟩

theorem witness_FloatPatternsRoundTrip :
    f32 0x3F800000#32 = some (ofNat 1) ∧ f16 0x3C00#16 = some (ofNat 1) ∧
      round32 false unitOne 1 = some (ofNat 1) ∧ narrow (ofNat 1) = some (ofNat 1) := by decide +kernel

theorem witness_RoundingIsToNearest :
    0 < 3 ∧ 0 < 1 ∧ 5 ≤ 2 ^ 3 ∧
      ((roundTo 3 9 1 * 1 : Nat) - (9 : Nat) : Int).natAbs = ((5 * 2 ^ 1 * 1 : Nat) - (9 : Nat) : Int).natAbs ∧
      5 * 2 ^ 1 ≠ roundTo 3 9 1 := by decide +kernel

theorem witness_GeomComputesTheGeometry :
    ((bulk 4 4 16 0 []).ctx.blksz.toNat ∈ [16, 32, 64, 128, 256] ∧
        ∀ n ∈ [ceilDiv (bulk 4 4 16 0 []).ctx.rows.toNat 16, ceilDiv (bulk 4 4 16 0 []).ctx.cols.toNat 1, 8, 4,
          8 * 4, 1 * 4, 4], n < 2 ^ 32) ∧
      ((bulk 1 0xFFFFFFFF 256 0 []).ctx.blksz.toNat ∈ [16, 32, 64, 128, 256] ∧
        ∃ n ∈ [ceilDiv (bulk 1 0xFFFFFFFF 256 0 []).ctx.cols.toNat 256 * 256], 2 ^ 32 ≤ n) ∧
      (bulk 4 4 17 0 []).ctx.blksz.toNat ∉ [16, 32, 64, 128, 256] := by
  decide +kernel

theorem witness_GeometryShapeLaw :
    256 ∈ [16, 32, 64, 128, 256] ∧ Width.isNarrow .q4 = true ∧ 0xFFFFFFFF < 2 ^ 32 := by decide

theorem witness_SymmetricRangeToScale :
    f32 (scalar 0xC1000000 0x41000000 0).ctx.opa = some (fneg (ofNat 8)) ∧
      f32 (scalar 0xC1000000 0x41000000 0).ctx.opb = some (ofNat 8) ∧
      fdiv (if (value (fneg (ofNat 8))).natAbs ≤ (value (ofNat 8)).natAbs then ofNat 8 else fneg (ofNat 8))
        (fneg (ofNat (2 ^ (qbits .q4 - 1)))) = some (fneg (ofNat 1)) ∧
      elemBits .f16 (fneg (ofNat 1)) = some 0xBC00 := by decide +kernel

theorem witness_SymmetricScaleLaw :
    Width.isNarrow .q4 = true ∧ Claim.IsBinary32 (fneg (ofNat 8)) ∧ Claim.IsBinary32 (ofNat 8) ∧
      2 ^ 23 * mid .q4 ≤ (ofNat 8).mag :=
  ⟨by decide, ⟨0xC1000000#32, by decide +kernel⟩, ⟨0x41000000#32, by decide +kernel⟩, by decide +kernel⟩

theorem witness_AsymmetricRangeToScale :
    f32 (scalar 0xBF800000 0x41600000 0).ctx.opa = some (fneg (ofNat 1)) ∧
      f32 (scalar 0xBF800000 0x41600000 0).ctx.opb = some (ofNat 14) ∧
      fsub (if 0 < value (ofNat 14) then ofNat 14 else ofNat 0)
        (if value (fneg (ofNat 1)) < 0 then fneg (ofNat 1) else ofNat 0) = some (ofNat 15) ∧
      fdiv (ofNat 15) (ofNat (2 ^ qbits .q4 - 1)) = some (ofNat 1) ∧
      (if isZero (ofNat 1) = true then some (if value (fneg (ofNat 1)) < 0 then fneg (ofNat 1) else ofNat 0)
        else fdiv (fneg (if value (fneg (ofNat 1)) < 0 then fneg (ofNat 1) else ofNat 0)) (ofNat 1)) =
          some (ofNat 1) ∧
      elemBits .f32 (ofNat 1) = some 0x3F800000 := by decide +kernel

theorem witness_BlockScanFindsTheEnds : [ofNat 1, ofNat 0, ofNat 1] ≠ [] := by decide +kernel

theorem witness_ZeroBlockHasZeroScale : ∀ y ∈ [fneg (ofNat 0), ofNat 0], isZero y = true := by decide +kernel

theorem witness_NormQuantizesOneValue :
    2 ^ qbits .q4 - 1 < (scalar 0 0 16).ctx.opc.toNat ∧ (scalar 0x3F800000 0x40000000 15).ctx.opc.toNat ≤ 15 ∧
      f32 (scalar 0x3F800000 0x40000000 15).ctx.opa = some (ofNat 1) ∧
      f32 (scalar 0x3F800000 0x40000000 15).ctx.opb = some (ofNat 2) ∧
      ((if isZero (ofNat 2) = true then some (ofNat 0) else fdiv (ofNat 1) (ofNat 2)) =
        some { neg := false, mag := 2 ^ 148 }) ∧
      fmul (ofNat 1) { neg := false, mag := 2 ^ 148 } = some { neg := false, mag := 2 ^ 148 } ∧
      fadd { neg := false, mag := 2 ^ 148 } (ofNat 15) = some { neg := false, mag := 31 * 2 ^ 148 } := by
  decide +kernel

theorem witness_CodesAndZeroPointsInRange :
    range2scalezp (fneg (ofNat 15)) (ofNat 0) .q4 = some (ofNat 1, 15) ∧
      quantize (ofNat 15) (ofNat 1) 0 .q4 = some 15 ∧ legacySymCode (fneg (ofNat 8)) (fneg (ofNat 1)) = some 15 ∧
      legacyAsymCode (ofNat 15) (ofNat 1) 15 = some 15 := by decide +kernel

theorem witness_ZeroScaleGivesTheZeroPoint :
    isZero (fneg (ofNat 0)) = true ∧ 15 ≤ 2 ^ qbits .q4 - 1 := by decide +kernel

theorem witness_PackAndUnpackLanes :
    (∀ i < 8 / qbits .q4, ((scalar 0x0F05 0 0).ctx.opa.toNat / 256 ^ i) % 256 ≤ 2 ^ qbits .q4 - 1) ∧
      ∃ i < 8 / qbits .q4, 2 ^ qbits .q4 - 1 < ((scalar 0x1005 0 0).ctx.opa.toNat / 256 ^ i) % 256 := by
  exact ⟨by decide +kernel, 1, by decide +kernel⟩

theorem witness_PackAndUnpackAreInverse :
    [3, 2, 1, 0].length = perByte .q2 ∧ ∀ v ∈ [3, 2, 1, 0], v ≤ 2 ^ qbits .q2 - 1 := by decide

theorem witness_NonFiniteScalarCompletes :
    f32 (scalar 0x7F800000 0 15).ctx.opa = none ∧ (scalar 0x7F800000 0 15).ctx.opc.toNat ≤ 2 ^ qbits .q4 - 1 := by
  decide +kernel

/-- The greatest finite binary32 value. -/
def greatest : Flt := { neg := false, mag := (2 ^ 24 - 1) * 2 ^ 253 }

/-- A scale beyond binary16. -/
theorem witness_NonFiniteScalarCompletes_symmetric :
    f32 (scalar 0 0x7F7FFFFF 0).ctx.opa = some (ofNat 0) ∧ f32 (scalar 0 0x7F7FFFFF 0).ctx.opb = some greatest ∧
      ¬ ∃ (lo hi scale : Flt) (bits : Nat), f32 (scalar 0 0x7F7FFFFF 0).ctx.opa = some lo ∧
        f32 (scalar 0 0x7F7FFFFF 0).ctx.opb = some hi ∧
        fdiv (if (value lo).natAbs ≤ (value hi).natAbs then hi else lo) (fneg (ofNat (2 ^ (qbits .q4 - 1)))) =
          some scale ∧
        elemBits .f16 scale = some bits := by
  have ha : f32 (scalar 0 0x7F7FFFFF 0).ctx.opa = some (ofNat 0) := by decide +kernel
  have hb : f32 (scalar 0 0x7F7FFFFF 0).ctx.opb = some greatest := by decide +kernel
  have hf : ((fdiv (if (value (ofNat 0)).natAbs ≤ (value greatest).natAbs then greatest else ofNat 0)
      (fneg (ofNat (2 ^ (qbits .q4 - 1))))).bind (elemBits .f16)) = none := by decide +kernel
  refine ⟨ha, hb, ?_⟩
  rintro ⟨lo, hi, scale, bits, h1, h2, h3, h4⟩
  cases ha.symm.trans h1
  cases hb.symm.trans h2
  rw [h3, Option.bind_some, h4] at hf
  exact nomatch hf

/-- The width of the range overflows. -/
theorem witness_NonFiniteScalarCompletes_asymmetric :
    f32 (scalar 0xFF7FFFFF 0x7F7FFFFF 0).ctx.opa = some (fneg greatest) ∧
      f32 (scalar 0xFF7FFFFF 0x7F7FFFFF 0).ctx.opb = some greatest ∧
      ¬ ∃ (lo hi range scale zf : Flt) (bits : Nat), f32 (scalar 0xFF7FFFFF 0x7F7FFFFF 0).ctx.opa = some lo ∧
        f32 (scalar 0xFF7FFFFF 0x7F7FFFFF 0).ctx.opb = some hi ∧
        fsub (if 0 < value hi then hi else ofNat 0) (if value lo < 0 then lo else ofNat 0) = some range ∧
        fdiv range (ofNat (2 ^ qbits .q4 - 1)) = some scale ∧
        (if isZero scale = true then some (if value lo < 0 then lo else ofNat 0)
          else fdiv (fneg (if value lo < 0 then lo else ofNat 0)) scale) = some zf ∧
        elemBits .f32 scale = some bits := by
  have ha : f32 (scalar 0xFF7FFFFF 0x7F7FFFFF 0).ctx.opa = some (fneg greatest) := by decide +kernel
  have hb : f32 (scalar 0xFF7FFFFF 0x7F7FFFFF 0).ctx.opb = some greatest := by decide +kernel
  have hf : fsub (if 0 < value greatest then greatest else ofNat 0)
      (if value (fneg greatest) < 0 then fneg greatest else ofNat 0) = none := by decide +kernel
  refine ⟨ha, hb, ?_⟩
  rintro ⟨lo, hi, range, scale, zf, bits, h1, h2, h3, h4⟩
  cases ha.symm.trans h1
  cases hb.symm.trans h2
  exact nomatch hf.symm.trans h3

/-- The reciprocal of the least scale overflows. -/
theorem witness_NonFiniteScalarCompletes_norm :
    (scalar 0x3F800000 1 15).ctx.opc.toNat ≤ 2 ^ qbits .q4 - 1 ∧
      f32 (scalar 0x3F800000 1 15).ctx.opb = some { neg := false, mag := 1 } ∧
      ¬ ∃ v scale rs p x : Flt, f32 (scalar 0x3F800000 1 15).ctx.opa = some v ∧
        f32 (scalar 0x3F800000 1 15).ctx.opb = some scale ∧
        (if isZero scale = true then some (ofNat 0) else fdiv (ofNat 1) scale) = some rs ∧
        fmul v rs = some p ∧ fadd p (ofNat (scalar 0x3F800000 1 15).ctx.opc.toNat) = some x := by
  have hb : f32 (scalar 0x3F800000 1 15).ctx.opb = some { neg := false, mag := 1 } := by decide +kernel
  have hf : (if isZero { neg := false, mag := 1 } = true then some (ofNat 0)
      else fdiv (ofNat 1) { neg := false, mag := 1 }) = none := by decide +kernel
  refine ⟨by decide +kernel, hb, ?_⟩
  rintro ⟨v, scale, rs, p, x, h1, h2, h3, h4⟩
  cases hb.symm.trans h2
  exact nomatch hf.symm.trans h3

theorem witness_UnsupportedBlockSizeDegradesSilently :
    jobOf (.qtS .colWise .f32) = some (.qt false .colWise .f32) ∧
      Claim.unsupported (.qt false .colWise .f32) (bulk 4 4 17 4 []).ctx ∧
      (bulk 4 4 17 4 []).ctx.blksz.toNat ∉ [16, 32, 64, 128, 256] := by
  refine ⟨rfl, ?_, by decide⟩
  show (17#32).toNat ∉ [16, 32, 64, 128, 256]
  decide

theorem witness_UnsupportedBlockSize_legacy :
    Instr.lunpackA32 = Claim.lpackInstr .a32 ∨ Instr.lunpackA32 = Claim.lunpackInstr .a32 := .inr rfl

theorem witness_ConfigErrorCauses_columns :
    jobOf (.qdqcS .q2 .f32) = some (.qdqc false .q2 .f32) ∧
      ¬ Claim.unsupported (.qdqc false .q2 .f32) (bulk 3 6 16 6 []).ctx ∧
      Claim.configCause (.qdqc false .q2 .f32) (bulk 3 6 16 6 []).ctx := by
  refine ⟨rfl, ?_, .inl (by decide)⟩
  show ¬ (16#32).toNat ∉ [16, 32, 64, 128, 256]
  decide

theorem witness_ConfigErrorCauses_size :
    jobOf (.qtS .rowWise .f32) = some (.qt false .rowWise .f32) ∧
      ¬ Claim.unsupported (.qt false .rowWise .f32) (bulk 1 0xFFFFFFFF 256 0 []).ctx ∧
      Claim.configCause (.qt false .rowWise .f32) (bulk 1 0xFFFFFFFF 256 0 []).ctx := by
  refine ⟨rfl, ?_, ?_⟩
  · show ¬ (256#32).toNat ∉ [16, 32, 64, 128, 256]
    decide
  · exact ⟨2 ^ 32, by decide +kernel, Nat.le_refl _⟩

/-- The ScaleBuffer has `2^32` elements (assumption 16). -/
theorem witness_ConfigErrorCauses_scales :
    jobOf (.qdqcS .q4 .f32) = some (.qdqc false .q4 .f32) ∧
      ¬ Claim.unsupported (.qdqc false .q4 .f32) (bulk 17 0x80000000 16 0x80000000 []).ctx ∧
      2 ^ 32 ≤ ceilDiv (17#32).toNat (16#32).toNat * (0x80000000#32).toNat ∧
      Claim.configCause (.qdqc false .q4 .f32) (bulk 17 0x80000000 16 0x80000000 []).ctx := by
  refine ⟨rfl, ?_, by decide +kernel, .inr (.inr (.inl (by decide +kernel)))⟩
  show ¬ (16#32).toNat ∉ [16, 32, 64, 128, 256]
  decide

theorem witness_ConfigErrorCauses_legacy :
    jobOf .lpackS32 = some (.lpack .s32) ∧
      ¬ Claim.unsupported (.lpack .s32) (bulk 32 0x0CCCCCCD 0 0x0CCCCCCD []).ctx ∧
      Claim.configCause (.lpack .s32) (bulk 32 0x0CCCCCCD 0 0x0CCCCCCD []).ctx := by
  refine ⟨rfl, fun h => h, ?_⟩
  show 2 ^ 32 ≤ _
  decide +kernel

theorem witness_ConfigErrorCauses_converse :
    exec (.qdqcS .q2 .f32) (bulk 3 6 16 6 []) = .next (raiseError .configError (bulk 3 6 16 6 [])) ∧
      (raiseError .configError (bulk 3 6 16 6 [])).err = some .configError := ⟨rfl, rfl⟩

theorem witness_ConfigErrorCauses_ld :
    jobOf .lunpackS32 = some (.lunpack .s32) ∧ ¬ Claim.unsupported (.lunpack .s32) (bulk 2 2 0 1 []).ctx ∧
      Claim.configCause (.lunpack .s32) (bulk 2 2 0 1 []).ctx :=
  ⟨rfl, fun h => h, .inr (by decide)⟩

theorem witness_ConfigErrorCauses_geom :
    (bulk 1 0xFFFFFFFF 256 0 []).ctx.blksz.toNat ∈ [16, 32, 64, 128, 256] ∧
      Claim.geometryTooLarge (geometry 1 0xFFFFFFFF 256 .q2 .rowWise false) :=
  ⟨by decide, 2 ^ 32, by decide +kernel, Nat.le_refl _⟩

theorem witness_AlignErrorCause :
    jobOf .lpackS32 = some (.lpack .s32) ∧ ¬ Claim.unsupported (.lpack .s32) HostRegs.zero ∧
      ¬ Claim.configCause (.lpack .s32) { HostRegs.zero with matAddr := 2 } ∧
      Claim.alignCause (.lpack .s32) { HostRegs.zero with matAddr := 2 } := by
  refine ⟨rfl, fun h => h, ?_, .inl (by decide)⟩
  show ¬ 2 ^ 32 ≤ _
  decide

theorem witness_AlignErrorCause_converse :
    exec .lpackS32 { State.reset with ctx := { HostRegs.zero with matAddr := 2 } } =
        .next (raiseError .alignError { State.reset with ctx := { HostRegs.zero with matAddr := 2 } }) ∧
      (raiseError .alignError State.reset).err = some .alignError := ⟨rfl, rfl⟩

theorem witness_AddressErrorCause_converse :
    exec .lpackS32 { bulk 1 1 0 1 [] with plat := ⟨275, 1⟩ } =
        .next (raiseError .addressError { bulk 1 1 0 1 [] with plat := ⟨275, 1⟩ }) ∧
      (raiseError .addressError State.reset).err = some .addressError := ⟨rfl, rfl⟩

theorem witness_AddressErrorCause :
    jobOf .lpackS32 = some (.lpack .s32) ∧ ¬ Claim.unsupported (.lpack .s32) (bulk 1 1 0 1 []).ctx ∧
      ¬ Claim.configCause (.lpack .s32) (bulk 1 1 0 1 []).ctx ∧
      ¬ Claim.alignCause (.lpack .s32) (bulk 1 1 0 1 []).ctx ∧
      Claim.addressCause (.lpack .s32) (bulk 1 1 0 1 []).ctx 275 := by
  refine ⟨rfl, fun h => h, ?_, ?_, (256, 20), by decide, by decide⟩
  · show ¬ 2 ^ 32 ≤ _
    decide
  · rintro (h | h)
    · exact absurd h (by decide)
    · exact absurd h.1 (by decide)

theorem witness_ErrorsWriteNothing :
    exec (.qdqr .q4 false .f32) State.reset = .next (raiseError .unimplemented State.reset) ∧
      (raiseError .unimplemented State.reset).phase = .error := ⟨rfl, rfl⟩

/-- A 2 by 2 matrix ready for `QT` and `QDQC`. -/
def twoColumns : State := bulk 2 2 16 2 (wordsAt 0 [0xBF800000, 0, 0x40000000, 0x3F800000])

theorem witness_QtWritesItsResult_symmetric :
    Claim.Ready (.qt false .colWise .f32) twoColumns ∧
      Claim.QtDefined false .colWise .f32 twoColumns.ctx twoColumns.mem :=
  ⟨⟨⟨by decide +kernel, by decide +kernel⟩, by decide +kernel, by decide +kernel, by decide +kernel⟩,
    ⟨by decide +kernel, by decide +kernel⟩⟩

theorem witness_QtWritesItsResult_asymmetric :
    Claim.Ready (.qt true .rowWise .f32) twoColumns ∧
      Claim.QtDefined true .rowWise .f32 twoColumns.ctx twoColumns.mem :=
  ⟨⟨⟨by decide +kernel, by decide +kernel⟩, by decide +kernel, by decide +kernel, by decide +kernel⟩,
    ⟨by decide +kernel, by decide +kernel⟩⟩

/-- A packed column ready for `DQT`. -/
def packedColumn : State :=
  bulk 4 1 16 0 (bytesAt 256 [0x50, 0xFA] ++ wordsAt 512 [0x3E4CCCCD] ++ bytesAt 768 [0x85])

theorem witness_DqtWritesItsResult_symmetric :
    Claim.Ready (.dqt false .colWise .f32) packedColumn ∧
      Claim.DqtDefined false .colWise .f32 packedColumn.ctx packedColumn.mem := by
  refine ⟨⟨⟨by decide +kernel, by decide +kernel⟩, by decide +kernel, by decide +kernel, by decide +kernel⟩, ?_⟩
  unfold Claim.DqtDefined
  decide +kernel

theorem witness_DqtWritesItsResult_asymmetric :
    Claim.Ready (.dqt true .colWise .f32) packedColumn ∧
      Claim.DqtDefined true .colWise .f32 packedColumn.ctx packedColumn.mem := by
  refine ⟨⟨⟨by decide +kernel, by decide +kernel⟩, by decide +kernel, by decide +kernel, by decide +kernel⟩, ?_⟩
  unfold Claim.DqtDefined
  decide +kernel

theorem witness_QdqcWritesItsResult_symmetric :
    Width.isNarrow .q4 = true ∧ Claim.Ready (.qdqc false .q4 .f32) twoColumns ∧
      Claim.QdqcDefined false .q4 .f32 twoColumns.ctx twoColumns.mem :=
  ⟨rfl, ⟨⟨by decide +kernel, by decide +kernel⟩, by decide +kernel, by decide +kernel, by decide +kernel⟩,
    ⟨by decide +kernel, by decide +kernel⟩⟩

theorem witness_QdqcWritesItsResult_asymmetric :
    Width.isNarrow .q2 = true ∧ Claim.Ready (.qdqc true .q2 .f32) (bulk 3 4 16 4 threeByFour) ∧
      Claim.QdqcDefined true .q2 .f32 (bulk 3 4 16 4 threeByFour).ctx threeByFour :=
  ⟨rfl, ⟨⟨by decide +kernel, by decide +kernel⟩, by decide +kernel, by decide +kernel, by decide +kernel⟩,
    ⟨by decide +kernel, by decide +kernel⟩⟩

theorem witness_LpackWritesItsResult :
    ∀ v : Legacy, Claim.Ready (.lpack v) (bulk 3 1 0 1 triple) ∧
      Claim.LpackDefined v (bulk 3 1 0 1 triple).ctx triple := by
  intro v
  cases v <;>
    exact ⟨⟨⟨by decide +kernel, by decide +kernel⟩, by decide +kernel, by decide +kernel, by decide +kernel⟩,
      ⟨by decide +kernel, by decide +kernel⟩⟩

/-- A blob ready for every `LUNPACK`. -/
def oneBlob : State := bulk 3 1 0 1 (wordsAt 256 [0x3E4CCCCD] ++ bytesAt 260 [0x05, 0x50, 0x55, 0x5F])

theorem witness_LunpackWritesItsResult :
    ∀ v : Legacy, Claim.Ready (.lunpack v) oneBlob ∧ Claim.LunpackDefined v oneBlob.ctx oneBlob.mem := by
  intro v
  cases v <;>
    refine ⟨⟨⟨by decide +kernel, by decide +kernel⟩, by decide +kernel, by decide +kernel, by decide +kernel⟩, ?_⟩ <;>
    unfold Claim.LunpackDefined <;> decide +kernel

theorem witness_ZeroScaleDequantizesToZero :
    [ofNat 0] ≠ [] ∧ (∀ x ∈ [ofNat 0], isZero x = true) ∧ 15 ≤ 15 ∧ 255 ≤ 255 ∧ isZero (fneg (ofNat 0)) = true := by
  decide +kernel

/-- The Matrix lies in the packed buffer. -/
def clashing : State := bulk 1 1 16 1 (wordsAt 0 [0x3F800000])

theorem witness_UnspecifiedBulkCompletes :
    jobOf (.qtS .colWise .f32) = some (.qt false .colWise .f32) ∧
      Passes (.qt false .colWise .f32) { clashing with ctx := { clashing.ctx with pkAddr := 0 } } ∧
      ¬ Specified (.qt false .colWise .f32) { clashing with ctx := { clashing.ctx with pkAddr := 0 } } ∧
      clashing.grain = .atomic ∧ memWf clashing.mem :=
  ⟨rfl, ⟨by decide +kernel, by decide +kernel⟩, by unfold Specified; decide +kernel, rfl, by decide +kernel⟩

/-- The Matrix of `running` in its own packed buffer. -/
def clashingTiles : State := { running with ctx := { running.ctx with pkAddr := 0 } }

theorem witness_UnspecifiedBulkCompletes_tiled :
    jobOf (.qtA .colWise .f32) = some (.qt true .colWise .f32) ∧ Passes (.qt true .colWise .f32) clashingTiles ∧
      ¬ Specified (.qt true .colWise .f32) clashingTiles ∧ clashingTiles.grain = .tiled ∧
      memWf clashingTiles.mem ∧ contextJob clashingTiles.ctx = some (.qt true .colWise .f32) ∧
      (Claim.schedule (dispatchTiles (.qt true .colWise .f32) clashingTiles)
        [0, 0, 0, 0, 0, 0, 0, 0, 0, 0, 0]).phase ≠ .busy :=
  ⟨rfl, ⟨by decide +kernel, by decide +kernel⟩, by unfold Specified; decide +kernel, rfl, by decide +kernel,
    by decide +kernel, by decide +kernel⟩

theorem witness_WritesStayInTheOutputBuffers :
    jobEmpty (.qt true .colWise .f32) running.ctx = false ∧
      jobConfigError (.qt true .colWise .f32) running.ctx = false ∧
      (⟨0, 1⟩ : Tile) ∈ jobTiles (.qt true .colWise .f32) running.ctx ∧
      jobTileCells (.qt true .colWise .f32) running.ctx running.mem ⟨0, 1⟩ = some (tileBytes ⟨0, 1⟩) := by
  decide +kernel

theorem witness_ReadsStayInTheBuffers :
    jobEmpty (.qt true .colWise .f32) running.ctx = false ∧
      jobConfigError (.qt true .colWise .f32) running.ctx = false ∧
      ∀ e ∈ jobExtents (.qt true .colWise .f32) running.ctx, ∀ a, inExtent e a = true →
        readByte running.mem a = readByte (writeByte running.mem 4000 7) a := by
  refine ⟨by decide +kernel, by decide +kernel, ?_⟩
  intro e he a ha
  have hend : ∀ e ∈ jobExtents (.qt true .colWise .f32) running.ctx, e.base + e.size ≤ 4000 := by decide +kernel
  have := hend e he
  simp only [inExtent, Bool.and_eq_true, decide_eq_true_eq] at ha
  rw [readByte_writeByte running.mem 4000 a 7 (by decide +kernel), if_neg (by omega)]

theorem witness_TilesAreIndependent :
    anyClash (jobExtents (.qt true .colWise .f32) running.ctx) = false ∧ memWf running.mem ∧
      (⟨0, 0⟩ : Tile) ∈ jobTiles (.qt true .colWise .f32) running.ctx ∧ (⟨0, 0⟩ : Tile) ≠ ⟨0, 1⟩ ∧
      jobTileCells (.qt true .colWise .f32) running.ctx running.mem ⟨0, 0⟩ = some (tileBytes ⟨0, 0⟩) ∧
      jobEmpty (.qt true .colWise .f32) running.ctx = false ∧
      jobConfigError (.qt true .colWise .f32) running.ctx = false ∧
      (⟨0, 1⟩ : Tile) ∈ jobTiles (.qt true .colWise .f32) running.ctx ∧
      jobTileCells (.qt true .colWise .f32) running.ctx running.mem ⟨0, 1⟩ = some (tileBytes ⟨0, 1⟩) := by
  decide +kernel

theorem witness_TileOrderIsNotObservable :
    jobEmpty (.qt true .colWise .f32) running.ctx = false ∧
      jobConfigError (.qt true .colWise .f32) running.ctx = false ∧ memWf running.mem ∧
      jobResult (.qt true .colWise .f32) running.ctx running.mem = some allBytes ∧
      [(⟨0, 1⟩ : Tile), ⟨0, 0⟩].Perm (jobTiles (.qt true .colWise .f32) running.ctx) := by decide +kernel

theorem witness_TiledRunEqualsAtomicRun_launch :
    jobOf (.qtA .colWise .f32) = some (.qt true .colWise .f32) ∧ Passes (.qt true .colWise .f32) running ∧
      running.grain = .tiled ∧ Passes (.qt true .colWise .f32) twoColumns ∧ twoColumns.grain = .atomic :=
  ⟨rfl, ⟨by decide +kernel, by decide +kernel⟩, rfl, ⟨by decide +kernel, by decide +kernel⟩, rfl⟩

/-- The invariant holds while a command runs. -/
theorem running_inv : Inv running where
  platform := by decide +kernel
  status := ⟨by decide +kernel, by decide +kernel⟩
  tiles := ⟨by decide +kernel, by decide +kernel, by decide +kernel, by decide +kernel, by decide +kernel⟩
  context := fun _ => ⟨by decide +kernel, .qt true .colWise .f32, by decide +kernel⟩
  memory := ⟨by decide +kernel, by decide +kernel, by decide +kernel, by decide +kernel⟩

/-- `running` with its only worker on the first tile. -/
def begun : State := progress 0 running

/-- The invariant holds while a tile is in flight. -/
theorem begun_inv : Inv begun where
  platform := by decide +kernel
  status := ⟨by decide +kernel, by decide +kernel⟩
  tiles := ⟨by decide +kernel, by decide +kernel, by decide +kernel, by decide +kernel, by decide +kernel⟩
  context := fun _ => ⟨by decide +kernel, .qt true .colWise .f32, by decide +kernel⟩
  memory := ⟨by decide +kernel, by decide +kernel, by decide +kernel, by decide +kernel⟩

theorem witness_AnyPendingTileMayGoNext :
    Inv running ∧ running.phase = .busy ∧ contextJob running.ctx = some (.qt true .colWise .f32) ∧
      (⟨0, 1⟩ : Tile) ∈ running.pending ∧ running.flight.length < running.plat.workers :=
  ⟨running_inv, by decide +kernel⟩

theorem witness_AnyPendingTileMayGoNext_in_flight :
    Inv begun ∧ begun.phase = .busy ∧ contextJob begun.ctx = some (.qt true .colWise .f32) ∧
      (⟨0, 0⟩ : Tile) ∈ begun.pending ∧ ∃ f ∈ begun.flight, f.tile = (⟨0, 0⟩ : Tile) :=
  ⟨begun_inv, by decide +kernel⟩

theorem witness_AnyPendingTileMayGoNext_no_worker :
    Inv begun ∧ (⟨0, 1⟩ : Tile) ∈ begun.pending ∧ (∃ f more, begun.flight = f :: more) ∧
      (∀ g ∈ begun.flight, g.tile ≠ (⟨0, 1⟩ : Tile)) ∧ begun.plat.workers ≤ begun.flight.length :=
  ⟨begun_inv, by decide +kernel, ⟨_, _, rfl⟩, by decide +kernel, by decide +kernel⟩

theorem witness_TiledRunEqualsAtomicRun :
    contextJob running.ctx = some (.qt true .colWise .f32) ∧ Passes (.qt true .colWise .f32) running ∧
      Specified (.qt true .colWise .f32) running ∧ memWf running.mem ∧
      (Claim.schedule (dispatchTiles (.qt true .colWise .f32) running)
        [1, 1, 0, 1, 0, 1, 0, 0, 0, 0, 0]).phase ≠ .busy :=
  ⟨by decide +kernel, ⟨by decide +kernel, by decide +kernel⟩, by unfold Specified; decide +kernel,
    by decide +kernel, by decide +kernel⟩

theorem witness_RunningCommandEnds :
    Inv running ∧ running.phase = .busy ∧ running.agenda = [] :=
  ⟨running_inv, by decide +kernel, by decide +kernel⟩

theorem witness_RunningCommandEnds_wait :
    Inv { running with agenda := [.wait] } ∧ ({ running with agenda := [.wait] } : State).phase = .busy ∧
      ({ running with agenda := [.wait] } : State).agenda = [.wait] ∧ (asks .wait).agenda = [.wait] ∧
      (asks .wait).phase ≠ .busy :=
  ⟨⟨running_inv.platform, running_inv.status, running_inv.tiles, running_inv.context, running_inv.memory⟩,
    by decide +kernel⟩

theorem witness_EveryCommandEnds : State.reset.grain = .atomic := rfl

theorem witness_OtherResultsAreKept :
    exec .packQ4 (scalar 0x0A05 0 0) = .next (runPack .q4 (scalar 0x0A05 0 0)) ∧ jobOf .packQ4 = none ∧
      exec (.qtS .colWise .f32) twoColumns = .next (runBulk (.qt false .colWise .f32) twoColumns) ∧
      jobOf (.qtS .colWise .f32) ≠ none := ⟨rfl, rfl, rfl, by decide⟩

theorem witness_NoStateFromEarlierCommands :
    State.reset.ctx = (raiseError .alignError State.reset).ctx ∧
      State.reset.mem = (raiseError .alignError State.reset).mem ∧
      State.reset.res = (raiseError .alignError State.reset).res ∧
      State.reset.plat = (raiseError .alignError State.reset).plat ∧
      State.reset.grain = (raiseError .alignError State.reset).grain ∧
      State.reset.fresh = (raiseError .alignError State.reset).fresh ∧
      exec .packQ4 State.reset = .next (runPack .q4 State.reset) := ⟨rfl, rfl, rfl, rfl, rfl, rfl, rfl⟩

theorem witness_EveryStepKeepsTheInvariant : Inv running ∧ step running = .next (after running) :=
  ⟨running_inv, rfl⟩

/-- `begun` after the host has written to the Matrix. -/
def disturbed : State := hostWriteMem 0 [1] begun

theorem witness_HostAccessWhileBusy_spoiled :
    ({ disturbed with agenda := [.readMem 256 1] } : State).agenda = [.readMem 256 1] ∧
      (256#32).toNat + 1 ≤ disturbed.plat.memBytes ∧ inWritten (runningExtents disturbed) 256 = true ∧
      disturbed.spoiled = true := by decide +kernel

theorem witness_SpoiledRunFreesItsOutputs :
    Inv disturbed ∧ disturbed.phase = .busy ∧ disturbed.spoiled = true ∧
      (Claim.schedule disturbed [0, 0, 0, 0, 0, 0, 0, 0, 0, 0]).phase ≠ .busy where
  left :=
    { platform := by decide +kernel
      status := ⟨by decide +kernel, by decide +kernel⟩
      tiles := ⟨by decide +kernel, by decide +kernel, by decide +kernel, by decide +kernel, by decide +kernel⟩
      context := fun _ => ⟨by decide +kernel, .qt true .colWise .f32, by decide +kernel⟩
      memory := ⟨by decide +kernel, by decide +kernel, by decide +kernel, by decide +kernel⟩ }
  right := by decide +kernel

theorem witness_ArithmeticIsRoundedOnce :
    (ofNat 15).mag ≠ 0 ∧ narrow (ofNat 1) = some (ofNat 1) ∧ Claim.IsBinary16 (ofNat 1) ∧
      Claim.IsBinary32 (ofNat 1) ∧ fadd (ofNat 1) (ofNat 1) = some (ofNat 2) :=
  ⟨by decide +kernel, by decide +kernel, ⟨0x3C00#16, by decide +kernel⟩, ⟨0x3F800000#32, by decide +kernel⟩,
    by decide +kernel⟩

end Sys2Proof.Tests
end

section
/-! Rounding to nearest even (R10): what `nearestEven` and `roundTo` answer, over the naturals. -/

namespace Sys2Proof.Machine

/-! ### The nearest natural -/

/-- How far `a` lies from `b`. -/
def gap (a b : Nat) : Nat := ((a : Int) - (b : Int)).natAbs

theorem gap_self (a : Nat) : gap a a = 0 := by simp [gap]

/-- The rounded quotient is within half a unit, and even when it is exactly half a unit away. -/
theorem nearestEven_bounds (num : Nat) {den : Nat} (hden : 0 < den) :
    2 * num ≤ 2 * (nearestEven num den * den) + den ∧ 2 * (nearestEven num den * den) ≤ 2 * num + den ∧
      (2 * gap (nearestEven num den * den) num = den → 2 ∣ nearestEven num den) := by
  have hdiv : num / den * den + num % den = num := by rw [Nat.mul_comm]; exact Nat.div_add_mod num den
  have hmod : num % den < den := Nat.mod_lt num hden
  have hsucc : (num / den + 1) * den = num / den * den + den := Nat.succ_mul _ _
  unfold nearestEven gap
  simp only
  split
  · omega
  · split
    · rw [hsucc]; omega
    · split
      · omega
      · rw [hsucc]; omega

/-- No natural is nearer to the quotient, and when another one is equally near the rounded quotient is even. -/
theorem nearestEven_nearest (num k : Nat) {den : Nat} (hden : 0 < den) :
    gap (nearestEven num den * den) num ≤ gap (k * den) num ∧
      (gap (nearestEven num den * den) num = gap (k * den) num → k ≠ nearestEven num den →
        2 ∣ nearestEven num den) := by
  obtain ⟨hlow, hhigh, htie⟩ := nearestEven_bounds num hden
  generalize nearestEven num den = n at *
  rcases Nat.lt_trichotomy k n with hk | rfl | hk
  · have hkn : (k + 1) * den ≤ n * den := Nat.mul_le_mul_right den hk
    rw [Nat.succ_mul] at hkn
    unfold gap at *
    omega
  · exact ⟨le_rfl, fun _ h => absurd rfl h⟩
  · have hkn : (n + 1) * den ≤ k * den := Nat.mul_le_mul_right den hk
    rw [Nat.succ_mul] at hkn
    unfold gap at *
    omega

theorem nearestEven_le {num den k : Nat} (hden : 0 < den) (h : num ≤ k * den) : nearestEven num den ≤ k := by
  obtain ⟨-, hhigh, -⟩ := nearestEven_bounds num hden
  by_contra hk
  have hkn : (k + 1) * den ≤ nearestEven num den * den := Nat.mul_le_mul_right den (by omega)
  rw [Nat.succ_mul] at hkn
  omega

/-! ### Numbers with a bounded significand -/

/-- `x` is a natural with at most `p` significant bits: the magnitudes of a format with precision `p` whose least
magnitude is 1, however large. -/
def HasPrecision (p x : Nat) : Prop := ∃ m e, m ≤ 2 ^ p ∧ x = m * 2 ^ e

theorem HasPrecision.mul_two_pow {p x : Nat} (h : HasPrecision p x) (k : Nat) : HasPrecision p (x * 2 ^ k) := by
  obtain ⟨m, e, hm, rfl⟩ := h
  exact ⟨m, e + k, hm, by rw [Nat.mul_assoc, Nat.pow_add]⟩

theorem HasPrecision.mono {p q x : Nat} (h : HasPrecision p x) (hpq : p ≤ q) : HasPrecision q x := by
  obtain ⟨m, e, hm, rfl⟩ := h
  exact ⟨m, e, hm.trans (Nat.pow_le_pow_right (by omega) hpq), rfl⟩

theorem hasPrecision_of_le {p x : Nat} (h : x ≤ 2 ^ p) : HasPrecision p x := ⟨x, 0, h, by simp⟩

/-- A number of the format is a multiple of `2 ^ e`, or at most the least number that fills the precision at that
exponent. -/
theorem HasPrecision.le_or_dvd {p x : Nat} (h : HasPrecision p x) (hp : 0 < p) (e : Nat) :
    2 ^ e ∣ x ∨ (0 < e ∧ x ≤ 2 ^ (p - 1) * 2 ^ e) := by
  obtain ⟨m, k, hm, rfl⟩ := h
  rcases Nat.lt_or_ge k e with hk | hk
  · right
    refine ⟨by omega, ?_⟩
    calc m * 2 ^ k ≤ 2 ^ p * 2 ^ (e - 1) := Nat.mul_le_mul hm (Nat.pow_le_pow_right (by omega) (by omega))
      _ = 2 ^ (p - 1) * 2 ^ e := by rw [← Nat.pow_add, ← Nat.pow_add]; congr 1; omega
  · exact .inl (Dvd.dvd.mul_left (Nat.pow_dvd_pow 2 hk) m)

/-! ### The exponent of the unit in the last place -/

/-- The exponent of the unit in the last place of `num / den`. -/
def ulpExp (p num den : Nat) : Nat := Nat.log2 (num / den) + 1 - p

theorem roundTo_eq (p num den : Nat) :
    roundTo p num den = nearestEven num (den * 2 ^ ulpExp p num den) * 2 ^ ulpExp p num den := rfl

theorem lt_two_pow_ulpExp (p num : Nat) {den : Nat} (hden : 0 < den) :
    num < 2 ^ p * (den * 2 ^ ulpExp p num den) := by
  have hq : num / den < 2 ^ (p + ulpExp p num den) :=
    Nat.lt_log2_self.trans_le (Nat.pow_le_pow_right (by omega) (by unfold ulpExp; omega))
  have := (Nat.div_lt_iff_lt_mul hden).mp hq
  rw [Nat.pow_add] at this
  linarith

/-- Above the least exponent the quotient fills the precision. -/
theorem two_pow_ulpExp_le {p num den : Nat} (hp : 0 < p) (hden : 0 < den) (he : 0 < ulpExp p num den) :
    2 ^ (p - 1) * 2 ^ ulpExp p num den * den ≤ num := by
  unfold ulpExp at *
  have hq : num / den ≠ 0 := by intro h; simp [h] at he; omega
  have hle : 2 ^ (p - 1) * 2 ^ (Nat.log2 (num / den) + 1 - p) ≤ num / den := by
    rw [← Nat.pow_add]
    exact (Nat.pow_le_pow_right (by omega) (by omega)).trans (Nat.log2_self_le hq)
  exact (Nat.le_div_iff_mul_le hden).mp hle

/-- Between two powers of two the exponent is fixed. -/
theorem ulpExp_eq {p k num den : Nat} (hden : 0 < den) (hp : 0 < p) (hlow : 2 ^ (p + k - 1) * den ≤ num)
    (hhigh : num < 2 ^ (p + k) * den) : ulpExp p num den = k := by
  have h1 : 2 ^ (p + k - 1) ≤ num / den := (Nat.le_div_iff_mul_le hden).mpr hlow
  have h2 : num / den < 2 ^ (p + k - 1 + 1) := by
    rw [Nat.sub_add_cancel (by omega)]; exact (Nat.div_lt_iff_lt_mul hden).mpr hhigh
  have hlog : Nat.log2 (num / den) = p + k - 1 :=
    (Nat.log2_eq_iff (by have := Nat.two_pow_pos (p + k - 1); omega)).mpr ⟨h1, h2⟩
  unfold ulpExp
  omega

/-! ### Rounding to a precision -/

theorem roundTo_hasPrecision (p num : Nat) {den : Nat} (hden : 0 < den) : HasPrecision p (roundTo p num den) :=
  ⟨_, _, nearestEven_le (by positivity) (lt_two_pow_ulpExp p num hden).le, rfl⟩

/-- No multiple of the unit in the last place is nearer to the quotient, and on a tie the result is an even one. -/
theorem roundTo_nearest_multiple (p num k : Nat) {den : Nat} (hden : 0 < den) :
    gap (roundTo p num den * den) num ≤ gap (k * 2 ^ ulpExp p num den * den) num ∧
      (gap (roundTo p num den * den) num = gap (k * 2 ^ ulpExp p num den * den) num →
        k * 2 ^ ulpExp p num den ≠ roundTo p num den → 2 ^ ulpExp p num den * 2 ∣ roundTo p num den) := by
  have hunit (n : Nat) : n * 2 ^ ulpExp p num den * den = n * (den * 2 ^ ulpExp p num den) := by ring
  obtain ⟨hle, htie⟩ := nearestEven_nearest num k (den := den * 2 ^ ulpExp p num den) (by positivity)
  rw [roundTo_eq, hunit, hunit]
  refine ⟨hle, fun heq hne => ?_⟩
  rw [Nat.mul_comm (nearestEven _ _)]
  exact Nat.mul_dvd_mul_left _ (htie heq fun h => hne (by rw [h]))

/-- No number of the format is nearer to the quotient, and when another one is equally near the result is an even multiple
of the unit in the last place. A number that is no multiple of that unit lies under the least power of two that has the
exponent of the quotient, and that power is nearer. -/
theorem roundTo_nearest {p den : Nat} (num : Nat) (hp : 0 < p) (hden : 0 < den) {x : Nat} (hx : HasPrecision p x) :
    gap (roundTo p num den * den) num ≤ gap (x * den) num ∧
      (gap (roundTo p num den * den) num = gap (x * den) num → x ≠ roundTo p num den →
        2 ^ ulpExp p num den * 2 ∣ roundTo p num den) := by
  rcases hx.le_or_dvd hp (ulpExp p num den) with ⟨k, rfl⟩ | ⟨he, hle⟩
  · rw [Nat.mul_comm (2 ^ ulpExp p num den) k]
    exact roundTo_nearest_multiple p num k hden
  · obtain ⟨hpow, htie⟩ := roundTo_nearest_multiple p num (2 ^ (p - 1)) hden
    have hnum := two_pow_ulpExp_le hp hden he
    have hxden := Nat.mul_le_mul_right den hle
    have hfar : gap (2 ^ (p - 1) * 2 ^ ulpExp p num den * den) num ≤ gap (x * den) num := by unfold gap; omega
    refine ⟨hpow.trans hfar, fun heq hne => htie (le_antisymm hpow (heq ▸ hfar)) fun hbin => hne ?_⟩
    have hsame : x * den = 2 ^ (p - 1) * 2 ^ ulpExp p num den * den := by
      rw [← hbin] at heq
      unfold gap at heq
      omega
    rw [← hbin]
    exact Nat.eq_of_mul_eq_mul_right hden hsame

/-- A quotient that is a number of the format is kept. -/
theorem roundTo_of_hasPrecision {p den x : Nat} (hp : 0 < p) (hden : 0 < den) (hx : HasPrecision p x) :
    roundTo p (x * den) den = x := by
  have h := (roundTo_nearest (x * den) hp hden hx).1
  rw [gap_self] at h
  refine Nat.eq_of_mul_eq_mul_right hden ?_
  unfold gap at h
  omega

theorem roundTo_zero {p den : Nat} (hp : 0 < p) (hden : 0 < den) : roundTo p 0 den = 0 := by
  simpa using roundTo_of_hasPrecision hp hden (hasPrecision_of_le (Nat.zero_le (2 ^ p)))

/-! ### The bound of rounding up to a power of two -/

/-- The greatest number of the format under `2 ^ (p + k)`. -/
def belowPow (p k : Nat) : Nat := (2 ^ p - 1) * 2 ^ k

theorem belowPow_add (p k : Nat) : belowPow p k + 2 ^ k = 2 ^ (p + k) := by
  rw [belowPow, ← Nat.succ_mul, Nat.succ_eq_add_one, Nat.sub_add_cancel Nat.one_le_two_pow, Nat.pow_add]

theorem hasPrecision_belowPow (p k : Nat) : HasPrecision p (belowPow p k) := ⟨2 ^ p - 1, k, Nat.sub_le _ _, rfl⟩

theorem hasPrecision_two_pow (p k : Nat) : HasPrecision p (2 ^ k) := ⟨1, k, Nat.one_le_two_pow, by simp⟩

theorem HasPrecision.le_belowPow {p k x : Nat} (h : HasPrecision p x) (hp : 0 < p) (hx : x < 2 ^ (p + k)) :
    x ≤ belowPow p k := by
  have hsum := belowPow_add p k
  rcases h.le_or_dvd hp k with ⟨m, rfl⟩ | ⟨-, hle⟩
  · rw [Nat.add_comm, Nat.pow_add] at hx
    have hm : m < 2 ^ p := Nat.lt_of_mul_lt_mul_left hx
    rw [belowPow, Nat.mul_comm]
    exact Nat.mul_le_mul_right _ (by omega)
  · refine hle.trans ?_
    rw [belowPow]
    refine Nat.mul_le_mul_right _ ?_
    have : 2 * 2 ^ (p - 1) = 2 ^ p := by rw [← Nat.pow_succ', Nat.succ_eq_add_one, Nat.sub_add_cancel hp]
    have := Nat.two_pow_pos (p - 1)
    omega

theorem not_even_belowPow {p : Nat} (hp : 0 < p) (k : Nat) : ¬ 2 ^ k * 2 ∣ belowPow p k := by
  rw [belowPow, Nat.mul_comm (2 ^ p - 1)]
  intro h
  have hdvd : 2 ∣ 2 ^ p - 1 := Nat.dvd_of_mul_dvd_mul_left (Nat.two_pow_pos k) h
  have : 2 ∣ 2 ^ p := dvd_pow_self 2 (by omega)
  have := Nat.one_le_two_pow (n := p)
  omega

/-- Rounding reaches a power of two exactly from the midpoint between it and the number of the format under it: at the
midpoint itself the lower number is odd. -/
theorem two_pow_le_roundTo_iff {p den : Nat} (num k : Nat) (hp : 0 < p) (hden : 0 < den) :
    2 ^ (p + k) ≤ roundTo p num den ↔ (2 ^ (p + k) + belowPow p k) * den ≤ 2 * num := by
  have hsum := belowPow_add p k
  have hpos := Nat.two_pow_pos k
  rw [Nat.add_mul]
  constructor
  · intro hle
    have hnear := (roundTo_nearest num hp hden (hasPrecision_belowPow p k)).1
    have hR := Nat.mul_le_mul_right den hle
    have hlt : belowPow p k * den < 2 ^ (p + k) * den := Nat.mul_lt_mul_of_pos_right (by omega) hden
    unfold gap at hnear
    omega
  · intro hmid
    by_contra hlt
    have hR : roundTo p num den ≤ belowPow p k :=
      (roundTo_hasPrecision p num hden).le_belowPow hp (by omega)
    have hRden := Nat.mul_le_mul_right den hR
    have hlt : belowPow p k * den < 2 ^ (p + k) * den := Nat.mul_lt_mul_of_pos_right (by omega) hden
    obtain ⟨hnear, htie⟩ := roundTo_nearest num hp hden (hasPrecision_two_pow p (p + k))
    have hsame : roundTo p num den * den = belowPow p k * den := by unfold gap at hnear; omega
    have hbelow : roundTo p num den = belowPow p k := Nat.eq_of_mul_eq_mul_right hden hsame
    have hexp : ulpExp p num den = k := by
      refine ulpExp_eq hden hp ?_ (by unfold gap at hnear; omega)
      have hhalf : 2 * (2 ^ (p + k - 1) * den) = 2 ^ (p + k) * den := by
        rw [← Nat.mul_assoc, ← Nat.pow_succ', Nat.succ_eq_add_one, Nat.sub_add_cancel (by omega)]
      have hpow : 2 ^ (p + k - 1) ≤ belowPow p k := by
        refine (hasPrecision_two_pow p (p + k - 1)).le_belowPow hp (Nat.pow_lt_pow_right (by omega) (by omega))
      have := Nat.mul_le_mul_right den hpow
      unfold gap at hnear
      omega
    refine not_even_belowPow hp k ?_
    rw [← hbelow, ← hexp]
    refine htie ?_ (by omega)
    unfold gap at *
    omega

end Sys2Proof.Machine
end

section
/-! Bit patterns of finite values (R10). The exponent and fraction fields of a pattern, read as one natural, number the
magnitudes of the format from 0 on; both formats are this numbering, cut at the exponent of all ones. -/

namespace Sys2Proof.Machine

/-! ### The numbering of the magnitudes -/

/-- The magnitude whose exponent and fraction fields, read as one natural, are `n`. -/
def magnitudeAt (f n : Nat) : Nat := unpackMagnitude f (n / 2 ^ f) (n % 2 ^ f)

theorem magnitudeAt_of_lt {f n : Nat} (h : n < 2 ^ f) : magnitudeAt f n = n := by
  simp [magnitudeAt, unpackMagnitude, Nat.div_eq_of_lt h, Nat.mod_eq_of_lt h]

theorem magnitudeAt_normal {f m : Nat} (e : Nat) (h : m < 2 ^ f) :
    magnitudeAt f (2 ^ f * (e + 1) + m) = (2 ^ f + m) * 2 ^ e := by
  have hexp : (2 ^ f * (e + 1) + m) / 2 ^ f = e + 1 := by
    rw [Nat.mul_add_div (Nat.two_pow_pos f), Nat.div_eq_of_lt h, Nat.add_zero]
  have hfrac : (2 ^ f * (e + 1) + m) % 2 ^ f = m := by rw [Nat.mul_add_mod, Nat.mod_eq_of_lt h]
  simp [magnitudeAt, unpackMagnitude, hexp, hfrac]

theorem packMagnitude_of_lt {f x : Nat} (h : x < 2 ^ f) : packMagnitude f x = x := by
  have hlog : Nat.log2 x - f = 0 := by
    rcases Nat.eq_zero_or_pos x with rfl | hx
    · simp
    · have := (Nat.log2_lt (by omega)).mpr h
      omega
  simp [packMagnitude, hlog]

theorem packMagnitude_normal {f m : Nat} (e : Nat) (h : m < 2 ^ f) :
    packMagnitude f ((2 ^ f + m) * 2 ^ e) = 2 ^ f * (e + 1) + m := by
  have hlog : Nat.log2 ((2 ^ f + m) * 2 ^ e) = f + e := by
    refine (Nat.log2_eq_iff (by positivity)).mpr ⟨?_, ?_⟩
    · rw [Nat.pow_add]; exact Nat.mul_le_mul_right _ (by omega)
    · rw [show f + e + 1 = f + 1 + e by omega, Nat.pow_add, Nat.pow_succ]
      exact Nat.mul_lt_mul_of_pos_right (by omega) (Nat.two_pow_pos e)
  simp only [packMagnitude, hlog, Nat.add_sub_cancel_left, Nat.mul_div_cancel _ (Nat.two_pow_pos e)]
  ring

/-- A number of the format is subnormal or has its leading bit at the precision's place. -/
theorem HasPrecision.subnormal_or_normal {f x : Nat} (h : HasPrecision (f + 1) x) :
    x < 2 ^ f ∨ ∃ e m, m < 2 ^ f ∧ x = (2 ^ f + m) * 2 ^ e := by
  refine (Nat.lt_or_ge x (2 ^ f)).imp_right fun hx => ?_
  have hx0 : x ≠ 0 := by have := Nat.two_pow_pos f; omega
  have hf : f ≤ Nat.log2 x := (Nat.le_log2 hx0).mpr hx
  obtain ⟨e, he⟩ := Nat.exists_eq_add_of_le hf
  have hlow : 2 ^ f * 2 ^ e ≤ x := by rw [← Nat.pow_add, ← he]; exact Nat.log2_self_le hx0
  have hhigh : x < 2 ^ e * (2 ^ f + 2 ^ f) := by
    have := Nat.lt_log2_self (n := x)
    rw [he, Nat.pow_succ, Nat.pow_add] at this
    linarith
  have hdvd : 2 ^ e ∣ x := by
    rcases h.le_or_dvd (Nat.succ_pos f) e with hdvd | ⟨-, hle⟩
    · exact hdvd
    · rw [Nat.add_sub_cancel] at hle
      rw [le_antisymm hle hlow]
      exact Nat.dvd_mul_left _ _
  obtain ⟨c, rfl⟩ := hdvd
  have hc1 : 2 ^ f ≤ c := Nat.le_of_mul_le_mul_left (by linarith) (Nat.two_pow_pos e)
  have hc2 : c < 2 ^ f + 2 ^ f := Nat.lt_of_mul_lt_mul_left hhigh
  exact ⟨e, c - 2 ^ f, by omega, by rw [Nat.add_sub_cancel' hc1, Nat.mul_comm]⟩

theorem fields_subnormal_or_normal (f n : Nat) : n < 2 ^ f ∨ ∃ e m, m < 2 ^ f ∧ n = 2 ^ f * (e + 1) + m := by
  refine (Nat.lt_or_ge n (2 ^ f)).imp_right fun hn => ?_
  have hpos : 0 < n / 2 ^ f := Nat.div_pos hn (Nat.two_pow_pos f)
  refine ⟨n / 2 ^ f - 1, n % 2 ^ f, Nat.mod_lt _ (Nat.two_pow_pos f), ?_⟩
  rw [Nat.sub_add_cancel hpos, Nat.div_add_mod]

theorem packMagnitude_magnitudeAt (f n : Nat) : packMagnitude f (magnitudeAt f n) = n := by
  rcases fields_subnormal_or_normal f n with hn | ⟨e, m, hm, rfl⟩
  · rw [magnitudeAt_of_lt hn, packMagnitude_of_lt hn]
  · rw [magnitudeAt_normal e hm, packMagnitude_normal e hm]

theorem magnitudeAt_packMagnitude {f x : Nat} (h : HasPrecision (f + 1) x) :
    magnitudeAt f (packMagnitude f x) = x := by
  rcases h.subnormal_or_normal with hx | ⟨e, m, hm, rfl⟩
  · rw [packMagnitude_of_lt hx, magnitudeAt_of_lt hx]
  · rw [packMagnitude_normal e hm, magnitudeAt_normal e hm]

theorem hasPrecision_magnitudeAt (f n : Nat) : HasPrecision (f + 1) (magnitudeAt f n) := by
  have hpow : 2 ^ (f + 1) = 2 ^ f + 2 ^ f := by rw [Nat.pow_succ]; omega
  rcases fields_subnormal_or_normal f n with hn | ⟨e, m, hm, rfl⟩
  · rw [magnitudeAt_of_lt hn]; exact hasPrecision_of_le (by omega)
  · rw [magnitudeAt_normal e hm]; exact ⟨2 ^ f + m, e, by omega, rfl⟩

/-- The magnitudes whose exponent field is at most `k` are those under `2 ^ (f + k)`. -/
theorem magnitudeAt_lt_iff (f k n : Nat) : magnitudeAt f n < 2 ^ (f + k) ↔ n < 2 ^ f * (k + 1) := by
  have hf := Nat.two_pow_pos f
  rcases fields_subnormal_or_normal f n with hn | ⟨e, m, hm, rfl⟩
  · rw [magnitudeAt_of_lt hn]
    have h1 : 2 ^ f ≤ 2 ^ (f + k) := Nat.pow_le_pow_right (by omega) (by omega)
    have h2 : 2 ^ f ≤ 2 ^ f * (k + 1) := Nat.le_mul_of_pos_right _ (by omega)
    omega
  · rw [magnitudeAt_normal e hm, Nat.pow_add]
    rcases Nat.lt_or_ge e k with hek | hek
    · have h1 : 2 * 2 ^ e ≤ 2 ^ k := by rw [← Nat.pow_succ']; exact Nat.pow_le_pow_right (by omega) hek
      have h2 : (2 ^ f + m) * 2 ^ e < 2 ^ f * 2 ^ k := by
        calc (2 ^ f + m) * 2 ^ e < (2 ^ f + 2 ^ f) * 2 ^ e := Nat.mul_lt_mul_of_pos_right (by omega) (Nat.two_pow_pos e)
          _ = 2 ^ f * (2 * 2 ^ e) := by ring
          _ ≤ 2 ^ f * 2 ^ k := Nat.mul_le_mul_left _ h1
      have h3 : 2 ^ f * (e + 2) ≤ 2 ^ f * (k + 1) := Nat.mul_le_mul_left _ (by omega)
      have h4 : 2 ^ f * (e + 2) = 2 ^ f * (e + 1) + 2 ^ f := by ring
      exact iff_of_true h2 (by omega)
    · have h1 : 2 ^ f * 2 ^ k ≤ (2 ^ f + m) * 2 ^ e :=
        Nat.mul_le_mul (by omega) (Nat.pow_le_pow_right (by omega) hek)
      have h2 : 2 ^ f * (k + 1) ≤ 2 ^ f * (e + 1) := Nat.mul_le_mul_left _ (by omega)
      exact iff_of_false (by omega) (by omega)

/-- The fraction field is even for a rounded number that is an even multiple of its unit in the last place, also where
rounding up has reached the next power of two. -/
theorem even_packMagnitude {f e x : Nat} (hf : 0 < f) (hx : HasPrecision (f + 1) x) (hdvd : 2 ^ e * 2 ∣ x)
    (hle : x ≤ 2 ^ (f + 1) * 2 ^ e) : 2 ∣ packMagnitude f x := by
  have hevenf : 2 ∣ 2 ^ f := dvd_pow_self 2 (by omega)
  rcases hx.subnormal_or_normal with hlt | ⟨k, m, hm, rfl⟩
  · rw [packMagnitude_of_lt hlt]
    exact (Nat.dvd_mul_left 2 _).trans hdvd
  · rw [packMagnitude_normal k hm]
    refine Nat.dvd_add (hevenf.mul_right _) ?_
    rcases Nat.lt_or_ge e k with hek | hek
    · have h1 : (2 ^ f + m) * 2 ^ k ≤ 2 ^ f * 2 ^ k := by
        refine hle.trans ?_
        rw [← Nat.pow_add, ← Nat.pow_add]
        exact Nat.pow_le_pow_right (by omega) (by omega)
      have h2 := Nat.le_of_mul_le_mul_right h1 (Nat.two_pow_pos k)
      rw [show m = 0 by omega]
      exact Nat.dvd_zero 2
    · have h1 : 2 ^ k * 2 ∣ 2 ^ k * (2 ^ f + m) := by
        rw [Nat.mul_comm _ (2 ^ f + m)]
        exact (Nat.mul_dvd_mul_right (Nat.pow_dvd_pow 2 hek) 2).trans hdvd
      exact (Nat.dvd_add_right hevenf).mp (Nat.dvd_of_mul_dvd_mul_left (Nat.two_pow_pos k) h1)

/-! ### Sign and fields of a pattern -/

theorem toNat_ofBool_append (neg : Bool) (w n : Nat) :
    (BitVec.ofBool neg ++ BitVec.ofNat w n).toNat = 2 ^ w * neg.toNat + n % 2 ^ w := by
  rw [BitVec.toNat_append, BitVec.toNat_ofNat, BitVec.toNat_ofBool,
    ← Nat.shiftLeft_add_eq_or_of_lt (Nat.mod_lt _ (Nat.two_pow_pos w)), Nat.shiftLeft_eq, Nat.mul_comm]

theorem getLsbD_ofBool_append (neg : Bool) {w : Nat} (v : BitVec w) : (BitVec.ofBool neg ++ v).getLsbD w = neg := by
  rw [BitVec.getLsbD_append]; simp

/-- A word is its top bit and the bits under it. -/
theorem toNat_eq_top_add {w : Nat} (b : BitVec (w + 1)) :
    b.toNat = 2 ^ w * (b.getLsbD w).toNat + b.toNat % 2 ^ w := by
  have hlt : b.toNat / 2 ^ w < 2 := by
    rw [Nat.div_lt_iff_lt_mul (Nat.two_pow_pos w), ← Nat.pow_succ']; exact b.isLt
  have htop : (b.getLsbD w).toNat = b.toNat / 2 ^ w := by
    rw [← BitVec.testBit_toNat, Nat.testBit_eq_decide_div_mod_eq, Nat.mod_eq_of_lt hlt]
    generalize b.toNat / 2 ^ w = q at *
    interval_cases q <;> rfl
  rw [htop, Nat.div_add_mod]

theorem f32_eq (b : BitVec 32) :
    f32 b = if b.toNat % 2 ^ 31 < 2 ^ 23 * 255 then some ⟨b.getLsbD 31, magnitudeAt 23 (b.toNat % 2 ^ 31)⟩
      else none := by
  have hexp : (b.extractLsb' 23 8).toNat = b.toNat % 2 ^ 31 / 2 ^ 23 := by
    rw [BitVec.extractLsb'_toNat, Nat.shiftRight_eq_div_pow]; omega
  have hfrac : (b.extractLsb' 0 23).toNat = b.toNat % 2 ^ 31 % 2 ^ 23 := by
    rw [BitVec.extractLsb'_toNat, Nat.shiftRight_zero]; omega
  unfold f32 magnitudeAt
  simp only [hexp, hfrac]
  by_cases h : b.toNat % 2 ^ 31 < 2 ^ 23 * 255
  · rw [if_pos h, if_neg (by omega)]
  · rw [if_neg h, if_pos (by omega)]

theorem f16_eq (b : BitVec 16) :
    f16 b = if b.toNat % 2 ^ 15 < 2 ^ 10 * 31 then some ⟨b.getLsbD 15, unit16 * magnitudeAt 10 (b.toNat % 2 ^ 15)⟩
      else none := by
  have hexp : (b.extractLsb' 10 5).toNat = b.toNat % 2 ^ 15 / 2 ^ 10 := by
    rw [BitVec.extractLsb'_toNat, Nat.shiftRight_eq_div_pow]; omega
  have hfrac : (b.extractLsb' 0 10).toNat = b.toNat % 2 ^ 15 % 2 ^ 10 := by
    rw [BitVec.extractLsb'_toNat, Nat.shiftRight_zero]; omega
  unfold f16 magnitudeAt
  simp only [hexp, hfrac]
  by_cases h : b.toNat % 2 ^ 15 < 2 ^ 10 * 31
  · rw [if_pos h, if_neg (by omega)]
  · rw [if_neg h, if_pos (by omega)]

theorem bits32_toNat (a : Flt) : (bits32 a).toNat = 2 ^ 31 * a.neg.toNat + packMagnitude 23 a.mag % 2 ^ 31 :=
  toNat_ofBool_append a.neg 31 _

theorem bits16_toNat (a : Flt) :
    (bits16 a).toNat = 2 ^ 15 * a.neg.toNat + packMagnitude 10 (a.mag / unit16) % 2 ^ 15 :=
  toNat_ofBool_append a.neg 15 _

end Sys2Proof.Machine
end

section
/-! The finite values of binary32 and binary16 (R10): which numbers they are, and that patterns and values correspond. -/

namespace Sys2Proof.Machine

/-! ### binary32 -/

/-- A product of powers of two, the exponent of the result given in any form: the kernel need not evaluate it. -/
theorem two_pow_mul_two_pow {a b c : Nat} (h : a + b = c) : 2 ^ a * 2 ^ b = 2 ^ c := by rw [← h, Nat.pow_add]

theorem limit32_eq : limit32 = 2 ^ (23 + 254) := two_pow_mul_two_pow rfl

theorem f32_eq_some {b : BitVec 32} {f : Flt} (h : f32 b = some f) :
    b.toNat % 2 ^ 31 < 2 ^ 23 * 255 ∧ f = ⟨b.getLsbD 31, magnitudeAt 23 (b.toNat % 2 ^ 31)⟩ := by
  rw [f32_eq] at h
  split at h
  · next hfin => exact ⟨hfin, (Option.some.inj h).symm⟩
  · cases h

theorem bits32_of_f32 {b : BitVec 32} {f : Flt} (h : f32 b = some f) : bits32 f = b := by
  obtain ⟨-, rfl⟩ := f32_eq_some h
  apply BitVec.eq_of_toNat_eq
  rw [bits32_toNat, packMagnitude_magnitudeAt, Nat.mod_mod, ← toNat_eq_top_add b]

theorem f32_bits32 {a : Flt} (hp : HasPrecision 24 a.mag) (hlt : a.mag < limit32) : f32 (bits32 a) = some a := by
  have hpack : packMagnitude 23 a.mag < 2 ^ 23 * 255 := by
    rwa [← magnitudeAt_lt_iff 23 254, magnitudeAt_packMagnitude hp, ← limit32_eq]
  have hfields : (bits32 a).toNat % 2 ^ 31 = packMagnitude 23 a.mag := by rw [bits32_toNat]; omega
  have hsign : (bits32 a).getLsbD 31 = a.neg := getLsbD_ofBool_append _ _
  rw [f32_eq, hfields, hsign, if_pos hpack, magnitudeAt_packMagnitude hp]

/-- A finite binary32 value has 24 significant bits at most and lies under 2^128. -/
theorem isBinary32_iff (f : Flt) : Claim.IsBinary32 f ↔ HasPrecision 24 f.mag ∧ f.mag < limit32 := by
  constructor
  · rintro ⟨b, hb⟩
    obtain ⟨hfin, rfl⟩ := f32_eq_some hb
    exact ⟨hasPrecision_magnitudeAt 23 _, by rw [limit32_eq]; exact (magnitudeAt_lt_iff 23 254 _).mpr hfin⟩
  · rintro ⟨hp, hlt⟩
    exact ⟨bits32 f, f32_bits32 hp hlt⟩

theorem bits32_getLsbD_zero {a : Flt} (h : 2 ∣ packMagnitude 23 a.mag) : (bits32 a).getLsbD 0 = false := by
  rw [← BitVec.testBit_toNat, bits32_toNat, Nat.testBit_zero, decide_eq_false_iff_not]
  omega

/-! ### binary16 -/

theorem limit16_eq : limit16 = 2 ^ (10 + 30) := rfl

theorem unit16_pos : 0 < unit16 := Nat.two_pow_pos 125

theorem f16_eq_some {b : BitVec 16} {f : Flt} (h : f16 b = some f) :
    b.toNat % 2 ^ 15 < 2 ^ 10 * 31 ∧ f = ⟨b.getLsbD 15, unit16 * magnitudeAt 10 (b.toNat % 2 ^ 15)⟩ := by
  rw [f16_eq] at h
  split at h
  · next hfin => exact ⟨hfin, (Option.some.inj h).symm⟩
  · cases h

theorem bits16_of_f16 {b : BitVec 16} {f : Flt} (h : f16 b = some f) : bits16 f = b := by
  obtain ⟨-, rfl⟩ := f16_eq_some h
  apply BitVec.eq_of_toNat_eq
  rw [bits16_toNat, Nat.mul_div_cancel_left _ unit16_pos, packMagnitude_magnitudeAt, Nat.mod_mod,
    ← toNat_eq_top_add b]

theorem f16_bits16 (neg : Bool) {k : Nat} (hp : HasPrecision 11 k) (hlt : k < limit16) :
    f16 (bits16 ⟨neg, unit16 * k⟩) = some ⟨neg, unit16 * k⟩ := by
  have hpack : packMagnitude 10 k < 2 ^ 10 * 31 := by
    rwa [← magnitudeAt_lt_iff 10 30, magnitudeAt_packMagnitude hp, ← limit16_eq]
  have hfields : (bits16 ⟨neg, unit16 * k⟩).toNat % 2 ^ 15 = packMagnitude 10 k := by
    rw [bits16_toNat, Nat.mul_div_cancel_left _ unit16_pos]; omega
  have hsign : (bits16 ⟨neg, unit16 * k⟩).getLsbD 15 = neg := getLsbD_ofBool_append _ _
  rw [f16_eq, hfields, hsign, if_pos hpack, magnitudeAt_packMagnitude hp]

/-- A finite binary16 value has 11 significant bits at most, in units of 2^-24, and lies under 2^16. -/
theorem isBinary16_iff (f : Flt) :
    Claim.IsBinary16 f ↔ ∃ k, f.mag = unit16 * k ∧ HasPrecision 11 k ∧ k < limit16 := by
  constructor
  · rintro ⟨b, hb⟩
    obtain ⟨hfin, rfl⟩ := f16_eq_some hb
    exact ⟨_, rfl, hasPrecision_magnitudeAt 10 _, (magnitudeAt_lt_iff 10 30 _).mpr hfin⟩
  · rintro ⟨k, hk, hp, hlt⟩
    obtain ⟨neg, mag⟩ := f
    obtain rfl : mag = unit16 * k := hk
    exact ⟨_, f16_bits16 neg hp hlt⟩

theorem bits16_getLsbD_zero {a : Flt} (h : 2 ∣ packMagnitude 10 (a.mag / unit16)) :
    (bits16 a).getLsbD 0 = false := by
  rw [← BitVec.testBit_toNat, bits16_toNat, Nat.testBit_zero, decide_eq_false_iff_not]
  omega

theorem unit16_mul_limit16_le : unit16 * limit16 ≤ limit32 :=
  Nat.mul_le_mul (Nat.pow_le_pow_right (by omega) (by omega)) (Nat.pow_le_pow_right (by omega) (by omega))

/-- Widening is exact. -/
theorem isBinary32_of_isBinary16 {f : Flt} (h : Claim.IsBinary16 f) : Claim.IsBinary32 f := by
  obtain ⟨k, hmag, hp, hlt⟩ := (isBinary16_iff f).mp h
  rw [isBinary32_iff, hmag]
  constructor
  · rw [Nat.mul_comm, unit16]
    exact (hp.mono (by omega)).mul_two_pow 125
  · exact (Nat.mul_lt_mul_of_pos_left hlt unit16_pos).trans_le unit16_mul_limit16_le

/-! ### What rounding answers -/

theorem round32_eq_some {neg : Bool} {num den : Nat} {f : Flt} (h : round32 neg num den = some f) :
    roundTo 24 num den < limit32 ∧ f = ⟨neg, roundTo 24 num den⟩ := by
  unfold round32 at h
  simp only at h
  split at h
  · next hlt => exact ⟨hlt, (Option.some.inj h).symm⟩
  · cases h

theorem round32_eq_none_iff (neg : Bool) (num den : Nat) :
    round32 neg num den = none ↔ limit32 ≤ roundTo 24 num den := by
  simp [round32]

theorem isBinary32_of_round32 {neg : Bool} {num den : Nat} {f : Flt} (hden : 0 < den)
    (h : round32 neg num den = some f) : Claim.IsBinary32 f := by
  obtain ⟨hlt, rfl⟩ := round32_eq_some h
  exact (isBinary32_iff _).mpr ⟨roundTo_hasPrecision 24 num hden, hlt⟩

theorem narrow_eq_some {a f : Flt} (h : narrow a = some f) :
    roundTo 11 a.mag unit16 < limit16 ∧ f = ⟨a.neg, unit16 * roundTo 11 a.mag unit16⟩ := by
  unfold narrow at h
  simp only at h
  split at h
  · next hlt => exact ⟨hlt, (Option.some.inj h).symm⟩
  · cases h

theorem narrow_eq_none_iff (a : Flt) : narrow a = none ↔ limit16 ≤ roundTo 11 a.mag unit16 := by
  simp [narrow]

theorem isBinary16_of_narrow {a f : Flt} (h : narrow a = some f) : Claim.IsBinary16 f := by
  obtain ⟨hlt, rfl⟩ := narrow_eq_some h
  exact (isBinary16_iff _).mpr ⟨_, rfl, roundTo_hasPrecision 11 a.mag unit16_pos, hlt⟩

/-- Narrowing undoes widening. -/
theorem narrow_of_isBinary16 {f : Flt} (h : Claim.IsBinary16 f) : narrow f = some f := by
  obtain ⟨k, hmag, hp, hlt⟩ := (isBinary16_iff f).mp h
  have hround : roundTo 11 f.mag unit16 = k := by
    rw [hmag, Nat.mul_comm]
    exact roundTo_of_hasPrecision (by omega) unit16_pos hp
  unfold narrow
  simp only
  rw [hround, if_pos hlt, ← hmag]

end Sys2Proof.Machine

namespace Sys2Proof.Proofs

open Sys2Proof.Machine

/-- Settles O18: the least distance and the tie are those of the nearest even multiple of the unit in the last place. -/
theorem roundingIsToNearest : Obligations.RoundingIsToNearest := by
  intro p num den hp hden
  exact ⟨roundTo_hasPrecision p num hden, fun m e hm => roundTo_nearest num hp hden ⟨m, e, hm, rfl⟩⟩

/-- Settles O17, by the numbering of the magnitudes that the fields of a pattern are. -/
theorem floatPatternsRoundTrip : Obligations.FloatPatternsRoundTrip := by
  refine ⟨fun b f h => bits32_of_f32 h, fun b f h => ?_, fun neg num den f hden h => isBinary32_of_round32 hden h,
    fun a f h => isBinary16_of_narrow h⟩
  have h16 : Claim.IsBinary16 f := ⟨b, h⟩
  exact ⟨bits16_of_f16 h, narrow_of_isBinary16 h16, isBinary32_of_isBinary16 h16⟩

end Sys2Proof.Proofs
end

section
/-! A command's effect as a function of its context, the memory, the results, the parameters, the granularity and the
count of free values (R16): every operation of a command, run on two states that agree on these and differ in what
earlier commands left. -/

namespace Sys2Proof.Machine

/-- The state `s` with everything that no command may depend on taken from `h`: the registers, phase, flags, tiles, agenda
and readback that `h` holds. -/
def withHistory (h s : State) : State :=
  { h with ctx := s.ctx, mem := s.mem, res := s.res, plat := s.plat, grain := s.grain, fresh := s.fresh }

/-- The state `t` with the fields of `h` that no command touches. -/
def withUntouched (h t : State) : State :=
  { t with regs := h.regs, agenda := h.agenda, readback := h.readback }

theorem eq_withHistory {s s' : State} (hctx : s.ctx = s'.ctx) (hmem : s.mem = s'.mem) (hres : s.res = s'.res)
    (hplat : s.plat = s'.plat) (hgrain : s.grain = s'.grain) (hfresh : s.fresh = s'.fresh) :
    s' = withHistory s' s := by
  simp only [withHistory, hctx, hmem, hres, hplat, hgrain, hfresh]

@[simp] theorem withHistory_ctx (h s : State) : (withHistory h s).ctx = s.ctx := rfl
@[simp] theorem withHistory_mem (h s : State) : (withHistory h s).mem = s.mem := rfl
@[simp] theorem withHistory_plat (h s : State) : (withHistory h s).plat = s.plat := rfl
@[simp] theorem withHistory_grain (h s : State) : (withHistory h s).grain = s.grain := rfl

/-! ### The ends of a command -/

theorem complete_withHistory (b : Bool) (h s : State) :
    complete b (withHistory h s) = withUntouched h (complete b s) := rfl

theorem completeUnspecified_withHistory (h s : State) :
    completeUnspecified (withHistory h s) = withUntouched h (completeUnspecified s) := rfl

theorem raiseError_withHistory (e : CmdError) (h s : State) :
    raiseError e (withHistory h s) = withUntouched h (raiseError e s) := rfl

theorem dispatchTiles_withHistory (j : Job) (h s : State) :
    dispatchTiles j (withHistory h s) = withUntouched h (dispatchTiles j s) := rfl

/-! ### The shared operations -/

theorem performAll_withHistory (j : Job) (h s : State) :
    performAll j (withHistory h s) = withUntouched h (performAll j s) := by
  unfold performAll
  rw [withHistory_ctx, withHistory_mem]
  cases jobResult j s.ctx s.mem with
  | some cells => rfl
  | none => rfl

theorem runBulk_withHistory (j : Job) (h s : State) :
    runBulk j (withHistory h s) = withUntouched h (runBulk j s) := by
  unfold runBulk
  rw [withHistory_ctx, withHistory_plat, withHistory_grain]
  cases jobEmpty j s.ctx with
  | true => exact complete_withHistory true h s
  | false =>
    cases jobError j s.ctx s.plat.memBytes with
    | some e => exact raiseError_withHistory e h s
    | none =>
      cases s.grain with
      | atomic => exact performAll_withHistory j h s
      | tiled => exact dispatchTiles_withHistory j h s

theorem runRange_withHistory (asym : Bool) (w : Width) (et : ElemType) (h s : State) :
    runRange asym w et (withHistory h s) = withUntouched h (runRange asym w et s) := by
  unfold runRange
  rw [withHistory_ctx]
  cases rangeResults asym w et s.ctx.opa s.ctx.opb with
  | some r => rfl
  | none => exact completeUnspecified_withHistory h s

theorem runPack_withHistory (w : Width) (h s : State) :
    runPack w (withHistory h s) = withUntouched h (runPack w s) := by
  unfold runPack
  rw [withHistory_ctx]
  simp only
  split
  · rfl
  · exact raiseError_withHistory .operandError h s

theorem runUnpack_withHistory (w : Width) (h s : State) :
    runUnpack w (withHistory h s) = withUntouched h (runUnpack w s) := rfl

/-! ### The commands -/

/-- The command answers a next state, and on another history the same one but for what no command touches. -/
def ForgetsHistory (meaning : State → Host.Outcome State Fault Refusal) : Prop :=
  ∀ h s : State, ∃ t, meaning s = .next t ∧ meaning (withHistory h s) = .next (withUntouched h t)

theorem forgetsHistory_of_next {run : State → State}
    (hrun : ∀ h s, run (withHistory h s) = withUntouched h (run s)) : ForgetsHistory fun s => .next (run s) :=
  fun h s => ⟨run s, rfl, congrArg _ (hrun h s)⟩

theorem forgetsHistory_runBulk (j : Job) : ForgetsHistory fun s => .next (runBulk j s) :=
  forgetsHistory_of_next (runBulk_withHistory j)

theorem forgetsHistory_execGeom (w : Width) (o : Orient) (zpen : Bool) : ForgetsHistory (execGeom w o zpen) := by
  intro h s
  unfold execGeom
  rw [withHistory_ctx]
  simp only
  split
  · split
    · exact ⟨_, rfl, rfl⟩
    · exact ⟨_, rfl, rfl⟩
  · exact ⟨_, rfl, rfl⟩

theorem forgetsHistory_execNorm (w : Width) : ForgetsHistory (execNorm w) := by
  intro h s
  unfold execNorm
  rw [withHistory_ctx]
  split
  · exact ⟨_, rfl, rfl⟩
  · cases normResults w s.ctx.opa s.ctx.opb s.ctx.opc.toNat with
    | some r => exact ⟨_, rfl, rfl⟩
    | none => exact ⟨_, rfl, rfl⟩

theorem forgetsHistory_exec (i : Instr) : ForgetsHistory (exec i) := by
  cases i with
  | geom w o zpen => exact forgetsHistory_execGeom w o zpen
  | r2qS w et => exact forgetsHistory_of_next (runRange_withHistory false w et)
  | r2qA w et => exact forgetsHistory_of_next (runRange_withHistory true w et)
  | norm w => exact forgetsHistory_execNorm w
  | packQ4 => exact forgetsHistory_of_next (runPack_withHistory .q4)
  | packQ2 => exact forgetsHistory_of_next (runPack_withHistory .q2)
  | packQ8 => exact forgetsHistory_of_next (runPack_withHistory .q8)
  | unpackQ4 => exact forgetsHistory_of_next (runUnpack_withHistory .q4)
  | unpackQ2 => exact forgetsHistory_of_next (runUnpack_withHistory .q2)
  | unpackQ8 => exact forgetsHistory_of_next (runUnpack_withHistory .q8)
  | qtS o et => exact forgetsHistory_runBulk (.qt false o et)
  | qtA o et => exact forgetsHistory_runBulk (.qt true o et)
  | dqtS o et => exact forgetsHistory_runBulk (.dqt false o et)
  | dqtA o et => exact forgetsHistory_runBulk (.dqt true o et)
  | qdqcS w et => exact forgetsHistory_runBulk (.qdqc false w et)
  | qdqcA w et => exact forgetsHistory_runBulk (.qdqc true w et)
  | qdqr w zpen et => exact forgetsHistory_of_next (raiseError_withHistory .unimplemented)
  | lpackS32 => exact forgetsHistory_runBulk (.lpack .s32)
  | lpackS64 => exact forgetsHistory_runBulk (.lpack .s64)
  | lpackS128 => exact forgetsHistory_runBulk (.lpack .s128)
  | lpackA32 => exact forgetsHistory_runBulk (.lpack .a32)
  | lunpackS32 => exact forgetsHistory_runBulk (.lunpack .s32)
  | lunpackS64 => exact forgetsHistory_runBulk (.lunpack .s64)
  | lunpackS128 => exact forgetsHistory_runBulk (.lunpack .s128)
  | lunpackA32 => exact forgetsHistory_runBulk (.lunpack .a32)

end Sys2Proof.Machine

namespace Sys2Proof.Proofs

open Sys2Proof.Machine

/-- Settles O56: each way a command can end sets or keeps every field that earlier commands leave. -/
theorem noStateFromEarlierCommands : Obligations.NoStateFromEarlierCommands := by
  intro i s s' t hctx hmem hres hplat hgrain hfresh hexec
  obtain ⟨u, hu, hu'⟩ := forgetsHistory_exec i s' s
  obtain rfl : u = t := Host.Outcome.next.inj (hu.symm.trans hexec)
  exact (congrArg (exec i) (eq_withHistory hctx hmem hres hplat hgrain hfresh)).trans hu'

end Sys2Proof.Proofs
end

section
/-! The arithmetic operations as exact results rounded once (R10). Rounding works on magnitudes; here it meets the signs:
the result carries the sign of the exact number, so distances between values are distances between magnitudes. -/

namespace Sys2Proof.Machine

/-! ### Values and signs -/

@[simp] theorem value_natAbs (a : Flt) : (value a).natAbs = a.mag := by
  unfold value
  split <;> simp

theorem value_fneg (a : Flt) : value (fneg a) = -value a := by
  obtain ⟨neg, mag⟩ := a
  cases neg <;> simp [value, fneg]

/-- A value scaled is the value of the scaled magnitude. -/
theorem value_mul (neg : Bool) (n d : Nat) : value ⟨neg, n⟩ * d = value ⟨neg, n * d⟩ := by
  cases neg <;> simp [value]

theorem value_eq_zero_iff (a : Flt) : value a = 0 ↔ a.mag = 0 := by rw [← Int.natAbs_eq_zero, value_natAbs]

theorem neg_eq_of_value_ne_zero {a : Flt} (h : value a ≠ 0) : a.neg = decide (value a < 0) := by
  obtain ⟨neg, mag⟩ := a
  cases neg with
  | false => simp [value]
  | true =>
    simp only [value, if_true] at h ⊢
    exact (decide_eq_true (by omega)).symm

theorem decide_mul_neg {x y : Int} (hx : x ≠ 0) (hy : y ≠ 0) :
    decide (x * y < 0) = (decide (x < 0) != decide (y < 0)) := by
  rw [Bool.eq_iff_iff]
  simp only [decide_eq_true_eq, bne_iff_ne, ne_eq, decide_eq_decide, mul_neg_iff]
  omega

/-- The magnitudes of two values are at most as far apart as the values, and exactly as far when the signs agree. -/
theorem gap_le_natAbs_value_sub (g : Flt) (num : Int) : gap g.mag num.natAbs ≤ (value g - num).natAbs := by
  unfold gap value
  split <;> omega

theorem natAbs_value_sub {f : Flt} {num : Int} (hneg : num ≠ 0 → f.neg = decide (num < 0))
    (hzero : num = 0 → f.mag = 0) : (value f - num).natAbs = gap f.mag num.natAbs := by
  unfold gap value
  rcases eq_or_ne num 0 with rfl | hnum
  · simp [hzero rfl]
  · rw [hneg hnum]
    by_cases h : num < 0
    · simp only [h, decide_true, if_true]; omega
    · simp only [h, decide_false, Bool.false_eq_true, if_false]; omega

theorem neg_of_natAbs_value_sub {g : Flt} {num : Int} (h : (value g - num).natAbs = gap g.mag num.natAbs)
    (hnum : num ≠ 0) (hg : g.mag ≠ 0) : g.neg = decide (num < 0) := by
  obtain ⟨neg, mag⟩ := g
  unfold gap value at h
  cases neg with
  | false =>
    simp only [Bool.false_eq_true, if_false] at h hg
    exact (decide_eq_false (by omega)).symm
  | true =>
    simp only [if_true] at h hg
    exact (decide_eq_true (by omega)).symm

/-! ### The nearest value -/

/-- A magnitude rounded to precision `p` under the sign of the exact number is a nearest value of that precision, and on a
tie it is an even multiple of the unit in the last place. A value of the same magnitude and the other sign is farther. -/
theorem value_nearest {p den : Nat} {num : Int} {neg : Bool} (hp : 0 < p) (hden : 0 < den)
    (hneg : num ≠ 0 → neg = decide (num < 0)) {g : Flt} (hg : HasPrecision p g.mag) :
    (value ⟨neg, roundTo p num.natAbs den⟩ * den - num).natAbs ≤ (value g * den - num).natAbs ∧
      ((value ⟨neg, roundTo p num.natAbs den⟩ * den - num).natAbs = (value g * den - num).natAbs →
        value g ≠ value ⟨neg, roundTo p num.natAbs den⟩ →
          2 ^ ulpExp p num.natAbs den * 2 ∣ roundTo p num.natAbs den) := by
  obtain ⟨gneg, gmag⟩ := g
  have hzero : num = 0 → roundTo p num.natAbs den = 0 := by rintro rfl; exact roundTo_zero hp hden
  obtain ⟨hle, htie⟩ := roundTo_nearest num.natAbs hp hden hg
  generalize roundTo p num.natAbs den = r at *
  have hexact : (value ⟨neg, r * den⟩ - num).natAbs = gap (r * den) num.natAbs :=
    natAbs_value_sub hneg fun h => by simp [hzero h]
  have hfar : gap (gmag * den) num.natAbs ≤ (value ⟨gneg, gmag * den⟩ - num).natAbs :=
    gap_le_natAbs_value_sub ⟨gneg, gmag * den⟩ num
  rw [value_mul, value_mul, hexact]
  refine ⟨hle.trans hfar, fun heq hne => htie (le_antisymm hle (heq ▸ hfar)) ?_⟩
  rintro (rfl : gmag = r)
  have hmag : gmag ≠ 0 := by rintro rfl; exact hne (by simp [value])
  have hsign : gneg = decide (num < 0) :=
    neg_of_natAbs_value_sub heq.symm (fun h => hmag (hzero h)) (Nat.mul_ne_zero hmag hden.ne')
  exact hne (by rw [hsign, hneg fun h => hmag (hzero h)])

/-- A rounded magnitude that ties has an even fraction field. -/
theorem even_packMagnitude_roundTo {f num den : Nat} (hf : 0 < f) (hden : 0 < den)
    (h : 2 ^ ulpExp (f + 1) num den * 2 ∣ roundTo (f + 1) num den) : 2 ∣ packMagnitude f (roundTo (f + 1) num den) := by
  refine even_packMagnitude hf (roundTo_hasPrecision (f + 1) num hden) h ?_
  rw [roundTo_eq]
  exact Nat.mul_le_mul_right _ (nearestEven_le (by positivity) (lt_two_pow_ulpExp (f + 1) num hden).le)

/-! ### binary32 -/

/-- Twice the midpoint under a power of two, in a unit that is itself a power of two. -/
theorem two_mul_midpoint {c j k : Nat} (h : c + j + 1 = k) (p : Nat) :
    2 * (2 ^ c * ((2 ^ p + (2 ^ p - 1)) * 2 ^ j)) = 2 ^ (p + k) + belowPow p k := by
  rw [belowPow, Nat.pow_add, ← Nat.add_mul, ← h]
  ring

theorem two_mul_overflow32 : 2 * Claim.overflow32 = 2 ^ (24 + 253) + belowPow 24 253 := by
  have hfactor : 2 ^ 128 - 2 ^ 103 = (2 ^ 24 + (2 ^ 24 - 1)) * 2 ^ 103 := by norm_num
  have hbound : Claim.overflow32 = 2 ^ 149 * ((2 ^ 24 + (2 ^ 24 - 1)) * 2 ^ 103) := congrArg (unitOne * ·) hfactor
  rw [hbound, two_mul_midpoint (k := 253) rfl]

theorem limit32_le_roundTo_iff (num : Nat) {den : Nat} (hden : 0 < den) :
    limit32 ≤ roundTo 24 num den ↔ Claim.overflow32 * den ≤ num := by
  rw [limit32_eq, two_pow_le_roundTo_iff (p := 24) num 253 (by omega) hden, ← two_mul_overflow32, Nat.mul_assoc]
  omega

/-- Rounding to binary32 under the sign of the exact number is rounding once. -/
theorem roundedOnce_round32 {num : Int} {den : Nat} {neg : Bool} (hden : 0 < den)
    (hneg : num ≠ 0 → neg = decide (num < 0)) : Claim.RoundedOnce num den (round32 neg num.natAbs den) := by
  refine ⟨(round32_eq_none_iff _ _ _).trans (limit32_le_roundTo_iff _ hden), fun f hf =>
    ⟨isBinary32_of_round32 hden hf, fun g hg => ?_⟩⟩
  obtain ⟨-, rfl⟩ := round32_eq_some hf
  obtain ⟨hle, htie⟩ := value_nearest (by omega) hden hneg ((isBinary32_iff g).mp hg).1
  exact ⟨hle, fun heq hne => bits32_getLsbD_zero (even_packMagnitude_roundTo (by omega) hden (htie heq hne))⟩

theorem unitOne_pos : 0 < unitOne := Nat.two_pow_pos 149

theorem roundedOnce_fadd (a b : Flt) : Claim.RoundedOnce (value a + value b) 1 (fadd a b) :=
  roundedOnce_round32 (by omega) fun h => by simp only [if_neg h]

theorem roundedOnce_fsub (a b : Flt) : Claim.RoundedOnce (value a - value b) 1 (fsub a b) := by
  have h := roundedOnce_fadd a (fneg b)
  rwa [value_fneg, ← Int.sub_eq_add_neg] at h

/-- The sign of a product or a quotient. -/
theorem xor_neg_eq {a b : Flt} (ha : value a ≠ 0) (hb : value b ≠ 0) :
    (a.neg != b.neg) = decide (value a * value b < 0) := by
  rw [decide_mul_neg ha hb, neg_eq_of_value_ne_zero ha, neg_eq_of_value_ne_zero hb]

theorem roundedOnce_fmul (a b : Flt) : Claim.RoundedOnce (value a * value b) unitOne (fmul a b) := by
  have hmag : (value a * value b).natAbs = a.mag * b.mag := by simp [Int.natAbs_mul]
  unfold fmul
  rw [← hmag]
  exact roundedOnce_round32 unitOne_pos fun h => xor_neg_eq (left_ne_zero_of_mul h) (right_ne_zero_of_mul h)

theorem roundedOnce_fdiv {a b : Flt} (hb : b.mag ≠ 0) :
    Claim.RoundedOnce (value a * unitOne * (value b).sign) b.mag (fdiv a b) := by
  have hvb : value b ≠ 0 := fun h => hb ((value_eq_zero_iff b).mp h)
  have hunit : (0 : Int) < (unitOne : Int) := by exact_mod_cast unitOne_pos
  have hmag : (value a * unitOne * (value b).sign).natAbs = unitOne * a.mag := by
    rw [Int.natAbs_mul, Int.natAbs_mul, Int.natAbs_sign_of_ne_zero hvb, value_natAbs, Int.natAbs_natCast]
    ring
  unfold fdiv
  rw [if_neg hb, ← hmag]
  refine roundedOnce_round32 (by omega) fun h => ?_
  have hva : value a ≠ 0 := left_ne_zero_of_mul (left_ne_zero_of_mul h)
  rw [decide_mul_neg (left_ne_zero_of_mul h) (right_ne_zero_of_mul h), decide_mul_neg hva hunit.ne',
    decide_eq_false hunit.not_gt, Bool.bne_false, decide_eq_decide.mpr Int.sign_neg_iff,
    neg_eq_of_value_ne_zero hva, neg_eq_of_value_ne_zero hvb]

/-! ### binary16 -/

theorem two_mul_overflow16 : 2 * Claim.overflow16 = (2 ^ (11 + 29) + belowPow 11 29) * unit16 := by
  have hfactor : 2 ^ 16 - 2 ^ 4 = (2 ^ 11 + (2 ^ 11 - 1)) * 2 ^ 4 := by norm_num
  have hunit : unitOne = unit16 * 2 ^ 24 := Nat.pow_add 2 125 24
  have hbound : Claim.overflow16 = unit16 * (2 ^ 24 * ((2 ^ 11 + (2 ^ 11 - 1)) * 2 ^ 4)) :=
    (congrArg₂ (· * ·) hunit hfactor).trans (Nat.mul_assoc _ _ _)
  rw [hbound, Nat.mul_left_comm, two_mul_midpoint (k := 29) rfl, Nat.mul_comm]

theorem limit16_le_roundTo_iff (num : Nat) : limit16 ≤ roundTo 11 num unit16 ↔ Claim.overflow16 ≤ num := by
  rw [limit16_eq, two_pow_le_roundTo_iff (p := 11) num 29 (by omega) unit16_pos, ← two_mul_overflow16]
  omega

/-- Narrowing answers a nearest binary16 value, and on a tie the even one. -/
theorem narrow_nearest {a f g : Flt} (hf : narrow a = some f) (hg : Claim.IsBinary16 g) :
    (value f - value a).natAbs ≤ (value g - value a).natAbs ∧
      ((value f - value a).natAbs = (value g - value a).natAbs → value g ≠ value f →
        (bits16 f).getLsbD 0 = false) := by
  obtain ⟨-, rfl⟩ := narrow_eq_some hf
  obtain ⟨k, hk, hp, -⟩ := (isBinary16_iff g).mp hg
  obtain ⟨gneg, gmag⟩ := g
  obtain rfl : gmag = unit16 * k := hk
  obtain ⟨hle, htie⟩ := value_nearest (num := value a) (neg := a.neg) (g := ⟨gneg, k⟩) (by omega) unit16_pos
    neg_eq_of_value_ne_zero hp
  rw [value_natAbs] at hle htie
  rw [Nat.mul_comm, Nat.mul_comm unit16 k, ← value_mul, ← value_mul]
  refine ⟨hle, fun heq hne => bits16_getLsbD_zero ?_⟩
  rw [Nat.mul_div_cancel _ unit16_pos]
  exact even_packMagnitude_roundTo (by omega) unit16_pos (htie heq fun h => hne (by rw [h]))

/-! ### Integers -/

/-- The integer that `roundAway` answers. -/
def awayInt (a : Flt) : Nat := (unitOne / 2 + a.mag) / unitOne

theorem roundAway_mag (a : Flt) : (roundAway a).mag = unitOne * awayInt a := rfl

theorem two_mul_half_unitOne : 2 * (unitOne / 2) = unitOne := Nat.mul_div_cancel' (dvd_pow_self 2 (by omega))

theorem awayInt_bounds (a : Flt) :
    unitOne * (2 * awayInt a) ≤ 2 * a.mag + unitOne ∧ 2 * a.mag + unitOne < unitOne * (2 * awayInt a + 2) := by
  have hlow : unitOne * awayInt a ≤ unitOne / 2 + a.mag := Nat.mul_div_le _ _
  have hhigh : unitOne / 2 + a.mag < unitOne * (awayInt a + 1) := Nat.lt_mul_div_succ _ unitOne_pos
  have hhalf := two_mul_half_unitOne
  rw [Nat.mul_add, Nat.mul_left_comm]
  rw [Nat.mul_add] at hhigh
  omega

/-- An integer is kept. -/
theorem awayInt_of_integer {a : Flt} {k : Nat} (h : a.mag = unitOne * k) : awayInt a = k := by
  have hhalf := two_mul_half_unitOne
  have hpos := unitOne_pos
  rw [awayInt, h, Nat.add_mul_div_left _ _ unitOne_pos, Nat.div_eq_of_lt (by omega), Nat.zero_add]

/-- A value that is no integer lies under 2^23, so the integer it rounds to still fits the precision. -/
theorem isBinary32_roundAway {a : Flt} (ha : Claim.IsBinary32 a) : Claim.IsBinary32 (roundAway a) := by
  obtain ⟨hp, hlt⟩ := (isBinary32_iff a).mp ha
  rcases hp.le_or_dvd (by omega) 149 with ⟨k, hk⟩ | ⟨-, hle⟩
  · have hsame : (roundAway a).mag = a.mag := by rw [roundAway_mag, awayInt_of_integer hk]; exact hk.symm
    exact (isBinary32_iff _).mpr ⟨by rwa [hsame], by rwa [hsame]⟩
  · have hint : awayInt a ≤ 2 ^ 24 := by
      have hmul : unitOne * (2 * awayInt a) ≤ unitOne * (2 ^ 24 + 1) := by
        change a.mag ≤ 2 ^ 23 * unitOne at hle
        have := (awayInt_bounds a).1
        omega
      have := Nat.le_of_mul_le_mul_left hmul unitOne_pos
      omega
    refine (isBinary32_iff _).mpr ⟨?_, ?_⟩
    · rw [roundAway_mag, Nat.mul_comm]
      exact (hasPrecision_of_le hint).mul_two_pow 149
    · rw [roundAway_mag, limit32]
      exact Nat.mul_lt_mul_of_pos_left (hint.trans_lt (Nat.pow_lt_pow_right (by omega) (by omega))) unitOne_pos

theorem truncate_bounds (a : Flt) :
    unitOne * (a.mag / unitOne) ≤ a.mag ∧ a.mag < unitOne * (a.mag / unitOne + 1) :=
  ⟨Nat.mul_div_le _ _, Nat.lt_mul_div_succ _ unitOne_pos⟩

end Sys2Proof.Machine

namespace Sys2Proof.Proofs

open Sys2Proof.Machine

/-- Settles O60: every operation ends in one rounding, under the sign of the exact number. -/
theorem arithmeticIsRoundedOnce : Obligations.ArithmeticIsRoundedOnce := by
  refine ⟨roundedOnce_fadd, roundedOnce_fsub, roundedOnce_fmul, fun a b => roundedOnce_fdiv, fun a => ?_,
    fun a f hf => ⟨isBinary16_of_narrow hf, ?_, fun g hg => narrow_nearest hf hg⟩,
    fun a => ⟨rfl, awayInt a, roundAway_mag a, awayInt_bounds a⟩, fun a => isBinary32_roundAway,
    fun a => ⟨rfl, a.mag / unitOne, rfl, truncate_bounds a⟩⟩
  · exact (narrow_eq_none_iff a).trans (limit16_le_roundTo_iff a.mag)
  · obtain ⟨-, rfl⟩ := narrow_eq_some hf
    rfl

end Sys2Proof.Proofs
end

section
/-! Where the tiles of a bulk command write (R60, R66): every target of a tile lies in an extent that the command
writes. One bound for each index of the layouts R101 to R106, and one lemma for each kind of tile. -/

namespace Sys2Proof.Machine

/-! ### Rounded-up quotients and indices of tables -/

/-- A quotient by 0 is 0, so the divisor need not be assumed positive. -/
theorem lt_ceilDiv_iff {k a b : Nat} : k < ceilDiv a b ↔ 0 < b ∧ k * b < a := by
  rcases Nat.eq_zero_or_pos b with rfl | hb
  · simp [ceilDiv]
  · rw [ceilDiv, Nat.lt_iff_add_one_le, Nat.le_div_iff_mul_le hb, Nat.add_one_mul]
    omega

theorem le_ceilDiv_mul (a : Nat) {b : Nat} (hb : 0 < b) : a ≤ ceilDiv a b * b := by
  by_contra h
  exact lt_irrefl _ (lt_ceilDiv_iff.mpr ⟨hb, Nat.lt_of_not_le h⟩)

/-- An index into a table of `n` rows of `m` (R101 to R106, R65). -/
theorem index_lt {i j n m : Nat} (hi : i < n) (hj : j < m) : i * m + j < n * m := by
  rw [Nat.mul_comm i m]
  exact Nat.mul_add_lt_mul_of_lt_of_lt hi hj

/-- The byte of a whole group of `p` columns in a table of `n` rows of `m` columns, packed `p` to a byte (R104). -/
theorem packed_index_lt {i g n m p : Nat} (hi : i < n) (hg : g < m / p) : (i * m + g * p) / p < n * m / p := by
  have hp : 0 < p := Nat.pos_of_ne_zero fun h => by simp [h] at hg
  have hcol : g * p + p ≤ m := by simpa [Nat.add_one_mul] using (Nat.le_div_iff_mul_le hp).mp hg
  have hrow : i * m + m ≤ n * m := by simpa [Nat.add_one_mul] using Nat.mul_le_mul_right m hi
  have hgroup : i * m + g * p + p ≤ n * m := by omega
  calc (i * m + g * p) / p + 1 = (i * m + g * p + p) / p := (Nat.add_div_right _ hp).symm
    _ ≤ n * m / p := Nat.div_le_div_right hgroup

theorem mem_tileGrid {rows cols : Nat} {t : Tile} : t ∈ tileGrid rows cols ↔ t.r < rows ∧ t.c < cols := by
  simp only [tileGrid, List.mem_flatMap, List.mem_map, List.mem_range]
  constructor
  · rintro ⟨r, hr, k, hk, rfl⟩
    exact ⟨hr, hk⟩
  · rintro ⟨hr, hc⟩
    exact ⟨t.r, hr, t.c, hc, rfl⟩

/-! ### Addresses in extents -/

theorem inWritten_iff {es : List Extent} {a : Nat} :
    inWritten es a = true ↔ ∃ e ∈ es, e.written = true ∧ e.base ≤ a ∧ a < e.base + e.size := by
  simp [inWritten, inExtent]

/-- A byte of a buffer that is written. -/
theorem inWritten_offset {es : List Extent} {base size k : Nat} (he : ⟨base, size, true⟩ ∈ es) (hk : k < size) :
    inWritten es (base + k) = true :=
  inWritten_iff.mpr ⟨_, he, rfl, Nat.le_add_right _ _, Nat.add_lt_add_left hk base⟩

/-- A byte of element `k` of a buffer of `n` elements of `e` bytes that is written. -/
theorem inWritten_field {es : List Extent} {base n e k a : Nat} (he : ⟨base, n * e, true⟩ ∈ es) (hk : k < n)
    (hlow : base + k * e ≤ a) (hhigh : a < base + k * e + e) : inWritten es a = true := by
  have hfield := index_lt hk (show a - (base + k * e) < e by omega)
  have ha : base + (k * e + (a - (base + k * e))) = a := by omega
  exact ha ▸ inWritten_offset he hfield

/-! ### The transposed layout (R101 to R103) -/

section Transposed

variable {c : HostRegs} {o : Orient}

/-- The scale of a block that exists (R103). -/
theorem transposedScale_lt {mr mc : Nat} (asym : Bool) (hr : mr < ceilDiv c.rows.toNat (blockRows o c.blksz.toNat))
    (hc : mc < ceilDiv c.cols.toNat (blockCols o c.blksz.toNat)) :
    transposedScale c o mr mc < (contextGeometry c .q4 o asym).scCount := by
  simp only [transposedScale, contextGeometry, geometry]
  rw [Nat.mul_comm (ceilDiv c.rows.toNat _)]
  exact index_lt hc hr

/-- The zero-point byte of a block that exists (R102). -/
theorem transposedZp_lt {mr mc : Nat} (hr : mr < ceilDiv c.rows.toNat (blockRows o c.blksz.toNat))
    (hc : mc < ceilDiv c.cols.toNat (blockCols o c.blksz.toNat)) :
    transposedZp c o mr mc < (contextGeometry c .q4 o true).zpBytes := by
  simp only [transposedZp, contextGeometry, geometry, qbits, if_true]
  have hbytes (n : Nat) : ceilDiv (n * 4) 8 = ceilDiv n 2 := by unfold ceilDiv; omega
  rw [hbytes, Nat.mul_comm (ceilDiv _ 2)]
  exact index_lt hc (lt_ceilDiv_iff.mpr (by omega))

/-- The packed byte of an element that exists (R101). -/
theorem transposedByte_lt {row col : Nat} (asym : Bool) (hbr : 0 < blockRows o c.blksz.toNat)
    (hbc : 0 < blockCols o c.blksz.toNat) (hr : row < c.rows.toNat) (hc : col < c.cols.toNat) :
    transposedByte c o row col < (contextGeometry c .q4 o asym).qBytes := by
  have hrows := le_ceilDiv_mul c.rows.toNat hbr
  have hcols := le_ceilDiv_mul c.cols.toNat hbc
  simp only [transposedByte, contextGeometry, geometry, qbits]
  rw [Nat.mul_comm (ceilDiv (_ * 4) 8)]
  exact index_lt (by omega) (lt_ceilDiv_iff.mpr (by omega))

/-- The first sub-block of a tile of the grid is a block of the matrix (R203). -/
theorem block_of_transposedTile {t : Tile} (ht : t ∈ transposedTiles c o) :
    0 < blockRows o c.blksz.toNat ∧ 2 * t.r < ceilDiv c.rows.toNat (blockRows o c.blksz.toNat) ∧
      t.c < ceilDiv c.cols.toNat (blockCols o c.blksz.toNat) := by
  obtain ⟨hr, hc⟩ := mem_tileGrid.mp ht
  obtain ⟨hpos, hlt⟩ := lt_ceilDiv_iff.mp hr
  have hbr : 0 < blockRows o c.blksz.toNat := by omega
  refine ⟨hbr, lt_ceilDiv_iff.mpr ⟨hbr, ?_⟩, hc⟩
  calc 2 * t.r * blockRows o c.blksz.toNat = t.r * (2 * blockRows o c.blksz.toNat) := by ring
    _ < c.rows.toNat := hlt

/-- So is the second one when it has a row (R203). -/
theorem second_block_of_transposedTile {t : Tile} (ht : t ∈ transposedTiles c o)
    (h : (transposedBounds c o t).r0 + blockRows o c.blksz.toNat < (transposedBounds c o t).r1) :
    2 * t.r + 1 < ceilDiv c.rows.toNat (blockRows o c.blksz.toNat) := by
  obtain ⟨hbr, -, -⟩ := block_of_transposedTile ht
  simp only [transposedBounds, lt_min_iff] at h
  refine lt_ceilDiv_iff.mpr ⟨hbr, ?_⟩
  calc (2 * t.r + 1) * blockRows o c.blksz.toNat
      = t.r * (2 * blockRows o c.blksz.toNat) + blockRows o c.blksz.toNat := by ring
    _ < c.rows.toNat := h.2

theorem transposedBounds_le (t : Tile) :
    (transposedBounds c o t).r1 ≤ c.rows.toNat ∧ (transposedBounds c o t).c1 ≤ c.cols.toNat :=
  ⟨Nat.min_le_right _ _, Nat.min_le_right _ _⟩

variable {asym : Bool} {et : ElemType} {t : Tile} {a : Nat}

theorem inWritten_of_target_qt (ht : t ∈ transposedTiles c o) (ha : IsTarget et (.quant (qtTile c asym o et t)) a) :
    inWritten (jobExtents (.qt asym o et) c) a = true := by
  obtain ⟨hbr, hr, hc⟩ := block_of_transposedTile ht
  obtain ⟨hr1, hc1⟩ := transposedBounds_le (c := c) (o := o) t
  rcases ha with ⟨b, hb, hlow, hhigh⟩ | ⟨z, hz, rfl⟩ | ⟨d, hd, rfl⟩
  · obtain ⟨k, hk, rfl⟩ : ∃ k, 2 * t.r + k < ceilDiv c.rows.toNat (blockRows o c.blksz.toNat) ∧
        b = qtBlock c o et t k := by
      simp only [qtTile] at hb
      split at hb
      · next h =>
        rcases List.mem_pair.mp hb with rfl | rfl
        · exact ⟨0, hr, rfl⟩
        · exact ⟨1, second_block_of_transposedTile ht h, rfl⟩
      · exact ⟨0, hr, List.mem_singleton.mp hb⟩
    exact inWritten_field (by simp [jobExtents]) (transposedScale_lt asym hk hc) hlow hhigh
  · cases asym with
    | false => simp [qtTile] at hz
    | true =>
      obtain rfl := List.mem_singleton.mp hz
      exact inWritten_offset (by simp [jobExtents]) (transposedZp_lt hr hc)
  · simp only [qtTile, List.mem_flatMap, List.mem_map, List.mem_range, mem_span] at hd
    obtain ⟨col, ⟨-, hcol⟩, p, hp, rfl⟩ := hd
    obtain ⟨-, hp⟩ := lt_ceilDiv_iff.mp hp
    obtain ⟨hbc, -⟩ := lt_ceilDiv_iff.mp hc
    exact inWritten_offset (by simp [jobExtents]) (transposedByte_lt asym hbr hbc (by omega) (by omega))

theorem inWritten_of_target_dqt (ha : IsTarget et (.deq (dqtTile c asym o et t)) a) :
    inWritten (jobExtents (.dqt asym o et) c) a = true := by
  obtain ⟨d, hd, hlow, hhigh⟩ := ha
  obtain ⟨hr1, hc1⟩ := transposedBounds_le (c := c) (o := o) t
  simp only [dqtTile, List.mem_flatMap, List.mem_map, mem_span] at hd
  obtain ⟨col, ⟨-, hcol⟩, row, ⟨-, hrow⟩, rfl⟩ := hd
  have hindex : col * c.rows.toNat + row < c.rows.toNat * c.cols.toNat := by
    rw [Nat.mul_comm c.rows.toNat]
    exact index_lt (by omega) (by omega)
  exact inWritten_field (by simp [jobExtents]) hindex hlow hhigh

end Transposed

/-! ### The row-major layout (R104) -/

theorem inWritten_of_target_qdqc {c : HostRegs} {w : Width} {asym : Bool} {et : ElemType} {t : Tile} {a : Nat}
    (ht : t ∈ rowMajorTiles c) (ha : IsTarget et (.quant (qdqcTile c w asym et t)) a) :
    inWritten (jobExtents (.qdqc asym w et) c) a = true := by
  obtain ⟨hr, -⟩ := mem_tileGrid.mp ht
  have hc1 : (rowMajorBounds c t).c1 ≤ c.cols.toNat := Nat.min_le_right _ _
  have hr1 : (rowMajorBounds c t).r1 ≤ c.rows.toNat := Nat.min_le_right _ _
  have hgroup {g : Nat} (hg : g < (rowMajorBounds c t).c1 / perByte w) : g < c.cols.toNat / perByte w :=
    lt_of_lt_of_le hg (Nat.div_le_div_right hc1)
  rcases ha with ⟨b, hb, hlow, hhigh⟩ | ⟨z, hz, rfl⟩ | ⟨d, hd, rfl⟩
  · simp only [qdqcTile, List.mem_map, mem_span] at hb
    obtain ⟨col, ⟨-, hcol⟩, rfl⟩ := hb
    exact inWritten_field (n := qdqScales c) (by simp [jobExtents]) (index_lt hr (by omega)) hlow hhigh
  · cases asym with
    | false => simp [qdqcTile] at hz
    | true =>
      simp only [qdqcTile, if_true, List.mem_map, mem_span] at hz
      obtain ⟨g, ⟨-, hg⟩, rfl⟩ := hz
      exact inWritten_offset (size := qdqZpBytes c w true) (by simp [jobExtents]) (packed_index_lt hr (hgroup hg))
  · simp only [qdqcTile, List.mem_flatMap, List.mem_map, mem_span] at hd
    obtain ⟨row, ⟨-, hrow⟩, g, ⟨-, hg⟩, rfl⟩ := hd
    exact inWritten_offset (size := qdqPackedBytes c w) (by simp [jobExtents])
      (packed_index_lt (by omega) (hgroup hg))

/-! ### The legacy layout (R106) -/

/-- The chunks of 32 codes that hold an element of a block fit its data bytes (R282). -/
theorem chunk_lt {v : Legacy} {c : HostRegs} {kb ch l : Nat} (hch : ch < ceilDiv (blockLen c v kb) 32)
    (hl : l < 16) : 16 * ch + l < blkLen v / 2 := by
  obtain ⟨-, hch⟩ := lt_ceilDiv_iff.mp hch
  have hlen : blockLen c v kb ≤ blkLen v := Nat.min_le_left _ _
  have hwhole : blkLen v % 32 = 0 := by cases v <;> rfl
  omega

/-- A byte of a blob that exists (R277). -/
theorem inWritten_blob {v : Legacy} {c : HostRegs} {t : Tile} {a : Nat} (ht : t ∈ legacyTiles c v)
    (hlow : blobBase c v t.r t.c ≤ a) (hhigh : a < blobBase c v t.r t.c + blobSize v) :
    inWritten (jobExtents (.lpack v) c) a = true := by
  obtain ⟨hr, hc⟩ := mem_tileGrid.mp ht
  exact inWritten_field (n := c.cols.toNat * kBlocks c v) (by simp [jobExtents, legacyBytes]) (index_lt hr hc)
    hlow hhigh

theorem inWritten_of_target_lpack {v : Legacy} {c : HostRegs} {t : Tile} {a : Nat} (ht : t ∈ legacyTiles c v)
    (ha : IsTarget .f32 (.quant (lpackTile c v t)) a) : inWritten (jobExtents (.lpack v) c) a = true := by
  rcases ha with ⟨b, hb, hlow, hhigh⟩ | ⟨z, hz, rfl⟩ | ⟨d, hd, rfl⟩
  · obtain rfl := List.mem_singleton.mp hb
    simp only [esz] at hlow hhigh
    exact inWritten_blob ht hlow (by unfold blobSize; omega)
  · simp only [lpackTile] at hz
    split at hz
    · next hasym =>
      obtain rfl := List.mem_singleton.mp hz
      exact inWritten_blob ht (by omega) (by simp only [blobSize, legacyZ, hasym, if_true]; omega)
    · simp at hz
  · simp only [lpackTile, List.mem_flatMap, List.mem_map, List.mem_range] at hd
    obtain ⟨ch, hch, l, hl, rfl⟩ := hd
    have hdata := chunk_lt hch hl
    exact inWritten_blob ht (by unfold blobData; omega) (by unfold blobData blobSize; omega)

theorem inWritten_of_target_lunpack {v : Legacy} {c : HostRegs} {t : Tile} {a : Nat} (ht : t ∈ legacyTiles c v)
    (ha : IsTarget .f32 (.deq (lunpackTile c v t)) a) : inWritten (jobExtents (.lunpack v) c) a = true := by
  obtain ⟨hr, -⟩ := mem_tileGrid.mp ht
  obtain ⟨d, hd, hlow, hhigh⟩ := ha
  simp only [lunpackTile, List.mem_map, List.mem_range] at hd
  obtain ⟨j, hj, rfl⟩ := hd
  have hrow : t.c * blkLen v + j < c.rows.toNat := by unfold blockLen at hj; omega
  have hlast : (t.c * blkLen v + j) * c.ld.toNat ≤ (c.rows.toNat - 1) * c.ld.toNat :=
    Nat.mul_le_mul_right _ (by omega)
  have hsize : rowMajorBytes c 4 = ((c.rows.toNat - 1) * c.ld.toNat + c.cols.toNat) * 4 :=
    if_neg (by omega)
  exact inWritten_field (n := (c.rows.toNat - 1) * c.ld.toNat + c.cols.toNat) (by simp [jobExtents, hsize])
    (show (t.c * blkLen v + j) * c.ld.toNat + t.r < _ by omega) hlow hhigh

/-! ### Every command -/

/-- Every address that a tile of a command can write lies in a buffer that the command writes. -/
theorem inWritten_of_target {j : Job} {c : HostRegs} {t : Tile} {a : Nat} (ht : t ∈ jobTiles j c)
    (ha : IsTarget (jobMode j).et (jobWork j c t) a) : inWritten (jobExtents j c) a = true := by
  cases j with
  | qt asym o et => exact inWritten_of_target_qt ht ha
  | dqt asym o et => exact inWritten_of_target_dqt ha
  | qdqc asym w et => exact inWritten_of_target_qdqc ht ha
  | lpack v => exact inWritten_of_target_lpack ht ha
  | lunpack v => exact inWritten_of_target_lunpack ht ha

end Sys2Proof.Machine

namespace Sys2Proof.Proofs

open Sys2Proof.Machine

/-- Settles O47: the cells of a tile stand at its targets, and the targets lie in the buffers that R28 has it write. The
checks are not needed: a tile of the grid is a part of the matrix whatever the sizes are. -/
theorem writesStayInTheOutputBuffers : Obligations.WritesStayInTheOutputBuffers := by
  intro j c m t cells _ _ ht hcells x hx
  exact inWritten_of_target ht (tileCells_target hcells hx)

end Sys2Proof.Proofs
end

section
/-! What a command can do, said once for all of them: which result registers it may change (R29), and the ways it can go
(R311, R312, R75). -/

namespace Sys2Proof.Machine

/-! ### Addresses that exist -/

/-- A buffer that passed test 7 of R319 has only addresses that exist. -/
theorem lt_of_inWritten {es : List Extent} {n a : Nat} (hfit : ∀ e ∈ es, extentFits n e = true)
    (ha : inWritten es a = true) : a < n := by
  obtain ⟨e, he, -, hlow, hhigh⟩ := inWritten_iff.mp ha
  have hsize := hfit e he
  simp only [extentFits, Bool.or_eq_true, beq_iff_eq, decide_eq_true_eq] at hsize
  omega

theorem inWritten_of_mem_freeOutputs {epoch : Nat} {es : List Extent} {x : Host.Cell}
    (hx : x ∈ freeOutputs epoch es) : inWritten es x.1 = true := by
  obtain ⟨e, he, hx⟩ := List.mem_flatMap.mp hx
  obtain ⟨hmem, hwritten⟩ := List.mem_filter.mp he
  obtain ⟨k, hk, rfl⟩ := List.mem_map.mp hx
  exact inWritten_iff.mpr ⟨e, hmem, hwritten, Nat.le_add_right _ _, Nat.add_lt_add_left (List.mem_range.mp hk) _⟩

theorem inWritten_of_mem_jobResult {j : Job} {c : HostRegs} {m : Memory} {cells : List Host.Cell}
    (h : jobResult j c m = some cells) {x : Host.Cell} (hx : x ∈ cells) : inWritten (jobExtents j c) x.1 = true := by
  obtain ⟨-, hcells⟩ := jobResult_eq_some h
  obtain ⟨t, ht, cs, hcs, hx⟩ := (mem_collectCells hcells).mp hx
  exact inWritten_of_target ht (tileCells_target hcs hx)

/-! ### The result registers of a command -/

/-- What command `i` may turn the result registers `r` into (R29). -/
def MayTurnResults (r r' : Results) : Instr → Prop
  | .geom _ _ _ => True
  | .r2qS _ _ | .r2qA _ _ | .norm _ => ∃ a b, r' = { r with res0 := a, res1 := b }
  | .packQ4 | .packQ2 | .packQ8 | .unpackQ4 | .unpackQ2 | .unpackQ8 => ∃ a, r' = { r with res0 := a }
  | _ => r' = r

/-- `RES2` to `RES6` are the same. -/
def SameUpperResults (r r' : Results) : Prop :=
  r'.res2 = r.res2 ∧ r'.res3 = r.res3 ∧ r'.res4 = r.res4 ∧ r'.res5 = r.res5 ∧ r'.res6 = r.res6

theorem MayTurnResults.sameUpper {r r' : Results} {i : Instr} (h : MayTurnResults r r' i)
    (hgeom : ∀ w o z, i ≠ .geom w o z) : SameUpperResults r r' := by
  have hlow (a b : Word) : SameUpperResults r { r with res0 := a, res1 := b } := ⟨rfl, rfl, rfl, rfl, rfl⟩
  cases i with
  | geom w o z => exact absurd rfl (hgeom w o z)
  | r2qS | r2qA | norm => obtain ⟨a, b, rfl⟩ := h; exact hlow a b
  | packQ4 | packQ2 | packQ8 | unpackQ4 | unpackQ2 | unpackQ8 => obtain ⟨a, rfl⟩ := h; exact hlow a r.res1
  | _ => obtain rfl : r' = r := h; exact hlow _ _

theorem MayTurnResults.res1 {r r' : Results} {i : Instr} (h : MayTurnResults r r' i) {w : Width}
    (hi : i = Claim.packInstr w ∨ i = Claim.unpackInstr w) : r'.res1 = r.res1 := by
  have hres0 : ∃ a, r' = { r with res0 := a } := by
    rcases hi with rfl | rfl <;> cases w <;> exact h
  obtain ⟨a, rfl⟩ := hres0
  rfl

/-! ### The ways a command can go -/

/-- Command `i` in the state `s` leaves the state it is given: an error (R312); a completed scalar command; a completed
bulk command, which has written bytes that exist; or a bulk command that has passed its checks and still runs (R75). -/
inductive Leaves (i : Instr) (s : State) : State → Prop where
  | failed (e : CmdError) : Leaves i s (raiseError e s)
  | scalar (b : Bool) (r : Results) (n : Nat) (hjob : jobOf i = none) (hr : MayTurnResults s.res r i) :
      Leaves i s (complete b { s with res := r, fresh := n })
  | bulk (j : Job) (b : Bool) (cells : List Host.Cell) (n : Nat) (hjob : jobOf i = some j)
      (hcells : ∀ x ∈ cells, x.1 < s.plat.memBytes) :
      Leaves i s (complete b { s with mem := writeCells s.mem cells, fresh := n })
  | runs (j : Job) (hjob : jobOf i = some j) (hpasses : Passes j s) (hgrain : s.grain = .tiled) :
      Leaves i s (dispatchTiles j s)

theorem leaves_performAll {i : Instr} {j : Job} {s : State} (hjob : jobOf i = some j)
    (herr : jobError j s.ctx s.plat.memBytes = none) : Leaves i s (performAll j s) := by
  obtain ⟨-, -, hfit⟩ := jobError_eq_none herr
  rcases performAll_cases j s with ⟨cells, hres, h⟩ | ⟨-, h⟩
  · rw [h]
    exact .bulk j false cells s.fresh hjob fun x hx => lt_of_inWritten hfit (inWritten_of_mem_jobResult hres hx)
  · rw [h]
    exact .bulk j false _ _ hjob fun x hx => lt_of_inWritten hfit (inWritten_of_mem_freeOutputs hx)

theorem leaves_runBulk {i : Instr} {j : Job} (hjob : jobOf i = some j) (s : State) : Leaves i s (runBulk j s) := by
  rcases runBulk_cases j s with ⟨-, h⟩ | ⟨-, e, -, h⟩ | ⟨-, herr, -, h⟩ | ⟨hempty, herr, hgrain, h⟩
  · rw [h]
    exact .bulk j true [] s.fresh hjob (by simp)
  · rw [h]
    exact .failed e
  · rw [h]
    exact leaves_performAll hjob herr
  · rw [h]
    exact .runs j hjob ⟨hempty, herr⟩ hgrain

theorem leaves_runRange {i : Instr} {asym : Bool} {w : Width} {et : ElemType} {s : State} (hjob : jobOf i = none)
    (hr : ∀ a b, MayTurnResults s.res { s.res with res0 := a, res1 := b } i) : Leaves i s (runRange asym w et s) := by
  rcases runRange_cases asym w et s with ⟨a, b, -, h⟩ | ⟨-, h⟩
  · rw [h]
    exact .scalar false _ s.fresh hjob (hr a b)
  · rw [h]
    exact .scalar false _ _ hjob (hr _ _)

theorem leaves_runPack {i : Instr} {w : Width} {s : State} (hjob : jobOf i = none)
    (hr : ∀ a, MayTurnResults s.res { s.res with res0 := a } i) : Leaves i s (runPack w s) := by
  rcases runPack_cases w s with ⟨-, h⟩ | ⟨-, h⟩
  · rw [h]
    exact .scalar false _ s.fresh hjob (hr _)
  · rw [h]
    exact .failed _

theorem leaves_runUnpack {i : Instr} {w : Width} {s : State} (hjob : jobOf i = none)
    (hr : ∀ a, MayTurnResults s.res { s.res with res0 := a } i) : Leaves i s (runUnpack w s) :=
  .scalar false _ s.fresh hjob (hr _)

theorem leaves_execGeom (w : Width) (o : Orient) (zpen : Bool) (s : State) :
    ∃ t, execGeom w o zpen s = .next t ∧ Leaves (.geom w o zpen) s t := by
  rcases execGeom_cases w o zpen s with ⟨-, -, h⟩ | ⟨-, -, h⟩ | ⟨-, h⟩
  · exact ⟨_, h, .scalar false _ s.fresh rfl trivial⟩
  · exact ⟨_, h, .failed _⟩
  · exact ⟨_, h, .scalar true _ s.fresh rfl trivial⟩

theorem leaves_execNorm (w : Width) (s : State) : ∃ t, execNorm w s = .next t ∧ Leaves (.norm w) s t := by
  rcases execNorm_cases w s with ⟨-, h⟩ | ⟨-, a, b, -, h⟩ | ⟨-, -, h⟩
  · exact ⟨_, h, .failed _⟩
  · exact ⟨_, h, .scalar false _ s.fresh rfl ⟨a, b, rfl⟩⟩
  · exact ⟨_, h, .scalar false _ _ rfl ⟨_, _, rfl⟩⟩

/-- Every command answers a next state, in one of the ways of `Leaves`. -/
theorem exec_leaves (i : Instr) (s : State) : ∃ t, exec i s = .next t ∧ Leaves i s t := by
  cases i with
  | geom w o zpen => exact leaves_execGeom w o zpen s
  | norm w => exact leaves_execNorm w s
  | r2qS | r2qA => exact ⟨_, rfl, leaves_runRange rfl fun a b => ⟨a, b, rfl⟩⟩
  | packQ4 | packQ2 | packQ8 => exact ⟨_, rfl, leaves_runPack rfl fun a => ⟨a, rfl⟩⟩
  | unpackQ4 | unpackQ2 | unpackQ8 => exact ⟨_, rfl, leaves_runUnpack rfl fun a => ⟨a, rfl⟩⟩
  | qdqr => exact ⟨_, rfl, .failed .unimplemented⟩
  | _ => exact ⟨_, rfl, leaves_runBulk rfl s⟩

theorem leaves_of_exec {i : Instr} {s t : State} (h : exec i s = .next t) : Leaves i s t := by
  obtain ⟨u, hu, hleaves⟩ := exec_leaves i s
  obtain rfl : u = t := Host.Outcome.next.inj (hu.symm.trans h)
  exact hleaves

/-! ### What every command leaves alone -/

theorem Leaves.regs {i : Instr} {s t : State} (h : Leaves i s t) : t.regs = s.regs := by cases h <;> rfl

theorem Leaves.ctx {i : Instr} {s t : State} (h : Leaves i s t) : t.ctx = s.ctx := by cases h <;> rfl

theorem Leaves.agenda {i : Instr} {s t : State} (h : Leaves i s t) : t.agenda = s.agenda := by cases h <;> rfl

/-- A command is over or runs, and runs on only tile by tile. -/
theorem Leaves.phase {i : Instr} {s t : State} (h : Leaves i s t) :
    t.phase ≠ .idle ∧ (t.phase = .busy → s.grain = .tiled) := by
  cases h with
  | runs j hjob hpasses hgrain => exact ⟨by simp, fun _ => hgrain⟩
  | _ => simp

/-! ### Launches -/

/-- A write to `CMD` with no command running is a launch (R23). -/
theorem step_writeCmd {s : State} {rest : List Event} {w : Word} (hagenda : s.agenda = .writeReg 0 w :: rest)
    (hidle : s.phase ≠ .busy) : step s = launch w { s with agenda := rest } := by
  simp [step, nextMove, hagenda, perform, hostWriteReg, hidle]

theorem launch_of_decode {w : Word} {i : Instr} (hw : decode w = .ok i) (s : State) :
    launch w s = exec i (latch w s) := by
  simp [launch, hw]

end Sys2Proof.Machine

namespace Sys2Proof.Proofs

open Sys2Proof.Machine

/-- Settles O55, by the ways a command can go. -/
theorem otherResultsAreKept : Obligations.OtherResultsAreKept := by
  intro i s t hexec
  cases leaves_of_exec hexec with
  | failed e => simp
  | scalar b r n hjob hr =>
    exact ⟨fun h => absurd hjob h, fun hgeom => hr.sameUpper hgeom, fun w hi => hr.res1 hi, fun _ => rfl⟩
  | bulk j b cells n hjob hcells => simp [hjob]
  | runs j hjob hpasses hgrain => simp

/-- Settles O4: a launch of a word that decodes runs its command on the latched state. -/
theorem stepRunsTheDecodedCommand : Obligations.StepRunsTheDecodedCommand := by
  intro s rest w i hagenda hidle hw
  exact ⟨(step_writeCmd hagenda hidle).trans (launch_of_decode hw _), rfl⟩

/-- Settles O5: no command touches the registers, the context or the agenda that the launch has set. -/
theorem writingCmdLaunches : Obligations.WritingCmdLaunches := by
  intro s rest w hagenda hidle
  rw [step_writeCmd hagenda hidle]
  rcases launch_cases w { s with agenda := rest } with ⟨i, hw, hlaunch⟩ | ⟨e, hw, hlaunch⟩
  · obtain ⟨t, ht, hleaves⟩ := exec_leaves i (latch w { s with agenda := rest })
    have hregs : t.regs = { s.regs with cmd := w } := hleaves.regs
    obtain ⟨hover, hruns⟩ := hleaves.phase
    refine ⟨t, hlaunch.trans ht, hregs, congrArg HostRegs.cmd hregs, hleaves.ctx.trans hregs.symm, hleaves.agenda,
      hover, hruns, fun i' hw' => ?_, fun e hw' => ?_⟩
    · obtain rfl : i = i' := Except.ok.inj (hw.symm.trans hw')
      exact ht
    · simp [hw] at hw'
  · refine ⟨_, hlaunch, rfl, rfl, rfl, rfl, by simp, by simp, fun i hw' => ?_, fun e' _ => rfl⟩
    simp [hw] at hw'

end Sys2Proof.Proofs
end

section
/-! A running command taken on by one tile (R36): what the step does to the tile, to the others and to memory. The
invariant and the statement about pending tiles both rest on it. -/

namespace Sys2Proof.Machine

/-! ### Parts that do not all exist -/

theorem collect_eq_none_of_mem {α β : Type} {f : α → Option β} {l : List α} {a : α} (ha : a ∈ l)
    (hf : f a = none) : collect f l = none := by
  cases h : collect f l with
  | none => rfl
  | some r =>
    obtain ⟨b, -, hb⟩ := collect_of_mem h ha
    simp [hf] at hb

theorem exists_of_collect_eq_none {α β : Type} {f : α → Option β} {l : List α} (h : collect f l = none) :
    ∃ a ∈ l, f a = none := by
  induction l with
  | nil => simp at h
  | cons a l ih =>
    rw [collect_cons] at h
    cases hfa : f a with
    | none => exact ⟨a, by simp, hfa⟩
    | some b =>
      cases hl : collect f l with
      | none =>
        obtain ⟨a', ha', hf⟩ := ih hl
        exact ⟨a', List.mem_cons_of_mem _ ha', hf⟩
      | some bs => simp [hfa, hl] at h

/-- A tile whose elements cannot all be read has no result (R178). -/
theorem quantTileCells_of_readBuffer_eq_none {q : QuantMode} {m : Memory} {t : QuantTile}
    (h : readBuffer q m t = none) : quantTileCells q (elemRead q.et m) t = none := by
  obtain ⟨a, ha, hread⟩ := exists_of_collect_eq_none h
  obtain ⟨b, hb, ha⟩ := List.mem_flatMap.mp ha
  have hparam : blockParam q (elemRead q.et m) b = none := by
    simp [blockParam, collect_eq_none_of_mem ha (Option.map_eq_none_iff.mp hread)]
  simp [quantTileCells, collect_eq_none_of_mem hb hparam]

/-! ### The stages of a tile -/

theorem firstStage_of_quant {j : Job} {c : HostRegs} {t : Tile} {qt : QuantTile} (h : jobWork j c t = .quant qt) :
    Claim.firstStage j = .params := by
  cases j with
  | dqt | lunpack => simp [jobWork] at h
  | _ => rfl

theorem firstStage_of_deq {j : Job} {c : HostRegs} {t : Tile} {l : List DeqElem} (h : jobWork j c t = .deq l) :
    Claim.firstStage j = .codes := by
  cases j with
  | qt | qdqc | lpack => simp [jobWork] at h
  | _ => rfl

theorem tile_ne_of_mem_endTile {t : Tile} {s : State} {g : InFlight} (hg : g ∈ (endTile t s).flight) :
    g.tile ≠ t := by
  simpa using (List.mem_filter.mp hg).2

theorem eq_of_mem_updateFlight {f g : InFlight} {s : State} (hg : g ∈ (updateFlight f s).flight)
    (htile : g.tile = f.tile) : g = f := by
  obtain ⟨h, -, rfl⟩ := List.mem_map.mp hg
  split at htile
  · next heq => exact if_pos heq
  · next hne => exact absurd htile hne

/-- A tile that is still in flight after its step is at its next stage. -/
theorem nextStage_of_mem_advanceTile {j : Job} {f g : InFlight} {s : State} (hg : g ∈ (advanceTile j f s).flight)
    (htile : g.tile = f.tile) : Claim.nextStage f.stage = some g.stage := by
  have ended {u : State} (hu : g ∈ (endTile f.tile u).flight) : Claim.nextStage f.stage = some g.stage :=
    absurd htile (tile_ne_of_mem_endTile hu)
  unfold advanceTile at hg
  split at hg
  · split at hg
    · next hstage =>
      unfold stageParams at hg
      split at hg
      · exact ended hg
      · split at hg
        · exact ended hg
        · rw [eq_of_mem_updateFlight hg htile, hstage]; rfl
    · next hstage =>
      rw [eq_of_mem_updateFlight hg htile, hstage]; rfl
    · next hstage =>
      unfold stageRecips at hg
      split at hg
      · exact ended hg
      · rw [eq_of_mem_updateFlight hg htile, hstage]; rfl
    · unfold stageCodes at hg
      split at hg
      · exact ended hg
      · exact ended hg
  · unfold stageDequantize at hg
    split at hg
    · exact ended hg
    · exact ended hg

/-! ### A tile taken on -/

/-- The state `u` is `s` with tile `t` gone on by one step, and with bytes written only in the buffers that the command
writes. -/
def TileStep (j : Job) (t : Tile) (s u : State) : Prop :=
  ∃ cells pending flight, u = { s with mem := writeCells s.mem cells, pending := pending, flight := flight } ∧
    Claim.GoesOn j t s pending flight ∧ ∀ x ∈ cells, inWritten (jobExtents j s.ctx) x.1 = true

/-- The tile has a worker, or one is free for it. -/
def HasWorker (s : State) (t : Tile) : Prop :=
  (∃ f ∈ s.flight, f.tile = t) ∨ s.flight.length < s.plat.workers

theorem tileStep_startTile {j : Job} {t : Tile} {s : State} (hidle : ∀ f ∈ s.flight, f.tile ≠ t) :
    TileStep j t s (startTile j t s) := by
  unfold startTile
  split
  · next qt hwork =>
    split
    · exact ⟨[], _, _, rfl, .begun _ hidle rfl (firstStage_of_quant hwork).symm rfl rfl, by simp⟩
    · next hbuffer =>
      have hnone : jobTileCells j s.ctx s.mem t = none := by
        simpa only [jobTileCells, hwork, tileCells] using quantTileCells_of_readBuffer_eq_none hbuffer
      exact ⟨[], _, _, rfl, .ended (.inr hnone) rfl rfl, by simp⟩
  · next l hwork =>
    exact ⟨[], _, _, rfl, .begun _ hidle rfl (firstStage_of_deq hwork).symm rfl rfl, by simp⟩

theorem tileStep_advanceTile {j : Job} {f : InFlight} {s : State} (hf : f ∈ s.flight)
    (htile : f.tile ∈ jobTiles j s.ctx) : TileStep j f.tile s (advanceTile j f s) := by
  obtain ⟨cells, htargets, hstep⟩ := advanceTile_cases j f s
  have hcells : ∀ x ∈ cells, inWritten (jobExtents j s.ctx) x.1 = true := fun x hx =>
    inWritten_of_target htile (htargets x hx)
  rcases hstep with h | ⟨g, hg, h⟩
  · exact ⟨cells, _, _, h, .ended (.inl ⟨f, hf, rfl⟩) rfl rfl, hcells⟩
  · have hmem : g ∈ (advanceTile j f s).flight := by
      rw [h]
      exact List.mem_map.mpr ⟨f, hf, if_pos hg.symm⟩
    refine ⟨cells, _, _, h, .advanced f g hf rfl hg (nextStage_of_mem_advanceTile hmem hg) rfl ?_, hcells⟩
    simp only [hg]

theorem tileStep_workOn {j : Job} {t : Tile} {s : State} (ht : t ∈ jobTiles j s.ctx) (hworker : HasWorker s t) :
    TileStep j t s (workOn j t s) := by
  unfold workOn
  cases hfind : s.flight.find? (fun f => f.tile == t) with
  | some f =>
    obtain rfl : f.tile = t := by simpa using List.find?_some hfind
    exact tileStep_advanceTile (List.mem_of_find?_eq_some hfind) ht
  | none =>
    have hidle : ∀ f ∈ s.flight, f.tile ≠ t := by simpa using hfind
    have hfree : s.flight.length < s.plat.workers := hworker.resolve_left fun ⟨f, hf, heq⟩ => hidle f hf heq
    simp only [hfree, if_true]
    exact tileStep_startTile hidle

/-- With no worker for the tile, the tile begun first goes on (assumption 22). -/
theorem tileStep_workOn_of_not_hasWorker {j : Job} {t : Tile} {s : State} {f : InFlight} {more : List InFlight}
    (hflight : s.flight = f :: more) (hworker : ¬ HasWorker s t) (htile : f.tile ∈ jobTiles j s.ctx) :
    TileStep j f.tile s (workOn j t s) := by
  obtain ⟨hidle, hbusy⟩ := not_or.mp hworker
  have hfind : s.flight.find? (fun f => f.tile == t) = none := by simpa using hidle
  have hfirst : workOn j t s = advanceTile j f s := by
    simp only [workOn, hfind, hbusy, if_false]
    rw [hflight]
  rw [hfirst]
  exact tileStep_advanceTile (by simp [hflight]) htile

end Sys2Proof.Machine
end

section
/-! The invariant of Safety.lean: what each kind of step does to it, and that it holds at reset. -/

namespace Sys2Proof.Machine

/-! ### No command runs -/

theorem inv_of_not_busy {s : State} (hphase : s.phase ≠ .busy) (hplat : s.plat.legal = true) (hstatus : StatusLegal s)
    (htiles : s.pending = [] ∧ s.flight = [] ∧ s.spoiled = false ∧ s.launchMem = []) (hwf : memWf s.mem)
    (hbounded : memBounded s.mem s.plat.memBytes) : Inv s := by
  obtain ⟨hpending, hflight, -, hlaunch⟩ := id htiles
  refine ⟨hplat, hstatus, ⟨fun _ => htiles, ?_⟩, fun hbusy => absurd hbusy hphase, hwf, hbounded, ?_⟩
  · simp [hpending, hflight]
  · simp [hlaunch]

theorem inv_complete {s : State} (b : Bool) (hplat : s.plat.legal = true) (hwf : memWf s.mem)
    (hbounded : memBounded s.mem s.plat.memBytes) : Inv (complete b s) :=
  inv_of_not_busy (by simp) hplat (by simp [StatusLegal]) (by simp) hwf hbounded

theorem inv_raiseError {s : State} (e : CmdError) (hplat : s.plat.legal = true) (hwf : memWf s.mem)
    (hbounded : memBounded s.mem s.plat.memBytes) : Inv (raiseError e s) :=
  inv_of_not_busy (by simp) hplat (by simp [StatusLegal]) (by simp) hwf hbounded

/-! ### The extents of a running command -/

theorem contextJob_of_decode {c : HostRegs} {i : Instr} (h : decode c.cmd = .ok i) : contextJob c = jobOf i := by
  simp [contextJob, h]

theorem runningExtents_of_busy {s : State} {j : Job} (hbusy : s.phase = .busy) (hjob : contextJob s.ctx = some j) :
    runningExtents s = jobExtents j s.ctx := by
  simp [runningExtents, hbusy, hjob]

theorem runningExtents_of_not_busy {s : State} (h : s.phase ≠ .busy) : runningExtents s = [] := if_neg h

/-- What the invariant says of the command that runs. -/
theorem Inv.running {s : State} {j : Job} (h : Inv s) (hbusy : s.phase = .busy) (hjob : contextJob s.ctx = some j) :
    jobError j s.ctx s.plat.memBytes = none ∧ (∀ t ∈ s.pending, t ∈ jobTiles j s.ctx) ∧
      (s.spoiled = false → jobResult j s.ctx s.launchMem ≠ none) := by
  obtain ⟨-, j', hjob', -, herr, htiles, hresult⟩ := h.context hbusy
  obtain rfl : j' = j := Option.some.inj (hjob'.symm.trans hjob)
  exact ⟨herr, htiles, hresult⟩

/-- The buffers of a running command have only addresses that exist. -/
theorem Inv.lt_of_inWritten {s : State} {a : Nat} (h : Inv s) (ha : inWritten (runningExtents s) a = true) :
    a < s.plat.memBytes := by
  by_cases hbusy : s.phase = .busy
  · obtain ⟨-, j, hjob, -, herr, -⟩ := h.context hbusy
    obtain ⟨-, -, hfit⟩ := jobError_eq_none herr
    rw [runningExtents_of_busy hbusy hjob] at ha
    exact Machine.lt_of_inWritten hfit ha
  · simp [runningExtents_of_not_busy hbusy, inWritten] at ha

/-- Freeing the outputs of the running command lists only addresses that exist. -/
theorem Inv.memBounded_freeOutputs {s : State} (h : Inv s) (n : Nat) :
    memBounded (writeCells s.mem (freeOutputs n (runningExtents s))) s.plat.memBytes := by
  obtain ⟨-, hbounded, -, -⟩ := h.memory
  exact memBounded_writeCells hbounded fun x hx => h.lt_of_inWritten (inWritten_of_mem_freeOutputs hx)

/-! ### Launches -/

theorem nodup_tileGrid (rows cols : Nat) : (tileGrid rows cols).Nodup := by
  refine List.nodup_flatMap.mpr ⟨fun r _ => List.nodup_range.map fun a b h => congrArg Tile.c h, ?_⟩
  refine List.nodup_range.imp fun {r r'} hne t ht ht' => ?_
  obtain ⟨k, -, rfl⟩ := List.mem_map.mp ht
  obtain ⟨k', -, heq⟩ := List.mem_map.mp ht'
  exact hne (congrArg Tile.r heq).symm

theorem nodup_jobTiles (j : Job) (c : HostRegs) : (jobTiles j c).Nodup := by
  cases j <;> exact nodup_tileGrid _ _

theorem inv_dispatchTiles {j : Job} {s : State} (hplat : s.plat.legal = true) (hctx : s.ctx = s.regs)
    (hjob : contextJob s.ctx = some j) (hpasses : Passes j s) (hwf : memWf s.mem)
    (hbounded : memBounded s.mem s.plat.memBytes) : Inv (dispatchTiles j s) := by
  obtain ⟨hempty, herr⟩ := hpasses
  exact
    { platform := hplat
      status := by simp [StatusLegal]
      tiles := ⟨by simp, nodup_jobTiles j s.ctx, by simp⟩
      context := fun _ => ⟨hctx, j, hjob, hempty, herr, fun t ht => ht,
        fun hspecified => Option.isSome_iff_ne_none.mp (by simpa using hspecified)⟩
      memory := ⟨hwf, hbounded, hwf, hbounded⟩ }

theorem inv_of_leaves {i : Instr} {s t : State} (hleaves : Leaves i s t) (hplat : s.plat.legal = true)
    (hctx : s.ctx = s.regs) (hjob : contextJob s.ctx = jobOf i) (hwf : memWf s.mem)
    (hbounded : memBounded s.mem s.plat.memBytes) : Inv t := by
  cases hleaves with
  | failed e => exact inv_raiseError e hplat hwf hbounded
  | scalar b r n _ _ => exact inv_complete b hplat hwf hbounded
  | bulk j b cells n _ hcells =>
    exact inv_complete b hplat (memWf_writeCells hwf cells) (memBounded_writeCells hbounded hcells)
  | runs j hj hpasses _ => exact inv_dispatchTiles hplat hctx (hjob.trans hj) hpasses hwf hbounded

theorem inv_launch {w : Word} {s t : State} (h : Inv s) (hlaunch : launch w s = .next t) : Inv t := by
  obtain ⟨hwf, hbounded, -, -⟩ := h.memory
  rcases launch_cases w s with ⟨i, hw, hexec⟩ | ⟨e, -, herr⟩
  · exact inv_of_leaves (leaves_of_exec (hexec.symm.trans hlaunch)) h.platform rfl
      (contextJob_of_decode (c := (latch w s).ctx) hw) hwf hbounded
  · obtain rfl := Host.Outcome.next.inj (herr.symm.trans hlaunch)
    exact inv_raiseError (s := latch w s) _ h.platform hwf hbounded

/-! ### The running command goes on -/

/-- Tiles that are a set, every one of them in flight pending, and no more in flight than there are workers. -/
structure TilesOf (s : State) (pending : List Tile) (flight : List InFlight) : Prop where
  subset : ∀ t ∈ pending, t ∈ s.pending
  nodup : pending.Nodup
  nodupFlight : (flight.map InFlight.tile).Nodup
  isPending : ∀ f ∈ flight, f.tile ∈ pending
  workers : flight.length ≤ s.plat.workers

theorem tilesOf_goesOn {j : Job} {t : Tile} {s : State} {pending : List Tile} {flight : List InFlight}
    (h : TilesLegal s) (ht : t ∈ s.pending) (hworker : HasWorker s t)
    (hgo : Claim.GoesOn j t s pending flight) : TilesOf s pending flight := by
  obtain ⟨-, hnodup, hflight, hpending, hlength⟩ := h
  cases hgo with
  | begun g hidle htile _ hsame hentries =>
    subst htile hsame hentries
    have hfree : s.flight.length < s.plat.workers := hworker.resolve_left fun ⟨f, hf, heq⟩ => hidle f hf heq
    refine ⟨fun _ h => h, hnodup, ?_, ?_, by simpa using hfree⟩
    · simpa [List.nodup_append, hflight] using hidle
    · simpa [or_imp, forall_and, ht] using hpending
  | advanced f g _ _ hafter _ hsame hentries =>
    subst hafter hsame hentries
    have htile (x : InFlight) : (if x.tile = g.tile then g else x).tile = x.tile := by
      split
      · next h => exact h.symm
      · rfl
    refine ⟨fun _ h => h, hnodup, ?_, ?_, by simpa using hlength⟩
    · simpa [List.map_map, Function.comp_def, htile] using hflight
    · simpa [htile] using hpending
  | ended _ hrest hentries =>
    subst hrest hentries
    refine ⟨fun u hu => (List.mem_filter.mp hu).1, hnodup.filter _, ?_, ?_, ?_⟩
    · exact hflight.sublist (List.filter_sublist.map _)
    · intro f hf
      obtain ⟨hf, hne⟩ := List.mem_filter.mp hf
      exact List.mem_filter.mpr ⟨hpending f hf, hne⟩
    · exact (List.length_filter_le _ _).trans hlength

theorem inv_of_tileStep {j : Job} {t : Tile} {s u : State} (h : Inv s) (hbusy : s.phase = .busy)
    (hjob : contextJob s.ctx = some j) (ht : t ∈ s.pending) (hworker : HasWorker s t) (hstep : TileStep j t s u) :
    Inv u := by
  obtain ⟨cells, pending, flight, rfl, hgo, hcells⟩ := hstep
  obtain ⟨hwf, hbounded, hlaunch⟩ := h.memory
  have htiles := tilesOf_goesOn h.tiles ht hworker hgo
  obtain ⟨hregs, j', hjob', hempty, herr, hgrid, hresult⟩ := h.context hbusy
  have hexists : ∀ x ∈ cells, x.1 < s.plat.memBytes := fun x hx =>
    h.lt_of_inWritten (by rw [runningExtents_of_busy hbusy hjob]; exact hcells x hx)
  exact
    { platform := h.platform
      status := h.status
      tiles := ⟨fun hidle => absurd hbusy hidle, htiles.nodup, htiles.nodupFlight, htiles.isPending, htiles.workers⟩
      context := fun _ => ⟨hregs, j', hjob', hempty, herr, fun u hu => hgrid u (htiles.subset u hu), hresult⟩
      memory := ⟨memWf_writeCells hwf cells, memBounded_writeCells hbounded hexists, hlaunch⟩ }

theorem Inv.workers_pos {s : State} (h : Inv s) : 0 < s.plat.workers := by
  have hplat := h.platform
  simp only [Platform.legal, Bool.and_eq_true, decide_eq_true_eq] at hplat
  omega

/-- A pending tile without a worker waits for the tiles in flight, and there is one. -/
theorem Inv.exists_flight {s : State} {t : Tile} (h : Inv s) (hworker : ¬ HasWorker s t) :
    ∃ f more, s.flight = f :: more := by
  obtain ⟨-, hbusy⟩ := not_or.mp hworker
  have hpos := h.workers_pos
  exact List.exists_cons_of_length_pos (by omega)

theorem inv_workOn {j : Job} {t : Tile} {s : State} (h : Inv s) (hbusy : s.phase = .busy)
    (hjob : contextJob s.ctx = some j) (ht : t ∈ s.pending) : Inv (workOn j t s) := by
  obtain ⟨-, hgrid, -⟩ := h.running hbusy hjob
  by_cases hworker : HasWorker s t
  · exact inv_of_tileStep h hbusy hjob ht hworker (tileStep_workOn (hgrid t ht) hworker)
  · obtain ⟨f, more, hflight⟩ := h.exists_flight hworker
    obtain ⟨-, -, -, hpending, -⟩ := h.tiles
    have hf : f ∈ s.flight := by simp [hflight]
    exact inv_of_tileStep h hbusy hjob (hpending f hf) (.inl ⟨f, hf, rfl⟩)
      (tileStep_workOn_of_not_hasWorker hflight hworker (hgrid _ (hpending f hf)))

theorem inv_finish {s : State} (h : Inv s) : Inv (finish s) := by
  obtain ⟨hwf, hbounded, -, -⟩ := h.memory
  rcases finish_cases s with ⟨-, heq⟩ | ⟨-, heq⟩
  · rw [heq]
    exact inv_complete false h.platform (memWf_writeCells hwf _) (h.memBounded_freeOutputs s.fresh)
  · rw [heq]
    exact inv_complete false h.platform hwf hbounded

theorem inv_progress {s : State} (h : Inv s) (k : Nat) : Inv (progress k s) := by
  rcases progress_cases k s with ⟨-, heq⟩ | ⟨-, -, heq⟩ | ⟨hbusy, j, hjob, t, ht, heq⟩ | ⟨-, -, -, heq⟩
  · rwa [heq]
  · exact heq ▸ inv_finish h
  · exact heq ▸ inv_workOn h hbusy hjob ht
  · rwa [heq]

/-! ### The moves of the host -/

/-- The invariant says nothing of the agenda, of what the host has read and of the count of free values. -/
theorem Inv.withHost {s : State} (h : Inv s) (agenda : List Event) (readback : List HostRead) (fresh : Nat) :
    Inv { s with agenda := agenda, readback := readback, fresh := fresh } :=
  ⟨h.platform, h.status, h.tiles, h.context, h.memory⟩

theorem inv_hostReadReg {s : State} (h : Inv s) (i : Fin 32) : Inv (hostReadReg i s) := h.withHost _ _ s.fresh

theorem inv_hostWriteReg {i : Fin 32} {v : Word} {s t : State} (h : Inv s) (hstep : hostWriteReg i v s = .next t) :
    Inv t := by
  rcases hostWriteReg_cases i v s with ⟨-, heq⟩ | ⟨-, -, heq⟩ | ⟨hidle, -, heq⟩
  · exact Host.Outcome.next.inj (heq.symm.trans hstep) ▸ h
  · exact inv_launch h (heq.symm.trans hstep)
  · obtain rfl := Host.Outcome.next.inj (heq.symm.trans hstep)
    exact ⟨h.platform, h.status, h.tiles, fun hbusy => absurd hbusy hidle, h.memory⟩

theorem mem_byteCells {a : Nat} {bytes : List Byte} {x : Host.Cell} (hx : x ∈ byteCells a bytes) :
    a ≤ x.1 ∧ x.1 < a + bytes.length := by
  induction bytes generalizing a with
  | nil => simp [byteCells] at hx
  | cons b bytes ih =>
    rw [List.length_cons]
    rcases List.mem_cons.mp hx with rfl | hx
    · simp
    · have hrest := ih hx
      omega

theorem inv_hostWriteMem {a : Nat} {bytes : List Byte} {s : State} (h : Inv s)
    (hrange : rangeExists s a bytes.length = true) : Inv (hostWriteMem a bytes s) := by
  obtain ⟨hwf, hbounded, hlaunch⟩ := h.memory
  obtain ⟨hidle, htiles⟩ := h.tiles
  have hexists : ∀ x ∈ byteCells a bytes, x.1 < s.plat.memBytes := by
    intro x hx
    have hx := mem_byteCells hx
    simp only [rangeExists, Bool.or_eq_true, beq_iff_eq, decide_eq_true_eq] at hrange
    omega
  have hspoiled : (hostWriteMem a bytes s).spoiled = false → s.spoiled = false := by
    simp only [← Bool.not_eq_true, hostWriteMem_spoiled]
    exact fun hnot hs => hnot (.inl hs)
  have huntouched (hphase : s.phase ≠ .busy) : (hostWriteMem a bytes s).spoiled = s.spoiled := by
    simp [hostWriteMem, runningExtents_of_not_busy hphase]
  refine ⟨h.platform, h.status, ⟨fun hphase => ?_, htiles⟩, fun hbusy => ?_,
    memWf_writeCells hwf _, memBounded_writeCells hbounded hexists, hlaunch⟩
  · rw [huntouched hphase]
    exact hidle hphase
  · obtain ⟨hregs, j, hjob, hempty, herr, hgrid, hresult⟩ := h.context hbusy
    exact ⟨hregs, j, hjob, hempty, herr, hgrid, fun hs => hresult (hspoiled hs)⟩

theorem inv_resetEvent {s : State} (h : Inv s) : Inv (resetEvent s) := by
  obtain ⟨hwf, -⟩ := h.memory
  exact inv_of_not_busy (by simp) h.platform (by simp [StatusLegal]) (by simp) (memWf_writeCells hwf _)
    (h.memBounded_freeOutputs s.fresh)

theorem inv_hostWait {s : State} (h : Inv s) : Inv (hostWait s) := by
  rcases hostWait_cases s with ⟨-, heq⟩ | ⟨-, heq⟩
  · exact heq ▸ inv_hostReadReg h 1
  · exact heq ▸ (inv_progress (inv_hostReadReg h 1) 0).withHost _ _ _

theorem inv_perform {e : Event} {s t : State} (h : Inv s) (hstep : perform e s = .next t) : Inv t := by
  cases e with
  | writeReg i v => exact inv_hostWriteReg h hstep
  | readReg i => exact Host.Outcome.next.inj hstep ▸ inv_hostReadReg h i
  | writeMem a bytes =>
    simp only [perform] at hstep
    split at hstep
    · next hrange => exact Host.Outcome.next.inj hstep ▸ inv_hostWriteMem h hrange
    · cases hstep
  | readMem a n =>
    simp only [perform] at hstep
    split at hstep
    · exact Host.Outcome.next.inj hstep ▸ h.withHost _ _ _
    · cases hstep
  | wait => exact Host.Outcome.next.inj hstep ▸ inv_hostWait h
  | reset => exact Host.Outcome.next.inj hstep ▸ inv_resetEvent h
  | worker k => exact Host.Outcome.next.inj hstep ▸ inv_progress h k

end Sys2Proof.Machine

namespace Sys2Proof.Proofs

open Sys2Proof.Machine

/-- Settles O57: a step is the running command going on or a move of the agenda, and each keeps the invariant. -/
theorem everyStepKeepsTheInvariant : Obligations.EveryStepKeepsTheInvariant := by
  intro s t h hstep
  rcases step_cases s with ⟨-, heq⟩ | ⟨e, rest, -, heq⟩
  · exact Host.Outcome.next.inj (heq.symm.trans hstep) ▸ inv_progress h 0
  · exact inv_perform (h.withHost rest s.readback s.fresh) (heq.symm.trans hstep)

/-- Settles O58. -/
theorem resetHasTheInvariant : Obligations.ResetHasTheInvariant :=
  inv_of_not_busy (by simp [State.reset]) (by decide) (by simp [StatusLegal, State.reset]) (by simp [State.reset])
    memWf_reset (by simp [State.reset])

end Sys2Proof.Proofs
end

section
/-! The choice of the tile that goes on next (R36): every pending tile has a number that a worker event can name. -/

namespace Sys2Proof.Machine

theorem progress_eq_workOn {s : State} {j : Job} {t : Tile} {k : Nat} (hbusy : s.phase = .busy)
    (hjob : contextJob s.ctx = some j) (hk : s.pending[k]? = some t) : progress k s = workOn j t s := by
  obtain ⟨hlt, hget⟩ := List.getElem?_eq_some_iff.mp hk
  unfold progress
  rw [if_pos hbusy, hjob]
  cases hpending : s.pending with
  | nil => simp [hpending] at hlt
  | cons u rest =>
    simp only [hpending, List.length_cons] at hlt hk
    simp [Nat.mod_eq_of_lt hlt, List.getD_eq_getElem?_getD, hk]

theorem takesOn_of_tileStep {j : Job} {t : Tile} {s u : State} (h : Inv s) (hbusy : s.phase = .busy)
    (hjob : contextJob s.ctx = some j) (hstep : TileStep j t s u) : Claim.TakesOn j t s (.next u) := by
  obtain ⟨cells, pending, flight, rfl, hgo, hcells⟩ := hstep
  obtain ⟨hwf, -⟩ := h.memory
  refine ⟨_, pending, flight, rfl, hgo, fun a ha => readByte_writeCells_of_not_mem hwf ?_⟩
  rintro x hx rfl
  rw [runningExtents_of_busy hbusy hjob, hcells x hx] at ha
  cases ha

end Sys2Proof.Machine

namespace Sys2Proof.Proofs

open Sys2Proof.Machine

/-- Settles O51: the choice is the tile's place among the pending ones. -/
theorem anyPendingTileMayGoNext : Obligations.AnyPendingTileMayGoNext := by
  intro s j t h hbusy hjob ht
  obtain ⟨k, hk⟩ := List.mem_iff_getElem?.mp ht
  obtain ⟨-, hgrid, -⟩ := h.running hbusy hjob
  refine ⟨k, fun rest => ?_⟩
  have hinv : Inv { s with agenda := rest } := h.withHost rest s.readback s.fresh
  have hstep : step { s with agenda := .worker k :: rest } = .next (workOn j t { s with agenda := rest }) :=
    congrArg _ (progress_eq_workOn (s := { s with agenda := rest }) hbusy hjob hk)
  rw [hstep]
  refine ⟨fun hworker => ?_, fun f more hflight hidle hfull => ?_⟩
  · exact takesOn_of_tileStep hinv hbusy hjob (tileStep_workOn (hgrid t ht) hworker)
  · obtain ⟨-, -, -, hpending, -⟩ := h.tiles
    have hworker : ¬ HasWorker { s with agenda := rest } t :=
      not_or.mpr ⟨fun ⟨g, hg, heq⟩ => hidle g hg heq, Nat.not_lt.mpr hfull⟩
    exact takesOn_of_tileStep hinv hbusy hjob
      (tileStep_workOn_of_not_hasWorker hflight hworker (hgrid _ (hpending f (by simp [hflight]))))

end Sys2Proof.Proofs
end

section
/-! `STATUS` as the host reads it (R24, R330), and what reset leaves (R39). -/

namespace Sys2Proof.Machine

theorem phaseCode_lt (p : Phase) : phaseCode p < 4 := by cases p <;> decide

theorem errField_lt (e : Option CmdError) : errField e < 16 := by
  cases e with
  | none => decide
  | some e => cases e <;> decide

theorem toNat_append_eq_add {n m : Nat} (x : BitVec n) (y : BitVec m) :
    (x ++ y).toNat = x.toNat * 2 ^ m + y.toNat := by
  rw [BitVec.toNat_append, ← Nat.shiftLeft_add_eq_or_of_lt y.isLt, Nat.shiftLeft_eq]

/-- The fields of `STATUS` stand side by side, so its value is their sum (R24). -/
theorem statusWord_toNat (s : State) :
    (statusWord s).toNat = phaseCode s.phase + (if s.empty = true then 4 else 0) + 16 * errField s.err := by
  have hphase := phaseCode_lt s.phase
  have herr := errField_lt s.err
  unfold statusWord
  simp only [toNat_append_eq_add, BitVec.toNat_ofNat, BitVec.toNat_ofBool]
  cases s.empty <;> simp <;> omega

/-- What the host reads in slot 1 is the sum of the fields. -/
theorem readSlot_status_eq {s : State} {v : Word}
    (h : phaseCode s.phase + (if s.empty = true then 4 else 0) + 16 * errField s.err = v.toNat) :
    readSlot s 1 = v :=
  BitVec.eq_of_toNat_eq ((statusWord_toNat s).trans h)

end Sys2Proof.Machine

namespace Sys2Proof.Proofs

open Sys2Proof.Machine

/-- Settles O9: each outcome fixes the three fields of `STATUS`. -/
theorem statusAfterEachOutcome : Obligations.StatusAfterEachOutcome :=
  ⟨statusWord_toNat, fun _ => readSlot_status_eq rfl, fun _ => readSlot_status_eq rfl,
    fun _ => readSlot_status_eq rfl, fun _ => readSlot_status_eq rfl, fun _ => readSlot_status_eq rfl,
    fun _ => readSlot_status_eq rfl, fun _ => readSlot_status_eq rfl, fun _ => readSlot_status_eq rfl,
    fun _ _ => readSlot_status_eq rfl, readSlot_status_eq rfl⟩

/-- Settles O10. -/
theorem resetState : Obligations.ResetState :=
  ⟨by decide, rfl, rfl, rfl, rfl, rfl, rfl, fun _ => rfl⟩

end Sys2Proof.Proofs
end

section
/-! Buffer memory as the host and the commands see it: runs of bytes, multi-byte values (R60 to R62), and buffers that
share a byte (R67). -/

namespace Sys2Proof.Machine

/-! ### The host's moves -/

theorem step_of_agenda {s : State} {e : Event} {rest : List Event} (h : s.agenda = e :: rest) :
    step s = perform e { s with agenda := rest } := by
  unfold step nextMove
  rw [h]

theorem rangeExists_iff {s : State} {a n : Nat} : rangeExists s a n = true ↔ n = 0 ∨ a + n ≤ s.plat.memBytes := by
  simp [rangeExists]

theorem rangeExists_eq_false {s : State} {a n : Nat} (hn : n ≠ 0) (h : s.plat.memBytes < a + n) :
    rangeExists s a n = false := by
  rw [← Bool.not_eq_true, rangeExists_iff]
  omega

/-- With no command running a host write spoils nothing. -/
theorem hostWriteMem_of_not_busy {s : State} (h : s.phase ≠ .busy) (a : Nat) (bytes : List Byte) :
    hostWriteMem a bytes s = { s with mem := writeCells s.mem (byteCells a bytes) } := by
  simp [hostWriteMem, runningExtents_of_not_busy h]

/-- With no command running the host reads what stands in memory. -/
theorem hostReadByte_of_not_busy {s : State} (h : s.phase ≠ .busy) (a : Nat) : hostReadByte s a = readByte s.mem a := by
  simp [hostReadByte, runningExtents_of_not_busy h, inWritten]

theorem getElem?_span {a b k : Nat} (h : a + k < b) : (span a b)[k]? = some (a + k) := by
  simp [span, show k < b - a by omega]

/-! ### Runs of bytes -/

/-- The cells of a run: byte `k` at the `k`th address. -/
theorem mem_byteCells_iff {a : Nat} {bytes : List Byte} {x : Host.Cell} :
    x ∈ byteCells a bytes ↔ ∃ k b, bytes[k]? = some b ∧ x = (a + k, b) := by
  induction bytes generalizing a with
  | nil => simp [byteCells]
  | cons b bytes ih =>
    rw [byteCells, List.mem_cons, ih]
    constructor
    · rintro (rfl | ⟨k, b', hk, rfl⟩)
      · exact ⟨0, b, rfl, rfl⟩
      · exact ⟨k + 1, b', hk, by rw [Nat.add_assoc, Nat.add_comm 1]⟩
    · rintro ⟨k, b', hk, rfl⟩
      cases k with
      | zero => exact .inl (by simpa using hk.symm)
      | succ k => exact .inr ⟨k, b', hk, by rw [Nat.add_assoc, Nat.add_comm 1]⟩

/-- A written run reads back (R61). -/
theorem readByte_writeCells_byteCells {m : Memory} (h : memWf m) {a k : Nat} {bytes : List Byte} {b : Byte}
    (hk : bytes[k]? = some b) : readByte (writeCells m (byteCells a bytes)) (a + k) = b := by
  refine readByte_writeCells_of_mem h (mem_byteCells_iff.mpr ⟨k, b, hk, rfl⟩) fun x hx hax => ?_
  obtain ⟨k', b', hk', rfl⟩ := mem_byteCells_iff.mp hx
  obtain rfl : k' = k := Nat.add_left_cancel hax
  exact Option.some.inj (hk'.symm.trans hk)

/-! ### Multi-byte values -/

/-- The little-endian sum of R62. -/
theorem memRead_eq_sum (m : Memory) (a n : Nat) :
    memRead m a n = ((List.range n).map fun k => (readByte m (a + k)).toNat * 256 ^ k).sum := by
  induction n generalizing a with
  | zero => rfl
  | succ n ih =>
    rw [memRead, ih, List.range_succ_eq_map, List.map_cons, List.sum_cons, List.map_map, ← List.sum_map_mul_left]
    have hterm (k : Nat) : 256 * ((readByte m (a + 1 + k)).toNat * 256 ^ k) =
        (readByte m (a + (k + 1))).toNat * 256 ^ (k + 1) := by
      rw [Nat.add_assoc, Nat.add_comm 1 k, pow_succ]
      ring
    simp [Function.comp_def, hterm]

/-- Byte `k` of a stored value (R62). -/
theorem readByte_writeCells_wordCells {m : Memory} (h : memWf m) {a n v k : Nat} (hk : k < n) :
    readByte (writeCells m (wordCells a n v)) (a + k) = BitVec.ofNat 8 (v / 256 ^ k) := by
  refine readByte_writeCells_of_mem h (mem_wordCells_of_lt hk) fun x hx hax => ?_
  obtain ⟨k', -, rfl⟩ := mem_wordCells hx
  obtain rfl : k' = k := Nat.add_left_cancel hax
  rfl

/-! ### Buffers that share a byte -/

/-- The two halves of a clash: one of the buffers is written, and a byte lies in both. -/
theorem clash_eq_false_iff {x y : Extent} :
    clash x y = false ↔
      ((x.written = true ∨ y.written = true) → ∀ a, ¬ (inExtent x a = true ∧ inExtent y a = true)) := by
  have hshare : intersects x y = true ↔ ∃ a, inExtent x a = true ∧ inExtent y a = true := by
    simp only [intersects, inExtent, Bool.and_eq_true, bne_iff_ne, decide_eq_true_eq]
    constructor
    · intro h
      exact ⟨max x.base y.base, by omega⟩
    · rintro ⟨a, h⟩
      omega
  rw [← Bool.not_eq_true, clash, Bool.and_eq_true, Bool.or_eq_true, hshare, not_and', not_exists]

theorem anyClash_eq_false_iff {es : List Extent} :
    anyClash es = false ↔ es.Pairwise fun x y => clash x y = false := by
  induction es with
  | nil => simp [anyClash]
  | cons x es ih => simp [anyClash, ih]

end Sys2Proof.Machine

namespace Sys2Proof.Proofs

open Sys2Proof.Machine

/-- Settles O15: the range leaves memory, so the move is not performed. -/
theorem hostAddressOutsideMemoryFaults : Obligations.HostAddressOutsideMemoryFaults := by
  refine ⟨fun s rest a bytes hagenda hne hrange => ?_, fun s rest a n hagenda hne hrange => ?_⟩
  · have hout : rangeExists { s with agenda := rest } a.toNat bytes.length = false :=
      rangeExists_eq_false (List.length_pos_iff.mpr hne).ne' hrange
    simp [step_of_agenda hagenda, perform, hout]
  · have hout : rangeExists { s with agenda := rest } a.toNat n = false := rangeExists_eq_false hne hrange
    simp [step_of_agenda hagenda, perform, hout]

/-- Settles O13: with no command running a write is its run of bytes, and a read is what stands in memory. -/
theorem hostWritesAndReadsMemory : Obligations.HostWritesAndReadsMemory := by
  refine ⟨fun s rest a bytes hagenda hidle hwf hrange => ?_, fun s rest a n hagenda hidle hrange => ?_⟩
  · have hin : rangeExists { s with agenda := rest } a.toNat bytes.length = true := rangeExists_iff.mpr (.inr hrange)
    refine ⟨writeCells s.mem (byteCells a.toNat bytes), ?_, memWf_writeCells hwf _,
      fun k b hk => readByte_writeCells_byteCells hwf hk, fun x hx => readByte_writeCells_of_not_mem hwf ?_⟩
    · have hwrite := hostWriteMem_of_not_busy (s := { s with agenda := rest }) hidle a.toNat bytes
      simp [step_of_agenda hagenda, perform, hin, hwrite]
    · intro y hy
      have := mem_byteCells hy
      omega
  · have hin : rangeExists { s with agenda := rest } a.toNat n = true := rangeExists_iff.mpr (.inr hrange)
    have hread := hostReadByte_of_not_busy (s := { s with agenda := rest }) hidle
    refine ⟨hostReadMem a n { s with agenda := rest }, _, by simp [step_of_agenda hagenda, perform, hin], rfl, rfl,
      by simp, fun k hk => ?_⟩
    rw [List.getElem?_map, getElem?_span (by omega), Option.map_some, hread]

/-- Settles O14. -/
theorem littleEndianMemory : Obligations.LittleEndianMemory := by
  refine ⟨rfl, rfl, memRead_eq_sum, fun m a n v hwf => ⟨fun k hk => ?_, fun x hx => ?_, ?_⟩⟩
  · rw [readByte_writeCells_wordCells hwf hk, BitVec.toNat_ofNat]
  · refine readByte_writeCells_of_not_mem hwf fun y hy => ?_
    obtain ⟨k, hk, rfl⟩ := mem_wordCells hy
    simp only
    omega
  · exact memRead_of_bytes fun k hk => readByte_writeCells_wordCells hwf hk

/-- Settles O39: pair by pair a clash is a written buffer and a shared byte. -/
theorem clashMeansASharedByte : Obligations.ClashMeansASharedByte := by
  intro es
  rw [anyClash_eq_false_iff]
  simp only [clash_eq_false_iff]

end Sys2Proof.Proofs
end

section
/-! What the tiles of a bulk command read (R60): a tile's bytes depend on its sources only, and every source lies in a
buffer of the command that it does not write (R28). -/

namespace Sys2Proof.Machine

/-! ### The sources of a tile -/

/-- The byte a zero point is taken from, if there is one. -/
def IsZpSource : ZpSource → Nat → Prop
  | .implied, _ => False
  | .nibble x _, a => a = x
  | .byte x, a => a = x

/-- The addresses a tile reads: the elements of its blocks, or the codes, scales and zero points of its elements. -/
def IsSource (et : ElemType) : TileWork → Nat → Prop
  | .quant t, a => ∃ b ∈ t.blocks, ∃ x ∈ b.elems, x ≤ a ∧ a < x + esz et
  | .deq l, a => ∃ d ∈ l, a = d.codeAddr ∨ (d.scaleAddr ≤ a ∧ a < d.scaleAddr + esz et) ∨ IsZpSource d.zp a

/-- Every element that a packed byte of the tile codes is an element of a block of it. -/
def SlotsCovered (t : QuantTile) : Prop :=
  ∀ d ∈ t.dataBytes, ∀ x k, Slot.elem x k ∈ d.2 → ∃ b ∈ t.blocks, x ∈ b.elems

/-- The same of the work of a tile; a dequantizing tile codes nothing. -/
def WorkCovered : TileWork → Prop
  | .quant t => SlotsCovered t
  | .deq _ => True

/-! ### Equal sources, equal cells -/

theorem elemRead_congr {et : ElemType} {m m' : Memory} {x : Nat}
    (h : ∀ a, x ≤ a → a < x + esz et → readByte m a = readByte m' a) : elemRead et m x = elemRead et m' x :=
  congrArg (elemValue et) (memRead_congr fun k hk => h (x + k) (by omega) (by omega))

theorem blockParam_congr {q : QuantMode} {elem elem' : Nat → Option Flt} {b : Block}
    (h : ∀ x ∈ b.elems, elem x = elem' x) : blockParam q elem b = blockParam q elem' b := by
  rw [blockParam, blockParam, collect_congr h]

theorem slotValue_congr {q : QuantMode} {elem elem' : Nat → Option Flt} {rs : List Flt} {zacc : List Nat} {s : Slot}
    (h : ∀ x k, s = .elem x k → elem x = elem' x) : slotValue q elem rs zacc s = slotValue q elem' rs zacc s := by
  cases s with
  | elem x k => simp only [slotValue, h x k rfl]
  | zeroCode k => rfl
  | zeroPoint k => rfl

theorem dataCells_congr {q : QuantMode} {elem elem' : Nat → Option Flt} {rs : List Flt} {zacc : List Nat}
    {t : QuantTile} (hcov : SlotsCovered t) (h : ∀ b ∈ t.blocks, ∀ x ∈ b.elems, elem x = elem' x) :
    dataCells q elem rs zacc t = dataCells q elem' rs zacc t := by
  refine collect_congr fun d hd => ?_
  unfold dataCell
  rw [collect_congr fun s hs => slotValue_congr fun x k hx => ?_]
  subst hx
  obtain ⟨b, hb, hx⟩ := hcov d hd x k hs
  exact h b hb x hx

theorem quantTileCells_congr {q : QuantMode} {elem elem' : Nat → Option Flt} {t : QuantTile} (hcov : SlotsCovered t)
    (h : ∀ b ∈ t.blocks, ∀ x ∈ b.elems, elem x = elem' x) : quantTileCells q elem t = quantTileCells q elem' t := by
  have hparams : collect (blockParam q elem) t.blocks = collect (blockParam q elem') t.blocks :=
    collect_congr fun b hb => blockParam_congr (h b hb)
  simp only [quantTileCells, hparams, dataCells_congr hcov h]

theorem zpOf_congr {m m' : Memory} {z : ZpSource} (h : ∀ a, IsZpSource z a → readByte m a = readByte m' a) :
    zpOf m z = zpOf m' z := by
  cases z with
  | implied => rfl
  | nibble x k => simp only [zpOf, h x rfl]
  | byte x => simp only [zpOf, h x rfl]

theorem deqCells_congr {et : ElemType} {m m' : Memory} {d : DeqElem}
    (hcode : readByte m d.codeAddr = readByte m' d.codeAddr)
    (hscale : ∀ a, d.scaleAddr ≤ a → a < d.scaleAddr + esz et → readByte m a = readByte m' a)
    (hzp : ∀ a, IsZpSource d.zp a → readByte m a = readByte m' a) : deqCells et m d = deqCells et m' d := by
  simp only [deqCells, deqValue, hcode, elemRead_congr hscale, zpOf_congr hzp]

/-- What a tile writes depends on its sources only. -/
theorem tileCells_congr {q : QuantMode} {m m' : Memory} {w : TileWork} (hcov : WorkCovered w)
    (h : ∀ a, IsSource q.et w a → readByte m a = readByte m' a) : tileCells q m w = tileCells q m' w := by
  cases w with
  | quant t =>
    exact quantTileCells_congr hcov fun b hb x hx => elemRead_congr fun a hlow hhigh => h a ⟨b, hb, x, hx, hlow, hhigh⟩
  | deq l =>
    refine congrArg (Option.map List.flatten) (collect_congr fun d hd => deqCells_congr ?_ ?_ ?_)
    · exact h _ ⟨d, hd, .inl rfl⟩
    · exact fun a hlow hhigh => h a ⟨d, hd, .inr (.inl ⟨hlow, hhigh⟩)⟩
    · exact fun a ha => h a ⟨d, hd, .inr (.inr ha)⟩

/-! ### Addresses in extents -/

theorem inExtent_iff {base size a : Nat} {w : Bool} :
    inExtent ⟨base, size, w⟩ a = true ↔ base ≤ a ∧ a < base + size := by
  simp [inExtent]

theorem inExtent_offset {base size k : Nat} {w : Bool} (hk : k < size) :
    inExtent ⟨base, size, w⟩ (base + k) = true := by
  rw [inExtent_iff]
  omega

/-- A byte of element `k` of a buffer of `n` elements of `e` bytes. -/
theorem inExtent_field {base n e k a : Nat} {w : Bool} (hk : k < n) (hlow : base + k * e ≤ a)
    (hhigh : a < base + k * e + e) : inExtent ⟨base, n * e, w⟩ a = true := by
  have hfield := index_lt hk (show a - (base + k * e) < e by omega)
  rw [inExtent_iff]
  omega

/-- A byte of an element of the row-major Matrix (R65, R66). -/
theorem inExtent_rowMajor {c : HostRegs} {e row col a : Nat} {w : Bool} (hrow : row < c.rows.toNat)
    (hcol : col < c.cols.toNat) (hlow : rowMajorAddr c e row col ≤ a) (hhigh : a < rowMajorAddr c e row col + e) :
    inExtent ⟨c.matAddr.toNat, rowMajorBytes c e, w⟩ a = true := by
  have hlast : row * c.ld.toNat ≤ (c.rows.toNat - 1) * c.ld.toNat := Nat.mul_le_mul_right _ (by omega)
  rw [rowMajorBytes, if_neg (by omega)]
  exact inExtent_field (show row * c.ld.toNat + col < _ by omega) hlow hhigh

/-- A byte of a blob that exists (R277). -/
theorem inExtent_blob {v : Legacy} {c : HostRegs} {t : Tile} {a : Nat} {w : Bool} (ht : t ∈ legacyTiles c v)
    (hlow : blobBase c v t.r t.c ≤ a) (hhigh : a < blobBase c v t.r t.c + blobSize v) :
    inExtent ⟨c.pkAddr.toNat, legacyBytes c v, w⟩ a = true := by
  obtain ⟨hr, hc⟩ := mem_tileGrid.mp ht
  exact inExtent_field (n := c.cols.toNat * kBlocks c v) (index_lt hr hc) hlow hhigh

/-- The address lies in a buffer that the command does not write. -/
def InReadBuffer (es : List Extent) (a : Nat) : Prop := ∃ e ∈ es, e.written = false ∧ inExtent e a = true

/-! ### The transposed layout -/

section Transposed

variable {c : HostRegs} {asym : Bool} {o : Orient} {et : ElemType} {t : Tile}

theorem slotsCovered_qtTile (ht : t ∈ transposedTiles c o) : SlotsCovered (qtTile c asym o et t) := by
  obtain ⟨hbr, -, -⟩ := block_of_transposedTile ht
  have hr0 : (transposedBounds c o t).r0 = t.r * (2 * blockRows o c.blksz.toNat) := rfl
  have hr1 : (transposedBounds c o t).r1 ≤ (transposedBounds c o t).r0 + 2 * blockRows o c.blksz.toNat :=
    Nat.min_le_left _ _
  have hin {row col : Nat} (hlow : (transposedBounds c o t).r0 ≤ row) (hhigh : row < (transposedBounds c o t).r1)
      (hcol : col ∈ span (transposedBounds c o t).c0 (transposedBounds c o t).c1) :
      ∃ b ∈ (qtTile c asym o et t).blocks, rowMajorAddr c (esz et) row col ∈ b.elems := by
    have helem (k : Nat) (hk : (transposedBounds c o t).r0 + k * blockRows o c.blksz.toNat ≤ row)
        (hk' : row < (transposedBounds c o t).r0 + (k + 1) * blockRows o c.blksz.toNat) :
        rowMajorAddr c (esz et) row col ∈ (qtBlock c o et t k).elems :=
      List.mem_flatMap.mpr ⟨row, mem_span.mpr ⟨hk, lt_min hk' hhigh⟩, List.mem_map_of_mem hcol⟩
    by_cases hfirst : row < (transposedBounds c o t).r0 + blockRows o c.blksz.toNat
    · refine ⟨qtBlock c o et t 0, ?_, helem 0 (by omega) (by omega)⟩
      simp only [qtTile]
      split <;> simp
    · refine ⟨qtBlock c o et t 1, ?_, helem 1 (by omega) (by omega)⟩
      simp only [qtTile]
      rw [if_pos (by omega)]
      simp
  intro d hd x k hx
  simp only [qtTile, List.mem_flatMap, List.mem_map, List.mem_range] at hd
  obtain ⟨col, hcol, p, hp, rfl⟩ := hd
  obtain ⟨-, hp⟩ := lt_ceilDiv_iff.mp hp
  rcases List.mem_pair.mp hx with hx | hx
  · obtain ⟨rfl, -⟩ := Slot.elem.inj hx
    exact hin (by omega) (by omega) hcol
  · split at hx
    · next hnext =>
      obtain ⟨rfl, -⟩ := Slot.elem.inj hx
      exact hin (by omega) hnext hcol
    · cases hx

theorem inReadBuffer_of_source_qt {a : Nat} (ha : IsSource et (.quant (qtTile c asym o et t)) a) :
    InReadBuffer (jobExtents (.qt asym o et) c) a := by
  obtain ⟨b, hb, x, hx, hlow, hhigh⟩ := ha
  obtain ⟨k, rfl⟩ : ∃ k, b = qtBlock c o et t k := by
    simp only [qtTile] at hb
    split at hb
    · rcases List.mem_pair.mp hb with rfl | rfl <;> exact ⟨_, rfl⟩
    · exact ⟨0, List.mem_singleton.mp hb⟩
  simp only [qtBlock, List.mem_flatMap, List.mem_map, mem_span, lt_min_iff] at hx
  obtain ⟨row, ⟨-, -, hrow⟩, col, ⟨-, hcol⟩, rfl⟩ := hx
  obtain ⟨hr1, hc1⟩ := transposedBounds_le (c := c) (o := o) t
  exact ⟨_, by simp [jobExtents], rfl, inExtent_rowMajor (by omega) (by omega) hlow hhigh⟩

theorem inReadBuffer_of_source_dqt {a : Nat} (ht : t ∈ transposedTiles c o)
    (ha : IsSource et (.deq (dqtTile c asym o et t)) a) : InReadBuffer (jobExtents (.dqt asym o et) c) a := by
  obtain ⟨hbr, -, hc⟩ := block_of_transposedTile ht
  obtain ⟨hbc, -⟩ := lt_ceilDiv_iff.mp hc
  obtain ⟨hr1, hc1⟩ := transposedBounds_le (c := c) (o := o) t
  obtain ⟨d, hd, ha⟩ := ha
  simp only [dqtTile, List.mem_flatMap, List.mem_map, mem_span] at hd
  obtain ⟨col, ⟨-, hcol⟩, row, ⟨-, hrow⟩, rfl⟩ := hd
  have hmr : row / blockRows o c.blksz.toNat < ceilDiv c.rows.toNat (blockRows o c.blksz.toNat) :=
    lt_ceilDiv_iff.mpr ⟨hbr, (Nat.div_mul_le_self _ _).trans_lt (by omega)⟩
  have hmc : col / blockCols o c.blksz.toNat < ceilDiv c.cols.toNat (blockCols o c.blksz.toNat) :=
    lt_ceilDiv_iff.mpr ⟨hbc, (Nat.div_mul_le_self _ _).trans_lt (by omega)⟩
  rcases ha with rfl | ⟨hlow, hhigh⟩ | ha
  · exact ⟨⟨c.pkAddr.toNat, _, false⟩, by simp [jobExtents], rfl,
      inExtent_offset (transposedByte_lt asym hbr hbc (by omega) (by omega))⟩
  · exact ⟨⟨c.scAddr.toNat, _, false⟩, by simp [jobExtents], rfl,
      inExtent_field (transposedScale_lt asym hmr hmc) hlow hhigh⟩
  · cases asym with
    | false => exact absurd ha id
    | true =>
      obtain rfl : a = zpByteAddr c _ := ha
      exact ⟨⟨c.zpAddr.toNat, _, false⟩, by simp [jobExtents], rfl, inExtent_offset (transposedZp_lt hmr hmc)⟩

end Transposed

/-! ### The row-major layout -/

section RowMajor

variable {c : HostRegs} {w : Width} {t : Tile}

theorem perByte_pos (w : Width) : 0 < perByte w := by cases w <;> decide

theorem rowMajorBounds_le (t : Tile) :
    (rowMajorBounds c t).r1 ≤ c.rows.toNat ∧ (rowMajorBounds c t).c1 ≤ c.cols.toNat ∧
      (rowMajorBounds c t).r1 ≤ t.r * c.blksz.toNat + c.blksz.toNat ∧
      (rowMajorBounds c t).c1 ≤ (rowMajorBounds c t).c0 + 16 :=
  ⟨Nat.min_le_right _ _, Nat.min_le_right _ _, Nat.min_le_left _ _, Nat.min_le_left _ _⟩

/-- A column group of a tile lies in the tile's columns (R254, R257). -/
theorem group_bounds {g : Nat} (hlow : (rowMajorBounds c t).c0 / perByte w ≤ g)
    (hhigh : g < (rowMajorBounds c t).c1 / perByte w) :
    (rowMajorBounds c t).c0 ≤ g * perByte w ∧ g * perByte w + perByte w ≤ (rowMajorBounds c t).c1 := by
  have hwhole : perByte w ∣ 16 := by cases w <;> decide
  constructor
  · have hc0 : perByte w ∣ (rowMajorBounds c t).c0 := hwhole.mul_right t.c
    calc (rowMajorBounds c t).c0 = (rowMajorBounds c t).c0 / perByte w * perByte w := (Nat.div_mul_cancel hc0).symm
      _ ≤ g * perByte w := Nat.mul_le_mul_right _ hlow
  · simpa [Nat.add_one_mul] using (Nat.le_div_iff_mul_le (perByte_pos w)).mp hhigh

variable {asym : Bool} {et : ElemType}

theorem slotsCovered_qdqcTile : SlotsCovered (qdqcTile c w asym et t) := by
  intro d hd x k hx
  simp only [qdqcTile, List.mem_flatMap, List.mem_map, mem_span] at hd
  obtain ⟨row, hrow, g, ⟨hlow, hhigh⟩, rfl⟩ := hd
  simp only [List.mem_map, List.mem_range] at hx
  obtain ⟨i, hi, hx⟩ := hx
  obtain ⟨rfl, -⟩ := Slot.elem.inj hx
  obtain ⟨hfirst, hlast⟩ := group_bounds hlow hhigh
  refine ⟨qdqcBlock c et t (g * perByte w + i), ?_, List.mem_map.mpr ⟨row, mem_span.mpr hrow, rfl⟩⟩
  exact List.mem_map_of_mem (mem_span.mpr ⟨by omega, by omega⟩)

theorem inReadBuffer_of_source_qdqc {a : Nat} (ha : IsSource et (.quant (qdqcTile c w asym et t)) a) :
    InReadBuffer (jobExtents (.qdqc asym w et) c) a := by
  obtain ⟨hr1, hc1, -⟩ := rowMajorBounds_le (c := c) t
  obtain ⟨b, hb, x, hx, hlow, hhigh⟩ := ha
  simp only [qdqcTile, List.mem_map, mem_span] at hb
  obtain ⟨col, ⟨-, hcol⟩, rfl⟩ := hb
  simp only [qdqcBlock, List.mem_map, mem_span] at hx
  obtain ⟨row, ⟨-, hrow⟩, rfl⟩ := hx
  exact ⟨_, by simp [jobExtents], rfl, inExtent_rowMajor (by omega) (by omega) hlow hhigh⟩

end RowMajor

/-! ### The legacy layout -/

theorem slotsCovered_lpackTile {c : HostRegs} {v : Legacy} {t : Tile} : SlotsCovered (lpackTile c v t) := by
  have hin {j k x : Nat} (hx : (if j < blockLen c v t.c then Slot.elem (rowMajorAddr c 4 (t.c * blkLen v + j) t.r) 0
      else Slot.zeroCode 0) = Slot.elem x k) : ∃ b ∈ (lpackTile c v t).blocks, x ∈ b.elems := by
    split at hx
    · next hj =>
      obtain ⟨rfl, -⟩ := Slot.elem.inj hx
      exact ⟨_, List.mem_singleton_self _, List.mem_map.mpr ⟨_, mem_span.mpr ⟨by omega, by omega⟩, rfl⟩⟩
    · cases hx
  intro d hd x k hx
  simp only [lpackTile, List.mem_flatMap, List.mem_map] at hd
  obtain ⟨ch, -, l, -, rfl⟩ := hd
  rcases List.mem_pair.mp hx with hx | hx <;> exact hin hx.symm

theorem inReadBuffer_of_source_lpack {c : HostRegs} {v : Legacy} {t : Tile} {a : Nat} (ht : t ∈ legacyTiles c v)
    (ha : IsSource .f32 (.quant (lpackTile c v t)) a) : InReadBuffer (jobExtents (.lpack v) c) a := by
  obtain ⟨hr, -⟩ := mem_tileGrid.mp ht
  obtain ⟨b, hb, x, hx, hlow, hhigh⟩ := ha
  obtain rfl := List.mem_singleton.mp hb
  simp only [List.mem_map, mem_span, blockLen] at hx
  obtain ⟨row, ⟨hfirst, hrow⟩, rfl⟩ := hx
  exact ⟨_, by simp [jobExtents], rfl, inExtent_rowMajor (by omega) hr hlow hhigh⟩

theorem inReadBuffer_of_source_lunpack {c : HostRegs} {v : Legacy} {t : Tile} {a : Nat} (ht : t ∈ legacyTiles c v)
    (ha : IsSource .f32 (.deq (lunpackTile c v t)) a) : InReadBuffer (jobExtents (.lunpack v) c) a := by
  obtain ⟨d, hd, ha⟩ := ha
  simp only [lunpackTile, List.mem_map, List.mem_range] at hd
  obtain ⟨j, hj, rfl⟩ := hd
  refine ⟨⟨c.pkAddr.toNat, legacyBytes c v, false⟩, by simp [jobExtents], rfl, ?_⟩
  rcases ha with rfl | ⟨hlow, hhigh⟩ | ha
  · have hdata := chunk_lt (v := v) (c := c) (kb := t.c) (lt_ceilDiv_iff.mpr ⟨by omega, by omega⟩ : j / 32 < _)
      (Nat.mod_lt j (show 0 < 16 by omega))
    exact inExtent_blob ht (by simp only [lunpackElem, blobData]; omega)
      (by simp only [lunpackElem, blobData, blobSize]; omega)
  · simp only [lunpackElem, esz] at hlow hhigh
    exact inExtent_blob ht hlow (by unfold blobSize; omega)
  · cases hasym : legacyAsym v with
    | false => simp [lunpackElem, hasym, IsZpSource] at ha
    | true =>
      simp only [lunpackElem, hasym, if_true, IsZpSource] at ha
      exact inExtent_blob ht (by omega) (by simp only [blobSize, legacyZ, hasym, if_true]; omega)

/-! ### Every command -/

theorem workCovered_jobWork {j : Job} {c : HostRegs} {t : Tile} (ht : t ∈ jobTiles j c) :
    WorkCovered (jobWork j c t) := by
  cases j with
  | qt asym o et => exact slotsCovered_qtTile ht
  | dqt asym o et => trivial
  | qdqc asym w et => exact slotsCovered_qdqcTile
  | lpack v => exact slotsCovered_lpackTile
  | lunpack v => trivial

/-- Every address that a tile of a command reads lies in a buffer that the command does not write. -/
theorem inReadBuffer_of_source {j : Job} {c : HostRegs} {t : Tile} {a : Nat} (ht : t ∈ jobTiles j c)
    (ha : IsSource (jobMode j).et (jobWork j c t) a) : InReadBuffer (jobExtents j c) a := by
  cases j with
  | qt asym o et => exact inReadBuffer_of_source_qt ha
  | dqt asym o et => exact inReadBuffer_of_source_dqt ht ha
  | qdqc asym w et => exact inReadBuffer_of_source_qdqc ha
  | lpack v => exact inReadBuffer_of_source_lpack ht ha
  | lunpack v => exact inReadBuffer_of_source_lunpack ht ha

/-- Memories that agree on the buffers a command reads give each of its tiles the same cells. -/
theorem jobTileCells_congr {j : Job} {c : HostRegs} {t : Tile} {m m' : Memory} (ht : t ∈ jobTiles j c)
    (h : ∀ a, InReadBuffer (jobExtents j c) a → readByte m a = readByte m' a) :
    jobTileCells j c m t = jobTileCells j c m' t :=
  tileCells_congr (workCovered_jobWork ht) fun a ha => h a (inReadBuffer_of_source ht ha)

end Sys2Proof.Machine

namespace Sys2Proof.Proofs

open Sys2Proof.Machine

/-- Settles O48: each tile reads in the buffers only. The checks are not needed, as for O47. -/
theorem readsStayInTheBuffers : Obligations.ReadsStayInTheBuffers := by
  intro j c m m' _ _ hagree
  have hcells : collectCells (jobTileCells j c m) (jobTiles j c) = collectCells (jobTileCells j c m') (jobTiles j c) :=
    congrArg (Option.map List.flatten) (collect_congr fun t ht =>
      jobTileCells_congr ht fun a ⟨e, he, _, ha⟩ => hagree e he a ha)
  rw [jobResult, jobResult, hcells]

end Sys2Proof.Proofs
end

section
/-! Which tile writes a byte (R69): a place in a written buffer belongs to one tile, so two tiles share no output byte,
and the tiles may be performed in any order (R73). -/

namespace Sys2Proof.Machine

/-! ### Written cells that share no address -/

/-- No address is named in both lists. -/
def Apart (k l : List Host.Cell) : Prop := ∀ x ∈ k, ∀ y ∈ l, x.1 ≠ y.1

theorem lookupByte_writeCells_of_not_mem {m : Memory} (h : memWf m) {l : List Host.Cell} {a : Nat}
    (ha : ∀ x ∈ l, x.1 ≠ a) : lookupByte (writeCells m l) a = lookupByte m a := by
  induction l generalizing m with
  | nil => rfl
  | cons x l ih =>
    obtain ⟨k, b⟩ := x
    rw [writeCells_cons, ih (memWf_writeByte h k b) fun y hy => ha y (List.mem_cons_of_mem _ hy),
      lookupByte_writeByte m k a b h, if_neg (ha (k, b) (by simp))]

theorem lookupByte_writeCells_congr {m n : Memory} (hm : memWf m) (hn : memWf n) (l : List Host.Cell) {a : Nat}
    (h : lookupByte m a = lookupByte n a) : lookupByte (writeCells m l) a = lookupByte (writeCells n l) a := by
  induction l generalizing m n with
  | nil => exact h
  | cons x l ih =>
    obtain ⟨k, b⟩ := x
    refine ih (memWf_writeByte hm k b) (memWf_writeByte hn k b) ?_
    rw [lookupByte_writeByte m k a b hm, lookupByte_writeByte n k a b hn, h]

theorem writeCells_comm {m : Memory} (h : memWf m) {k l : List Host.Cell} (hkl : Apart k l) :
    writeCells (writeCells m k) l = writeCells (writeCells m l) k := by
  have hk := memWf_writeCells h k
  have hl := memWf_writeCells h l
  refine memory_ext (memWf_writeCells hk l) (memWf_writeCells hl k) fun a => ?_
  by_cases ha : ∃ x ∈ k, x.1 = a
  · obtain ⟨x, hx, rfl⟩ := ha
    have hout : ∀ y ∈ l, y.1 ≠ x.1 := fun y hy => (hkl x hx y hy).symm
    rw [lookupByte_writeCells_of_not_mem hk hout]
    exact lookupByte_writeCells_congr h hl k (lookupByte_writeCells_of_not_mem h hout).symm
  · push Not at ha
    rw [lookupByte_writeCells_of_not_mem hl ha]
    exact lookupByte_writeCells_congr hk h l (lookupByte_writeCells_of_not_mem h ha)

/-- Parts with no address in common may be written in any order. -/
theorem writeCells_flatMap_perm {α : Type} {f : α → List Host.Cell} {l l' : List α} (hperm : l.Perm l') {m : Memory}
    (hwf : memWf m) (h : ∀ t ∈ l, ∀ u ∈ l, t ≠ u → Apart (f t) (f u)) :
    writeCells m (l.flatMap f) = writeCells m (l'.flatMap f) := by
  induction hperm generalizing m with
  | nil => rfl
  | cons t _ ih =>
    rw [List.flatMap_cons, List.flatMap_cons, writeCells_append, writeCells_append]
    exact ih (memWf_writeCells hwf _) fun u hu v hv => h u (List.mem_cons_of_mem _ hu) v (List.mem_cons_of_mem _ hv)
  | swap t u l =>
    simp only [List.flatMap_cons, writeCells_append]
    by_cases htu : u = t
    · rw [htu]
    · rw [writeCells_comm hwf (h u (by simp) t (by simp) htu)]
  | trans hfirst _ ih ih' =>
    exact (ih hwf h).trans (ih' hwf fun t ht u hu => h t (hfirst.mem_iff.mpr ht) u (hfirst.mem_iff.mpr hu))

/-! ### Places in written buffers -/

/-- Two buffers that share a byte in a list with no clash are one entry of it, when one of them is written (R67). -/
theorem index_unique {es : List Extent} (h : anyClash es = false) {i k : Nat} {x y : Extent} (hx : es[i]? = some x)
    (hy : es[k]? = some y) (hw : x.written = true) {a : Nat} (hax : inExtent x a = true)
    (hay : inExtent y a = true) : i = k := by
  obtain ⟨hi, rfl⟩ := List.getElem?_eq_some_iff.mp hx
  obtain ⟨hk, rfl⟩ := List.getElem?_eq_some_iff.mp hy
  have hpair := List.pairwise_iff_getElem.mp (anyClash_eq_false_iff.mp h)
  rcases Nat.lt_trichotomy i k with hlt | heq | hlt
  · exact absurd ⟨hax, hay⟩ (clash_eq_false_iff.mp (hpair i k hi hk hlt) (.inl hw) a)
  · exact heq
  · exact absurd ⟨hay, hax⟩ (clash_eq_false_iff.mp (hpair k i hk hi hlt) (.inr hw) a)

/-- A byte that is read is not one that is written. -/
theorem not_inWritten_of_inReadBuffer {es : List Extent} {a : Nat} (h : anyClash es = false)
    (ha : InReadBuffer es a) : inWritten es a = false := by
  obtain ⟨x, hx, hread, hax⟩ := ha
  rw [← Bool.not_eq_true, inWritten_iff]
  rintro ⟨y, hy, hw, hay⟩
  obtain ⟨i, hi⟩ := List.mem_iff_getElem?.mp hx
  obtain ⟨k, hk⟩ := List.mem_iff_getElem?.mp hy
  obtain rfl : k = i := index_unique h hk hi hw (by simpa [inExtent] using hay) hax
  obtain rfl : y = x := Option.some.inj (hk.symm.trans hi)
  simp [hw] at hread

/-- The tile that writes byte `k` of buffer number `i` of a command: the indices of R101 to R106 and R65 undone. -/
def tileAt (c : HostRegs) : Job → Nat → Nat → Tile
  | .qt _ o _, 1, k =>
    ⟨k % (contextGeometry c .q4 o true).qRows / blockRows o c.blksz.toNat,
      k / (contextGeometry c .q4 o true).qRows / blockCols o c.blksz.toNat⟩
  | .qt _ o et, 2, k =>
    ⟨k / esz et % (contextGeometry c .q4 o true).metaRows / 2, k / esz et / (contextGeometry c .q4 o true).metaRows⟩
  | .qt _ o _, _, k =>
    ⟨k % ceilDiv (contextGeometry c .q4 o true).metaRows 2, k / ceilDiv (contextGeometry c .q4 o true).metaRows 2⟩
  | .dqt _ o et, _, k =>
    ⟨k / esz et % c.rows.toNat / (2 * blockRows o c.blksz.toNat),
      k / esz et / c.rows.toNat / blockCols o c.blksz.toNat⟩
  | .qdqc _ w _, 1, k =>
    ⟨k / (c.cols.toNat / perByte w) / c.blksz.toNat, k % (c.cols.toNat / perByte w) * perByte w / qdqTileCols⟩
  | .qdqc _ _ et, 2, k => ⟨k / esz et / c.cols.toNat, k / esz et % c.cols.toNat / qdqTileCols⟩
  | .qdqc _ w _, _, k =>
    ⟨k / (c.cols.toNat / perByte w), k % (c.cols.toNat / perByte w) * perByte w / qdqTileCols⟩
  | .lpack v, _, k => ⟨k / blobSize v / kBlocks c v, k / blobSize v % kBlocks c v⟩
  | .lunpack v, _, k =>
    if c.rows.toNat ≤ 1 then ⟨k / 4, 0⟩ else ⟨k / 4 % c.ld.toNat, k / 4 / c.ld.toNat / blkLen v⟩

/-- Address `a` lies in buffer number `i` of the command, which is written, and its place there is tile `t`'s. -/
def Located (j : Job) (c : HostRegs) (t : Tile) (i a : Nat) : Prop :=
  ∃ e, (jobExtents j c)[i]? = some e ∧ e.written = true ∧ inExtent e a = true ∧ tileAt c j i (a - e.base) = t

/-- An address has one place, and so one tile. -/
theorem Located.unique {j : Job} {c : HostRegs} {t u : Tile} {i k a : Nat} (h : anyClash (jobExtents j c) = false)
    (ht : Located j c t i a) (hu : Located j c u k a) : i = k ∧ t = u := by
  obtain ⟨x, hx, hw, hax, rfl⟩ := ht
  obtain ⟨y, hy, -, hay, rfl⟩ := hu
  obtain rfl := index_unique h hx hy hw hax hay
  obtain rfl := Option.some.inj (hx.symm.trans hy)
  exact ⟨rfl, rfl⟩

theorem located_offset {j : Job} {c : HostRegs} {t : Tile} {i base size k : Nat}
    (he : (jobExtents j c)[i]? = some ⟨base, size, true⟩) (hk : k < size) (ht : tileAt c j i k = t) :
    Located j c t i (base + k) :=
  ⟨_, he, rfl, inExtent_offset hk, by rwa [Nat.add_sub_cancel_left]⟩

theorem located_field {j : Job} {c : HostRegs} {t : Tile} {i base n e k a : Nat}
    (he : (jobExtents j c)[i]? = some ⟨base, n * e, true⟩) (hk : k < n) (hlow : base + k * e ≤ a)
    (hhigh : a < base + k * e + e) (ht : ∀ x, x / e = k → tileAt c j i x = t) : Located j c t i a := by
  refine ⟨_, he, rfl, inExtent_field hk hlow hhigh, ht _ (Nat.div_eq_of_lt_le ?_ ?_)⟩
  · simp only
    omega
  · rw [Nat.add_one_mul]
    simp only
    omega

/-- Row and column of an index into a table of rows of `m`. -/
theorem index_div_mod {i k m : Nat} (hk : k < m) : (i * m + k) / m = i ∧ (i * m + k) % m = k :=
  ⟨Nat.div_eq_of_lt_le (by omega) (by rw [Nat.add_one_mul]; omega), Nat.mul_add_mod_of_lt hk⟩

/-- The byte of a group of `p` columns, when rows are whole groups (R104). -/
theorem packed_index_eq {i g n p : Nat} (h : n % p = 0) (hp : 0 < p) : (i * n + g * p) / p = i * (n / p) + g := by
  obtain ⟨k, rfl⟩ := Nat.dvd_of_mod_eq_zero h
  rw [Nat.mul_div_cancel_left _ hp, show i * (p * k) + g * p = p * (i * k + g) by ring, Nat.mul_div_cancel_left _ hp]

/-! ### The transposed layout -/

section Transposed

variable {c : HostRegs} {asym : Bool} {o : Orient} {et : ElemType} {t : Tile} {a : Nat}

theorem located_scale_qt (ht : t ∈ transposedTiles c o)
    (ha : IsScaleTarget et (qtTile c asym o et t).blocks a) : Located (.qt asym o et) c t 2 a := by
  obtain ⟨hbr, hr, hc⟩ := block_of_transposedTile ht
  obtain ⟨b, hb, hlow, hhigh⟩ := ha
  obtain ⟨k, hk, hk2, rfl⟩ : ∃ k, 2 * t.r + k < ceilDiv c.rows.toNat (blockRows o c.blksz.toNat) ∧ k < 2 ∧
      b = qtBlock c o et t k := by
    simp only [qtTile] at hb
    split at hb
    · next h =>
      rcases List.mem_pair.mp hb with rfl | rfl
      · exact ⟨0, hr, by omega, rfl⟩
      · exact ⟨1, second_block_of_transposedTile ht h, by omega, rfl⟩
    · exact ⟨0, hr, by omega, List.mem_singleton.mp hb⟩
  refine located_field (by simp [jobExtents]) (transposedScale_lt asym hk hc) hlow hhigh fun x hx => ?_
  obtain ⟨hdiv, hmod⟩ := index_div_mod (i := t.c) hk
  simp only [tileAt, hx]
  exact congrArg₂ Tile.mk (by rw [transposedScale, contextGeometry, geometry, hmod]; omega) hdiv

theorem located_zp_qt (ht : t ∈ transposedTiles c o) {z : Nat × List Nat}
    (hz : z ∈ (qtTile c asym o et t).zpBytes) : Located (.qt asym o et) c t 3 z.1 := by
  obtain ⟨hbr, hr, hc⟩ := block_of_transposedTile ht
  cases asym with
  | false => simp [qtTile] at hz
  | true =>
    obtain rfl := List.mem_singleton.mp hz
    have hrow : t.r < ceilDiv (contextGeometry c .q4 o true).metaRows 2 :=
      lt_ceilDiv_iff.mpr ⟨by omega, by simpa only [contextGeometry, geometry, Nat.mul_comm] using hr⟩
    refine located_offset (by simp [jobExtents]) (transposedZp_lt hr hc) ?_
    obtain ⟨hdiv, hmod⟩ := index_div_mod (i := t.c) hrow
    simp only [tileAt, transposedZp, Nat.mul_div_cancel_left t.r (show 0 < 2 by omega), hdiv, hmod]

theorem located_data_qt (ht : t ∈ transposedTiles c o) {d : Nat × List Slot}
    (hd : d ∈ (qtTile c asym o et t).dataBytes) : Located (.qt asym o et) c t 1 d.1 := by
  obtain ⟨hbr, -, hc⟩ := block_of_transposedTile ht
  obtain ⟨hbc, -⟩ := lt_ceilDiv_iff.mp hc
  obtain ⟨hr1, hc1⟩ := transposedBounds_le (c := c) (o := o) t
  simp only [qtTile, List.mem_flatMap, List.mem_map, List.mem_range, mem_span] at hd
  obtain ⟨col, ⟨hcol, hcol'⟩, p, hp, rfl⟩ := hd
  obtain ⟨-, hp⟩ := lt_ceilDiv_iff.mp hp
  have hr0 : (transposedBounds c o t).r0 = 2 * (t.r * blockRows o c.blksz.toNat) := by
    simp only [transposedBounds]
    ring
  have hspan : (transposedBounds c o t).r1 ≤ (transposedBounds c o t).r0 + 2 * blockRows o c.blksz.toNat :=
    Nat.min_le_left _ _
  have hcspan : (transposedBounds c o t).c1 ≤ t.c * blockCols o c.blksz.toNat + blockCols o c.blksz.toNat :=
    Nat.min_le_left _ _
  have hhalf : ((transposedBounds c o t).r0 + 2 * p) / 2 = t.r * blockRows o c.blksz.toNat + p := by omega
  have hrows := le_ceilDiv_mul c.rows.toNat hbr
  have hbyte : t.r * blockRows o c.blksz.toNat + p < (contextGeometry c .q4 o true).qRows := by
    simp only [contextGeometry, geometry, qbits]
    exact lt_ceilDiv_iff.mpr (by omega)
  refine located_offset (by simp [jobExtents]) (transposedByte_lt asym hbr hbc (by omega) (by omega)) ?_
  obtain ⟨hdiv, hmod⟩ := index_div_mod (i := col) hbyte
  obtain ⟨hblock, -⟩ := index_div_mod (i := t.r) (show p < blockRows o c.blksz.toNat by omega)
  simp only [tileAt, transposedByte, hhalf, hdiv, hmod, hblock]
  exact congrArg (Tile.mk t.r) (Nat.div_eq_of_lt_le hcol (by rw [Nat.add_one_mul]; omega))

theorem located_target_dqt (ht : t ∈ transposedTiles c o) (ha : IsTarget et (.deq (dqtTile c asym o et t)) a) :
    Located (.dqt asym o et) c t 0 a := by
  obtain ⟨hbr, -, hc⟩ := block_of_transposedTile ht
  obtain ⟨d, hd, hlow, hhigh⟩ := ha
  obtain ⟨hr1, hc1⟩ := transposedBounds_le (c := c) (o := o) t
  simp only [dqtTile, List.mem_flatMap, List.mem_map, mem_span] at hd
  obtain ⟨col, ⟨hcol, hcol'⟩, row, ⟨hrow, hrow'⟩, rfl⟩ := hd
  have hrspan : (transposedBounds c o t).r1 ≤ t.r * (2 * blockRows o c.blksz.toNat) + 2 * blockRows o c.blksz.toNat :=
    Nat.min_le_left _ _
  have hcspan : (transposedBounds c o t).c1 ≤ t.c * blockCols o c.blksz.toNat + blockCols o c.blksz.toNat :=
    Nat.min_le_left _ _
  have hindex : col * c.rows.toNat + row < c.rows.toNat * c.cols.toNat := by
    rw [Nat.mul_comm c.rows.toNat]
    exact index_lt (by omega) (by omega)
  refine located_field (by simp [jobExtents]) hindex hlow hhigh fun x hx => ?_
  obtain ⟨hdiv, hmod⟩ := index_div_mod (i := col) (show row < c.rows.toNat by omega)
  simp only [tileAt, hx, hdiv, hmod]
  exact congrArg₂ Tile.mk (Nat.div_eq_of_lt_le hrow (by rw [Nat.add_one_mul]; omega))
    (Nat.div_eq_of_lt_le hcol (by rw [Nat.add_one_mul]; omega))

end Transposed

/-! ### The row-major layout -/

section RowMajor

variable {c : HostRegs} {w : Width} {asym : Bool} {et : ElemType} {t : Tile} {a : Nat}

/-- A column of a tile names the tile. -/
theorem div_qdqTileCols {col : Nat} (hlow : (rowMajorBounds c t).c0 ≤ col) (hhigh : col < (rowMajorBounds c t).c1) :
    col / qdqTileCols = t.c := by
  obtain ⟨-, -, -, hspan⟩ := rowMajorBounds_le (c := c) t
  simp only [rowMajorBounds, qdqTileCols] at *
  omega

theorem located_scale_qdqc (ht : t ∈ rowMajorTiles c) (ha : IsScaleTarget et (qdqcTile c w asym et t).blocks a) :
    Located (.qdqc asym w et) c t 2 a := by
  obtain ⟨hr, -⟩ := mem_tileGrid.mp ht
  obtain ⟨-, hc1, -⟩ := rowMajorBounds_le (c := c) t
  obtain ⟨b, hb, hlow, hhigh⟩ := ha
  simp only [qdqcTile, List.mem_map, mem_span] at hb
  obtain ⟨col, ⟨hcol, hcol'⟩, rfl⟩ := hb
  have hlt : col < c.cols.toNat := by omega
  refine located_field (n := qdqScales c) (by simp [jobExtents]) (index_lt hr hlt) hlow hhigh fun x hx => ?_
  obtain ⟨hdiv, hmod⟩ := index_div_mod (i := t.r) hlt
  simp only [tileAt, hx, hdiv, hmod, div_qdqTileCols hcol hcol']

theorem located_zp_qdqc (hcols : c.cols.toNat % perByte w = 0) (ht : t ∈ rowMajorTiles c) {z : Nat × List Nat}
    (hz : z ∈ (qdqcTile c w asym et t).zpBytes) : Located (.qdqc asym w et) c t 3 z.1 := by
  obtain ⟨hr, -⟩ := mem_tileGrid.mp ht
  obtain ⟨-, hc1, -⟩ := rowMajorBounds_le (c := c) t
  have hpos := perByte_pos w
  cases asym with
  | false => simp [qdqcTile] at hz
  | true =>
    simp only [qdqcTile, if_true, List.mem_map, mem_span] at hz
    obtain ⟨g, ⟨hlow, hhigh⟩, rfl⟩ := hz
    obtain ⟨hfirst, hlast⟩ := group_bounds hlow hhigh
    have hg : g < c.cols.toNat / perByte w := hhigh.trans_le (Nat.div_le_div_right hc1)
    refine located_offset (size := qdqZpBytes c w true) (by simp [jobExtents]) (packed_index_lt hr hg) ?_
    obtain ⟨hdiv, hmod⟩ := index_div_mod (i := t.r) hg
    simp only [tileAt, packed_index_eq hcols hpos, hdiv, hmod, div_qdqTileCols hfirst (by omega)]

theorem located_data_qdqc (hcols : c.cols.toNat % perByte w = 0) {d : Nat × List Slot}
    (hd : d ∈ (qdqcTile c w asym et t).dataBytes) : Located (.qdqc asym w et) c t 1 d.1 := by
  obtain ⟨hr1, hc1, hrspan, -⟩ := rowMajorBounds_le (c := c) t
  have hpos := perByte_pos w
  simp only [qdqcTile, List.mem_flatMap, List.mem_map, mem_span] at hd
  obtain ⟨row, ⟨hrow, hrow'⟩, g, ⟨hlow, hhigh⟩, rfl⟩ := hd
  obtain ⟨hfirst, hlast⟩ := group_bounds hlow hhigh
  have hg : g < c.cols.toNat / perByte w := hhigh.trans_le (Nat.div_le_div_right hc1)
  refine located_offset (size := qdqPackedBytes c w) (by simp [jobExtents]) (packed_index_lt (by omega) hg) ?_
  obtain ⟨hdiv, hmod⟩ := index_div_mod (i := row) hg
  simp only [tileAt, packed_index_eq hcols hpos, hdiv, hmod, div_qdqTileCols hfirst (by omega)]
  exact congrArg (Tile.mk · t.c) (Nat.div_eq_of_lt_le hrow (by rw [Nat.add_one_mul]; omega))

end RowMajor

/-! ### The legacy layout -/

section LegacyLayout

variable {c : HostRegs} {v : Legacy} {t : Tile} {a : Nat}

theorem located_blob (ht : t ∈ legacyTiles c v) (hlow : blobBase c v t.r t.c ≤ a)
    (hhigh : a < blobBase c v t.r t.c + blobSize v) : Located (.lpack v) c t 1 a := by
  obtain ⟨hr, hc⟩ := mem_tileGrid.mp ht
  refine located_field (n := c.cols.toNat * kBlocks c v) (by simp [jobExtents, legacyBytes]) (index_lt hr hc)
    hlow hhigh fun x hx => ?_
  obtain ⟨hdiv, hmod⟩ := index_div_mod (i := t.r) hc
  simp only [tileAt, hx, hdiv, hmod]

/-- A byte of the scale or of the zero point of a blob, or of its data (R276, R277). -/
theorem located_target_lpack (ht : t ∈ legacyTiles c v) (ha : IsTarget .f32 (.quant (lpackTile c v t)) a) :
    Located (.lpack v) c t 1 a := by
  rcases ha with ⟨b, hb, hlow, hhigh⟩ | ⟨z, hz, rfl⟩ | ⟨d, hd, rfl⟩
  · obtain rfl := List.mem_singleton.mp hb
    simp only [esz] at hlow hhigh
    exact located_blob ht hlow (by unfold blobSize; omega)
  · simp only [lpackTile] at hz
    split at hz
    · next hasym =>
      obtain rfl := List.mem_singleton.mp hz
      exact located_blob ht (by omega) (by simp only [blobSize, legacyZ, hasym, if_true]; omega)
    · simp at hz
  · simp only [lpackTile, List.mem_flatMap, List.mem_map, List.mem_range] at hd
    obtain ⟨ch, hch, l, hl, rfl⟩ := hd
    have hdata := chunk_lt hch hl
    exact located_blob ht (by unfold blobData; omega) (by unfold blobData blobSize; omega)

/-- Rows of the unpacked matrix do not overlap, by the check of R315 on `LD`, or there is one row only. -/
theorem located_target_lunpack (hconfig : jobConfigError (.lunpack v) c = false) (ht : t ∈ legacyTiles c v)
    (ha : IsTarget .f32 (.deq (lunpackTile c v t)) a) : Located (.lunpack v) c t 0 a := by
  obtain ⟨hr, -⟩ := mem_tileGrid.mp ht
  obtain ⟨d, hd, hlow, hhigh⟩ := ha
  simp only [lunpackTile, List.mem_map, List.mem_range, blockLen] at hd
  obtain ⟨j, hj, rfl⟩ := hd
  have hrow : t.c * blkLen v + j < c.rows.toNat := by omega
  have hblock : (t.c * blkLen v + j) / blkLen v = t.c :=
    Nat.div_eq_of_lt_le (by omega) (by rw [Nat.add_one_mul]; omega)
  have hlast : (t.c * blkLen v + j) * c.ld.toNat ≤ (c.rows.toNat - 1) * c.ld.toNat :=
    Nat.mul_le_mul_right _ (by omega)
  have hsize : rowMajorBytes c 4 = ((c.rows.toNat - 1) * c.ld.toNat + c.cols.toNat) * 4 := if_neg (by omega)
  refine located_field (n := (c.rows.toNat - 1) * c.ld.toNat + c.cols.toNat) (by simp [jobExtents, hsize])
    (show (t.c * blkLen v + j) * c.ld.toNat + t.r < _ by omega) hlow hhigh fun x hx => ?_
  simp only [tileAt, show x / 4 = _ from hx]
  split
  · next hone =>
    have hzero : t.c * blkLen v + j = 0 := by omega
    rw [hzero, Nat.zero_mul, Nat.zero_add]
    exact congrArg (Tile.mk t.r) (by rw [← hblock, hzero, Nat.zero_div])
  · next hrows =>
    simp only [jobConfigError, Bool.or_eq_false_iff, Bool.and_eq_false_iff, decide_eq_false_iff_not] at hconfig
    obtain ⟨hdiv, hmod⟩ := index_div_mod (i := t.c * blkLen v + j) (show t.r < c.ld.toNat by omega)
    rw [hdiv, hmod, hblock]

end LegacyLayout

/-! ### Every command -/

theorem cols_mod_perByte {c : HostRegs} {w : Width} {asym : Bool} {et : ElemType}
    (h : jobConfigError (.qdqc asym w et) c = false) : c.cols.toNat % perByte w = 0 := by
  simp only [jobConfigError, Bool.or_eq_false_iff, bne_eq_false_iff_eq] at h
  exact h.1.1.1

/-- Every address that a tile of a command writes has a place that is the tile's. -/
theorem exists_located_of_target {j : Job} {c : HostRegs} {t : Tile} {a : Nat} (hconfig : jobConfigError j c = false)
    (ht : t ∈ jobTiles j c) (ha : IsTarget (jobMode j).et (jobWork j c t) a) : ∃ i, Located j c t i a := by
  cases j with
  | qt asym o et =>
    rcases ha with ha | ⟨z, hz, rfl⟩ | ⟨d, hd, rfl⟩
    · exact ⟨2, located_scale_qt ht ha⟩
    · exact ⟨3, located_zp_qt ht hz⟩
    · exact ⟨1, located_data_qt ht hd⟩
  | dqt asym o et => exact ⟨0, located_target_dqt ht ha⟩
  | qdqc asym w et =>
    have hcols := cols_mod_perByte hconfig
    rcases ha with ha | ⟨z, hz, rfl⟩ | ⟨d, hd, rfl⟩
    · exact ⟨2, located_scale_qdqc ht ha⟩
    · exact ⟨3, located_zp_qdqc hcols ht hz⟩
    · exact ⟨1, located_data_qdqc hcols hd⟩
  | lpack v => exact ⟨1, located_target_lpack ht ha⟩
  | lunpack v => exact ⟨0, located_target_lunpack hconfig ht ha⟩

/-- The sizes pass test 5 of R319 and no two buffers clash (R67): what the layout of the tiles rests on. -/
structure Sound (j : Job) (c : HostRegs) : Prop where
  config : jobConfigError j c = false
  noClash : anyClash (jobExtents j c) = false

theorem Sound.target_unique {j : Job} {c : HostRegs} {t u : Tile} {a : Nat} (h : Sound j c) (ht : t ∈ jobTiles j c)
    (hu : u ∈ jobTiles j c) (hta : IsTarget (jobMode j).et (jobWork j c t) a)
    (hua : IsTarget (jobMode j).et (jobWork j c u) a) : t = u := by
  obtain ⟨i, hi⟩ := exists_located_of_target h.config ht hta
  obtain ⟨k, hk⟩ := exists_located_of_target h.config hu hua
  exact (hi.unique h.noClash hk).2

/-- Cells at the targets of two tiles are apart. -/
theorem Sound.apart {j : Job} {c : HostRegs} {t u : Tile} {k l : List Host.Cell} (h : Sound j c)
    (ht : t ∈ jobTiles j c) (hu : u ∈ jobTiles j c) (htu : t ≠ u)
    (hk : ∀ x ∈ k, IsTarget (jobMode j).et (jobWork j c t) x.1)
    (hl : ∀ x ∈ l, IsTarget (jobMode j).et (jobWork j c u) x.1) : Apart k l :=
  fun x hx y hy heq => htu (h.target_unique ht hu (hk x hx) (heq ▸ hl y hy))

/-- Writing to output buffers changes no tile's cells. -/
theorem Sound.jobTileCells_writeCells {j : Job} {c : HostRegs} {t : Tile} {m : Memory} {cells : List Host.Cell}
    (h : Sound j c) (hwf : memWf m) (ht : t ∈ jobTiles j c)
    (hcells : ∀ x ∈ cells, inWritten (jobExtents j c) x.1 = true) :
    jobTileCells j c (writeCells m cells) t = jobTileCells j c m t := by
  refine jobTileCells_congr ht fun a ha => readByte_writeCells_of_not_mem hwf ?_
  rintro x hx rfl
  have hout := not_inWritten_of_inReadBuffer h.noClash ha
  simp [hcells x hx] at hout

/-- The cells of a tile, none when the tile has no result. -/
def cellsOf (j : Job) (c : HostRegs) (m : Memory) (t : Tile) : List Host.Cell := (jobTileCells j c m t).getD []

theorem cellsOf_eq {j : Job} {c : HostRegs} {m : Memory} {t : Tile} {cells : List Host.Cell}
    (h : jobTileCells j c m t = some cells) : cellsOf j c m t = cells := by
  simp [cellsOf, h]

theorem target_of_mem_cellsOf {j : Job} {c : HostRegs} {m : Memory} {t : Tile} {x : Host.Cell}
    (hx : x ∈ cellsOf j c m t) : IsTarget (jobMode j).et (jobWork j c t) x.1 := by
  unfold cellsOf at hx
  cases h : jobTileCells j c m t with
  | none => simp [h] at hx
  | some cells =>
    rw [h] at hx
    exact tileCells_target h hx

theorem collect_eq_map {α β : Type} {f : α → Option β} {g : α → β} {l : List α} {r : List β}
    (h : collect f l = some r) (hg : ∀ a ∈ l, ∀ b, f a = some b → g a = b) : r = l.map g := by
  induction l generalizing r with
  | nil => simpa using h.symm
  | cons a l ih =>
    obtain ⟨b, bs, hb, hbs, rfl⟩ := collect_cons_eq_some.mp h
    rw [List.map_cons, hg a (by simp) b hb, ← ih hbs fun a' ha' => hg a' (List.mem_cons_of_mem _ ha')]

theorem collectCells_eq_flatMap {α : Type} {f : α → Option (List Host.Cell)} {g : α → List Host.Cell} {l : List α}
    {cells : List Host.Cell} (h : collectCells f l = some cells) (hg : ∀ a ∈ l, ∀ cs, f a = some cs → g a = cs) :
    cells = l.flatMap g := by
  obtain ⟨r, hr, rfl⟩ := Option.map_eq_some_iff.mp h
  rw [List.flatMap_def, collect_eq_map hr hg]

/-- Tiles performed one after the other: each writes what it would write first (R73). -/
theorem Sound.performInOrder_eq {j : Job} {c : HostRegs} {m : Memory} {order : List Tile} (h : Sound j c)
    (hwf : memWf m) (horder : ∀ t ∈ order, t ∈ jobTiles j c) :
    Claim.performInOrder j c m order = writeCells m (order.flatMap (cellsOf j c m)) := by
  induction order generalizing m with
  | nil => rfl
  | cons t rest ih =>
    have hrest : ∀ u ∈ rest, u ∈ jobTiles j c := fun u hu => horder u (List.mem_cons_of_mem _ hu)
    have hcells : ∀ x ∈ cellsOf j c m t, inWritten (jobExtents j c) x.1 = true := fun x hx =>
      inWritten_of_target (horder t (by simp)) (target_of_mem_cellsOf hx)
    have hsame : rest.flatMap (cellsOf j c (writeCells m (cellsOf j c m t))) = rest.flatMap (cellsOf j c m) :=
      List.flatMap_congr fun u hu => by
        rw [cellsOf, h.jobTileCells_writeCells hwf (hrest u hu) hcells]
        rfl
    rw [List.flatMap_cons, writeCells_append, ← hsame]
    exact ih (memWf_writeCells hwf _) hrest

end Sys2Proof.Machine

namespace Sys2Proof.Proofs

open Sys2Proof.Machine

/-- Settles O49: an address has one tile, and no tile reads a buffer that is written. -/
theorem tilesAreIndependent : Obligations.TilesAreIndependent := by
  intro j c m t u cells cells' _ hconfig hclash hwf ht hu htu hcells hcells'
  have hsound : Sound j c := ⟨hconfig, hclash⟩
  refine ⟨hsound.apart ht hu htu (fun x => tileCells_target hcells) fun x => tileCells_target hcells', ?_⟩
  rw [hsound.jobTileCells_writeCells hwf hu fun x hx => inWritten_of_target ht (tileCells_target hcells hx), hcells']

/-- Settles O50: the tiles write the cells they would write first, and those may be written in any order. -/
theorem tileOrderIsNotObservable : Obligations.TileOrderIsNotObservable := by
  intro j c m cells order _ hconfig hwf hresult hperm
  obtain ⟨hclash, hcollect⟩ := jobResult_eq_some hresult
  have hsound : Sound j c := ⟨hconfig, hclash⟩
  have horder : ∀ t ∈ order, t ∈ jobTiles j c := fun t => hperm.mem_iff.mp
  have hcells : cells = (jobTiles j c).flatMap (cellsOf j c m) :=
    collectCells_eq_flatMap hcollect fun t _ cs => cellsOf_eq
  rw [hsound.performInOrder_eq hwf horder, hcells]
  exact writeCells_flatMap_perm hperm hwf fun t ht u hu htu =>
    hsound.apart (horder t ht) (horder u hu) htu (fun x => target_of_mem_cellsOf) fun x => target_of_mem_cellsOf

end Sys2Proof.Proofs
end

section
/-! The stages of a quantizing tile against its cells (R70, R204 to R206): the scales it reads back are those it has
stored, and after its last stage it has written the cells that the memory at launch gives. -/

namespace Sys2Proof.Machine

/-! ### A stored element read back -/

theorem isBinary32_of_fdiv {a b f : Flt} (h : fdiv a b = some f) : Claim.IsBinary32 f := by
  unfold fdiv at h
  split at h
  · cases h
  · next hb => exact isBinary32_of_round32 (Nat.pos_of_ne_zero hb) h

/-- A scale is a quotient, so it is a binary32 value (R152, R153). -/
theorem isBinary32_of_quantParams {asym : Bool} {w : Width} {lo hi : Flt} {p : Flt × Nat}
    (h : quantParams asym w lo hi = some p) : Claim.IsBinary32 p.1 := by
  unfold quantParams at h
  split at h
  · unfold range2scalezp at h
    simp only at h
    split at h
    · cases h
    · split at h
      · cases h
      · next scale hscale =>
        split at h
        · cases h
        · obtain rfl := Option.some.inj h
          exact isBinary32_of_fdiv hscale
  · obtain ⟨scale, hscale, rfl⟩ := Option.map_eq_some_iff.mp h
    exact isBinary32_of_fdiv hscale

theorem isBinary32_of_blockParam {q : QuantMode} {elem : Nat → Option Flt} {b : Block} {p : BlockParam}
    (h : blockParam q elem b = some p) : Claim.IsBinary32 p.scale := by
  unfold blockParam at h
  split at h
  · cases h
  · split at h
    · cases h
    · obtain ⟨r, hr, rfl⟩ := Option.map_eq_some_iff.mp h
      exact isBinary32_of_quantParams hr

/-- The stored pattern of a binary32 value stands for the value rounded to the element type (R11). -/
theorem elemValue_of_elemBits {et : ElemType} {f : Flt} {v : Nat} (hf : Claim.IsBinary32 f)
    (h : elemBits et f = some v) : elemValue et (v % 256 ^ esz et) = elemRound et f := by
  cases et with
  | f32 =>
    obtain rfl : (bits32 f).toNat = v := Option.some.inj h
    obtain ⟨hp, hlt⟩ := (isBinary32_iff f).mp hf
    simp only [elemValue, elemRound, esz]
    have hbits : (bits32 f).toNat < 256 ^ 4 := (bits32 f).isLt
    rw [Nat.mod_eq_of_lt hbits, BitVec.ofNat_toNat, BitVec.setWidth_eq, f32_bits32 hp hlt]
  | f16 =>
    obtain ⟨g, hg, rfl⟩ := Option.map_eq_some_iff.mp h
    obtain ⟨b, hb⟩ := isBinary16_of_narrow hg
    simp only [elemValue, elemRound, esz, hg]
    have hbits : (bits16 g).toNat < 256 ^ 2 := (bits16 g).isLt
    rw [Nat.mod_eq_of_lt hbits, BitVec.ofNat_toNat, BitVec.setWidth_eq, bits16_of_f16 hb, hb]

/-- A stored scale reads back as rounded to the element type (R70). -/
theorem elemRead_writeCells_elemCells {et : ElemType} {m : Memory} {a : Nat} {f : Flt} {cells : List Host.Cell}
    (hwf : memWf m) (hf : Claim.IsBinary32 f) (h : elemCells et a f = some cells) :
    elemRead et (writeCells m cells) a = elemRound et f := by
  obtain ⟨v, hv, rfl⟩ := Option.map_eq_some_iff.mp h
  rw [elemRead, memRead_of_bytes fun k hk => readByte_writeCells_wordCells hwf hk]
  exact elemValue_of_elemBits hf hv

/-! ### The scales of a tile -/

/-- The scales of a tile stand one after the other, and its zero-point bytes outside them (R103, R105, R106). -/
structure ScalesKept (et : ElemType) (t : QuantTile) : Prop where
  ascending : t.blocks.Pairwise fun b b' => b.scaleAddr + esz et ≤ b'.scaleAddr
  zpApart : ∀ z ∈ t.zpBytes, ¬ IsScaleTarget et t.blocks z.1

/-- Every block's stored scale reads back (R70): the later scales are stored behind it. -/
theorem forall₂_elemRead_scaleCells {q : QuantMode} {bs : List Block} {ps : List BlockParam} {cells : List Host.Cell}
    {m : Memory} (hwf : memWf m) (hasc : bs.Pairwise fun b b' => b.scaleAddr + esz q.et ≤ b'.scaleAddr)
    (hlen : bs.length = ps.length) (hps : ∀ p ∈ ps, Claim.IsBinary32 p.scale) (h : scaleCells q bs ps = some cells) :
    List.Forall₂ (fun b p => elemRead q.et (writeCells m cells) b.scaleAddr = elemRound q.et p.scale) bs ps := by
  induction bs generalizing ps cells m with
  | nil =>
    obtain rfl := List.eq_nil_of_length_eq_zero hlen.symm
    exact .nil
  | cons b bs ih =>
    cases ps with
    | nil => simp at hlen
    | cons p ps =>
      simp only [scaleCells] at h
      split at h
      · cases h
      · next first hfirst =>
        obtain ⟨rest, hrest, rfl⟩ := Option.map_eq_some_iff.mp h
        obtain ⟨hb, hasc⟩ := List.pairwise_cons.mp hasc
        have hwf' := memWf_writeCells hwf first
        rw [writeCells_append]
        refine .cons ?_ (ih hwf' hasc (by simpa using hlen) (fun p' hp' => hps p' (List.mem_cons_of_mem _ hp')) hrest)
        rw [← elemRead_writeCells_elemCells hwf (hps p (by simp)) hfirst]
        refine elemRead_congr fun a _ ha => readByte_writeCells_of_not_mem hwf' ?_
        rintro x hx rfl
        obtain ⟨b', hb', hlow, -⟩ := scaleCells_target hrest hx
        have := hb b' hb'
        omega

theorem collect_eq_of_forall₂ {α β γ : Type} {f : α → Option γ} {g : β → Option γ} {l : List α} {l' : List β}
    (h : List.Forall₂ (fun a b => f a = g b) l l') : collect f l = collect g l' := by
  induction h with
  | nil => rfl
  | cons hab _ ih => rw [collect_cons, collect_cons, hab, ih]

theorem storedRecip_eq_bind (q : QuantMode) (p : BlockParam) : storedRecip q p = (elemRound q.et p.scale).bind rcp := by
  unfold storedRecip
  cases elemRound q.et p.scale <;> rfl

/-! ### The transpose buffer -/

theorem lookup_of_collect {f : Nat → Option Flt} {l : List Nat} {r : List (Nat × Flt)}
    (h : collect (fun a => (f a).map fun x => (a, x)) l = some r) {a : Nat} (ha : a ∈ l) : r.lookup a = f a := by
  induction l generalizing r with
  | nil => simp at ha
  | cons b l ih =>
    obtain ⟨y, ys, hy, hys, rfl⟩ := collect_cons_eq_some.mp h
    obtain ⟨x, hx, rfl⟩ := Option.map_eq_some_iff.mp hy
    by_cases hab : a = b
    · subst hab
      simp [hx]
    · rw [List.lookup_cons, beq_eq_false_iff_ne.mpr hab]
      exact ih hys ((List.mem_cons.mp ha).resolve_left hab)

/-- The buffer holds what memory held when the tile was begun (R37, R215). -/
theorem bufferElem_of_readBuffer {q : QuantMode} {m : Memory} {t : QuantTile} {buffer : List (Nat × Flt)}
    (h : readBuffer q m t = some buffer) {b : Block} (hb : b ∈ t.blocks) {a : Nat} (ha : a ∈ b.elems) :
    bufferElem buffer a = elemRead q.et m a :=
  lookup_of_collect h (List.mem_flatMap.mpr ⟨b, hb, ha⟩)

theorem readBuffer_congr {q : QuantMode} {m m' : Memory} {t : QuantTile}
    (h : ∀ a, IsSource q.et (.quant t) a → readByte m a = readByte m' a) : readBuffer q m t = readBuffer q m' t := by
  refine collect_congr fun x hx => ?_
  obtain ⟨b, hb, hx⟩ := List.mem_flatMap.mp hx
  rw [elemRead_congr fun a hlow hhigh => h a ⟨b, hb, x, hx, hlow, hhigh⟩]

/-! ### The parts of a tile, by stage -/

/-- What a quantizing tile computes on its way. -/
structure TileParts where
  buffer : List (Nat × Flt)
  params : List BlockParam
  scales : List Host.Cell
  recips : List Flt
  codes : List Host.Cell

/-- The parts are those that memory `m` gives. -/
structure IsParts (q : QuantMode) (m : Memory) (t : QuantTile) (x : TileParts) : Prop where
  buffer : readBuffer q m t = some x.buffer
  params : collect (blockParam q (elemRead q.et m)) t.blocks = some x.params
  scales : scaleCells q t.blocks x.params = some x.scales
  recips : collect (storedRecip q) x.params = some x.recips
  codes : dataCells q (elemRead q.et m) x.recips (accumulators q t x.params) t = some x.codes

/-- The cells written before a stage. -/
def doneBefore (q : QuantMode) (t : QuantTile) (x : TileParts) : Stage → List Host.Cell
  | .params => []
  | .zeroPoints => x.scales
  | .recips => x.scales ++ zpCells q t (accumulators q t x.params)
  | .codes => x.scales ++ zpCells q t (accumulators q t x.params)

/-- The scratch before a stage. -/
def scratchBefore (q : QuantMode) (t : QuantTile) (x : TileParts) : Stage → Scratch
  | .params => freshScratch q t x.buffer
  | .zeroPoints => { buffer := x.buffer, zacc := accumulators q t x.params, rcache := [] }
  | .recips => { buffer := x.buffer, zacc := accumulators q t x.params, rcache := [] }
  | .codes => { buffer := x.buffer, zacc := accumulators q t x.params, rcache := x.recips }

theorem exists_isParts {q : QuantMode} {m : Memory} {t : QuantTile} {cells : List Host.Cell}
    (h : quantTileCells q (elemRead q.et m) t = some cells) : ∃ x, IsParts q m t x := by
  obtain ⟨params, scales, recips, codes, hparams, hscales, hrecips, hcodes, -⟩ := quantTileCells_eq_some h
  cases hbuffer : readBuffer q m t with
  | none => simp [quantTileCells_of_readBuffer_eq_none hbuffer] at h
  | some buffer => exact ⟨⟨buffer, params, scales, recips, codes⟩, hbuffer, hparams, hscales, hrecips, hcodes⟩

section Stages

variable {q : QuantMode} {m : Memory} {t : QuantTile} {x : TileParts}

theorem IsParts.quantTileCells_eq (h : IsParts q m t x) :
    quantTileCells q (elemRead q.et m) t = some (doneBefore q t x .codes ++ x.codes) := by
  simp [quantTileCells, h.params, h.scales, h.recips, h.codes, doneBefore]

/-- Step (a) on the buffer gives the parameters (R204). -/
theorem IsParts.bufferParams (h : IsParts q m t x) :
    collect (blockParam q (bufferElem x.buffer)) t.blocks = some x.params := by
  rw [← h.params]
  exact collect_congr fun b hb => blockParam_congr fun a => bufferElem_of_readBuffer h.buffer hb

/-- Step (c) on the buffer gives the codes (R206). -/
theorem IsParts.bufferCodes (h : IsParts q m t x) (hcov : SlotsCovered t) :
    dataCells q (bufferElem x.buffer) x.recips (accumulators q t x.params) t = some x.codes := by
  rw [← h.codes]
  exact dataCells_congr hcov fun b hb a => bufferElem_of_readBuffer h.buffer hb

/-- The scales read back from a memory that has the tile's scales and zero points give the reciprocals (R70, R174). -/
theorem IsParts.readRecips (h : IsParts q m t x) (hwf : memWf m) (hkept : ScalesKept q.et t) {m' : Memory}
    (hm' : ∀ a, IsScaleTarget q.et t.blocks a → readByte m' a = readByte (writeCells m (doneBefore q t x .recips)) a) :
    collect (fun b : Block => (elemRead q.et m' b.scaleAddr).bind rcp) t.blocks = some x.recips := by
  have hbinary : ∀ p ∈ x.params, Claim.IsBinary32 p.scale := fun p hp => by
    obtain ⟨b, -, hb⟩ := mem_of_collect h.params hp
    exact isBinary32_of_blockParam hb
  have hread : ∀ b ∈ t.blocks, elemRead q.et m' b.scaleAddr = elemRead q.et (writeCells m x.scales) b.scaleAddr := by
    refine fun b hb => elemRead_congr fun a hlow hhigh => ?_
    have ha : IsScaleTarget q.et t.blocks a := ⟨b, hb, hlow, hhigh⟩
    rw [hm' a ha, doneBefore, writeCells_append]
    refine readByte_writeCells_of_not_mem (memWf_writeCells hwf _) ?_
    rintro y hy rfl
    obtain ⟨z, hz, heq⟩ := zpCells_target hy
    exact hkept.zpApart z hz (heq ▸ ha)
  have hstored := forall₂_elemRead_scaleCells hwf hkept.ascending (collect_length h.params).symm hbinary h.scales
  rw [← h.recips, collect_congr fun b hb => congrArg (Option.bind · rcp) (hread b hb)]
  refine collect_eq_of_forall₂ (hstored.imp fun b p hbp => ?_)
  rw [hbp, storedRecip_eq_bind]

end Stages

/-! ### The scales of every command are kept -/

theorem pairwise_span (a b : Nat) : (span a b).Pairwise (· < ·) :=
  List.pairwise_lt_range.map _ fun _ _ h => Nat.add_lt_add_left h a

theorem scaleAddr_add_le {c : HostRegs} {e k k' : Nat} (h : k < k') : scaleAddr c e k + e ≤ scaleAddr c e k' := by
  have := Nat.mul_le_mul_right e (show k + 1 ≤ k' from h)
  rw [Nat.add_one_mul] at this
  unfold scaleAddr
  omega

theorem scalesKept_qtTile {c : HostRegs} {asym : Bool} {o : Orient} {et : ElemType} {t : Tile}
    (hclash : anyClash (jobExtents (.qt asym o et) c) = false) (ht : t ∈ transposedTiles c o) :
    ScalesKept et (qtTile c asym o et t) := by
  refine ⟨?_, fun z hz hscale => ?_⟩
  · simp only [qtTile]
    split
    · refine List.pairwise_pair.mpr (scaleAddr_add_le ?_)
      simp only [transposedScale]
      omega
    · exact List.pairwise_singleton _ _
  · obtain ⟨heq, -⟩ := (located_zp_qt ht hz).unique hclash (located_scale_qt ht hscale)
    omega

theorem scalesKept_qdqcTile {c : HostRegs} {asym : Bool} {w : Width} {et : ElemType} {t : Tile}
    (hclash : anyClash (jobExtents (.qdqc asym w et) c) = false) (hcols : c.cols.toNat % perByte w = 0)
    (ht : t ∈ rowMajorTiles c) : ScalesKept et (qdqcTile c w asym et t) := by
  refine ⟨?_, fun z hz hscale => ?_⟩
  · exact (pairwise_span _ _).map _ fun col col' h => scaleAddr_add_le (Nat.add_lt_add_left h _)
  · obtain ⟨heq, -⟩ := (located_zp_qdqc hcols ht hz).unique hclash (located_scale_qdqc ht hscale)
    omega

theorem scalesKept_lpackTile {c : HostRegs} {v : Legacy} {t : Tile} : ScalesKept .f32 (lpackTile c v t) := by
  refine ⟨List.pairwise_singleton _ _, fun z hz hscale => ?_⟩
  obtain ⟨b, hb, hlow, hhigh⟩ := hscale
  obtain rfl := List.mem_singleton.mp hb
  simp only [lpackTile] at hz
  split at hz
  · obtain rfl := List.mem_singleton.mp hz
    simp only [esz] at hhigh
    omega
  · simp at hz

theorem Sound.scalesKept {j : Job} {c : HostRegs} {t : Tile} {qt : QuantTile} (h : Sound j c) (ht : t ∈ jobTiles j c)
    (hwork : jobWork j c t = .quant qt) : ScalesKept (jobMode j).et qt := by
  cases j with
  | qt asym o et =>
    obtain rfl := TileWork.quant.inj hwork
    exact scalesKept_qtTile h.noClash ht
  | qdqc asym w et =>
    obtain rfl := TileWork.quant.inj hwork
    exact scalesKept_qdqcTile h.noClash (cols_mod_perByte h.config) ht
  | lpack v =>
    obtain rfl := TileWork.quant.inj hwork
    exact scalesKept_lpackTile
  | dqt | lunpack => cases hwork

end Sys2Proof.Machine
end

section
/-! A command run tile by tile against the command as one step (R75): at every moment memory is the launch's with what
each tile has written so far, in whatever order the tiles have gone on. -/

namespace Sys2Proof.Machine

/-! ### Memory as parts of tiles -/

/-- One tile writes more: its part grows, and the others stay. -/
theorem writeCells_flatMap_update {l : List Tile} (hnodup : l.Nodup) {t : Tile} (ht : t ∈ l)
    {f : Tile → List Host.Cell} {new : List Host.Cell} {m : Memory} (hwf : memWf m)
    (hapart : ∀ u ∈ l, u ≠ t → Apart (f u) new) :
    writeCells (writeCells m (l.flatMap f)) new =
      writeCells m (l.flatMap (Function.update f t (f t ++ new))) := by
  induction l generalizing m with
  | nil => simp at ht
  | cons u l ih =>
    obtain ⟨hu, hnodup⟩ := List.nodup_cons.mp hnodup
    simp only [List.flatMap_cons, writeCells_append]
    by_cases hut : u = t
    · subst hut
      have hrest : l.flatMap (Function.update f u (f u ++ new)) = l.flatMap f :=
        List.flatMap_congr fun v hv => Function.update_of_ne (ne_of_mem_of_not_mem hv hu) _ _
      have hcomm : Apart (l.flatMap f) new := fun x hx => by
        obtain ⟨v, hv, hx⟩ := List.mem_flatMap.mp hx
        exact hapart v (List.mem_cons_of_mem _ hv) (ne_of_mem_of_not_mem hv hu) x hx
      rw [hrest, Function.update_self, writeCells_append, writeCells_comm (memWf_writeCells hwf _) hcomm]
    · rw [Function.update_of_ne hut]
      exact ih hnodup ((List.mem_cons.mp ht).resolve_left (Ne.symm hut)) (memWf_writeCells hwf _)
        fun v hv => hapart v (List.mem_cons_of_mem _ hv)

theorem readByte_writeCells_congr {m n : Memory} (hm : memWf m) (hn : memWf n) (l : List Host.Cell) {a : Nat}
    (h : lookupByte m a = lookupByte n a) : readByte (writeCells m l) a = readByte (writeCells n l) a := by
  rw [readByte, readByte, lookupByte_writeCells_congr hm hn l h]

/-- A byte that only one tile writes reads as after that tile's part alone. -/
theorem readByte_writeCells_flatMap {l : List Tile} (hnodup : l.Nodup) {t : Tile} (ht : t ∈ l)
    {f : Tile → List Host.Cell} {m : Memory} (hwf : memWf m) {a : Nat}
    (ha : ∀ u ∈ l, u ≠ t → ∀ x ∈ f u, x.1 ≠ a) :
    readByte (writeCells m (l.flatMap f)) a = readByte (writeCells m (f t)) a := by
  induction l generalizing m with
  | nil => simp at ht
  | cons u l ih =>
    obtain ⟨hu, hnodup⟩ := List.nodup_cons.mp hnodup
    rw [List.flatMap_cons, writeCells_append]
    by_cases hut : u = t
    · subst hut
      refine readByte_writeCells_of_not_mem (memWf_writeCells hwf _) fun x hx => ?_
      obtain ⟨v, hv, hx⟩ := List.mem_flatMap.mp hx
      exact ha v (List.mem_cons_of_mem _ hv) (ne_of_mem_of_not_mem hv hu) x hx
    · have hwf' := memWf_writeCells hwf (f u)
      rw [ih hnodup ((List.mem_cons.mp ht).resolve_left (Ne.symm hut)) hwf'
        fun v hv => ha v (List.mem_cons_of_mem _ hv)]
      exact readByte_writeCells_congr hwf' hwf _ (lookupByte_writeCells_of_not_mem hwf (ha u (by simp) hut))

/-! ### A tile in flight -/

/-- A tile in flight at its stage: its scratch, and the cells it has written, are those that memory `m` gives. -/
inductive Reached (j : Job) (c : HostRegs) (m : Memory) : InFlight → List Host.Cell → Prop where
  | quant (t : Tile) (stage : Stage) (qt : QuantTile) (x : TileParts) (work : jobWork j c t = .quant qt)
      (parts : IsParts (jobMode j) m qt x) :
      Reached j c m ⟨t, stage, scratchBefore (jobMode j) qt x stage⟩ (doneBefore (jobMode j) qt x stage)
  | deq (f : InFlight) (l : List DeqElem) (work : jobWork j c f.tile = .deq l) : Reached j c m f []

/-- A tile that has written `done` goes on by one step: it writes `new` and is at a stage again, or it has written its
cells and is over. -/
def StepsTo (j : Job) (c : HostRegs) (m : Memory) (t : Tile) (done : List Host.Cell) (s u : State) : Prop :=
  ∃ new, (∀ x ∈ new, IsTarget (jobMode j).et (jobWork j c t) x.1) ∧
    ((∃ g : InFlight, g.tile = t ∧ Reached j c m g (done ++ new) ∧
        u = updateFlight g { s with mem := writeCells s.mem new }) ∨
      (jobTileCells j c m t = some (done ++ new) ∧ u = endTile t { s with mem := writeCells s.mem new }))

/-- Memory `m'` has what memory `m` has for tile `t` to read, and `done` where the tile writes. -/
structure SeenBy (j : Job) (c : HostRegs) (m m' : Memory) (t : Tile) (done : List Host.Cell) : Prop where
  sources : ∀ a, IsSource (jobMode j).et (jobWork j c t) a → readByte m' a = readByte m a
  targets : ∀ a, IsTarget (jobMode j).et (jobWork j c t) a → readByte m' a = readByte (writeCells m done) a

section Flight

variable {j : Job} {c : HostRegs} {m : Memory} {s : State}

/-- A tile with a result is begun, not ended. -/
theorem exists_reached_startTile {t : Tile} {cells : List Host.Cell} (hctx : s.ctx = c)
    (hsources : ∀ a, IsSource (jobMode j).et (jobWork j c t) a → readByte s.mem a = readByte m a)
    (hcells : jobTileCells j c m t = some cells) :
    ∃ g : InFlight, g.tile = t ∧ Reached j c m g [] ∧ startTile j t s = { s with flight := s.flight ++ [g] } := by
  subst hctx
  unfold startTile
  split
  · next qt hwork =>
    rw [hwork] at hsources
    rw [jobTileCells, hwork] at hcells
    obtain ⟨x, hx⟩ := exists_isParts hcells
    rw [readBuffer_congr hsources, hx.buffer]
    exact ⟨⟨t, .params, freshScratch (jobMode j) qt x.buffer⟩, rfl, .quant t .params qt x hwork hx, rfl⟩
  · next l hwork => exact ⟨⟨t, .codes, ⟨[], [], []⟩⟩, rfl, .deq _ l hwork, rfl⟩

/-- A quantizing tile takes each of its stages with the parts of the memory at launch. -/
theorem stepsTo_advanceTile_quant {t : Tile} {stage : Stage} {qt : QuantTile} {x : TileParts} (hctx : s.ctx = c)
    (hwf : memWf m) (hwork : jobWork j c t = .quant qt) (hparts : IsParts (jobMode j) m qt x)
    (hcov : SlotsCovered qt) (hkept : ScalesKept (jobMode j).et qt)
    (hseen : SeenBy j c m s.mem t (doneBefore (jobMode j) qt x stage)) :
    StepsTo j c m t (doneBefore (jobMode j) qt x stage) s
      (advanceTile j ⟨t, stage, scratchBefore (jobMode j) qt x stage⟩ s) := by
  subst hctx
  have reached (next : Stage) := Reached.quant (j := j) (c := s.ctx) (m := m) t next qt x hwork hparts
  simp only [StepsTo, hwork]
  cases stage with
  | params =>
    refine ⟨x.scales, fun y hy => .inl (scaleCells_target hparts.scales hy), .inl ⟨_, rfl, reached .zeroPoints, ?_⟩⟩
    simp [advanceTile, hwork, stageParams, scratchBefore, freshScratch, hparts.bufferParams, hparts.scales]
  | zeroPoints =>
    refine ⟨zpCells (jobMode j) qt (accumulators (jobMode j) qt x.params), fun y hy => .inr (.inl (zpCells_target hy)),
      .inl ⟨_, rfl, reached .recips, ?_⟩⟩
    simp [advanceTile, hwork, stageZeroPoints, scratchBefore]
  | recips =>
    have hrecips := hparts.readRecips hwf hkept fun a ha => hseen.targets a (by rw [hwork]; exact .inl ha)
    refine ⟨[], by simp, .inl ⟨⟨t, .codes, scratchBefore (jobMode j) qt x .codes⟩, rfl, ?_, ?_⟩⟩
    · rw [List.append_nil]
      exact reached .codes
    · simp [advanceTile, hwork, stageRecips, scratchBefore, hrecips]
  | codes =>
    refine ⟨x.codes, fun y hy => .inr (.inr (dataCells_target hparts.codes hy)), .inr ⟨?_, ?_⟩⟩
    · rw [jobTileCells, hwork]
      exact hparts.quantTileCells_eq
    · simp [advanceTile, hwork, stageCodes, scratchBefore, hparts.bufferCodes hcov]

/-- A dequantizing tile does all in one step (R236). -/
theorem stepsTo_advanceTile_deq {f : InFlight} {l : List DeqElem} {cells : List Host.Cell} (hctx : s.ctx = c)
    (hwork : jobWork j c f.tile = .deq l)
    (hsources : ∀ a, IsSource (jobMode j).et (jobWork j c f.tile) a → readByte s.mem a = readByte m a)
    (hcells : jobTileCells j c m f.tile = some cells) : StepsTo j c m f.tile [] s (advanceTile j f s) := by
  subst hctx
  rw [hwork] at hsources
  have hnow : collectCells (deqCells (jobMode j).et s.mem) l = some cells := by
    rw [← hcells, jobTileCells, hwork]
    exact tileCells_congr (w := .deq l) trivial hsources
  refine ⟨cells, fun x hx => ?_, .inr ⟨hcells, ?_⟩⟩
  · rw [hwork]
    exact deqCells_target hnow hx
  · simp [advanceTile, hwork, stageDequantize, hnow]

theorem Sound.stepsTo_advanceTile (h : Sound j c) (hwf : memWf m) (hctx : s.ctx = c) {f : InFlight}
    {done cells : List Host.Cell} (ht : f.tile ∈ jobTiles j c) (hreached : Reached j c m f done)
    (hcells : jobTileCells j c m f.tile = some cells) (hseen : SeenBy j c m s.mem f.tile done) :
    StepsTo j c m f.tile done s (advanceTile j f s) := by
  cases hreached with
  | quant t stage qt x hwork hparts =>
    have hcov : WorkCovered (jobWork j c t) := workCovered_jobWork ht
    rw [hwork] at hcov
    exact stepsTo_advanceTile_quant hctx hwf hwork hparts hcov (h.scalesKept ht hwork) hseen
  | deq _ l hwork => exact stepsTo_advanceTile_deq hctx hwork hseen.sources hcells

end Flight

/-! ### A running command -/

/-- A command whose run tile by tile has a result to reach: no clash, and every tile has its cells at launch. -/
structure CleanLaunch (j : Job) (s₀ : State) : Prop where
  job : contextJob s₀.ctx = some j
  sound : Sound j s₀.ctx
  wf : memWf s₀.mem
  specified : ∀ t ∈ jobTiles j s₀.ctx, ∃ cells, jobTileCells j s₀.ctx s₀.mem t = some cells
  performed : performAll j s₀ =
    complete false { s₀ with mem := writeCells s₀.mem ((jobTiles j s₀.ctx).flatMap (cellsOf j s₀.ctx s₀.mem)) }
  unspoiled : (dispatchTiles j s₀).spoiled = false

theorem cleanLaunch_of_specified {j : Job} {s₀ : State} (hjob : contextJob s₀.ctx = some j) (hpasses : Passes j s₀)
    (hspecified : Specified j s₀) (hwf : memWf s₀.mem) : CleanLaunch j s₀ := by
  obtain ⟨cells, hresult⟩ := Option.ne_none_iff_exists'.mp hspecified
  obtain ⟨hconfig, -⟩ := jobError_eq_none hpasses.2
  obtain ⟨hclash, hcollect⟩ := jobResult_eq_some hresult
  refine ⟨hjob, ⟨hconfig, hclash⟩, hwf, fun t => collectCells_of_mem hcollect, ?_, by simp [hresult]⟩
  rw [← collectCells_eq_flatMap hcollect fun t _ cs => cellsOf_eq]
  simp [performAll, hresult]

/-- The state `s` of a run launched in `s₀`, of which tile `t` has written `done t`. -/
structure Tracks (j : Job) (s₀ s : State) (done : Tile → List Host.Cell) : Prop where
  frame : s = { dispatchTiles j s₀ with mem := s.mem, pending := s.pending, flight := s.flight }
  mem : s.mem = writeCells s₀.mem ((jobTiles j s₀.ctx).flatMap done)
  targets : ∀ t ∈ jobTiles j s₀.ctx, ∀ x ∈ done t, IsTarget (jobMode j).et (jobWork j s₀.ctx t) x.1
  pending : ∀ t ∈ s.pending, t ∈ jobTiles j s₀.ctx
  ended : ∀ t ∈ jobTiles j s₀.ctx, t ∉ s.pending → jobTileCells j s₀.ctx s₀.mem t = some (done t)
  idle : ∀ t ∈ s.pending, (∀ f ∈ s.flight, f.tile ≠ t) → done t = []
  flight : ∀ f ∈ s.flight, f.tile ∈ s.pending ∧ Reached j s₀.ctx s₀.mem f (done f.tile)

theorem tracks_dispatchTiles (j : Job) (s₀ : State) : Tracks j s₀ (dispatchTiles j s₀) fun _ => [] where
  frame := rfl
  mem := by rw [List.flatMap_eq_nil_iff.mpr fun _ _ => rfl]; rfl
  targets := by simp
  pending := fun t ht => ht
  ended := fun t ht hnot => absurd ht hnot
  idle := fun _ _ _ => rfl
  flight := by simp

section Run

variable {j : Job} {s₀ s : State} {done : Tile → List Host.Cell}

theorem Tracks.ctx (h : Tracks j s₀ s done) : s.ctx = s₀.ctx := (congrArg State.ctx h.frame :)

/-- What a tile sees: its sources as at launch, and its own cells. -/
theorem Tracks.seenBy (h : Tracks j s₀ s done) (hlaunch : CleanLaunch j s₀) {t : Tile} (ht : t ∈ jobTiles j s₀.ctx) :
    SeenBy j s₀.ctx s₀.mem s.mem t (done t) where
  sources := fun a ha => by
    rw [h.mem]
    refine readByte_writeCells_of_not_mem hlaunch.wf ?_
    rintro x hx rfl
    obtain ⟨u, hu, hx⟩ := List.mem_flatMap.mp hx
    have hread := not_inWritten_of_inReadBuffer hlaunch.sound.noClash (inReadBuffer_of_source ht ha)
    rw [inWritten_of_target hu (h.targets u hu x hx)] at hread
    cases hread
  targets := fun a ha => by
    rw [h.mem]
    refine readByte_writeCells_flatMap (nodup_jobTiles j _) ht hlaunch.wf ?_
    rintro u hu hut x hx rfl
    exact hut (hlaunch.sound.target_unique hu ht (h.targets u hu x hx) ha)

/-- Tile `t` has written `new`, and what is pending and in flight is as the parts say: the run is still on track. -/
theorem Tracks.write (h : Tracks j s₀ s done) (hlaunch : CleanLaunch j s₀) {t : Tile} (ht : t ∈ jobTiles j s₀.ctx)
    {new : List Host.Cell} (hnew : ∀ x ∈ new, IsTarget (jobMode j).et (jobWork j s₀.ctx t) x.1)
    {pending : List Tile} {flight : List InFlight} (hsub : ∀ u ∈ pending, u ∈ s.pending)
    (hover : t ∉ pending → jobTileCells j s₀.ctx s₀.mem t = some (done t ++ new))
    (hkeep : ∀ u ∈ s.pending, u ≠ t → u ∈ pending)
    (hidle : ∀ u ∈ pending, (∀ f ∈ flight, f.tile ≠ u) → u ≠ t ∧ ∀ f ∈ s.flight, f.tile ≠ u)
    (hflight : ∀ f ∈ flight, (f.tile = t ∧ t ∈ pending ∧ Reached j s₀.ctx s₀.mem f (done t ++ new)) ∨
      (f.tile ≠ t ∧ f ∈ s.flight)) :
    Tracks j s₀ { s with mem := writeCells s.mem new, pending := pending, flight := flight }
      (Function.update done t (done t ++ new)) where
  frame := by
    rw [h.frame]
  mem := by
    rw [h.mem]
    refine writeCells_flatMap_update (nodup_jobTiles j _) ht hlaunch.wf fun u hu hut => ?_
    exact hlaunch.sound.apart hu ht hut (h.targets u hu) hnew
  targets := fun u hu x hx => by
    by_cases hut : u = t
    · subst hut
      rw [Function.update_self] at hx
      exact (List.mem_append.mp hx).elim (h.targets u hu x) (hnew x)
    · rw [Function.update_of_ne hut] at hx
      exact h.targets u hu x hx
  pending := fun u hu => h.pending u (hsub u hu)
  ended := fun u hu hnot => by
    by_cases hut : u = t
    · subst hut
      rw [Function.update_self]
      exact hover hnot
    · rw [Function.update_of_ne hut]
      exact h.ended u hu fun hpending => hnot (hkeep u hpending hut)
  idle := fun u hu hfree => by
    obtain ⟨hut, hfree⟩ := hidle u hu hfree
    rw [Function.update_of_ne hut]
    exact h.idle u (hsub u hu) hfree
  flight := fun f hf => by
    rcases hflight f hf with ⟨rfl, hpending, hreached⟩ | ⟨hft, hf⟩
    · rw [Function.update_self]
      exact ⟨hpending, hreached⟩
    · obtain ⟨hpending, hreached⟩ := h.flight f hf
      rw [Function.update_of_ne hft]
      exact ⟨hkeep _ hpending hft, hreached⟩

/-- A tile in flight taken on keeps the run on track. -/
theorem Tracks.advanceTile (h : Tracks j s₀ s done) (hlaunch : CleanLaunch j s₀) {f : InFlight} (hf : f ∈ s.flight) :
    ∃ done', Tracks j s₀ (advanceTile j f s) done' := by
  obtain ⟨hpending, hreached⟩ := h.flight f hf
  have ht := h.pending _ hpending
  obtain ⟨cells, hcells⟩ := hlaunch.specified _ ht
  obtain ⟨new, hnew, ⟨g, hg, hnext, heq⟩ | ⟨hover, heq⟩⟩ :=
    hlaunch.sound.stepsTo_advanceTile hlaunch.wf h.ctx ht hreached hcells (h.seenBy hlaunch ht)
  · rw [heq]
    refine ⟨_, h.write hlaunch ht hnew (fun _ h => h) (fun hnot => absurd hpending hnot) (fun _ h _ => h)
      (fun u _ hfree => ?_) fun e he => ?_⟩
    · have htile (e : InFlight) : (if e.tile = g.tile then g else e).tile = e.tile := by
        split
        · next he => exact he.symm
        · rfl
      have hfree' : ∀ e ∈ s.flight, e.tile ≠ u := fun e he =>
        htile e ▸ hfree _ (List.mem_map_of_mem he)
      exact ⟨fun hut => hfree' f hf hut.symm, hfree'⟩
    · obtain ⟨old, hold, rfl⟩ := List.mem_map.mp he
      split
      · exact .inl ⟨hg, hpending, hnext⟩
      · next hne => exact .inr ⟨hg ▸ hne, hold⟩
  · rw [heq]
    refine ⟨_, h.write hlaunch ht hnew (fun u hu => (List.mem_filter.mp hu).1) (fun _ => hover)
      (fun u hu hut => List.mem_filter.mpr ⟨hu, by simpa using hut⟩) (fun u hu hfree => ?_) fun e he => ?_⟩
    · have hut : u ≠ f.tile := by simpa using (List.mem_filter.mp hu).2
      refine ⟨hut, fun e he heu => hfree e (List.mem_filter.mpr ⟨he, ?_⟩) heu⟩
      simpa [heu] using hut
    · obtain ⟨he, hne⟩ := List.mem_filter.mp he
      exact .inr ⟨by simpa using hne, he⟩

/-- A tile begun keeps the run on track. -/
theorem Tracks.startTile (h : Tracks j s₀ s done) (hlaunch : CleanLaunch j s₀) {t : Tile} (ht : t ∈ s.pending)
    (hfree : ∀ f ∈ s.flight, f.tile ≠ t) : Tracks j s₀ (startTile j t s) done := by
  have htile := h.pending t ht
  obtain ⟨cells, hcells⟩ := hlaunch.specified t htile
  obtain ⟨g, hg, hreached, heq⟩ := exists_reached_startTile h.ctx (h.seenBy hlaunch htile).sources hcells
  have hdone : done t = [] := h.idle t ht hfree
  rw [heq]
  exact
    { frame := by rw [h.frame]
      mem := h.mem
      targets := h.targets
      pending := h.pending
      ended := h.ended
      idle := fun u hu hnone => h.idle u hu fun f hf => hnone f (List.mem_append_left _ hf)
      flight := fun f hf => by
        rcases List.mem_append.mp hf with hf | hf
        · exact h.flight f hf
        · obtain rfl := List.mem_singleton.mp hf
          rw [hg, hdone]
          exact ⟨ht, hreached⟩ }

/-- With no tile pending every tile has its cells, and the barrier leaves the state of the command as one step. -/
theorem Tracks.finish (h : Tracks j s₀ s done) (hlaunch : CleanLaunch j s₀) (hpending : s.pending = []) :
    finish s = performAll j s₀ := by
  have hspoiled : s.spoiled = false := (congrArg State.spoiled h.frame).trans hlaunch.unspoiled
  have hdone : (jobTiles j s₀.ctx).flatMap done = (jobTiles j s₀.ctx).flatMap (cellsOf j s₀.ctx s₀.mem) :=
    List.flatMap_congr fun t ht => (cellsOf_eq (h.ended t ht (by simp [hpending]))).symm
  have hmem := h.mem
  rw [hdone] at hmem
  rw [Machine.finish, if_neg (by simp [hspoiled]), hlaunch.performed, ← hmem, h.frame]
  rfl

theorem Tracks.progress (h : Tracks j s₀ s done) (hlaunch : CleanLaunch j s₀) (k : Nat) :
    (∃ done', Tracks j s₀ (progress k s) done') ∨ progress k s = performAll j s₀ := by
  rcases progress_cases k s with ⟨-, heq⟩ | ⟨-, hpending, heq⟩ | ⟨-, j', hjob, t, ht, heq⟩ | ⟨-, -, -, heq⟩
  · exact .inl ⟨done, heq.symm ▸ h⟩
  · exact .inr (heq ▸ h.finish hlaunch hpending)
  · obtain rfl : j = j' := Option.some.inj (hlaunch.job.symm.trans (h.ctx ▸ hjob))
    rw [heq]
    rcases workOn_cases j t s with ⟨f, hf, hwork⟩ | ⟨hfree, -, hwork⟩ | ⟨-, -, hwork⟩
    · exact .inl (hwork ▸ h.advanceTile hlaunch hf)
    · exact .inl ⟨done, hwork ▸ h.startTile hlaunch ht hfree⟩
    · exact .inl ⟨done, hwork.symm ▸ h⟩
  · exact .inl ⟨done, heq.symm ▸ h⟩

end Run

theorem schedule_of_not_busy {s : State} (h : s.phase ≠ .busy) (choices : List Nat) : Claim.schedule s choices = s := by
  induction choices with
  | nil => rfl
  | cons k rest ih =>
    have hsame : progress k s = s := if_neg h
    rw [Claim.schedule, hsame, ih]

theorem performAll_phase (j : Job) (s : State) : (performAll j s).phase = .done := by
  rcases performAll_cases j s with ⟨cells, -, h⟩ | ⟨-, h⟩ <;> rw [h, complete_phase]

/-- Under any schedule the run is on track, or over in the state of the command as one step. -/
theorem Tracks.schedule {j : Job} {s₀ s : State} {done : Tile → List Host.Cell} (h : Tracks j s₀ s done)
    (hlaunch : CleanLaunch j s₀) (choices : List Nat) :
    (∃ done', Tracks j s₀ (Claim.schedule s choices) done') ∨ Claim.schedule s choices = performAll j s₀ := by
  induction choices generalizing s done with
  | nil => exact .inl ⟨done, h⟩
  | cons k rest ih =>
    rw [Claim.schedule]
    rcases h.progress hlaunch k with ⟨done', h'⟩ | heq
    · exact ih h'
    · rw [heq]
      exact .inr (schedule_of_not_busy (by simp [performAll_phase]) rest)

/-- A bulk command's meaning is the run of its job. -/
theorem exec_of_jobOf {i : Instr} {j : Job} (h : jobOf i = some j) (s : State) : exec i s = .next (runBulk j s) := by
  cases i with
  | geom | r2qS | r2qA | norm | packQ4 | packQ2 | packQ8 | unpackQ4 | unpackQ2 | unpackQ8 | qdqr => cases h
  | _ =>
    obtain rfl := Option.some.inj h
    rfl

end Sys2Proof.Machine

namespace Sys2Proof.Proofs

open Sys2Proof.Machine

/-- Settles O52: a launch is one of the two granularities, and a run tile by tile stays on track until it is over. -/
theorem tiledRunEqualsAtomicRun : Obligations.TiledRunEqualsAtomicRun := by
  refine ⟨fun i j s hjob ⟨hempty, herr⟩ => ⟨fun hgrain => ?_, fun hgrain => ?_⟩, ?_⟩
  · rw [exec_of_jobOf hjob]
    simp [runBulk, hempty, herr, hgrain]
  · refine ⟨?_, rfl, rfl, rfl, rfl, by simp [Specified]⟩
    rw [exec_of_jobOf hjob]
    simp [runBulk, hempty, herr, hgrain]
  · intro j s choices hjob hpasses hspecified hwf hover
    have hlaunch := cleanLaunch_of_specified hjob hpasses hspecified hwf
    refine ((tracks_dispatchTiles j s).schedule hlaunch choices).resolve_left fun ⟨done, h⟩ => ?_
    exact hover (congrArg State.phase h.frame)

end Sys2Proof.Proofs
end

section
/-! The command word (R90 to R92): a word is its fields, and the decoder and the encoder are inverse to each other. -/

namespace Sys2Proof

/-! ### The fields of a word (R90) -/

/-- The word whose bits 10:0 are the fields, the reserved bits 0. -/
def CmdFields.word (f : CmdFields) : Word :=
  assemble f.op f.qb (BitVec.ofBool f.cw) (BitVec.ofBool f.zpen) (BitVec.ofBool f.et) f.lv

theorem extractLsb'_one (w : Word) (k : Nat) : w.extractLsb' k 1 = BitVec.ofBool (w.getLsbD k) := by
  ext n hn
  obtain rfl : n = 0 := by omega
  simp

/-- A word whose reserved bits are 0 is made of its fields: they lie next to each other, from bit 31 down to bit 0. -/
theorem word_splitFields {w : Word} (hreserved : (splitFields w).reserved = 0) : (splitFields w).word = w := by
  have htop : w.extractLsb' 11 21 = 0#21 := hreserved
  simp (disch := omega) only [CmdFields.word, assemble, splitFields, ← extractLsb'_one, ← htop,
    BitVec.extractLsb'_append_extractLsb'_eq_extractLsb', -Nat.reduceAdd]
  exact BitVec.extractLsb'_eq_self

/-- The fields of an assembled word are those it was assembled from. -/
theorem splitFields_assemble (op : BitVec 4) (qb : BitVec 2) (cw zpen et : BitVec 1) (lv : BitVec 2) :
    splitFields (assemble op qb cw zpen et lv) = ⟨op, qb, cw[0], zpen[0], et[0], lv, 0⟩ := by
  have hbit (b : BitVec 1) : b.getLsbD 0 = b[0] := rfl
  simp [splitFields, assemble, BitVec.extractLsb'_append_eq_ite, BitVec.getLsbD_append, hbit,
    -Nat.reduceAdd, -BitVec.getLsbD_eq_getElem]

@[simp] theorem widthOf_widthBits (q : Width) : widthOf (widthBits q) = .ok q := by
  cases q <;> rfl

theorem widthOf_eq_ok {qb : BitVec 2} {q : Width} (h : widthOf qb = .ok q) : qb = widthBits q := by
  revert h
  cases q <;> revert qb <;> decide

@[simp] theorem orientBit_orientOf (cw : Bool) : orientBit (orientOf cw) = BitVec.ofBool cw := by
  cases cw <;> rfl

@[simp] theorem orientOf_orientBit (o : Orient) : orientOf ((orientBit o)[0]) = o := by
  cases o <;> rfl

@[simp] theorem elemTypeBit_elemTypeOf (et : Bool) : elemTypeBit (elemTypeOf et) = BitVec.ofBool et := by
  cases et <;> rfl

@[simp] theorem elemTypeOf_elemTypeBit (et : ElemType) : elemTypeOf ((elemTypeBit et)[0]) = et := by
  cases et <;> rfl

@[simp] theorem getElem_zpenBit (z : Bool) : (zpenBit z)[0] = z := by
  cases z <;> rfl

/-! ### Encoding, then decoding -/

/-- Of the fields of the word, each row of R92 checks those that `encode` sets to constants and reads the others. -/
theorem decode_encode {i : Instr} (h : i.wf = true) : decode (encode i) = .ok i := by
  cases i with
  | packQ4 | packQ2 | packQ8 | unpackQ4 | unpackQ2 | unpackQ8 =>
    simp [encode, decode, splitFields_assemble, packerRow]
  | geom | r2qS | r2qA | norm | qdqcS | qdqcA | qdqr =>
    simp only [Instr.wf] at h
    simp [encode, decode, splitFields_assemble, narrowRow, h]
  | qtS | qtA | dqtS | dqtA =>
    simp [encode, decode, splitFields_assemble, fixedRow, widthOf]
  | _ =>
    simp [encode, decode, splitFields_assemble, legacyRow, fixedRow, widthOf]

/-! ### Decoding, then encoding -/

/-- The command is well formed and its word has these fields. -/
def Encodes (i : Instr) (f : CmdFields) : Prop := i.wf = true ∧ encode i = f.word

theorem encodes_iff {i : Instr} {f : CmdFields} :
    Encodes i f ↔ i.wf = true ∧
      encode i = assemble f.op f.qb (BitVec.ofBool f.cw) (BitVec.ofBool f.zpen) (BitVec.ofBool f.et) f.lv := Iff.rfl

/-! For each kind of row of R92, what the row has checked when it answers a command. -/

theorem Encodes.of_narrowRow {f : CmdFields} {z : Bool} {mk : Width → Instr} {i : Instr}
    (h : narrowRow f z mk = .ok i)
    (hrow : ∀ q, f.qb = widthBits q → q.isNarrow = true → z = true → Encodes (mk q) f) : Encodes i f := by
  unfold narrowRow at h
  split at h
  · cases h
  next q hq =>
    split at h
    next hnarrow =>
      split at h
      next hz =>
        obtain rfl := Except.ok.inj h
        exact hrow q (widthOf_eq_ok hq) hnarrow hz
      · cases h
    · cases h

theorem Encodes.of_fixedRow {f : CmdFields} {z : Bool} {i₀ i : Instr} (h : fixedRow f z i₀ = .ok i)
    (hrow : f.qb = 0#2 → z = true → Encodes i₀ f) : Encodes i f := by
  unfold fixedRow at h
  split at h
  · cases h
  next hq =>
    split at h
    next hz =>
      obtain rfl := Except.ok.inj h
      exact hrow (widthOf_eq_ok hq) hz
    · cases h
  · cases h

theorem Encodes.of_packerRow {f : CmdFields} {i4 i2 i8 i : Instr} (h : packerRow f i4 i2 i8 = .ok i)
    (hrow : f.cw = false → f.zpen = false → f.et = false → f.lv = 0#2 →
      ∀ p ∈ [(Width.q4, i4), (Width.q2, i2), (Width.q8, i8)], f.qb = widthBits p.1 → Encodes p.2 f) : Encodes i f := by
  unfold packerRow at h
  split at h
  · cases h
  next q hq =>
    split at h
    · cases h
    next hzero =>
      simp only [Bool.or_eq_true, bne_iff_ne, not_or, Bool.not_eq_true, not_not] at hzero
      obtain ⟨⟨⟨hcw, hzpen⟩, het⟩, hlv⟩ := hzero
      obtain rfl := Except.ok.inj h
      exact hrow hcw hzpen het hlv (q, _) (by cases q <;> simp) (widthOf_eq_ok hq)

theorem Encodes.of_legacyRow {f : CmdFields} {s32 s64 s128 a32 i : Instr} (h : legacyRow f s32 s64 s128 a32 = .ok i)
    (hrow : f.qb = 0#2 → f.cw = false → f.zpen = false → f.et = false →
      ∀ p ∈ [(0b00#2, s32), (0b01#2, s64), (0b10#2, s128), (0b11#2, a32)], f.lv = p.1 → Encodes p.2 f) :
    Encodes i f := by
  refine .of_fixedRow h fun hqb hzero => ?_
  simp only [Bool.and_eq_true, Bool.not_eq_true'] at hzero
  obtain ⟨⟨hcw, hzpen⟩, het⟩ := hzero
  refine hrow hqb hcw hzpen het (f.lv, _) ?_ rfl
  generalize f.lv = lv
  match lv with
  | 0b00#2 | 0b01#2 | 0b10#2 | 0b11#2 => simp

/-- A word that decodes is the word of its command, opcode by opcode (R91). -/
theorem encode_of_decode {w : Word} {i : Instr} (h : decode w = .ok i) : i.wf = true ∧ encode i = w := by
  unfold decode at h
  dsimp only at h
  split at h
  · cases h
  next hreserved =>
  rw [bne_iff_ne, not_not] at hreserved
  suffices hfields : Encodes i (splitFields w) from ⟨hfields.1, hfields.2.trans (word_splitFields hreserved)⟩
  generalize splitFields w = f at h
  have hop {n : Nat} (hn : f.op.toNat = n) : f.op = BitVec.ofNat 4 n := by simp [← hn]
  split at h
  next geom =>
    refine .of_narrowRow h fun q hqb hnarrow hzero => ?_
    simp_all [encodes_iff, encode, Instr.wf, zpenBit, hop geom]
  next r2q =>
    refine .of_narrowRow h fun q hqb hnarrow hzero => ?_
    cases hzpen : f.zpen <;> simp_all [encodes_iff, encode, Instr.wf, hop r2q]
  next norm =>
    refine .of_narrowRow h fun q hqb hnarrow hzero => ?_
    simp_all [encodes_iff, encode, Instr.wf, hop norm]
  next pack =>
    refine .of_packerRow h ?_
    simp +contextual [encodes_iff, encode, Instr.wf, hop pack]
  next unpack =>
    refine .of_packerRow h ?_
    simp +contextual [encodes_iff, encode, Instr.wf, hop unpack]
  next qt =>
    refine .of_fixedRow h fun hqb hzero => ?_
    cases hzpen : f.zpen <;> simp_all [encodes_iff, encode, Instr.wf, hop qt]
  next dqt =>
    refine .of_fixedRow h fun hqb hzero => ?_
    cases hzpen : f.zpen <;> simp_all [encodes_iff, encode, Instr.wf, hop dqt]
  next qdq =>
    refine .of_narrowRow h fun q hqb hnarrow hzero => ?_
    cases hcw : f.cw <;> cases hzpen : f.zpen <;> simp_all [encodes_iff, encode, Instr.wf, zpenBit, hop qdq]
  next lpack =>
    refine .of_legacyRow h ?_
    simp +contextual [encodes_iff, encode, Instr.wf, hop lpack]
  next lunpack =>
    refine .of_legacyRow h ?_
    simp +contextual [encodes_iff, encode, Instr.wf, hop lunpack]
  · cases h

theorem decode_eq_ok_iff (w : Word) (i : Instr) : decode w = .ok i ↔ i.wf = true ∧ encode i = w := by
  refine ⟨encode_of_decode, ?_⟩
  rintro ⟨hwf, rfl⟩
  exact decode_encode hwf

end Sys2Proof
end

section
/-! The rows of R93 against the decoder. A row's mask leaves only `QB[0]`, `CW`, `ZPEN` and `ET` free, so at most
sixteen words meet a row; and the legal words are the words of the well-formed commands, which can be listed. -/

namespace Sys2Proof

open Laws

/-! ### The row of a command -/

/-- The word of a well-formed command is selected by the row that bears its mnemonic (R93). -/
theorem encodesInItsRow (i : Instr) : EncodesInItsRow.Statement i := by
  cases i with
  | geom w o z => exact EncodesInItsRow.geom w o z
  | r2qS w et => exact EncodesInItsRow.r2qS w et
  | r2qA w et => exact EncodesInItsRow.r2qA w et
  | norm w => exact EncodesInItsRow.norm w
  | packQ4 => exact EncodesInItsRow.packQ4
  | packQ2 => exact EncodesInItsRow.packQ2
  | packQ8 => exact EncodesInItsRow.packQ8
  | unpackQ4 => exact EncodesInItsRow.unpackQ4
  | unpackQ2 => exact EncodesInItsRow.unpackQ2
  | unpackQ8 => exact EncodesInItsRow.unpackQ8
  | qtS o et => exact EncodesInItsRow.qtS o et
  | qtA o et => exact EncodesInItsRow.qtA o et
  | dqtS o et => exact EncodesInItsRow.dqtS o et
  | dqtA o et => exact EncodesInItsRow.dqtA o et
  | qdqcS w et => exact EncodesInItsRow.qdqcS w et
  | qdqcA w et => exact EncodesInItsRow.qdqcA w et
  | qdqr w z et => exact EncodesInItsRow.qdqr w z et
  | lpackS32 => exact EncodesInItsRow.lpackS32
  | lpackS64 => exact EncodesInItsRow.lpackS64
  | lpackS128 => exact EncodesInItsRow.lpackS128
  | lpackA32 => exact EncodesInItsRow.lpackA32
  | lunpackS32 => exact EncodesInItsRow.lunpackS32
  | lunpackS64 => exact EncodesInItsRow.lunpackS64
  | lunpackS128 => exact EncodesInItsRow.lunpackS128
  | lunpackA32 => exact EncodesInItsRow.lunpackA32

theorem selects_of_decode {w : Word} {i : Instr} (h : decode w = .ok i) :
    ∃ r ∈ opcodeRows, r.mnemonic = mnemonicOf i ∧ r.selects w = true := by
  obtain ⟨hwf, rfl⟩ := encode_of_decode h
  exact encodesInItsRow i hwf

/-! ### The words of a row -/

theorem selects_iff {r : OpcodeRow} {w : Word} : r.selects w = true ↔ w &&& r.mask = r.pattern := beq_iff_eq

/-- Two rows that disagree on a bit both of them fix select no common word. -/
theorem not_selects_both {r r' : OpcodeRow} (h : r.pattern &&& r'.mask ≠ r'.pattern &&& r.mask) (w : Word) :
    ¬ (r.selects w = true ∧ r'.selects w = true) := by
  rintro ⟨hr, hr'⟩
  rw [selects_iff] at hr hr'
  exact h (by rw [← hr, ← hr', BitVec.and_assoc, BitVec.and_assoc, BitVec.and_comm r.mask])

theorem opcodeRows_disagree :
    opcodeRows.Pairwise fun r r' => r.pattern &&& r'.mask ≠ r'.pattern &&& r.mask := by decide +kernel

/-- Bits 4, 6, 7 and 8, which are `QB[0]`, `CW`, `ZPEN` and `ET`, with the given values, every other bit 0. -/
def freeBits (qb0 cw zpen et : Bool) : Word :=
  (if qb0 then .twoPow 32 4 else 0) ||| (if cw then .twoPow 32 6 else 0) |||
    (if zpen then .twoPow 32 7 else 0) ||| (if et then .twoPow 32 8 else 0)

theorem and_freeBits (w : Word) :
    w &&& freeBits true true true true = freeBits (w.getLsbD 4) (w.getLsbD 6) (w.getLsbD 7) (w.getLsbD 8) := by
  simp only [freeBits, if_true, BitVec.and_or_distrib_left, BitVec.and_twoPow]
  rfl

/-- A word that a row selects has the row's pattern in the fixed bits; the other bits are among those of `freeBits`. -/
theorem eq_pattern_or_freeBits {r : OpcodeRow} (hr : r ∈ opcodeRows) {w : Word} (h : r.selects w = true) :
    w = r.pattern ||| (freeBits (w.getLsbD 4) (w.getLsbD 6) (w.getLsbD 7) (w.getLsbD 8) &&& ~~~r.mask) := by
  have hfree : ∀ r ∈ opcodeRows, freeBits true true true true &&& ~~~r.mask = ~~~r.mask := by decide +kernel
  rw [← and_freeBits, BitVec.and_assoc, hfree r hr, ← selects_iff.mp h, ← BitVec.and_or_distrib_left,
    BitVec.or_not_self, BitVec.and_allOnes]

/-- The words of a row decode, whatever its free fields are. -/
theorem decode_pattern_or_freeBits : ∀ r ∈ opcodeRows, ∀ qb0 cw zpen et : Bool,
    (decode (r.pattern ||| (freeBits qb0 cw zpen et &&& ~~~r.mask))).isOk = true := by decide +kernel

theorem decode_of_selects {r : OpcodeRow} (hr : r ∈ opcodeRows) {w : Word} (h : r.selects w = true) :
    ∃ i, decode w = .ok i := by
  have hok := decode_pattern_or_freeBits r hr (w.getLsbD 4) (w.getLsbD 6) (w.getLsbD 7) (w.getLsbD 8)
  rw [← eq_pattern_or_freeBits hr h] at hok
  cases hw : decode w with
  | ok i => exact ⟨i, rfl⟩
  | error e => simp [hw, Except.isOk, Except.toBool] at hok

theorem decode_eq_error_iff (w : Word) : (∃ e, decode w = .error e) ↔ ∀ r ∈ opcodeRows, r.selects w = false := by
  refine ⟨fun ⟨e, he⟩ r hr => ?_, fun h => ?_⟩
  · by_contra hsel
    obtain ⟨i, hi⟩ := decode_of_selects hr (Bool.eq_true_of_not_eq_false hsel)
    simp [hi] at he
  · cases hw : decode w with
    | error e => exact ⟨e, rfl⟩
    | ok i =>
      obtain ⟨r, hr, -, hsel⟩ := selects_of_decode hw
      simp [h r hr] at hsel

/-! ### The well-formed commands -/

/-- The widths of four and two bits. -/
def narrowWidths : List Width := [.q4, .q2]

def orients : List Orient := [.rowWise, .colWise]

def elemTypes : List ElemType := [.f32, .f16]

def bools : List Bool := [false, true]

/-- The well-formed commands, in the order of the rows of R93. -/
def legalCommands : List Instr :=
  List.flatten
    [(narrowWidths ×ˢ orients ×ˢ bools).map fun (q, o, z) => .geom q o z,
      (narrowWidths ×ˢ elemTypes).map fun (q, et) => .r2qS q et,
      (narrowWidths ×ˢ elemTypes).map fun (q, et) => .r2qA q et,
      narrowWidths.map .norm,
      [.packQ4, .packQ2, .packQ8, .unpackQ4, .unpackQ2, .unpackQ8],
      (orients ×ˢ elemTypes).map fun (o, et) => .qtS o et,
      (orients ×ˢ elemTypes).map fun (o, et) => .qtA o et,
      (orients ×ˢ elemTypes).map fun (o, et) => .dqtS o et,
      (orients ×ˢ elemTypes).map fun (o, et) => .dqtA o et,
      (narrowWidths ×ˢ elemTypes).map fun (q, et) => .qdqcS q et,
      (narrowWidths ×ˢ elemTypes).map fun (q, et) => .qdqcA q et,
      (narrowWidths ×ˢ bools ×ˢ elemTypes).map fun (q, z, et) => .qdqr q z et,
      [.lpackS32, .lpackS64, .lpackS128, .lpackA32, .lunpackS32, .lunpackS64, .lunpackS128, .lunpackA32]]

@[simp] theorem mem_narrowWidths (q : Width) : q ∈ narrowWidths ↔ q.isNarrow = true := by
  cases q <;> decide

@[simp] theorem mem_orients (o : Orient) : o ∈ orients := by
  cases o <;> decide

@[simp] theorem mem_elemTypes (et : ElemType) : et ∈ elemTypes := by
  cases et <;> decide

@[simp] theorem mem_bools (b : Bool) : b ∈ bools := by
  cases b <;> decide

theorem mem_legalCommands (i : Instr) : i ∈ legalCommands ↔ i.wf = true := by
  simp only [legalCommands, List.mem_flatten, List.exists_mem_cons_iff, List.mem_map, List.not_mem_nil, Prod.exists,
    List.mem_product, mem_narrowWidths, mem_orients, mem_elemTypes, mem_bools]
  cases i <;> simp [Instr.wf]

theorem nodup_legalCommands : legalCommands.Nodup := by decide +kernel

/-- Words whose commands have a property are as many as the well-formed commands that have it: `encode` pairs them. -/
theorem count_decode (p : Instr → Prop) [DecidablePred p] :
    Claim.Count (fun w => ∃ i, decode w = .ok i ∧ p i) (legalCommands.filter p).length := by
  refine ⟨(legalCommands.filter p).map encode, ?_, List.length_map _, fun w => ?_⟩
  · refine (nodup_legalCommands.filter _).map_on fun i hi i' hi' heq => ?_
    simp only [List.mem_filter, mem_legalCommands] at hi hi'
    exact Except.ok.inj ((decode_encode hi.1).symm.trans ((congrArg decode heq).trans (decode_encode hi'.1)))
  · simp only [List.mem_map, List.mem_filter, mem_legalCommands, decide_eq_true_eq, decode_eq_ok_iff]
    exact exists_congr fun i => and_right_comm

end Sys2Proof

namespace Sys2Proof.Proofs

/-- Settles O1: each row of the decoder reads off the fields that the encoder writes, and the fields make up the
word. -/
theorem decodeIsTheInverseOfEncode : Obligations.DecodeIsTheInverseOfEncode := decode_eq_ok_iff

/-- Settles O2: a selected word is one of the few its row leaves, and all of these decode; the legal words are counted
as the well-formed commands are. -/
theorem legalWordsAreThoseOfTheRows : Obligations.LegalWordsAreThoseOfTheRows := by
  refine ⟨fun w i => selects_of_decode, fun w => (decode_eq_error_iff w).symm, ?_, ?_, fun p hp => ?_⟩
  · exact opcodeRows_disagree.imp not_selects_both
  · change Claim.Count (fun w => ∃ i, decode w = .ok i) 64
    have hlength : legalCommands.length = 64 := by decide +kernel
    simpa [hlength] using count_decode fun _ => True
  · have hlength : (legalCommands.filter fun i => mnemonicOf i ∈ p.1).length = p.2 := by
      revert p
      decide +kernel
    rw [← hlength]
    exact count_decode fun i => mnemonicOf i ∈ p.1

/-- Settles O3: by O1 it is enough that the named commands are well formed and encode to the example words. -/
theorem exampleWordsDecode : Obligations.ExampleWordsDecode := by
  unfold Obligations.ExampleWordsDecode
  simp only [decode_eq_ok_iff]
  decide +kernel

end Sys2Proof.Proofs
end

section
/-! BlockGeometry (R130 to R138): the block grid as rounding up to whole blocks, the shape law, and `GEOM`. -/

namespace Sys2Proof.Machine

/-! ### Rounding up to whole blocks (R8, R133) -/

theorem ceilDiv_le_iff {a b k : Nat} (hb : 0 < b) : ceilDiv a b ≤ k ↔ a ≤ k * b := by
  simpa [hb] using not_congr (lt_ceilDiv_iff (k := k) (a := a) (b := b))

@[simp] theorem ceilDiv_one (a : Nat) : ceilDiv a 1 = a := by
  simp [ceilDiv]

theorem ceilDiv_le (a b : Nat) : ceilDiv a b ≤ a := by
  rcases Nat.eq_zero_or_pos b with rfl | hb
  · simp [ceilDiv]
  · exact (ceilDiv_le_iff hb).mpr (Nat.le_mul_of_pos_right a hb)

/-- The last block begins inside what the blocks cover. -/
theorem ceilDiv_mul_sub_lt {a b : Nat} (ha : 1 ≤ a) (hb : 0 < b) : ceilDiv a b * b - b < a := by
  have hpos : 0 < ceilDiv a b := lt_ceilDiv_iff.mpr ⟨hb, by omega⟩
  obtain ⟨-, hlast⟩ := lt_ceilDiv_iff.mp (Nat.sub_one_lt_of_lt hpos)
  rwa [Nat.sub_one_mul] at hlast

/-- Whole blocks cover no more than another multiple of the block that is large enough. -/
theorem ceilDiv_mul_le_of_dvd {a b n : Nat} (hb : 0 < b) (hdvd : b ∣ n) (ha : a ≤ n) : ceilDiv a b * b ≤ n := by
  obtain ⟨k, rfl⟩ := hdvd
  rw [Nat.mul_comm b k] at ha ⊢
  exact Nat.mul_le_mul_right b ((ceilDiv_le_iff hb).mpr ha)

/-- The bytes of `n` values of 4 bits (R132). -/
theorem ceilDiv_mul_four_eight (n : Nat) : ceilDiv (n * 4) 8 = ceilDiv n 2 := by
  unfold ceilDiv
  omega

theorem two_mul_ceilDiv_two {n : Nat} (h : 2 ∣ n) : 2 * ceilDiv n 2 = n := by
  unfold ceilDiv
  omega

/-! ### Supported block sizes (R6, R13) -/

theorem supportedBlock_iff {b : Nat} : supportedBlock b = true ↔ b ∈ [16, 32, 64, 128, 256] := by
  simp [supportedBlock, or_assoc]

theorem two_dvd_of_mem_blockSizes : ∀ b ∈ [16, 32, 64, 128, 256], 2 ∣ b := by decide

/-- Both sides of a block divide the largest block size, so they are positive and divide `2^32`. -/
theorem block_dvd_of_mem_blockSizes (o : Orient) :
    ∀ b ∈ [16, 32, 64, 128, 256], blockRows o b ∣ 256 ∧ blockCols o b ∣ 256 := by
  cases o <;> decide

theorem qbits_le_four {w : Width} (h : w.isNarrow = true) : qbits w ≤ 4 := by
  cases w with
  | q4 | q2 => decide
  | q8 => cases h

/-! ### The packed shape (R131, R132) -/

/-- The defining inequality of R132: the packed buffer holds every value of the grid's blocks. -/
theorem geometry_packed_large_enough (rows cols blk : Nat) (w : Width) (o : Orient) (zpen : Bool) :
    let g := geometry rows cols blk w o zpen
    g.metaRows * blockRows o blk * qbits w * (g.metaCols * blockCols o blk) ≤ g.qRows * g.qCols * 8 := by
  intro g
  have hcolumn : g.metaRows * blockRows o blk * qbits w ≤ g.qRows * 8 := le_ceilDiv_mul _ (by decide)
  calc g.metaRows * blockRows o blk * qbits w * (g.metaCols * blockCols o blk)
      ≤ g.qRows * 8 * g.qCols := Nat.mul_le_mul_right g.qCols hcolumn
    _ = g.qRows * g.qCols * 8 := Nat.mul_right_comm ..

theorem geometry_qRows_colWise {blk : Nat} (hblk : 2 ∣ blk) (rows cols : Nat) (zpen : Bool) :
    let g := geometry rows cols blk .q4 .colWise zpen
    2 * g.qRows = g.metaRows * blk :=
  (congrArg (2 * ·) (ceilDiv_mul_four_eight _)).trans (two_mul_ceilDiv_two (Dvd.dvd.mul_left hblk _))

theorem geometry_qRows_rowWise (rows cols blk : Nat) (zpen : Bool) :
    (geometry rows cols blk .q4 .rowWise zpen).qRows = ceilDiv rows 2 := by
  simp [geometry, blockRows, qbits, ceilDiv_mul_four_eight]

/-- The shapes of a matrix whose sides fit a register (R137): a block divides `2^32`, so the padded sides reach `2^32`
at most, and a row of blocks packs at least two values in a byte. -/
theorem geometry_bounds {rows cols blk : Nat} {w : Width} (o : Orient) (zpen : Bool)
    (hblk : blk ∈ [16, 32, 64, 128, 256]) (hw : w.isNarrow = true) (hrows : rows < 2 ^ 32) (hcols : cols < 2 ^ 32) :
    let g := geometry rows cols blk w o zpen
    g.metaRows < 2 ^ 32 ∧ g.metaCols < 2 ^ 32 ∧ g.qRows < 2 ^ 32 ∧ g.qCols ≤ 2 ^ 32 := by
  intro g
  obtain ⟨hbr, hbc⟩ := block_dvd_of_mem_blockSizes o blk hblk
  have hpadded {a b : Nat} (hb : b ∣ 256) (ha : a < 2 ^ 32) : ceilDiv a b * b ≤ 2 ^ 32 :=
    ceilDiv_mul_le_of_dvd (Nat.pos_of_dvd_of_pos hb (by decide)) (hb.trans (by decide)) ha.le
  have hqRows : g.qRows ≤ 2 ^ 31 := by
    refine (ceilDiv_le_iff (by decide)).mpr ?_
    calc g.metaRows * blockRows o blk * qbits w
        ≤ 2 ^ 32 * 4 := Nat.mul_le_mul (hpadded hbr hrows) (qbits_le_four hw)
      _ = 2 ^ 31 * 8 := by decide
  exact ⟨(ceilDiv_le _ _).trans_lt hrows, (ceilDiv_le _ _).trans_lt hcols, by omega, hpadded hbc hcols⟩

/-! ### `GEOM` (R134, R135, R137) -/

theorem geometryFits_iff {g : Geometry} :
    geometryFits g = true ↔
      ∀ n ∈ [g.metaRows, g.metaCols, g.qRows, g.qCols, g.qBytes, g.scCount, g.zpBytes], n < 2 ^ 32 := by
  simp only [geometryFits, Bool.and_eq_true, decide_eq_true_eq]
  simp [tooLarge, and_assoc]

theorem geometryFits_eq_false_iff {g : Geometry} : geometryFits g = false ↔ Claim.geometryTooLarge g := by
  rw [← Bool.not_eq_true, geometryFits_iff, Claim.geometryTooLarge]
  simp only [not_forall, Nat.not_lt, exists_prop]

section Geom

variable {w : Width} {o : Orient} {zpen : Bool} {s : State}

theorem execGeom_of_fits (hblk : supportedBlock s.ctx.blksz.toNat = true)
    (hfits : geometryFits (contextGeometry s.ctx w o zpen) = true) :
    execGeom w o zpen s =
      .next (complete false { s with res := geometryResults (contextGeometry s.ctx w o zpen) }) := by
  simpa [hblk, hfits] using execGeom_cases w o zpen s

theorem execGeom_of_tooLarge (hblk : supportedBlock s.ctx.blksz.toNat = true)
    (hfits : geometryFits (contextGeometry s.ctx w o zpen) = false) :
    execGeom w o zpen s = .next (raiseError .configError s) := by
  simpa [hblk, hfits] using execGeom_cases w o zpen s

theorem execGeom_of_unsupported (hblk : supportedBlock s.ctx.blksz.toNat = false) :
    execGeom w o zpen s = .next (complete true { s with res := Results.zero }) := by
  simpa [hblk] using execGeom_cases w o zpen s

end Geom

end Sys2Proof.Machine

namespace Sys2Proof.Proofs

open Sys2Proof.Machine

/-- Settles O20: the grid and the packed shape are sides rounded up to whole blocks, and whole bytes. -/
theorem geometryShapeLaw : Obligations.GeometryShapeLaw := by
  intro rows cols blk w o zpen hblk g
  obtain ⟨hbrDvd, hbcDvd⟩ := block_dvd_of_mem_blockSizes o blk hblk
  have hbr : 0 < blockRows o blk := Nat.pos_of_dvd_of_pos hbrDvd (by decide)
  have hbc : 0 < blockCols o blk := Nat.pos_of_dvd_of_pos hbcDvd (by decide)
  refine ⟨le_ceilDiv_mul rows hbr, le_ceilDiv_mul cols hbc, fun h => ceilDiv_mul_sub_lt h hbr,
    fun h => ceilDiv_mul_sub_lt h hbc, rfl, geometry_packed_large_enough rows cols blk w o zpen, ?_, ?_,
    geometry_bounds o zpen hblk⟩
  · rintro rfl rfl
    exact geometry_qRows_colWise (two_dvd_of_mem_blockSizes blk hblk) rows cols zpen
  · rintro rfl rfl
    exact geometry_qRows_rowWise rows cols blk zpen

/-- Settles O19: the three ways `GEOM` can go, with the tests of the block size and of the seven values read
off. The formulas of R131 are `contextGeometry` once the orientation has fixed the sides of a block. -/
theorem geomComputesTheGeometry : Obligations.GeomComputesTheGeometry := by
  intro w o zpen s
  refine ⟨fun hblk hall => ?_, fun hblk hlarge => ?_, fun hblk => ?_⟩
  · have hfits : geometryFits (contextGeometry s.ctx w o zpen) = true := by
      cases o <;> exact geometryFits_iff.mpr hall
    cases o <;> exact execGeom_of_fits (supportedBlock_iff.mpr hblk) hfits
  · refine execGeom_of_tooLarge (supportedBlock_iff.mpr hblk) (geometryFits_eq_false_iff.mpr ?_)
    cases o <;> exact hlarge
  · exact execGeom_of_unsupported (Bool.eq_false_of_not_eq_true (mt supportedBlock_iff.mp hblk))

end Sys2Proof.Proofs
end

section
/-! RangeToQuantParam (R150 to R163): the block scan, the scale and zero point of a range, `R2Q`, and the bound that a
clamp puts on a zero point or a code (R156, R172). -/

namespace Sys2Proof.Machine

/-! ### Small integers, clamping and rounding to an integer (R9, R10) -/

theorem value_ofNat (n : Nat) : value (ofNat n) = (unitOne * n : Nat) := rfl

@[simp] theorem value_ofNat_zero : value (ofNat 0) = 0 := by simp [value_ofNat]

theorem ltF_iff {a b : Flt} : ltF a b = true ↔ value a < value b := decide_eq_true_iff

theorem ofNat_mag_ne_zero {n : Nat} (h : 0 < n) : (ofNat n).mag ≠ 0 := (Nat.mul_pos unitOne_pos h).ne'

theorem isZero_iff {a : Flt} : isZero a = true ↔ value a = 0 := by
  rw [value_eq_zero_iff, isZero, beq_iff_eq]

/-- A value is clamped to an end that it passes; between 0 and `n` its magnitude is the value. -/
theorem clampF_mag_le (v : Flt) (n : Nat) : (clampF v (ofNat 0) (ofNat n)).mag ≤ unitOne * n := by
  unfold clampF
  split
  · exact Nat.zero_le _
  · split
    · exact le_rfl
    · next hlow hhigh =>
      rw [ltF_iff, value_ofNat_zero] at hlow
      rw [ltF_iff, value_ofNat] at hhigh
      rw [← value_natAbs v]
      omega

theorem clampF_zero (n : Nat) : clampF (ofNat 0) (ofNat 0) (ofNat n) = ofNat 0 := by
  have hhigh : ¬ ltF (ofNat n) (ofNat 0) = true := by
    rw [ltF_iff, value_ofNat, value_ofNat_zero]
    omega
  rw [clampF, if_neg hhigh, ite_self]

theorem toNat_clampF_le (v : Flt) (n : Nat) : toNat (clampF v (ofNat 0) (ofNat n)) ≤ n :=
  Nat.div_le_of_le_mul (clampF_mag_le v n)

theorem toNat_truncate (a : Flt) : toNat (truncate a) = toNat a := Nat.mul_div_cancel_left _ unitOne_pos

theorem toNat_roundAway (a : Flt) : toNat (roundAway a) = awayInt a := Nat.mul_div_cancel_left _ unitOne_pos

/-- An integer bound survives rounding to the nearest integer. -/
theorem awayInt_le {a : Flt} {n : Nat} (h : a.mag ≤ unitOne * n) : awayInt a ≤ n :=
  calc awayInt a ≤ awayInt (ofNat n) := Nat.div_le_div_right (Nat.add_le_add_left h _)
    _ = n := awayInt_of_integer rfl

/-! ### Zeros, and division by `-mid` (R152) -/

theorem round32_zero (neg : Bool) {den : Nat} (hden : 0 < den) :
    round32 neg 0 den = some { neg := neg, mag := 0 } := by
  unfold round32
  simp only
  rw [roundTo_zero (by omega) hden, if_pos (by decide +kernel)]

theorem fdiv_of_mag_eq_zero {a b : Flt} (ha : a.mag = 0) (hb : b.mag ≠ 0) :
    fdiv a b = some { neg := a.neg != b.neg, mag := 0 } := by
  rw [fdiv, if_neg hb, ha, Nat.mul_zero, round32_zero _ (Nat.pos_of_ne_zero hb)]

theorem HasPrecision.of_mul_two_pow {p k x : Nat} (h : HasPrecision p (x * 2 ^ k)) : HasPrecision p x := by
  obtain ⟨m, e, hm, hx⟩ := h
  rcases Nat.le_total k e with hk | hk
  · refine ⟨m, e - k, hm, Nat.eq_of_mul_eq_mul_right (Nat.two_pow_pos k) ?_⟩
    rw [hx, Nat.mul_assoc, ← Nat.pow_add, Nat.sub_add_cancel hk]
  · have hxm : x * 2 ^ k ≤ m * 2 ^ k := hx ▸ Nat.mul_le_mul_left m (Nat.pow_le_pow_right (by omega) hk)
    exact hasPrecision_of_le ((Nat.le_of_mul_le_mul_right hxm (Nat.two_pow_pos k)).trans hm)

/-- A number of the format that is at least the least normal number times `2 ^ k` has a quotient by `2 ^ k` in the
format. -/
theorem HasPrecision.exists_quotient {p k x : Nat} (h : HasPrecision p x) (hp : 0 < p)
    (hx : 2 ^ (p - 1) * 2 ^ k ≤ x) : ∃ q, HasPrecision p q ∧ x = q * 2 ^ k := by
  have hdvd : 2 ^ k ∣ x := by
    rcases h.le_or_dvd hp k with hdvd | ⟨-, hle⟩
    · exact hdvd
    · exact ⟨2 ^ (p - 1), by rw [Nat.mul_comm]; exact le_antisymm hle hx⟩
  obtain ⟨q, rfl⟩ := hdvd
  rw [Nat.mul_comm] at h ⊢
  exact ⟨q, h.of_mul_two_pow, rfl⟩

theorem qmax_pos (w : Width) : 0 < qmax w := by
  cases w <;> decide

theorem two_le_mid (w : Width) : 2 ≤ mid w := by
  cases w <;> decide

theorem unitOne_mul_mid_pos (w : Width) : 0 < unitOne * mid w :=
  Nat.mul_pos unitOne_pos (Nat.zero_lt_of_lt (two_le_mid w))

theorem fdiv_neg_mid (v : Flt) (w : Width) :
    fdiv v (fneg (ofNat (mid w))) = round32 (!v.neg) (unitOne * v.mag) (unitOne * mid w) := by
  have hne : (fneg (ofNat (mid w))).mag ≠ 0 := (unitOne_mul_mid_pos w).ne'
  rw [fdiv, if_neg hne]
  exact congrArg (round32 · _ _) (Bool.bne_true _)

/-- The quotient by `-mid` is at most half the value, so it does not overflow. -/
theorem exists_fdiv_neg_mid {v : Flt} (hv : Claim.IsBinary32 v) (w : Width) :
    ∃ scale, fdiv v (fneg (ofNat (mid w))) = some scale := by
  rw [fdiv_neg_mid, ← Option.ne_none_iff_exists', ne_eq, round32_eq_none_iff,
    limit32_le_roundTo_iff _ (unitOne_mul_mid_pos w), Nat.mul_left_comm, Nat.mul_le_mul_left_iff unitOne_pos, Nat.not_le]
  have hlimit : limit32 = 2 ^ (24 + 253) := two_pow_mul_two_pow rfl
  calc v.mag < limit32 := ((isBinary32_iff v).mp hv).2
    _ ≤ 2 * Claim.overflow32 := by
      rw [two_mul_overflow32, hlimit]
      exact Nat.le_add_right _ _
    _ ≤ Claim.overflow32 * mid w := by rw [Nat.mul_comm]; exact Nat.mul_le_mul_left _ (two_le_mid w)

theorem fdiv_neg_mid_neg {v scale : Flt} {w : Width} (h : fdiv v (fneg (ofNat (mid w))) = some scale) :
    scale.neg = !v.neg := by
  rw [fdiv_neg_mid] at h
  obtain ⟨-, rfl⟩ := round32_eq_some h
  rfl

/-- A quotient by `-mid` that is not subnormal is exact. -/
theorem fdiv_neg_mid_exact {v scale : Flt} {w : Width} (hv : Claim.IsBinary32 v)
    (h : fdiv v (fneg (ofNat (mid w))) = some scale) (hle : 2 ^ 23 * mid w ≤ v.mag) :
    scale.mag * mid w = v.mag := by
  obtain ⟨q, hq, hvq⟩ := ((isBinary32_iff v).mp hv).1.exists_quotient (by omega) hle
  have hnum : unitOne * v.mag = q * (unitOne * mid w) := by rw [hvq, Nat.mul_left_comm]; rfl
  rw [fdiv_neg_mid, hnum] at h
  obtain ⟨-, rfl⟩ := round32_eq_some h
  rw [roundTo_of_hasPrecision (by omega) (unitOne_mul_mid_pos w) hq]
  exact hvq.symm

/-! ### The range functions (R152, R153) -/

theorem range2scale_eq (lo hi : Flt) (w : Width) :
    range2scale lo hi w = fdiv (if lo.mag ≤ hi.mag then hi else lo) (fneg (ofNat (mid w))) := by
  have hlt : ltF (fabs hi) (fabs lo) = true ↔ ¬ lo.mag ≤ hi.mag := by simp [ltF_iff, value, fabs]
  unfold range2scale
  simp only [hlt, ite_not]

theorem minF_zero (a : Flt) : minF a (ofNat 0) = if value a < 0 then a else ofNat 0 := by
  simp [minF, ltF_iff]

theorem maxF_zero (a : Flt) : maxF a (ofNat 0) = if 0 < value a then a else ofNat 0 := by
  simp [maxF, ltF_iff]

/-- R153 as written: both operations and the guarded division answer, and the zero point is the clamped quotient
rounded. -/
theorem range2scalezp_eq_some_iff {lo hi scale : Flt} {w : Width} {zp : Nat} :
    range2scalezp lo hi w = some (scale, zp) ↔
      ∃ range zf, fsub (if 0 < value hi then hi else ofNat 0) (if value lo < 0 then lo else ofNat 0) = some range ∧
        fdiv range (ofNat (qmax w)) = some scale ∧
        (if isZero scale = true then some (if value lo < 0 then lo else ofNat 0)
          else fdiv (fneg (if value lo < 0 then lo else ofNat 0)) scale) = some zf ∧
        toNat (roundAway (clampF zf (ofNat 0) (ofNat (qmax w)))) = zp := by
  unfold range2scalezp
  simp only [minF_zero, maxF_zero]
  constructor
  · intro h
    split at h
    · cases h
    · next range hrange =>
      split at h
      · cases h
      · next scale' hscale =>
        split at h
        · cases h
        · next zf hzf =>
          obtain ⟨rfl, hzp⟩ := Prod.mk.inj (Option.some.inj h)
          exact ⟨range, zf, hrange, hscale, hzf, hzp⟩
  · rintro ⟨range, zf, hrange, hscale, hzf, rfl⟩
    simp only [hrange, hscale, hzf]

/-! ### Codes (R171, R285, R286) -/

theorem quantizeWith_eq_some_iff {v rs : Flt} {zp : Nat} {w : Width} {c : Nat} :
    quantizeWith v rs zp w = some c ↔
      ∃ p x, fmul v rs = some p ∧ fadd p (ofNat zp) = some x ∧
        toNat (clampF (roundAway x) (ofNat 0) (ofNat (qmax w))) = c := by
  unfold quantizeWith
  constructor
  · intro h
    split at h
    · cases h
    · next p hp =>
      split at h
      · cases h
      · next x hx => exact ⟨p, x, hp, hx, Option.some.inj h⟩
  · rintro ⟨p, x, hp, hx, rfl⟩
    simp only [hp, hx]

theorem quantize_eq_some_iff {v scale : Flt} {zp : Nat} {w : Width} {c : Nat} :
    quantize v scale zp w = some c ↔ ∃ rs, rcp scale = some rs ∧ quantizeWith v rs zp w = some c := by
  unfold quantize
  cases rcp scale <;> simp

theorem legacySymCode_eq_some_iff {v rs : Flt} {c : Nat} :
    legacySymCode v rs = some c ↔
      ∃ p x, fmul v rs = some p ∧ fadd p eightAndAHalf = some x ∧
        toNat (truncate (clampF x (ofNat 0) (ofNat 15))) = c := by
  unfold legacySymCode
  cases fmul v rs <;> simp

theorem legacyAsymCode_eq_some_iff {v rs : Flt} {zp c : Nat} :
    legacyAsymCode v rs zp = some c ↔
      ∃ p x, fmul v rs = some p ∧ fadd (roundAway p) (ofNat zp) = some x ∧
        toNat (clampF x (ofNat 0) (ofNat 15)) = c := by
  unfold legacyAsymCode
  cases fmul v rs <;> simp

/-! ### The block scan (R159) -/

/-- `y` is the first element of `xs` whose key is least. -/
def FirstLeast (key : Flt → Int) (xs : List Flt) (y : Flt) : Prop :=
  ∃ i : Nat, xs[i]? = some y ∧ (∀ x ∈ xs, key y ≤ key x) ∧ ∀ k < i, ∀ x, xs[k]? = some x → key y < key x

theorem firstLeast_singleton (key : Flt → Int) (x : Flt) : FirstLeast key [x] x :=
  ⟨0, rfl, by simp, fun k hk => absurd hk (Nat.not_lt_zero k)⟩

/-- A further element is the first least one exactly when it is strictly less than the one before. -/
theorem FirstLeast.concat {key : Flt → Int} {xs : List Flt} {y : Flt} (h : FirstLeast key xs y) (x : Flt) :
    FirstLeast key (xs ++ [x]) (if key x < key y then x else y) := by
  obtain ⟨i, hi, hleast, hfirst⟩ := h
  split
  · next hlt =>
    refine ⟨xs.length, by simp, ?_, fun k hk z hz => ?_⟩
    · simpa [or_imp, forall_and] using fun z hz => hlt.le.trans (hleast z hz)
    · rw [List.getElem?_append_left hk] at hz
      exact hlt.trans_le (hleast z (List.mem_of_getElem? hz))
  · next hge =>
    have hlen : i < xs.length := (List.getElem?_eq_some_iff.mp hi).1
    refine ⟨i, by rwa [List.getElem?_append_left hlen], ?_, fun k hk z hz => ?_⟩
    · simpa [or_imp, forall_and] using ⟨hleast, not_lt.mp hge⟩
    · rw [List.getElem?_append_left (hk.trans hlen)] at hz
      exact hfirst k hk z hz

/-- Both ends of a scan (R159): the greatest element is the least one by the negated value. -/
def ScannedEnds (xs : List Flt) (p : Flt × Flt) : Prop :=
  FirstLeast value xs p.1 ∧ FirstLeast (fun x => -value x) xs p.2

theorem ScannedEnds.concat {xs : List Flt} {p : Flt × Flt} (h : ScannedEnds xs p) (x : Flt) :
    ScannedEnds (xs ++ [x]) (scanStep p x) := by
  obtain ⟨hlo, hhi⟩ := h
  have hlo' := hlo.concat x
  have hhi' := hhi.concat x
  simp only [neg_lt_neg_iff, ← ltF_iff] at hlo' hhi'
  exact ⟨hlo', hhi'⟩

theorem ScannedEnds.foldl {seen : List Flt} {p : Flt × Flt} (h : ScannedEnds seen p) (rest : List Flt) :
    ScannedEnds (seen ++ rest) (rest.foldl scanStep p) := by
  induction rest generalizing seen p with
  | nil => simpa using h
  | cons x rest ih => simpa using ih (h.concat x)

theorem scannedEnds_blockScan {xs : List Flt} (h : xs ≠ []) : ∃ p, blockScan xs = some p ∧ ScannedEnds xs p := by
  cases xs with
  | nil => exact absurd rfl h
  | cons x rest =>
    have hstart : ScannedEnds [x] (x, x) := ⟨firstLeast_singleton _ x, firstLeast_singleton _ x⟩
    exact ⟨_, rfl, hstart.foldl rest⟩

/-- A zero replaces neither end of zeros, whatever its sign. -/
theorem scanStep_of_isZero {p : Flt × Flt} {x : Flt} (hlo : isZero p.1 = true) (hhi : isZero p.2 = true)
    (hx : isZero x = true) : scanStep p x = p := by
  rw [isZero_iff] at hlo hhi hx
  simp [scanStep, ltF, hlo, hhi, hx]

theorem blockScan_of_isZero {x : Flt} {xs : List Flt} (h : ∀ y ∈ x :: xs, isZero y = true) :
    blockScan (x :: xs) = some (x, x) := by
  obtain ⟨hx, hxs⟩ := List.forall_mem_cons.mp h
  have hfixed : xs.foldl scanStep (x, x) = (x, x) :=
    List.foldlRecOn (motive := (· = (x, x))) xs scanStep rfl fun p hp y hy => by
      rw [hp, scanStep_of_isZero hx hx (hxs y hy)]
  exact congrArg some hfixed

/-! ### A range of zeros (R154) -/

theorem range2scale_of_isZero {x : Flt} (h : isZero x = true) (w : Width) :
    range2scale x x w = some { neg := !x.neg, mag := 0 } := by
  rw [range2scale_eq, ite_self, fdiv_neg_mid, beq_iff_eq.mp h, Nat.mul_zero, round32_zero _ (unitOne_mul_mid_pos w)]

theorem range2scalezp_of_isZero {lo hi : Flt} (hlo : isZero lo = true) (hhi : isZero hi = true) (w : Width) :
    range2scalezp lo hi w = some ({ neg := false, mag := 0 }, 0) := by
  rw [isZero_iff] at hlo hhi
  have hrange : fsub (ofNat 0) (ofNat 0) = some (ofNat 0) := by decide +kernel
  refine range2scalezp_eq_some_iff.mpr ⟨ofNat 0, ofNat 0, ?_, ?_, ?_, ?_⟩
  · simpa [hlo, hhi] using hrange
  · exact fdiv_of_mag_eq_zero rfl (ofNat_mag_ne_zero (qmax_pos w))
  · simp [hlo, isZero]
  · rw [clampF_zero, toNat_roundAway]
    exact awayInt_of_integer rfl

/-! ### `R2Q` (R162, R163) -/

theorem exec_r2qS (w : Width) (et : ElemType) (s : State) :
    exec (.r2qS w et) s = .next (runRange false w et s) := rfl

theorem exec_r2qA (w : Width) (et : ElemType) (s : State) :
    exec (.r2qA w et) s = .next (runRange true w et s) := rfl

theorem rangeResults_eq_some_iff {asym : Bool} {w : Width} {et : ElemType} {opa opb : Word} {r : Word × Word} :
    rangeResults asym w et opa opb = some r ↔
      ∃ lo hi scale zp bits, f32 opa = some lo ∧ f32 opb = some hi ∧ quantParams asym w lo hi = some (scale, zp) ∧
        elemBits et scale = some bits ∧ (BitVec.ofNat 32 bits, BitVec.ofNat 32 zp) = r := by
  unfold rangeResults scaleResult
  constructor
  · intro h
    split at h
    · next lo hi hlo hhi =>
      split at h
      · cases h
      · next scale zp hparams =>
        rw [Option.map_map] at h
        obtain ⟨bits, hbits, hr⟩ := Option.map_eq_some_iff.mp h
        exact ⟨lo, hi, scale, zp, bits, hlo, hhi, hparams, hbits, hr⟩
    · cases h
  · rintro ⟨lo, hi, scale, zp, bits, hlo, hhi, hparams, hbits, rfl⟩
    simp only [hlo, hhi, hparams, hbits, Option.map_some]

theorem runRange_of_eq_some {asym : Bool} {w : Width} {et : ElemType} {s : State} {r0 r1 : Word}
    (h : rangeResults asym w et s.ctx.opa s.ctx.opb = some (r0, r1)) :
    runRange asym w et s = complete false { s with res := { s.res with res0 := r0, res1 := r1 } } := by
  simpa [h] using runRange_cases asym w et s

end Sys2Proof.Machine

namespace Sys2Proof.Proofs

open Sys2Proof.Machine

/-- Settles O22: the quotient by `-mid` cannot overflow, and from `mid` times the least normal number on it is a binary32
value itself. -/
theorem symmetricScaleLaw : Obligations.SymmetricScaleLaw := by
  intro w lo hi _ hlo hhi v
  have hv : Claim.IsBinary32 v := by
    simp only [v]
    split
    · exact hhi
    · exact hlo
  obtain ⟨scale, hscale⟩ := exists_fdiv_neg_mid hv w
  exact ⟨scale, (range2scale_eq lo hi w).trans hscale, hscale, fdiv_neg_mid_neg hscale, fdiv_neg_mid_exact hv hscale⟩

/-- Settles O24, by the ends of the elements scanned so far as the invariant of the scan. -/
theorem blockScanFindsTheEnds : Obligations.BlockScanFindsTheEnds := by
  refine ⟨rfl, fun xs hxs => ?_⟩
  obtain ⟨⟨lo, hi⟩, hscan, ⟨i, hlo, hleast, hfirst⟩, j, hhi, hgreatest, hfirstGreatest⟩ := scannedEnds_blockScan hxs
  exact ⟨i, j, lo, hi, hscan, hlo, hhi, fun x hx => ⟨hleast x hx, neg_le_neg_iff.mp (hgreatest x hx)⟩, hfirst,
    fun k hk x hx => neg_lt_neg_iff.mp (hfirstGreatest k hk x hx)⟩

/-- Settles O25: the scan keeps the first zero as both ends. -/
theorem zeroBlockHasZeroScale : Obligations.ZeroBlockHasZeroScale := by
  intro w x xs h
  have hx : isZero x = true := h x List.mem_cons_self
  exact ⟨x, x, blockScan_of_isZero h, range2scale_of_isZero hx w, range2scalezp_of_isZero hx hx w⟩

/-- Settles O27: every mapping clamps to `0 .. qmax`, and an integer bound survives rounding. -/
theorem codesAndZeroPointsInRange : Obligations.CodesAndZeroPointsInRange := by
  refine ⟨fun w lo hi scale zp h => ?_, fun v scale zp w c h => ?_, fun v rs c h => ?_, fun v rs zp c h => ?_,
    by decide +kernel⟩
  · obtain ⟨-, zf, -, -, -, rfl⟩ := range2scalezp_eq_some_iff.mp h
    rw [toNat_roundAway]
    exact awayInt_le (clampF_mag_le zf (qmax w))
  · obtain ⟨rs, -, hcode⟩ := quantize_eq_some_iff.mp h
    obtain ⟨-, x, -, -, rfl⟩ := quantizeWith_eq_some_iff.mp hcode
    exact toNat_clampF_le _ _
  · obtain ⟨-, x, -, -, rfl⟩ := legacySymCode_eq_some_iff.mp h
    rw [toNat_truncate]
    exact toNat_clampF_le _ _
  · obtain ⟨-, x, -, -, rfl⟩ := legacyAsymCode_eq_some_iff.mp h
    exact toNat_clampF_le _ _

/-- Settles O21: `range2scale` is the quotient named in the statement, and its zero point is `mid`. -/
theorem symmetricRangeToScale : Obligations.SymmetricRangeToScale := by
  intro w et s lo hi scale bits hlo hhi hscale hbits
  simp only [value_natAbs] at hscale
  have hparams : quantParams false w lo hi = some (scale, mid w) :=
    Option.map_eq_some_iff.mpr ⟨scale, (range2scale_eq lo hi w).trans hscale, rfl⟩
  exact (exec_r2qS w et s).trans <| congrArg Host.Outcome.next <|
    runRange_of_eq_some (rangeResults_eq_some_iff.mpr ⟨lo, hi, scale, mid w, bits, hlo, hhi, hparams, hbits, rfl⟩)

/-- Settles O23: the operations of the statement are those of `range2scalezp`. -/
theorem asymmetricRangeToScale : Obligations.AsymmetricRangeToScale := by
  intro w et s lo hi range scale zf bits hlo hhi hrange hscale hzf hbits
  have hparams : quantParams true w lo hi = some (scale, _) :=
    range2scalezp_eq_some_iff.mpr ⟨range, zf, hrange, hscale, hzf, rfl⟩
  exact (exec_r2qA w et s).trans <| congrArg Host.Outcome.next <|
    runRange_of_eq_some (rangeResults_eq_some_iff.mpr ⟨lo, hi, scale, _, bits, hlo, hhi, hparams, hbits, rfl⟩)

end Sys2Proof.Proofs
end

section
/-! Normalizer (R170 to R177): small integers pass through the arithmetic unchanged, so a zero scale leaves the zero
point (R173), and `NORM`. -/

namespace Sys2Proof.Machine

/-! ### Small integers (R10) -/

/-- A binary32 value, as an exact quotient, is its own rounding. -/
theorem round32_of_isBinary32 {f : Flt} (hf : Claim.IsBinary32 f) {den : Nat} (hden : 0 < den) :
    round32 f.neg (f.mag * den) den = some f := by
  obtain ⟨hprec, hlt⟩ := (isBinary32_iff f).mp hf
  unfold round32
  simp only
  rw [roundTo_of_hasPrecision (by omega) hden hprec, if_pos hlt]

theorem isBinary32_ofNat {n : Nat} (h : n ≤ 2 ^ 24) : Claim.IsBinary32 (ofNat n) := by
  refine (isBinary32_iff _).mpr ⟨?_, ?_⟩
  · rw [ofNat, Nat.mul_comm]
    exact (hasPrecision_of_le h).mul_two_pow 149
  · exact Nat.mul_lt_mul_of_pos_left (h.trans_lt (Nat.pow_lt_pow_right (by omega) (by omega))) unitOne_pos

@[simp] theorem toNat_ofNat (n : Nat) : toNat (ofNat n) = n := Nat.mul_div_cancel_left _ unitOne_pos

@[simp] theorem roundAway_ofNat (n : Nat) : roundAway (ofNat n) = ofNat n :=
  congrArg ofNat (awayInt_of_integer (a := ofNat n) rfl)

theorem ltF_ofNat_iff (m n : Nat) : ltF (ofNat m) (ofNat n) = true ↔ m < n := by
  rw [ltF_iff, value_ofNat, value_ofNat, Int.ofNat_lt, Nat.mul_lt_mul_left unitOne_pos]

theorem clampF_ofNat {k n : Nat} (h : k ≤ n) : clampF (ofNat k) (ofNat 0) (ofNat n) = ofNat k := by
  have hlow : ¬ ltF (ofNat k) (ofNat 0) = true := by rw [ltF_ofNat_iff]; omega
  have hhigh : ¬ ltF (ofNat n) (ofNat k) = true := by rw [ltF_ofNat_iff]; omega
  rw [clampF, if_neg hlow, if_neg hhigh]

/-! ### A zero scale (R151, R173) -/

theorem rcp_of_isZero {scale : Flt} (h : isZero scale = true) : rcp scale = some (ofNat 0) := if_pos h

theorem fmul_of_mag_eq_zero (a : Flt) {b : Flt} (hb : b.mag = 0) :
    fmul a b = some { neg := a.neg != b.neg, mag := 0 } := by
  rw [fmul, hb, Nat.mul_zero, round32_zero _ unitOne_pos]

/-- A zero of either sign added to a small integer leaves it: to 0 as well, whose sign is `+`. -/
theorem fadd_ofNat_of_isZero {a : Flt} (ha : isZero a = true) {n : Nat} (hn : n ≤ 2 ^ 24) :
    fadd a (ofNat n) = some (ofNat n) := by
  have hsum : value a + value (ofNat n) = (unitOne * n : Nat) := by rw [isZero_iff.mp ha, Int.zero_add, value_ofNat]
  have hexact : round32 false (unitOne * n) 1 = some (ofNat n) := by
    simpa [ofNat] using round32_of_isBinary32 (isBinary32_ofNat hn) one_pos
  have hneg : (ofNat n).neg = false := rfl
  simpa only [fadd, hsum, hneg, Bool.and_false, (Int.natCast_nonneg _).not_gt, decide_false, ite_self,
    Int.natAbs_natCast] using hexact

theorem qmax_le (w : Width) : qmax w ≤ 2 ^ 24 := by
  cases w <;> decide

theorem mid_le_qmax (w : Width) : mid w ≤ qmax w := by
  cases w <;> decide

/-- The product with the reciprocal 0 is a zero, the sum is the zero point, and rounding and clamping keep it. -/
theorem quantize_of_isZero {scale : Flt} {zp : Nat} {w : Width} (h : isZero scale = true) (hzp : zp ≤ qmax w)
    (v : Flt) : quantize v scale zp w = some zp := by
  refine quantize_eq_some_iff.mpr ⟨ofNat 0, rcp_of_isZero h, quantizeWith_eq_some_iff.mpr ?_⟩
  refine ⟨_, ofNat zp, fmul_of_mag_eq_zero v rfl, fadd_ofNat_of_isZero rfl (hzp.trans (qmax_le w)), ?_⟩
  rw [roundAway_ofNat, clampF_ofNat hzp, toNat_ofNat]

/-! ### `NORM` (R176, R177) -/

theorem exec_norm (w : Width) (s : State) : exec (.norm w) s = execNorm w s := rfl

theorem normResults_eq_some_iff {w : Width} {opa opb : Word} {zp : Nat} {r : Word × Word} :
    normResults w opa opb zp = some r ↔
      ∃ v scale rs code, f32 opa = some v ∧ f32 opb = some scale ∧ rcp scale = some rs ∧
        quantizeWith v rs zp w = some code ∧ (BitVec.ofNat 32 code, bits32 rs) = r := by
  unfold normResults
  constructor
  · intro h
    split at h
    · next v scale hv hscale =>
      split at h
      · next rs code hrs hcode =>
        obtain ⟨rs', hrs', hcode⟩ := quantize_eq_some_iff.mp hcode
        obtain rfl : rs = rs' := Option.some.inj (hrs.symm.trans hrs')
        exact ⟨v, scale, rs, code, hv, hscale, hrs, hcode, Option.some.inj h⟩
      · cases h
    · cases h
  · rintro ⟨v, scale, rs, code, hv, hscale, hrs, hcode, rfl⟩
    have hquantize : quantize v scale zp w = some code := quantize_eq_some_iff.mpr ⟨rs, hrs, hcode⟩
    simp only [hv, hscale, hrs, hquantize]

theorem execNorm_of_qmax_lt {w : Width} {s : State} (h : qmax w < s.ctx.opc.toNat) :
    execNorm w s = .next (raiseError .operandError s) := if_pos h

theorem execNorm_of_eq_some {w : Width} {s : State} {r0 r1 : Word} (hzp : s.ctx.opc.toNat ≤ qmax w)
    (h : normResults w s.ctx.opa s.ctx.opb s.ctx.opc.toNat = some (r0, r1)) :
    execNorm w s = .next (complete false { s with res := { s.res with res0 := r0, res1 := r1 } }) := by
  simpa [h, hzp.not_gt, hzp] using execNorm_cases w s

end Sys2Proof.Machine

namespace Sys2Proof.Proofs

open Sys2Proof.Machine

/-- Settles O28: the zero point is an integer that every operation of R171 keeps, and `mid` is one of them. -/
theorem zeroScaleGivesTheZeroPoint : Obligations.ZeroScaleGivesTheZeroPoint := by
  intro w v scale zp h hzp
  exact ⟨quantize_of_isZero h hzp v, quantize_of_isZero h (mid_le_qmax w) v⟩

/-- Settles O26: the operations of the statement are those of `rcp` and `quantizeWith`. -/
theorem normQuantizesOneValue : Obligations.NormQuantizesOneValue := by
  intro w s
  refine ⟨fun h => (exec_norm w s).trans (execNorm_of_qmax_lt h), fun v scale rs p x hzp hv hscale hrs hp hx => ?_⟩
  have hcode : quantizeWith v rs s.ctx.opc.toNat w = some _ := quantizeWith_eq_some_iff.mpr ⟨p, x, hp, hx, rfl⟩
  exact (exec_norm w s).trans <|
    execNorm_of_eq_some hzp (normResults_eq_some_iff.mpr ⟨v, scale, rs, _, hv, hscale, hrs, hcode, rfl⟩)

end Sys2Proof.Proofs
end

section
/-! BitPacker (R185 to R191): the value of a packed byte is written to the base `2^qbits` with the slots as its digits,
and that of a register to the base 256 with the lanes, so packing reads digits as a number and unpacking takes the digits
of a number. -/

namespace Sys2Proof.Machine

/-! ### Digits by position -/

theorem ofDigits_map_range (b : Nat) (f : Nat → Nat) (n : Nat) :
    Nat.ofDigits b ((List.range n).map f) = ((List.range n).map fun i => f i * b ^ i).sum := by
  induction n with
  | zero => rfl
  | succ n ih => simp [List.range_succ, Nat.ofDigits_append, ih, Nat.mul_comm (f n)]

/-- The first `n` digits of a number make up its remainder by `b^n`. -/
theorem ofDigits_map_range_div_mod (b x n : Nat) :
    Nat.ofDigits b ((List.range n).map fun i => x / b ^ i % b) = x % b ^ n := by
  induction n with
  | zero => simp [Nat.mod_one]
  | succ n ih => simp [List.range_succ, Nat.ofDigits_append, ih, Nat.mod_pow_succ]

/-! ### Slots and lanes as digits (R100, R97) -/

theorem packSum_eq_ofDigits (w : Width) (values : List Nat) : packSum w values = Nat.ofDigits (2 ^ qbits w) values := by
  induction values with
  | nil => rfl
  | cons v rest ih => rw [packSum, ih, Nat.ofDigits_cons]

theorem fromLanes_eq_ofDigits (values : List Nat) : fromLanes values = BitVec.ofNat 32 (Nat.ofDigits 256 values) := by
  rw [Nat.ofDigits_eq_foldr]
  rfl

theorem slotOf_eq_digit (w : Width) (b : Byte) (i : Nat) :
    slotOf w b i = b.toNat / (2 ^ qbits w) ^ i % 2 ^ qbits w := by
  rw [slotOf, Nat.mul_comm, Nat.pow_mul]

/-- The slots of a byte tile it exactly (R188). -/
theorem two_pow_qbits_pow_perByte (w : Width) : (2 ^ qbits w) ^ perByte w = 256 := by
  cases w <;> rfl

theorem one_lt_two_pow_qbits (w : Width) : 1 < 2 ^ qbits w := by
  cases w <;> decide

theorem lt_two_pow_qbits_iff {w : Width} {v : Nat} : v < 2 ^ qbits w ↔ v ≤ qmax w :=
  Nat.lt_iff_le_pred (Nat.two_pow_pos _)

/-! ### `pack` and `unpack` (R186, R187) -/

@[simp] theorem length_unpack (w : Width) (b : Byte) : (unpack w b).length = perByte w := by simp [unpack]

theorem lt_of_mem_unpack {w : Width} {b : Byte} {v : Nat} (h : v ∈ unpack w b) : v < 2 ^ qbits w := by
  obtain ⟨i, -, rfl⟩ := List.mem_map.mp h
  exact Nat.mod_lt _ (Nat.two_pow_pos _)

theorem packSum_unpack (w : Width) (b : Byte) : packSum w (unpack w b) = b.toNat := by
  rw [packSum_eq_ofDigits, unpack, funext (slotOf_eq_digit w b), ofDigits_map_range_div_mod,
    two_pow_qbits_pow_perByte, Nat.mod_eq_of_lt b.isLt]

/-- A full tuple of values in range leaves no carry out of the byte. -/
theorem packSum_lt {w : Width} {values : List Nat} (hlen : values.length = perByte w)
    (hrange : ∀ v ∈ values, v ≤ qmax w) : packSum w values < 256 := by
  rw [packSum_eq_ofDigits, ← two_pow_qbits_pow_perByte w, ← hlen]
  exact Nat.ofDigits_lt_base_pow_length (one_lt_two_pow_qbits w) fun v hv => lt_two_pow_qbits_iff.mpr (hrange v hv)

theorem toNat_pack {w : Width} {values : List Nat} (hlen : values.length = perByte w)
    (hrange : ∀ v ∈ values, v ≤ qmax w) : (pack w values).toNat = packSum w values :=
  Nat.mod_eq_of_lt (packSum_lt hlen hrange)

theorem pack_unpack (w : Width) (b : Byte) : pack w (unpack w b) = b := by
  rw [pack, packSum_unpack, BitVec.ofNat_toNat, BitVec.setWidth_eq]

/-- Both lists are digits in range of the same packed value, and such digits are unique. -/
theorem unpack_pack {w : Width} {values : List Nat} (hlen : values.length = perByte w)
    (hrange : ∀ v ∈ values, v ≤ qmax w) : unpack w (pack w values) = values := by
  refine Nat.ofDigits_inj_of_len_eq (one_lt_two_pow_qbits w) ((length_unpack w _).trans hlen.symm)
    (fun v => lt_of_mem_unpack) (fun v hv => lt_two_pow_qbits_iff.mpr (hrange v hv)) ?_
  rw [← packSum_eq_ofDigits, ← packSum_eq_ofDigits, packSum_unpack, toNat_pack hlen hrange]

/-! ### `PACK` and `UNPACK` (R189, R190) -/

theorem exec_packInstr (w : Width) (s : State) : exec (Claim.packInstr w) s = .next (runPack w s) := by
  cases w <;> rfl

theorem exec_unpackInstr (w : Width) (s : State) : exec (Claim.unpackInstr w) s = .next (runUnpack w s) := by
  cases w <;> rfl

@[simp] theorem length_lanes (v : Word) (n : Nat) : (lanes v n).length = n := by simp [lanes]

theorem forall_mem_lanes {v : Word} {n : Nat} {p : Nat → Prop} : (∀ x ∈ lanes v n, p x) ↔ ∀ i < n, p (lane v i) := by
  simp [lanes]

theorem exists_mem_lanes {v : Word} {n : Nat} {p : Nat → Prop} : (∃ x ∈ lanes v n, p x) ↔ ∃ i < n, p (lane v i) := by
  simp [lanes]

theorem runPack_of_le_qmax {w : Width} {s : State} (h : ∀ v ∈ lanes s.ctx.opa (perByte w), v ≤ qmax w) :
    runPack w s =
      complete false
        { s with res := { s.res with res0 := (pack w (lanes s.ctx.opa (perByte w))).setWidth 32 } } := by
  rcases runPack_cases w s with ⟨-, hrun⟩ | ⟨⟨v, hv, hlt⟩, -⟩
  · exact hrun
  · exact absurd (h v hv) hlt.not_ge

theorem runPack_of_qmax_lt {w : Width} {s : State} (h : ∃ v ∈ lanes s.ctx.opa (perByte w), qmax w < v) :
    runPack w s = raiseError .operandError s := by
  obtain ⟨v, hv, hlt⟩ := h
  rcases runPack_cases w s with ⟨hle, -⟩ | ⟨-, hrun⟩
  · exact absurd (hle v hv) hlt.not_ge
  · exact hrun

/-- The byte that `PACK` writes, as the sum of R186 over the lanes. -/
theorem setWidth_pack_lanes {w : Width} {opa : Word} (h : ∀ v ∈ lanes opa (perByte w), v ≤ qmax w) :
    (pack w (lanes opa (perByte w))).setWidth 32 =
      BitVec.ofNat 32 ((List.range (perByte w)).map fun i => lane opa i * 2 ^ (i * qbits w)).sum := by
  have hsum : packSum w (lanes opa (perByte w)) =
      ((List.range (perByte w)).map fun i => lane opa i * 2 ^ (i * qbits w)).sum := by
    simp only [packSum_eq_ofDigits, lanes, ofDigits_map_range, Nat.mul_comm _ (qbits w), Nat.pow_mul]
  rw [← hsum, ← toNat_pack (length_lanes _ _) h, BitVec.ofNat_toNat]

/-- The register that `UNPACK` writes, as the sum of its lanes at their offsets. -/
theorem fromLanes_unpack (w : Width) (b : Byte) :
    fromLanes (unpack w b) =
      BitVec.ofNat 32 ((List.range (perByte w)).map fun i => slotOf w b i * 2 ^ (8 * i)).sum := by
  simp only [fromLanes_eq_ofDigits, unpack, ofDigits_map_range, Nat.pow_mul, Nat.reducePow]

end Sys2Proof.Machine

namespace Sys2Proof.Proofs

open Sys2Proof.Machine

/-- Settles O30: a byte is its slots as digits to the base `2^qbits`, and `perByte` digits in range are one byte. -/
theorem packAndUnpackAreInverse : Obligations.PackAndUnpackAreInverse :=
  ⟨fun _ _ hlen hrange => unpack_pack hlen hrange, pack_unpack⟩

/-- Settles O29: the tests of the statement are those of R191 lane by lane, and its sums are the digits of the packed
byte and of the spread register. -/
theorem packAndUnpackLanes : Obligations.PackAndUnpackLanes := by
  intro w s v
  refine ⟨fun h => ?_, fun h => ?_, ?_⟩
  · have hlanes : ∀ x ∈ lanes s.ctx.opa (perByte w), x ≤ qmax w := forall_mem_lanes.mpr h
    rw [exec_packInstr, runPack_of_le_qmax hlanes, setWidth_pack_lanes hlanes]
    rfl
  · rw [exec_packInstr, runPack_of_qmax_lt (exists_mem_lanes.mpr h)]
  · rw [exec_unpackInstr, runUnpack, fromLanes_unpack]
    simp only [slotOf, perByte, BitVec.toNat_setWidth, Nat.reducePow]

end Sys2Proof.Proofs
end

section
/-! Quantizing tiles in general (R204 to R206): when a tile has its cells, which addresses they stand at, and what each
of them holds, read off the parameters of the tile's blocks. -/

namespace Sys2Proof.Machine

/-! ### Parts that all exist -/

theorem collect_isSome_iff {α β : Type} {f : α → Option β} {l : List α} :
    (collect f l).isSome = true ↔ ∀ a ∈ l, (f a).isSome = true := by
  induction l with
  | nil => simp
  | cons a l ih =>
    rw [collect_cons, List.forall_mem_cons, ← ih]
    cases f a with
    | none => simp
    | some b => cases collect f l <;> simp

theorem collect_map {α β γ : Type} (f : β → Option γ) (g : α → β) (l : List α) :
    collect f (l.map g) = collect (f ∘ g) l := by
  induction l with
  | nil => rfl
  | cons a l ih => rw [List.map_cons, collect_cons, collect_cons, ih, Function.comp_apply]

theorem isSome_collectCells_iff {α : Type} {f : α → Option (List Host.Cell)} {l : List α} :
    (collectCells f l).isSome = true ↔ ∀ a ∈ l, (f a).isSome = true := by
  rw [collectCells, Option.isSome_map, collect_isSome_iff]

/-! ### Rounded-up quotients -/

theorem div_lt_ceilDiv {i b n : Nat} (hb : 0 < b) (hi : i < n) : i / b < ceilDiv n b :=
  lt_ceilDiv_iff.mpr ⟨hb, (Nat.div_mul_le_self i b).trans_lt hi⟩

theorem lt_ceilDiv_two_iff {p n : Nat} : p < ceilDiv n 2 ↔ 2 * p < n := by
  rw [lt_ceilDiv_iff]
  omega

/-! ### The elements of a block in scan order (R159) -/

/-- The indices below `n` whose block of `b` is number `k`. -/
theorem filter_range_div {n b k : Nat} (hb : 0 < b) :
    ((List.range n).filter fun i => i / b == k) = span (k * b) (min (k * b + b) n) := by
  refine (List.pairwise_lt_range.filter _).eq_of_mem_iff (pairwise_span _ _) fun i => ?_
  rw [List.mem_filter, List.mem_range, mem_span, lt_min_iff, beq_iff_eq, Nat.div_eq_iff hb]
  omega

/-- A filter of a grid by rows and by columns. -/
theorem filter_grid {α β : Type} (p : α → Bool) (q : β → Bool) (l : List α) (l' : List β) :
    ((l.flatMap fun a => l'.map fun b => (a, b)).filter fun x => p x.1 && q x.2) =
      (l.filter p).flatMap fun a => (l'.filter q).map fun b => (a, b) := by
  induction l with
  | nil => rfl
  | cons a l ih =>
    rw [List.flatMap_cons, List.filter_append, ih, List.filter_map, List.filter_cons]
    cases hp : p a with
    | true => simp [Function.comp_def, hp]
    | false => simp [Function.comp_def, hp]

/-! ### The parameters of a block -/

section Params

variable {q : QuantMode} {c : HostRegs} {m : Memory} {b : Block} {block : List (Nat × Nat)}

/-- A block's parameters are those of its elements' positions (R159, R204). -/
theorem blockParam_eq_params (h : b.elems = block.map fun x => rowMajorAddr c (esz q.et) x.1 x.2) :
    blockParam q (elemRead q.et m) b =
      (Claim.params c m q.asym q.width q.et block).map fun p => { scale := p.1, zp := p.2 } := by
  have hsource : collect (elemRead q.et m) b.elems = collect (Claim.source c m q.et) block := by
    rw [h, collect_map]
    rfl
  rw [blockParam, Claim.params, hsource]
  cases collect (Claim.source c m q.et) block with
  | none => rfl
  | some xs =>
    cases hscan : blockScan xs with
    | none => simp [hscan]
    | some ends =>
      simp only [hscan]
      rfl

/-- The code of an element under the stored reciprocal and the zero point of its block (R206, R208). -/
theorem code_eq_bind {asym : Bool} {w : Width} {et : ElemType} {scale : Flt} {zp : Nat} {x : Nat × Nat}
    (h : Claim.params c m asym w et block = some (scale, zp)) :
    Claim.code c m asym w et block x =
      (Claim.source c m et x).bind fun v => ((elemRound et scale).bind rcp).bind fun r => quantizeWith v r zp w := by
  rw [Claim.code, h]
  cases Claim.source c m et x with
  | none => rfl
  | some v =>
    cases hround : elemRound et scale with
    | none => simp [hround]
    | some s =>
      simp only [hround, Option.bind_some, quantize]
      cases rcp s <;> rfl

end Params

/-! ### The parameters of a tile's blocks -/

section Tile

variable {q : QuantMode} {elem : Nat → Option Flt} {t : QuantTile} {ps : List BlockParam} {k : Nat}

theorem blockParam_of_getElem? (hps : collect (blockParam q elem) t.blocks = some ps) {b : Block}
    (hb : t.blocks[k]? = some b) : ∃ p, blockParam q elem b = some p ∧ ps[k]? = some p := by
  obtain ⟨p, -, hp⟩ := collect_of_mem hps (List.mem_of_getElem? hb)
  exact ⟨p, hp, by rw [collect_getElem? hps, hb, Option.bind_some, hp]⟩

/-- An accumulator is the zero point of its block, and `mid` when the block is absent (R209). -/
theorem getD_accumulators (q : QuantMode) (t : QuantTile) (ps : List BlockParam) (k : Nat) :
    (accumulators q t ps).getD k (mid q.width) = (ps[k]?.map BlockParam.zp).getD (mid q.width) := by
  rw [accumulators, List.getD_eq_getElem?_getD, List.getElem?_append, List.length_map, List.getElem?_map]
  split
  · rfl
  · next h =>
    rw [List.getElem?_eq_none (not_lt.mp h), List.getElem?_replicate]
    split <;> rfl

theorem slotValue_elem_eq_bind (q : QuantMode) (elem : Nat → Option Flt) (rs : List Flt) (zacc : List Nat)
    (a k : Nat) :
    slotValue q elem rs zacc (.elem a k) =
      (elem a).bind fun v => rs[k]?.bind fun r => codeOf q v r (zacc.getD k (mid q.width)) := by
  rw [slotValue]
  cases elem a <;> cases rs[k]? <;> rfl

/-! ### The cells of a tile -/

theorem scaleCells_eq_collectCells (q : QuantMode) (bs : List Block) (ps : List BlockParam) :
    scaleCells q bs ps = collectCells (fun y => elemCells q.et y.1.scaleAddr y.2.scale) (bs.zip ps) := by
  induction bs generalizing ps with
  | nil => rfl
  | cons b bs ih =>
    cases ps with
    | nil => rfl
    | cons p ps =>
      rw [scaleCells, ih, collectCells, List.zip_cons_cons, collectCells, collect_cons]
      cases elemCells q.et b.scaleAddr p.scale with
      | none => rfl
      | some cells => cases collect (fun y => elemCells q.et y.1.scaleAddr y.2.scale) (bs.zip ps) <;> rfl

/-- Each pair of a block and its entry in the parameters is a block with its parameters. -/
theorem blockParam_of_mem_zip (hps : collect (blockParam q elem) t.blocks = some ps) {y : Block × BlockParam}
    (hy : y ∈ t.blocks.zip ps) : y.1 ∈ t.blocks ∧ blockParam q elem y.1 = some y.2 :=
  ⟨(List.of_mem_zip hy).1, List.forall₂_zip (collect_eq_some.mp hps) hy⟩

/-- What the scale cells of a tile hold (R204). -/
theorem mem_scaleCells (hps : collect (blockParam q elem) t.blocks = some ps) {sc : List Host.Cell}
    (hsc : scaleCells q t.blocks ps = some sc) {x : Host.Cell} (hx : x ∈ sc) :
    ∃ b ∈ t.blocks, ∃ p v k, blockParam q elem b = some p ∧ elemBits q.et p.scale = some v ∧ k < esz q.et ∧
      x = (b.scaleAddr + k, BitVec.ofNat 8 (v / 256 ^ k)) := by
  rw [scaleCells_eq_collectCells] at hsc
  obtain ⟨y, hy, cs, hcs, hx⟩ := (mem_collectCells hsc).mp hx
  obtain ⟨hb, hp⟩ := blockParam_of_mem_zip hps hy
  obtain ⟨v, hv, rfl⟩ := Option.map_eq_some_iff.mp hcs
  obtain ⟨k, hk, rfl⟩ := mem_wordCells hx
  exact ⟨y.1, hb, y.2, v, k, hp, hv, hk, rfl⟩

/-- Every target of a tile has a cell. -/
theorem exists_cell_of_target {cells : List Host.Cell} (h : quantTileCells q elem t = some cells) {a : Nat}
    (ha : IsTarget q.et (.quant t) a) : ∃ x ∈ cells, x.1 = a := by
  obtain ⟨ps, sc, rs, d, hps, hsc, -, hd, rfl⟩ := quantTileCells_eq_some h
  rcases ha with ⟨b, hb, hlow, hhigh⟩ | ⟨z, hz, rfl⟩ | ⟨y, hy, rfl⟩
  · obtain ⟨k, hk⟩ := List.mem_iff_getElem?.mp hb
    obtain ⟨p, -, hp⟩ := blockParam_of_getElem? hps hk
    have hzip : (b, p) ∈ t.blocks.zip ps := List.mem_of_getElem? (List.getElem?_zip_eq_some.mpr ⟨hk, hp⟩)
    rw [scaleCells_eq_collectCells] at hsc
    obtain ⟨cs, hcs⟩ := collectCells_of_mem hsc hzip
    obtain ⟨v, -, rfl⟩ := Option.map_eq_some_iff.mp hcs
    have hcell := mem_wordCells_of_lt (a := b.scaleAddr) (v := v) (show a - b.scaleAddr < esz q.et by omega)
    rw [Nat.add_sub_cancel' hlow] at hcell
    have hx := (mem_collectCells hsc).mpr ⟨_, hzip, _, hcs, hcell⟩
    exact ⟨_, List.mem_append_left _ (List.mem_append_left _ hx), rfl⟩
  · exact ⟨_, List.mem_append_left _ (List.mem_append_right _ (List.mem_map_of_mem hz)), rfl⟩
  · obtain ⟨x, hx, hcell⟩ := collect_of_mem hd hy
    obtain ⟨values, -, rfl⟩ := Option.map_eq_some_iff.mp hcell
    exact ⟨_, List.mem_append_right _ hx, rfl⟩

/-- A tile has its cells when every block has a scale that can be stored and inverted, and every packed byte its
slots. -/
theorem quantTileCells_isSome
    (hblocks : ∀ b ∈ t.blocks, ∃ p, blockParam q elem b = some p ∧ (elemBits q.et p.scale).isSome = true ∧
      (storedRecip q p).isSome = true)
    (hdata : ∀ ps rs, collect (blockParam q elem) t.blocks = some ps → collect (storedRecip q) ps = some rs →
      (dataCells q elem rs (accumulators q t ps) t).isSome = true) :
    (quantTileCells q elem t).isSome = true := by
  obtain ⟨ps, hps⟩ := Option.isSome_iff_exists.mp (collect_isSome_iff.mpr fun b hb => by
    obtain ⟨p, hp, -⟩ := hblocks b hb
    exact Option.isSome_of_eq_some hp)
  have hrecip : ∀ p ∈ ps, (storedRecip q p).isSome = true := fun p hp => by
    obtain ⟨b, hb, hbp⟩ := mem_of_collect hps hp
    obtain ⟨p', hp', -, hr⟩ := hblocks b hb
    rwa [Option.some.inj (hbp.symm.trans hp')]
  have hscale : ∀ y ∈ t.blocks.zip ps, (elemCells q.et y.1.scaleAddr y.2.scale).isSome = true := fun y hy => by
    obtain ⟨hb, hbp⟩ := blockParam_of_mem_zip hps hy
    obtain ⟨p', hp', hs, -⟩ := hblocks y.1 hb
    rwa [elemCells, Option.isSome_map, Option.some.inj (hbp.symm.trans hp')]
  obtain ⟨sc, hsc⟩ := Option.isSome_iff_exists.mp (isSome_collectCells_iff.mpr hscale)
  obtain ⟨rs, hrs⟩ := Option.isSome_iff_exists.mp (collect_isSome_iff.mpr hrecip)
  simp [quantTileCells, hps, scaleCells_eq_collectCells, hsc, hrs, hdata ps rs hps hrs]

end Tile

/-! ### A stored value read back (R62) -/

theorem elemBits_lt {et : ElemType} {f : Flt} {v : Nat} (h : elemBits et f = some v) : v < 256 ^ esz et := by
  cases et with
  | f32 =>
    obtain rfl : (bits32 f).toNat = v := Option.some.inj h
    exact (bits32 f).isLt
  | f16 =>
    obtain ⟨g, -, rfl⟩ := Option.map_eq_some_iff.mp h
    exact (bits16 g).isLt

/-! ### Cells by their places in the buffers -/

/-- The cell lies in a buffer that the command writes and holds the byte that `byte` gives for its place there. -/
def Valued (j : Job) (c : HostRegs) (byte : Nat → Nat → Option Byte) (x : Host.Cell) : Prop :=
  ∃ i e, (jobExtents j c)[i]? = some e ∧ e.written = true ∧ inExtent e x.1 = true ∧
    byte i (x.1 - e.base) = some x.2

theorem valued_offset {j : Job} {c : HostRegs} {byte : Nat → Nat → Option Byte} {i base size k : Nat} {v : Byte}
    (he : (jobExtents j c)[i]? = some ⟨base, size, true⟩) (hk : k < size) (hv : byte i k = some v) :
    Valued j c byte (base + k, v) :=
  ⟨i, _, he, rfl, inExtent_offset hk, by rwa [Nat.add_sub_cancel_left]⟩

/-- A place that is written reads as the byte for it: with no clash an address has one place (R67). -/
theorem readByte_of_valued {j : Job} {c : HostRegs} {byte : Nat → Nat → Option Byte} {m : Memory}
    {cells : List Host.Cell} (hwf : memWf m) (hclash : anyClash (jobExtents j c) = false)
    (hcells : ∀ x ∈ cells, Valued j c byte x) {i base size k : Nat}
    (he : (jobExtents j c)[i]? = some ⟨base, size, true⟩) (hk : k < size) (hx : ∃ x ∈ cells, x.1 = base + k) :
    byte i k = some (readByte (writeCells m cells) (base + k)) := by
  have hbyte : ∀ x ∈ cells, x.1 = base + k → byte i k = some x.2 := fun x hx hxa => by
    obtain ⟨i', e, he', -, hin, hv⟩ := hcells x hx
    rw [hxa] at hin hv
    obtain rfl := index_unique hclash he he' rfl (inExtent_offset hk) hin
    obtain rfl := Option.some.inj (he.symm.trans he')
    rwa [Nat.add_sub_cancel_left] at hv
  obtain ⟨x, hx, hxa⟩ := hx
  rw [hbyte x hx hxa, readByte_writeCells_of_mem hwf (hxa ▸ hx) fun y hy hya =>
    Option.some.inj ((hbyte y hy hya).symm.trans (hbyte x hx hxa))]

end Sys2Proof.Machine
end

section
/-! The block-transpose quantizer (R201 to R210): the cells of a tile are those of R208, every place of R208 has one,
and so `QT.S` and `QT.A` leave the memory that R208 describes. -/

namespace Sys2Proof.Machine

section Transposed

variable {c : HostRegs} {m : Memory} {asym : Bool} {o : Orient} {et : ElemType} {t : Tile}

/-! ### The tile of a block and of an element (R203) -/

/-- The tiles are the pairs of block rows, and the block columns. -/
theorem mem_transposedTiles_iff :
    t ∈ transposedTiles c o ↔ 2 * t.r < Claim.metaRows c o ∧ t.c < Claim.metaCols c o := by
  refine mem_tileGrid.trans (and_congr_left' ?_)
  rw [Claim.metaRows, lt_ceilDiv_iff, lt_ceilDiv_iff, Nat.mul_left_comm, ← Nat.mul_assoc]
  omega

theorem blockCols_pos_of_mem (ht : t ∈ transposedTiles c o) : 0 < blockCols o c.blksz.toNat :=
  (lt_ceilDiv_iff.mp (block_of_transposedTile ht).2.2).1

/-- The block of a row of a tile is one of the tile's two. -/
theorem blockRow_of_transposedTile {row : Nat} (ht : t ∈ transposedTiles c o)
    (hlow : (transposedBounds c o t).r0 ≤ row) (hhigh : row < (transposedBounds c o t).r1) :
    row / blockRows o c.blksz.toNat = 2 * t.r + row / blockRows o c.blksz.toNat % 2 ∧
      row / blockRows o c.blksz.toNat < Claim.metaRows c o := by
  obtain ⟨hbr, -, -⟩ := block_of_transposedTile ht
  obtain ⟨hlt, hrow⟩ := lt_min_iff.mp hhigh
  have htile : row / blockRows o c.blksz.toNat / 2 = t.r := by
    rw [Nat.div_div_eq_div_mul, Nat.mul_comm]
    exact Nat.div_eq_of_lt_le hlow (by rwa [Nat.add_one_mul])
  exact ⟨by omega, div_lt_ceilDiv hbr hrow⟩

theorem blockCol_of_transposedTile {col : Nat} (hlow : (transposedBounds c o t).c0 ≤ col)
    (hhigh : col < (transposedBounds c o t).c1) : col / blockCols o c.blksz.toNat = t.c :=
  Nat.div_eq_of_lt_le hlow (by rw [Nat.add_one_mul]; exact (lt_min_iff.mp hhigh).1)

/-- Every element lies in a tile. -/
theorem exists_transposedTile {row col : Nat} (hbr : 0 < blockRows o c.blksz.toNat)
    (hbc : 0 < blockCols o c.blksz.toNat) (hrow : row < c.rows.toNat) (hcol : col < c.cols.toNat) :
    ∃ t ∈ transposedTiles c o, row ∈ span (transposedBounds c o t).r0 (transposedBounds c o t).r1 ∧
      col ∈ span (transposedBounds c o t).c0 (transposedBounds c o t).c1 := by
  have hheight : 0 < 2 * blockRows o c.blksz.toNat := by omega
  have hin {i b n : Nat} (hb : 0 < b) (hi : i < n) : i ∈ span (i / b * b) (min (i / b * b + b) n) :=
    mem_span.mpr ⟨Nat.div_mul_le_self i b, lt_min (Nat.lt_div_mul_add hb) hi⟩
  exact ⟨⟨row / (2 * blockRows o c.blksz.toNat), col / blockCols o c.blksz.toNat⟩,
    mem_tileGrid.mpr ⟨div_lt_ceilDiv hheight hrow, div_lt_ceilDiv hbc hcol⟩, hin hheight hrow, hin hbc hcol⟩

/-! ### The blocks of a tile (R204) -/

theorem qtTile_blocks (ht : t ∈ transposedTiles c o) :
    (qtTile c asym o et t).blocks =
      if 2 * t.r + 1 < Claim.metaRows c o then [qtBlock c o et t 0, qtBlock c o et t 1] else [qtBlock c o et t 0] := by
  have hsecond : (transposedBounds c o t).r0 + blockRows o c.blksz.toNat < (transposedBounds c o t).r1 ↔
      2 * t.r + 1 < Claim.metaRows c o := by
    refine ⟨second_block_of_transposedTile ht, fun h => ?_⟩
    obtain ⟨hbr, hrow⟩ := lt_ceilDiv_iff.mp h
    rw [Nat.add_one_mul, Nat.mul_comm 2, Nat.mul_assoc] at hrow
    exact lt_min (by simp only [transposedBounds]; omega) hrow
  simp only [qtTile, hsecond]

/-- Sub-block `k` of a tile, when it is present. -/
theorem qtTile_blocks_getElem? (ht : t ∈ transposedTiles c o) {k : Nat} (hk : k < 2)
    (hpresent : 2 * t.r + k < Claim.metaRows c o) :
    (qtTile c asym o et t).blocks[k]? = some (qtBlock c o et t k) := by
  rw [qtTile_blocks ht]
  obtain rfl | rfl : k = 0 ∨ k = 1 := by omega
  · split <;> rfl
  · rw [if_pos hpresent]
    rfl

theorem mem_qtTile_blocks (ht : t ∈ transposedTiles c o) {b : Block} (hb : b ∈ (qtTile c asym o et t).blocks) :
    ∃ k < 2, 2 * t.r + k < Claim.metaRows c o ∧ b = qtBlock c o et t k := by
  obtain ⟨hr, -⟩ := mem_transposedTiles_iff.mp ht
  rw [qtTile_blocks ht] at hb
  split at hb
  · next hsecond =>
    rcases List.mem_pair.mp hb with rfl | rfl
    · exact ⟨0, by omega, hr, rfl⟩
    · exact ⟨1, by omega, hsecond, rfl⟩
  · exact ⟨0, by omega, hr, List.mem_singleton.mp hb⟩

/-- The elements of a block of the grid are those of a rectangle, by rows (R159, R208). -/
theorem gridBlock_eq (hbr : 0 < blockRows o c.blksz.toNat) (hbc : 0 < blockCols o c.blksz.toNat) (mr mc : Nat) :
    Claim.gridBlock c o mr mc =
      (span (mr * blockRows o c.blksz.toNat)
          (min (mr * blockRows o c.blksz.toNat + blockRows o c.blksz.toNat) c.rows.toNat)).flatMap fun row =>
        (span (mc * blockCols o c.blksz.toNat)
          (min (mc * blockCols o c.blksz.toNat + blockCols o c.blksz.toNat) c.cols.toNat)).map fun col =>
            (row, col) := by
  rw [← filter_range_div hbr, ← filter_range_div hbc]
  exact filter_grid (fun row => row / blockRows o c.blksz.toNat == mr)
    (fun col => col / blockCols o c.blksz.toNat == mc) _ _

theorem qtBlock_elems (ht : t ∈ transposedTiles c o) {k : Nat} (hk : k < 2) :
    (qtBlock c o et t k).elems =
      (Claim.gridBlock c o (2 * t.r + k) t.c).map fun x => rowMajorAddr c (esz et) x.1 x.2 := by
  obtain ⟨hbr, -, -⟩ := block_of_transposedTile ht
  have hfirst : t.r * (2 * blockRows o c.blksz.toNat) + k * blockRows o c.blksz.toNat =
      (2 * t.r + k) * blockRows o c.blksz.toNat := by ring
  have hlast : t.r * (2 * blockRows o c.blksz.toNat) + (k + 1) * blockRows o c.blksz.toNat =
      (2 * t.r + k) * blockRows o c.blksz.toNat + blockRows o c.blksz.toNat := by ring
  have hcut : (k + 1) * blockRows o c.blksz.toNat ≤ 2 * blockRows o c.blksz.toNat := Nat.mul_le_mul_right _ hk
  rw [gridBlock_eq hbr (blockCols_pos_of_mem ht), List.map_flatMap]
  simp only [qtBlock, transposedBounds, List.map_map, Function.comp_def]
  rw [← min_assoc, min_eq_left (Nat.add_le_add_left hcut _), hfirst, hlast]

theorem blockParam_qtBlock (ht : t ∈ transposedTiles c o) {k : Nat} (hk : k < 2) :
    blockParam (jobMode (.qt asym o et)) (elemRead et m) (qtBlock c o et t k) =
      (Claim.params c m asym .q4 et (Claim.gridBlock c o (2 * t.r + k) t.c)).map fun p => { scale := p.1, zp := p.2 } :=
  blockParam_eq_params (q := jobMode (.qt asym o et)) (qtBlock_elems ht hk)

/-! ### The packed bytes of a tile (R206) -/

/-- The packed byte of rows `2p` and `2p + 1` of a column of a tile. -/
def qtDataByte (c : HostRegs) (o : Orient) (et : ElemType) (t : Tile) (p col : Nat) : Nat × List Slot :=
  (packedAddr c (transposedByte c o (2 * p) col),
    [.elem (rowMajorAddr c (esz et) (2 * p) col) (2 * p / blockRows o c.blksz.toNat % 2),
      if 2 * p + 1 < (transposedBounds c o t).r1 then
        .elem (rowMajorAddr c (esz et) (2 * p + 1) col) ((2 * p + 1) / blockRows o c.blksz.toNat % 2)
      else .zeroPoint (2 * p / blockRows o c.blksz.toNat % 2)])

theorem qtDataByte_fst (c : HostRegs) (o : Orient) (et : ElemType) (t : Tile) (p col : Nat) :
    (qtDataByte c o et t p col).1 = c.pkAddr.toNat + (col * Claim.qRows c o + p) := by
  rw [qtDataByte, packedAddr, transposedByte, Nat.mul_div_cancel_left p (by decide)]
  rfl

/-- A tile begins at an even row. -/
theorem transposedBounds_r0 (c : HostRegs) (o : Orient) (t : Tile) :
    (transposedBounds c o t).r0 = 2 * (t.r * blockRows o c.blksz.toNat) := Nat.mul_left_comm ..

/-- A tile is cut at an odd row only by the edge of the matrix. -/
theorem next_row_mem_iff {p : Nat} (hrow : 2 * p ∈ span (transposedBounds c o t).r0 (transposedBounds c o t).r1) :
    2 * p + 1 < (transposedBounds c o t).r1 ↔ 2 * p + 1 < c.rows.toNat := by
  have heven := transposedBounds_r0 c o t
  have hr1 : (transposedBounds c o t).r1 =
    min ((transposedBounds c o t).r0 + 2 * blockRows o c.blksz.toNat) c.rows.toNat := rfl
  have := mem_span.mp hrow
  omega

theorem mem_qtTile_dataBytes {d : Nat × List Slot} :
    d ∈ (qtTile c asym o et t).dataBytes ↔
      ∃ p col, 2 * p ∈ span (transposedBounds c o t).r0 (transposedBounds c o t).r1 ∧
        col ∈ span (transposedBounds c o t).c0 (transposedBounds c o t).c1 ∧ d = qtDataByte c o et t p col := by
  have hr0 := transposedBounds_r0 c o t
  simp only [qtTile, List.mem_flatMap, List.mem_map, List.mem_range, lt_ceilDiv_iff]
  constructor
  · rintro ⟨col, hcol, p, ⟨-, hp⟩, rfl⟩
    refine ⟨t.r * blockRows o c.blksz.toNat + p, col, mem_span.mpr (by omega), hcol, ?_⟩
    rw [qtDataByte, Nat.mul_add, ← hr0]
  · rintro ⟨p, col, hp, hcol, rfl⟩
    obtain ⟨hlow, hhigh⟩ := mem_span.mp hp
    refine ⟨col, hcol, p - t.r * blockRows o c.blksz.toNat, ⟨by decide, by omega⟩, ?_⟩
    rw [qtDataByte, show (transposedBounds c o t).r0 + 2 * (p - t.r * blockRows o c.blksz.toNat) = 2 * p by omega]

/-! ### The bytes of R208 -/

/-- The stored scale of block `(mr, mc)`. -/
def qtScale (asym : Bool) (o : Orient) (et : ElemType) (c : HostRegs) (m : Memory) (mr mc : Nat) : Option Nat :=
  (Claim.params c m asym .q4 et (Claim.gridBlock c o mr mc)).bind fun p => elemBits et p.1

/-- The zero-point byte of block rows `2p` and `2p + 1` in block column `mc`. -/
def qtZeroPoints (asym : Bool) (o : Orient) (et : ElemType) (c : HostRegs) (m : Memory) (p mc : Nat) : Option Byte :=
  Claim.packed .q4
    [(Claim.params c m asym .q4 et (Claim.gridBlock c o (2 * p) mc)).map Prod.snd,
      if 2 * p + 1 < Claim.metaRows c o then
        (Claim.params c m asym .q4 et (Claim.gridBlock c o (2 * p + 1) mc)).map Prod.snd
      else some 8]

/-- The code of element `(row, col)`. -/
def qtCode (asym : Bool) (o : Orient) (et : ElemType) (c : HostRegs) (m : Memory) (row col : Nat) : Option Nat :=
  Claim.code c m asym .q4 et
    (Claim.gridBlock c o (row / blockRows o c.blksz.toNat) (col / blockCols o c.blksz.toNat)) (row, col)

/-- The slots of rows `2p` and `2p + 1` of a column; the zero point stands past the last row (R210). -/
def qtSlots (asym : Bool) (o : Orient) (et : ElemType) (c : HostRegs) (m : Memory) (p col : Nat) : List (Option Nat) :=
  [qtCode asym o et c m (2 * p) col,
    if 2 * p + 1 < c.rows.toNat then qtCode asym o et c m (2 * p + 1) col
    else
      (Claim.params c m asym .q4 et
        (Claim.gridBlock c o (2 * p / blockRows o c.blksz.toNat) (col / blockCols o c.blksz.toNat))).map Prod.snd]

/-- The packed byte of these slots. -/
def qtCodes (asym : Bool) (o : Orient) (et : ElemType) (c : HostRegs) (m : Memory) (p col : Nat) : Option Byte :=
  Claim.packed .q4 (qtSlots asym o et c m p col)

/-- The cells of R208. -/
inductive QtCell (asym : Bool) (o : Orient) (et : ElemType) (c : HostRegs) (m : Memory) : Host.Cell → Prop where
  | scale {mr mc k v : Nat} (hr : mr < Claim.metaRows c o) (hc : mc < Claim.metaCols c o) (hk : k < esz et)
      (hv : qtScale asym o et c m mr mc = some v) :
      QtCell asym o et c m
        (c.scAddr.toNat + (mc * Claim.metaRows c o + mr) * esz et + k, BitVec.ofNat 8 (v / 256 ^ k))
  | zeroPoints {p mc : Nat} {v : Byte} (hasym : asym = true) (hp : p < ceilDiv (Claim.metaRows c o) 2)
      (hc : mc < Claim.metaCols c o) (hv : qtZeroPoints asym o et c m p mc = some v) :
      QtCell asym o et c m (c.zpAddr.toNat + (mc * ceilDiv (Claim.metaRows c o) 2 + p), v)
  | codes {p col : Nat} {v : Byte} (hp : p < ceilDiv c.rows.toNat 2) (hc : col < c.cols.toNat)
      (hv : qtCodes asym o et c m p col = some v) :
      QtCell asym o et c m (c.pkAddr.toNat + (col * Claim.qRows c o + p), v)

/-! ### The cells of a tile -/

section Tile

variable {ps : List BlockParam} (ht : t ∈ transposedTiles c o)
  (hps : collect (blockParam (jobMode (.qt asym o et)) (elemRead et m)) (qtTile c asym o et t).blocks = some ps)

include ht hps

/-- Block `k` of a tile with parameters has those of R208. -/
theorem exists_params_qt {k : Nat} (hk : k < 2) (hpresent : 2 * t.r + k < Claim.metaRows c o) :
    ∃ scale zp, Claim.params c m asym .q4 et (Claim.gridBlock c o (2 * t.r + k) t.c) = some (scale, zp) ∧
      ps[k]? = some ⟨scale, zp⟩ := by
  obtain ⟨p, hp, hpk⟩ := blockParam_of_getElem? hps (qtTile_blocks_getElem? ht hk hpresent)
  rw [blockParam_qtBlock ht hk] at hp
  obtain ⟨⟨scale, zp⟩, hparams, rfl⟩ := Option.map_eq_some_iff.mp hp
  exact ⟨scale, zp, hparams, hpk⟩

/-- So has the block of an element of the tile. -/
theorem exists_params_of_elem {row col : Nat}
    (hrow : row ∈ span (transposedBounds c o t).r0 (transposedBounds c o t).r1)
    (hcol : col ∈ span (transposedBounds c o t).c0 (transposedBounds c o t).c1) :
    ∃ scale zp,
      Claim.params c m asym .q4 et
          (Claim.gridBlock c o (row / blockRows o c.blksz.toNat) (col / blockCols o c.blksz.toNat)) =
        some (scale, zp) ∧ ps[row / blockRows o c.blksz.toNat % 2]? = some ⟨scale, zp⟩ := by
  obtain ⟨hblock, hlt⟩ := blockRow_of_transposedTile ht (mem_span.mp hrow).1 (mem_span.mp hrow).2
  rw [hblock] at hlt
  rw [blockCol_of_transposedTile (mem_span.mp hcol).1 (mem_span.mp hcol).2]
  have hparams := exists_params_qt ht hps (Nat.mod_lt _ (by decide)) hlt
  rwa [← hblock] at hparams

/-- The slot of an element of the tile holds its code. -/
theorem slotValue_elem_qt {rs : List Flt} (hrs : collect (storedRecip (jobMode (.qt asym o et))) ps = some rs)
    {row col : Nat} (hrow : row ∈ span (transposedBounds c o t).r0 (transposedBounds c o t).r1)
    (hcol : col ∈ span (transposedBounds c o t).c0 (transposedBounds c o t).c1) :
    slotValue (jobMode (.qt asym o et)) (elemRead et m) rs
        (accumulators (jobMode (.qt asym o et)) (qtTile c asym o et t) ps)
        (.elem (rowMajorAddr c (esz et) row col) (row / blockRows o c.blksz.toNat % 2)) =
      qtCode asym o et c m row col := by
  obtain ⟨scale, zp, hparams, hp⟩ := exists_params_of_elem ht hps hrow hcol
  have hr := collect_getElem? hrs (row / blockRows o c.blksz.toNat % 2)
  rw [hp, Option.bind_some, storedRecip_eq_bind] at hr
  rw [qtCode, code_eq_bind hparams, slotValue_elem_eq_bind, getD_accumulators, hp, hr]
  rfl

/-- The slot of a zero point holds that of the block of its row (R210). -/
theorem slotValue_zeroPoint_qt (rs : List Flt) {row col : Nat}
    (hrow : row ∈ span (transposedBounds c o t).r0 (transposedBounds c o t).r1)
    (hcol : col ∈ span (transposedBounds c o t).c0 (transposedBounds c o t).c1) :
    slotValue (jobMode (.qt asym o et)) (elemRead et m) rs
        (accumulators (jobMode (.qt asym o et)) (qtTile c asym o et t) ps)
        (.zeroPoint (row / blockRows o c.blksz.toNat % 2)) =
      (Claim.params c m asym .q4 et
        (Claim.gridBlock c o (row / blockRows o c.blksz.toNat) (col / blockCols o c.blksz.toNat))).map Prod.snd := by
  obtain ⟨scale, zp, hparams, hp⟩ := exists_params_of_elem ht hps hrow hcol
  rw [hparams, slotValue, getD_accumulators, hp]
  rfl

/-- A packed byte of the tile is that of R208. -/
theorem dataCell_qt {rs : List Flt} (hrs : collect (storedRecip (jobMode (.qt asym o et))) ps = some rs) {p col : Nat}
    (hrow : 2 * p ∈ span (transposedBounds c o t).r0 (transposedBounds c o t).r1)
    (hcol : col ∈ span (transposedBounds c o t).c0 (transposedBounds c o t).c1) :
    dataCell (jobMode (.qt asym o et)) (elemRead et m) rs
        (accumulators (jobMode (.qt asym o et)) (qtTile c asym o et t) ps) (qtDataByte c o et t p col) =
      (qtCodes asym o et c m p col).map fun v => (c.pkAddr.toNat + (col * Claim.qRows c o + p), v) := by
  have hlast := next_row_mem_iff hrow
  have hslots : (qtDataByte c o et t p col).2.map (slotValue (jobMode (.qt asym o et)) (elemRead et m) rs
      (accumulators (jobMode (.qt asym o et)) (qtTile c asym o et t) ps)) = qtSlots asym o et c m p col := by
    simp only [qtDataByte, qtSlots, List.map_cons, List.map_nil, slotValue_elem_qt ht hps hrs hrow hcol, hlast]
    split
    · next hnext =>
      have hrow' := mem_span.mpr ⟨(mem_span.mp hrow).1.trans (Nat.le_succ _), hlast.mpr hnext⟩
      rw [slotValue_elem_qt ht hps hrs hrow' hcol]
    · rw [slotValue_zeroPoint_qt ht hps rs hrow hcol]
  rw [dataCell, qtCodes, Claim.packed, ← hslots, collect_map, Option.map_map, ← qtDataByte_fst c o et t]
  rfl

/-- The zero-point byte of the tile is that of R208. -/
theorem qtZeroPoints_eq :
    qtZeroPoints asym o et c m t.r t.c =
      some (pack .q4 ([0, 1].map fun k =>
        (accumulators (jobMode (.qt asym o et)) (qtTile c asym o et t) ps).getD k (mid .q4))) := by
  have hacc (k : Nat) : (accumulators (jobMode (.qt asym o et)) (qtTile c asym o et t) ps).getD k (mid .q4) =
      (ps[k]?.map BlockParam.zp).getD 8 := getD_accumulators _ _ _ k
  obtain ⟨scale, zp, hparams, hp⟩ := exists_params_qt ht hps (k := 0) (by decide) (mem_transposedTiles_iff.mp ht).1
  rw [Nat.add_zero] at hparams
  rw [List.map_cons, List.map_cons, List.map_nil, hacc, hacc, hp, qtZeroPoints, hparams]
  by_cases hsecond : 2 * t.r + 1 < Claim.metaRows c o
  · obtain ⟨scale', zp', hparams', hp'⟩ := exists_params_qt ht hps (k := 1) (by decide) hsecond
    rw [if_pos hsecond, hparams', hp']
    rfl
  · have hp' : ps[1]? = none := by
      rw [collect_getElem? hps, qtTile_blocks ht, if_neg hsecond]
      rfl
    rw [if_neg hsecond, hp']
    rfl

end Tile

theorem qtCell_of_mem_tile (ht : t ∈ transposedTiles c o) {cells : List Host.Cell}
    (h : jobTileCells (.qt asym o et) c m t = some cells) {x : Host.Cell} (hx : x ∈ cells) :
    QtCell asym o et c m x := by
  obtain ⟨hr, hc⟩ := mem_transposedTiles_iff.mp ht
  obtain ⟨hr1, hc1⟩ := transposedBounds_le (c := c) (o := o) t
  obtain ⟨ps, sc, rs, d, hps, hsc, hrs, hd, rfl⟩ := quantTileCells_eq_some h
  rcases List.mem_append.mp hx with hx | hx
  · rcases List.mem_append.mp hx with hx | hx
    · obtain ⟨b, hb, p, v, k, hp, hv, hk, rfl⟩ := mem_scaleCells hps hsc hx
      obtain ⟨i, hi, hpresent, rfl⟩ := mem_qtTile_blocks ht hb
      obtain ⟨pair, hparams, rfl⟩ := Option.map_eq_some_iff.mp ((blockParam_qtBlock ht hi).symm.trans hp)
      exact .scale hpresent hc hk (by rw [qtScale, hparams]; exact hv)
    · obtain ⟨z, hz, rfl⟩ := List.mem_map.mp hx
      cases asym with
      | false => cases hz
      | true =>
        obtain rfl := List.mem_singleton.mp hz
        rw [zpByteAddr, transposedZp, Nat.mul_div_cancel_left t.r (by decide)]
        exact .zeroPoints rfl (lt_ceilDiv_two_iff.mpr hr) hc (qtZeroPoints_eq ht hps)
  · obtain ⟨y, hy, hcell⟩ := mem_of_collect hd hx
    obtain ⟨p, col, hrow, hcol, rfl⟩ := mem_qtTile_dataBytes.mp hy
    obtain ⟨v, hv, rfl⟩ := Option.map_eq_some_iff.mp ((dataCell_qt ht hps hrs hrow hcol).symm.trans hcell)
    exact .codes (lt_ceilDiv_two_iff.mpr ((mem_span.mp hrow).2.trans_le hr1)) ((mem_span.mp hcol).2.trans_le hc1) hv

/-! ### Every tile has its cells -/

theorem exists_params_of_qtDefined (hdef : Claim.QtDefined asym o et c m) {mr mc : Nat}
    (hr : mr < Claim.metaRows c o) (hc : mc < Claim.metaCols c o) :
    ∃ scale zp, Claim.params c m asym .q4 et (Claim.gridBlock c o mr mc) = some (scale, zp) ∧
      (elemBits et scale).isSome = true := by
  obtain ⟨v, hv⟩ := Option.isSome_iff_exists.mp (hdef.scales mr hr mc hc)
  obtain ⟨⟨scale, zp⟩, hparams, hbits⟩ := Option.bind_eq_some_iff.mp hv
  exact ⟨scale, zp, hparams, Option.isSome_of_eq_some hbits⟩

/-- The scale of a block has a reciprocal, since the first element of the block has a code. -/
theorem recip_isSome_of_qtDefined (hdef : Claim.QtDefined asym o et c m) {mr mc : Nat} {scale : Flt} {zp : Nat}
    (hr : mr < Claim.metaRows c o) (hc : mc < Claim.metaCols c o)
    (hparams : Claim.params c m asym .q4 et (Claim.gridBlock c o mr mc) = some (scale, zp)) :
    ((elemRound et scale).bind rcp).isSome = true := by
  obtain ⟨hbr, hrow⟩ := lt_ceilDiv_iff.mp hr
  obtain ⟨hbc, hcol⟩ := lt_ceilDiv_iff.mp hc
  have hcode := hdef.codes _ hrow _ hcol
  rw [Nat.mul_div_cancel _ hbr, Nat.mul_div_cancel _ hbc, code_eq_bind hparams] at hcode
  obtain ⟨code, hcode⟩ := Option.isSome_iff_exists.mp hcode
  obtain ⟨v, -, hcode⟩ := Option.bind_eq_some_iff.mp hcode
  obtain ⟨r, hr, -⟩ := Option.bind_eq_some_iff.mp hcode
  exact Option.isSome_of_eq_some hr

theorem qtCodes_isSome (hdef : Claim.QtDefined asym o et c m) {p col : Nat} (hp : 2 * p < c.rows.toNat)
    (hcol : col < c.cols.toNat) (hbr : 0 < blockRows o c.blksz.toNat) (hbc : 0 < blockCols o c.blksz.toNat) :
    (qtCodes asym o et c m p col).isSome = true := by
  rw [qtCodes, Claim.packed, qtSlots, Option.isSome_map, collect_isSome_iff, List.forall_mem_cons,
    List.forall_mem_singleton]
  refine ⟨hdef.codes _ hp _ hcol, ?_⟩
  split
  · next hnext => exact hdef.codes _ hnext _ hcol
  · obtain ⟨scale, zp, hparams, -⟩ :=
      exists_params_of_qtDefined hdef (div_lt_ceilDiv hbr hp) (div_lt_ceilDiv hbc hcol)
    rw [hparams]
    rfl

theorem jobTileCells_qt_isSome (hdef : Claim.QtDefined asym o et c m) (ht : t ∈ transposedTiles c o) :
    (jobTileCells (.qt asym o et) c m t).isSome = true := by
  obtain ⟨-, hc⟩ := mem_transposedTiles_iff.mp ht
  refine quantTileCells_isSome (fun b hb => ?_) fun ps rs hps hrs => collect_isSome_iff.mpr fun d hd => ?_
  · obtain ⟨k, hk, hpresent, rfl⟩ := mem_qtTile_blocks ht hb
    obtain ⟨scale, zp, hparams, hbits⟩ := exists_params_of_qtDefined hdef hpresent hc
    refine ⟨⟨scale, zp⟩, (blockParam_qtBlock ht hk).trans (by rw [hparams]; rfl), hbits, ?_⟩
    rw [storedRecip_eq_bind]
    exact recip_isSome_of_qtDefined hdef hpresent hc hparams
  · obtain ⟨hr1, hc1⟩ := transposedBounds_le (c := c) (o := o) t
    obtain ⟨p, col, hrow, hcol, rfl⟩ := mem_qtTile_dataBytes.mp hd
    refine (congrArg Option.isSome (dataCell_qt ht hps hrs hrow hcol)).trans (Option.isSome_map.trans ?_)
    exact qtCodes_isSome hdef ((mem_span.mp hrow).2.trans_le hr1) ((mem_span.mp hcol).2.trans_le hc1)
      (block_of_transposedTile ht).1 (blockCols_pos_of_mem ht)

/-! ### Every place of R208 has a cell -/

theorem target_qt_scale {mr mc k : Nat} (hr : mr < Claim.metaRows c o) (hc : mc < Claim.metaCols c o)
    (hk : k < esz et) :
    ∃ t ∈ transposedTiles c o, IsTarget et (jobWork (.qt asym o et) c t)
      (c.scAddr.toNat + (mc * Claim.metaRows c o + mr) * esz et + k) := by
  have hmr : 2 * (mr / 2) + mr % 2 = mr := Nat.div_add_mod mr 2
  have ht : ⟨mr / 2, mc⟩ ∈ transposedTiles c o := mem_transposedTiles_iff.mpr ⟨by simp only; omega, hc⟩
  have hb := qtTile_blocks_getElem? (asym := asym) (et := et) ht (Nat.mod_lt mr (by decide)) (hmr.symm ▸ hr)
  have haddr : (qtBlock c o et ⟨mr / 2, mc⟩ (mr % 2)).scaleAddr =
      c.scAddr.toNat + (mc * Claim.metaRows c o + mr) * esz et := by
    simp only [qtBlock, hmr]
    rfl
  exact ⟨_, ht, .inl ⟨_, List.mem_of_getElem? hb, by omega, by omega⟩⟩

theorem target_qt_zeroPoints {p mc : Nat} (hp : p < ceilDiv (Claim.metaRows c o) 2) (hc : mc < Claim.metaCols c o) :
    ∃ t ∈ transposedTiles c o, IsTarget et (jobWork (.qt true o et) c t)
      (c.zpAddr.toNat + (mc * ceilDiv (Claim.metaRows c o) 2 + p)) := by
  have ht : ⟨p, mc⟩ ∈ transposedTiles c o := mem_transposedTiles_iff.mpr ⟨lt_ceilDiv_two_iff.mp hp, hc⟩
  refine ⟨_, ht, .inr (.inl ⟨_, List.mem_singleton_self _, ?_⟩)⟩
  rw [zpByteAddr, transposedZp, Nat.mul_div_cancel_left p (by decide)]
  rfl

theorem target_qt_codes {p col : Nat} (hbr : 0 < blockRows o c.blksz.toNat) (hbc : 0 < blockCols o c.blksz.toNat)
    (hp : p < ceilDiv c.rows.toNat 2) (hcol : col < c.cols.toNat) :
    ∃ t ∈ transposedTiles c o, IsTarget et (jobWork (.qt asym o et) c t)
      (c.pkAddr.toNat + (col * Claim.qRows c o + p)) := by
  obtain ⟨t, ht, hrow, hcol⟩ := exists_transposedTile hbr hbc (lt_ceilDiv_two_iff.mp hp) hcol
  have hd := (mem_qtTile_dataBytes (asym := asym) (et := et)).mpr ⟨p, col, hrow, hcol, rfl⟩
  exact ⟨t, ht, .inr (.inr ⟨_, hd, qtDataByte_fst c o et t p col⟩)⟩

/-! ### The memory of R208 -/

/-- The byte that R208 gives for byte `k` of buffer number `i`. -/
def qtByte (asym : Bool) (o : Orient) (et : ElemType) (c : HostRegs) (m : Memory) : Nat → Nat → Option Byte
  | 1, k => qtCodes asym o et c m (k % Claim.qRows c o) (k / Claim.qRows c o)
  | 2, k =>
    (qtScale asym o et c m (k / esz et % Claim.metaRows c o) (k / esz et / Claim.metaRows c o)).map fun v =>
      BitVec.ofNat 8 (v / 256 ^ (k % esz et))
  | _, k =>
    qtZeroPoints asym o et c m (k % ceilDiv (Claim.metaRows c o) 2) (k / ceilDiv (Claim.metaRows c o) 2)

theorem qtByte_scale {mr mc k : Nat} (hr : mr < Claim.metaRows c o) (hk : k < esz et) :
    qtByte asym o et c m 2 ((mc * Claim.metaRows c o + mr) * esz et + k) =
      (qtScale asym o et c m mr mc).map fun v => BitVec.ofNat 8 (v / 256 ^ k) := by
  simp only [qtByte, index_div_mod hk, index_div_mod hr]

theorem qtByte_zeroPoints {p mc : Nat} (hp : p < ceilDiv (Claim.metaRows c o) 2) :
    qtByte asym o et c m 3 (mc * ceilDiv (Claim.metaRows c o) 2 + p) = qtZeroPoints asym o et c m p mc := by
  simp only [qtByte, index_div_mod hp]

theorem qtByte_codes {p col : Nat} (hp : p < Claim.qRows c o) :
    qtByte asym o et c m 1 (col * Claim.qRows c o + p) = qtCodes asym o et c m p col := by
  simp only [qtByte, index_div_mod hp]

theorem qtScale_place_lt (asym : Bool) {mr mc k : Nat} (hr : mr < Claim.metaRows c o) (hc : mc < Claim.metaCols c o)
    (hk : k < esz et) :
    (mc * Claim.metaRows c o + mr) * esz et + k < (contextGeometry c .q4 o asym).scCount * esz et :=
  index_lt (transposedScale_lt asym hr hc) hk

theorem qtZeroPoints_place_lt {p mc : Nat} (hp : p < ceilDiv (Claim.metaRows c o) 2) (hc : mc < Claim.metaCols c o) :
    mc * ceilDiv (Claim.metaRows c o) 2 + p < (contextGeometry c .q4 o true).zpBytes := by
  have hplace := transposedZp_lt (lt_ceilDiv_two_iff.mp hp) hc
  rwa [transposedZp, Nat.mul_div_cancel_left p (by decide)] at hplace

theorem qtCodes_place_lt (asym : Bool) {p col : Nat} (hbr : 0 < blockRows o c.blksz.toNat)
    (hbc : 0 < blockCols o c.blksz.toNat) (hp : p < ceilDiv c.rows.toNat 2) (hcol : col < c.cols.toNat) :
    col * Claim.qRows c o + p < (contextGeometry c .q4 o asym).qBytes := by
  have hplace := transposedByte_lt asym hbr hbc (lt_ceilDiv_two_iff.mp hp) hcol
  rwa [transposedByte, Nat.mul_div_cancel_left p (by decide)] at hplace

theorem lt_qRows {p : Nat} (hbr : 0 < blockRows o c.blksz.toNat) (hp : p < ceilDiv c.rows.toNat 2) :
    p < Claim.qRows c o := by
  have hrows : c.rows.toNat ≤ Claim.metaRows c o * blockRows o c.blksz.toNat := le_ceilDiv_mul _ hbr
  rw [Claim.qRows, ceilDiv_mul_four_eight, lt_ceilDiv_two_iff]
  exact (lt_ceilDiv_two_iff.mp hp).trans_le hrows

/-- The cells of R208 stand in the written buffers, at the places whose bytes they are. -/
theorem QtCell.valued {x : Host.Cell} (h : QtCell asym o et c m x) (hbr : 0 < blockRows o c.blksz.toNat)
    (hbc : 0 < blockCols o c.blksz.toNat) : Valued (.qt asym o et) c (qtByte asym o et c m) x := by
  cases h with
  | scale hr hc hk hv =>
    rw [Nat.add_assoc]
    refine valued_offset (i := 2) rfl (qtScale_place_lt asym hr hc hk) ?_
    rw [qtByte_scale hr hk, hv]
    rfl
  | zeroPoints hasym hp hc hv =>
    subst hasym
    exact valued_offset (i := 3) rfl (qtZeroPoints_place_lt hp hc) ((qtByte_zeroPoints hp).trans hv)
  | codes hp hc hv =>
    exact valued_offset (i := 1) rfl (qtCodes_place_lt asym hbr hbc hp hc)
      ((qtByte_codes (lt_qRows hbr hp)).trans hv)

/-- Cells of R208 that reach every target of the tiles leave the memory of R208. -/
theorem qtResult_writeCells {cells : List Host.Cell} (hwf : memWf m)
    (hclash : anyClash (jobExtents (.qt asym o et) c) = false) (hbr : 0 < blockRows o c.blksz.toNat)
    (hbc : 0 < blockCols o c.blksz.toNat) (hdef : Claim.QtDefined asym o et c m)
    (hcells : ∀ x ∈ cells, QtCell asym o et c m x)
    (hall : ∀ a, (∃ t ∈ transposedTiles c o, IsTarget et (jobWork (.qt asym o et) c t) a) →
      ∃ x ∈ cells, x.1 = a) :
    Claim.QtResult asym o et c m (writeCells m cells) := by
  have hvalued : ∀ x ∈ cells, Valued (.qt asym o et) c (qtByte asym o et c m) x := fun x hx =>
    (hcells x hx).valued hbr hbc
  constructor
  case scales =>
    intro mr mc hr hc
    obtain ⟨v, hv⟩ : ∃ v, qtScale asym o et c m mr mc = some v :=
      Option.isSome_iff_exists.mp (hdef.scales mr hr mc hc)
    obtain ⟨p, -, hbits⟩ := Option.bind_eq_some_iff.mp hv
    have hbyte (k : Nat) (hk : k < esz et) :
        readByte (writeCells m cells) (c.scAddr.toNat + (mc * Claim.metaRows c o + mr) * esz et + k) =
          BitVec.ofNat 8 (v / 256 ^ k) := by
      have hx := hall _ (target_qt_scale hr hc hk)
      rw [Nat.add_assoc] at hx ⊢
      have hread := readByte_of_valued hwf hclash hvalued (i := 2) rfl (qtScale_place_lt asym hr hc hk) hx
      rw [qtByte_scale hr hk, hv] at hread
      exact (Option.some.inj hread).symm
    rw [memRead_of_bytes hbyte, Nat.mod_eq_of_lt (elemBits_lt hbits)]
    exact hv
  case zeroPoints =>
    intro hasym p mc hp hc
    subst hasym
    have hread := readByte_of_valued hwf hclash hvalued (i := 3) rfl (qtZeroPoints_place_lt hp hc)
      (hall _ (target_qt_zeroPoints hp hc))
    rwa [qtByte_zeroPoints hp] at hread
  case codes =>
    intro p col hp hcol
    have hread := readByte_of_valued hwf hclash hvalued (i := 1) rfl (qtCodes_place_lt asym hbr hbc hp hcol)
      (hall _ (target_qt_codes hbr hbc hp hcol))
    rwa [qtByte_codes (lt_qRows hbr hp)] at hread
  case frame =>
    intro a hscale hzp hcode
    refine readByte_writeCells_of_not_mem hwf fun x hx hxa => ?_
    cases hcells x hx with
    | scale hr hc hk => exact hscale _ _ _ hr hc hk hxa.symm
    | zeroPoints hasym hp hc => exact hzp hasym _ _ hp hc hxa.symm
    | codes hp hc => exact hcode _ _ hp hc hxa.symm

end Transposed

theorem blockSides_pos {b : Nat} (h : supportedBlock b = true) (o : Orient) :
    0 < blockRows o b ∧ 0 < blockCols o b := by
  obtain ⟨hbr, hbc⟩ := block_dvd_of_mem_blockSizes o b (supportedBlock_iff.mp h)
  exact ⟨Nat.pos_of_dvd_of_pos hbr (by decide), Nat.pos_of_dvd_of_pos hbc (by decide)⟩

/-- A ready `QT` whose parts are all defined leaves the memory of R208. -/
theorem exec_qt {i : Instr} {asym : Bool} {o : Orient} {et : ElemType} {s : State}
    (hjob : jobOf i = some (.qt asym o et)) (hready : Claim.Ready (.qt asym o et) s)
    (hdef : Claim.QtDefined asym o et s.ctx s.mem) :
    ∃ m, exec i s = .next (complete false { s with mem := m }) ∧ memWf m ∧
      Claim.QtResult asym o et s.ctx s.mem m := by
  obtain ⟨⟨hempty, herror⟩, hclash, hwf, hgrain⟩ := hready
  obtain ⟨hbr, hbc⟩ := blockSides_pos (by simpa [jobEmpty] using hempty) o
  obtain ⟨cells, hcells⟩ := Option.isSome_iff_exists.mp
    (isSome_collectCells_iff.mpr fun t (ht : t ∈ transposedTiles s.ctx o) => jobTileCells_qt_isSome hdef ht)
  have hresult : jobResult (.qt asym o et) s.ctx s.mem = some cells := by
    rw [jobResult, hclash]
    exact hcells
  refine ⟨writeCells s.mem cells, ?_, memWf_writeCells hwf cells,
    qtResult_writeCells hwf hclash hbr hbc hdef (fun x hx => ?_) ?_⟩
  · rw [exec_of_jobOf hjob]
    simp [runBulk, hempty, herror, hgrain, performAll, hresult]
  · obtain ⟨t, ht, cs, hcs, hx⟩ := (mem_collectCells hcells).mp hx
    exact qtCell_of_mem_tile ht hcs hx
  · rintro a ⟨t, ht, ha⟩
    obtain ⟨cs, hcs⟩ := collectCells_of_mem hcells ht
    obtain ⟨x, hx, hxa⟩ := exists_cell_of_target hcs ha
    exact ⟨x, (mem_collectCells hcells).mpr ⟨t, ht, cs, hcs, hx⟩, hxa⟩

end Sys2Proof.Machine

namespace Sys2Proof.Proofs

open Sys2Proof.Machine

/-- Settles O40: the cells of the tiles are those of R208, each place of R208 has one, and places do not overlap. -/
theorem qtWritesItsResult : Obligations.QtWritesItsResult :=
  fun _ _ _ => ⟨exec_qt rfl, exec_qt rfl⟩

end Sys2Proof.Proofs
end

section
/-! Dequantizing tiles (R234 to R238): the cells of a `DQT` tile are those of R234, every element of the Matrix has them,
and so `DQT.S` and `DQT.A` leave the memory that R237 describes; and the law of a zero scale (R238). -/

namespace Sys2Proof.Machine

/-! ### A bulk command that is ready -/

/-- A ready command whose tiles all have their cells completes with those cells written. -/
theorem exec_of_ready {i : Instr} {j : Job} {s : State} (hjob : jobOf i = some j) (hready : Claim.Ready j s)
    (htiles : ∀ t ∈ jobTiles j s.ctx, (jobTileCells j s.ctx s.mem t).isSome = true) :
    ∃ cells, collectCells (jobTileCells j s.ctx s.mem) (jobTiles j s.ctx) = some cells ∧
      exec i s = .next (complete false { s with mem := writeCells s.mem cells }) := by
  obtain ⟨⟨hempty, herror⟩, hclash, -, hgrain⟩ := hready
  obtain ⟨cells, hcells⟩ := Option.isSome_iff_exists.mp (isSome_collectCells_iff.mpr htiles)
  have hresult : jobResult j s.ctx s.mem = some cells := by simp [jobResult, hclash, hcells]
  have hbulk : runBulk j s = performAll j s := by simpa [hempty, herror, hgrain] using runBulk_cases j s
  have hperform : performAll j s = complete false { s with mem := writeCells s.mem cells } := by
    simpa [hresult] using performAll_cases j s
  exact ⟨cells, hcells, by rw [exec_of_jobOf hjob, hbulk, hperform]⟩

/-! ### The cells of dequantized elements (R234) -/

theorem getD_unpack (w : Width) (b : Byte) {i : Nat} (hi : i < perByte w) : (unpack w b).getD i 0 = slotOf w b i := by
  simp [unpack, hi]

theorem getD_unpack_mod_two (b : Byte) (i : Nat) : (unpack .q4 b).getD (i % 2) 0 = slotOf .q4 b (i % 2) :=
  getD_unpack .q4 b (Nat.mod_lt i (by decide))

/-- An element has a value when its scale and the difference of its code and its zero point have one. -/
theorem deqValue_eq (et : ElemType) (m : Memory) (d : DeqElem) :
    deqValue et m d =
      match elemRead et m d.scaleAddr,
        fsub (ofNat (slotOf .q4 (readByte m d.codeAddr) d.codeSlot)) (ofNat (zpOf m d.zp)) with
      | some s, some x => fmul x s
      | _, _ => none := by
  unfold deqValue
  cases elemRead et m d.scaleAddr with
  | none => rfl
  | some s => cases fsub (ofNat (slotOf .q4 (readByte m d.codeAddr) d.codeSlot)) (ofNat (zpOf m d.zp)) <;> rfl

theorem deqCells_eq_map (et : ElemType) (m : Memory) (d : DeqElem) :
    deqCells et m d = ((deqValue et m d).bind (elemBits et)).map fun v => wordCells d.dst (esz et) v := by
  unfold deqCells elemCells
  cases deqValue et m d <;> rfl

/-- What the cells of dequantized elements hold. -/
theorem mem_deqCells {et : ElemType} {m : Memory} {l : List DeqElem} {cells : List Host.Cell}
    (h : collectCells (deqCells et m) l = some cells) {x : Host.Cell} (hx : x ∈ cells) :
    ∃ d ∈ l, ∃ v k, (deqValue et m d).bind (elemBits et) = some v ∧ k < esz et ∧
      x = (d.dst + k, BitVec.ofNat 8 (v / 256 ^ k)) := by
  obtain ⟨d, hd, cs, hcs, hx⟩ := (mem_collectCells h).mp hx
  rw [deqCells_eq_map] at hcs
  obtain ⟨v, hv, rfl⟩ := Option.map_eq_some_iff.mp hcs
  obtain ⟨k, hk, rfl⟩ := mem_wordCells hx
  exact ⟨d, hd, v, k, hv, hk, rfl⟩

/-- Every byte of a dequantized element has a cell. -/
theorem exists_cell_of_deqElem {et : ElemType} {m : Memory} {l : List DeqElem} {cells : List Host.Cell}
    (h : collectCells (deqCells et m) l = some cells) {d : DeqElem} (hd : d ∈ l) {k : Nat} (hk : k < esz et) :
    ∃ x ∈ cells, x.1 = d.dst + k := by
  obtain ⟨cs, hcs⟩ := collectCells_of_mem h hd
  have hword := hcs
  rw [deqCells_eq_map] at hword
  obtain ⟨v, -, rfl⟩ := Option.map_eq_some_iff.mp hword
  exact ⟨_, (mem_collectCells h).mpr ⟨d, hd, _, hcs, mem_wordCells_of_lt hk⟩, rfl⟩

section Transposed

variable {c : HostRegs} {m : Memory} {asym : Bool} {o : Orient} {et : ElemType} {t : Tile}

/-! ### The elements of a tile (R234, R236) -/

theorem mem_dqtTile {d : DeqElem} :
    d ∈ dqtTile c asym o et t ↔ ∃ row col, row ∈ span (transposedBounds c o t).r0 (transposedBounds c o t).r1 ∧
      col ∈ span (transposedBounds c o t).c0 (transposedBounds c o t).c1 ∧ d = dqtElem c asym o et row col := by
  simp only [dqtTile, List.mem_flatMap, List.mem_map]
  constructor
  · rintro ⟨col, hcol, row, hrow, rfl⟩
    exact ⟨row, col, hrow, hcol, rfl⟩
  · rintro ⟨row, col, hrow, hcol, rfl⟩
    exact ⟨col, hcol, row, hrow, rfl⟩

/-- The value of an element of a tile is that of R234; its zero point is a nibble, or the implied 8 (R235). -/
theorem deqValue_dqtElem (row col : Nat) :
    deqValue et m (dqtElem c asym o et row col) = Claim.dequantized asym o et c m row col := by
  simp only [Claim.dequantized, getD_unpack_mod_two]
  cases asym with
  | false => exact deqValue_eq et m (dqtElem c false o et row col)
  | true => exact deqValue_eq et m (dqtElem c true o et row col)

/-- The pattern that R234 gives for element `(row, col)`. -/
def dqtBits (asym : Bool) (o : Orient) (et : ElemType) (c : HostRegs) (m : Memory) (row col : Nat) : Option Nat :=
  (Claim.dequantized asym o et c m row col).bind (elemBits et)

/-- A cell that R237 asks for: one byte of an element of the column-major Matrix. -/
inductive DqtCell (asym : Bool) (o : Orient) (et : ElemType) (c : HostRegs) (m : Memory) : Host.Cell → Prop where
  | elem {row col k v : Nat} (hrow : row < c.rows.toNat) (hcol : col < c.cols.toNat) (hk : k < esz et)
      (hv : dqtBits asym o et c m row col = some v) :
      DqtCell asym o et c m
        (c.matAddr.toNat + (col * c.rows.toNat + row) * esz et + k, BitVec.ofNat 8 (v / 256 ^ k))

theorem dqtCell_of_mem_tile {cells : List Host.Cell} (h : jobTileCells (.dqt asym o et) c m t = some cells)
    {x : Host.Cell} (hx : x ∈ cells) : DqtCell asym o et c m x := by
  obtain ⟨hr1, hc1⟩ := transposedBounds_le (c := c) (o := o) t
  obtain ⟨d, hd, v, k, hv, hk, rfl⟩ := mem_deqCells h hx
  obtain ⟨row, col, hrow, hcol, rfl⟩ := mem_dqtTile.mp hd
  exact .elem ((mem_span.mp hrow).2.trans_le hr1) ((mem_span.mp hcol).2.trans_le hc1) hk
    ((congrArg (Option.bind · (elemBits et)) (deqValue_dqtElem row col)).symm.trans hv)

theorem jobTileCells_dqt_isSome (hdef : Claim.DqtDefined asym o et c m) (t : Tile) :
    (jobTileCells (.dqt asym o et) c m t).isSome = true := by
  obtain ⟨hr1, hc1⟩ := transposedBounds_le (c := c) (o := o) t
  refine isSome_collectCells_iff.mpr fun d hd => ?_
  obtain ⟨row, col, hrow, hcol, rfl⟩ := mem_dqtTile.mp hd
  have hsome := hdef row ((mem_span.mp hrow).2.trans_le hr1) col ((mem_span.mp hcol).2.trans_le hc1)
  rwa [← deqValue_dqtElem, ← Option.isSome_map (f := wordCells (dqtElem c asym o et row col).dst (esz et)),
    ← deqCells_eq_map] at hsome

/-- Every byte of every element has a cell among those of the tiles. -/
theorem exists_cell_dqt {cells : List Host.Cell}
    (h : collectCells (jobTileCells (.dqt asym o et) c m) (transposedTiles c o) = some cells)
    (hbr : 0 < blockRows o c.blksz.toNat) (hbc : 0 < blockCols o c.blksz.toNat) {row col k : Nat}
    (hrow : row < c.rows.toNat) (hcol : col < c.cols.toNat) (hk : k < esz et) :
    ∃ x ∈ cells, x.1 = c.matAddr.toNat + (col * c.rows.toNat + row) * esz et + k := by
  obtain ⟨t, ht, hrow, hcol⟩ := exists_transposedTile hbr hbc hrow hcol
  obtain ⟨cs, hcs⟩ := collectCells_of_mem h ht
  obtain ⟨x, hx, hxa⟩ := exists_cell_of_deqElem hcs (mem_dqtTile.mpr ⟨row, col, hrow, hcol, rfl⟩) hk
  exact ⟨x, (mem_collectCells h).mpr ⟨t, ht, cs, hcs, hx⟩, hxa⟩

/-! ### The memory of R237 -/

/-- The byte that R237 gives for byte `k` of the Matrix, which is buffer number 0 and the only one written. -/
def dqtByte (asym : Bool) (o : Orient) (et : ElemType) (c : HostRegs) (m : Memory) (_ k : Nat) : Option Byte :=
  (dqtBits asym o et c m (k / esz et % c.rows.toNat) (k / esz et / c.rows.toNat)).map fun v =>
    BitVec.ofNat 8 (v / 256 ^ (k % esz et))

theorem dqtByte_elem {row col k : Nat} (i : Nat) (hrow : row < c.rows.toNat) (hk : k < esz et) :
    dqtByte asym o et c m i ((col * c.rows.toNat + row) * esz et + k) =
      (dqtBits asym o et c m row col).map fun v => BitVec.ofNat 8 (v / 256 ^ k) := by
  simp only [dqtByte, index_div_mod hk, index_div_mod hrow]

theorem dqt_place_lt {row col k : Nat} (hrow : row < c.rows.toNat) (hcol : col < c.cols.toNat) (hk : k < esz et) :
    (col * c.rows.toNat + row) * esz et + k < c.rows.toNat * c.cols.toNat * esz et := by
  rw [Nat.mul_comm c.rows.toNat]
  exact index_lt (index_lt hcol hrow) hk

theorem DqtCell.valued {x : Host.Cell} (h : DqtCell asym o et c m x) :
    Valued (.dqt asym o et) c (dqtByte asym o et c m) x := by
  cases h with
  | elem hrow hcol hk hv =>
    rw [Nat.add_assoc]
    refine valued_offset (i := 0) rfl (dqt_place_lt hrow hcol hk) ?_
    rw [dqtByte_elem 0 hrow hk, hv]
    rfl

/-- Cells of R237 that reach every byte of every element leave the memory of R237. -/
theorem dqtResult_writeCells {cells : List Host.Cell} (hwf : memWf m)
    (hclash : anyClash (jobExtents (.dqt asym o et) c) = false) (hdef : Claim.DqtDefined asym o et c m)
    (hcells : ∀ x ∈ cells, DqtCell asym o et c m x)
    (hall : ∀ row col k, row < c.rows.toNat → col < c.cols.toNat → k < esz et →
      ∃ x ∈ cells, x.1 = c.matAddr.toNat + (col * c.rows.toNat + row) * esz et + k) :
    Claim.DqtResult asym o et c m (writeCells m cells) := by
  constructor
  case elements =>
    intro row col hrow hcol
    obtain ⟨v, hv⟩ : ∃ v, dqtBits asym o et c m row col = some v :=
      Option.isSome_iff_exists.mp (hdef row hrow col hcol)
    obtain ⟨f, -, hbits⟩ := Option.bind_eq_some_iff.mp hv
    have hbyte (k : Nat) (hk : k < esz et) :
        readByte (writeCells m cells) (c.matAddr.toNat + (col * c.rows.toNat + row) * esz et + k) =
          BitVec.ofNat 8 (v / 256 ^ k) := by
      have hx := hall row col k hrow hcol hk
      rw [Nat.add_assoc] at hx ⊢
      have hread := readByte_of_valued hwf hclash (fun x hx => (hcells x hx).valued) (i := 0) rfl
        (dqt_place_lt hrow hcol hk) hx
      rw [dqtByte_elem 0 hrow hk, hv] at hread
      exact (Option.some.inj hread).symm
    rw [memRead_of_bytes hbyte, Nat.mod_eq_of_lt (elemBits_lt hbits)]
    exact hv
  case frame =>
    intro a hframe
    refine readByte_writeCells_of_not_mem hwf fun x hx hxa => ?_
    cases hcells x hx with
    | elem hrow hcol hk => exact hframe _ _ _ hrow hcol hk hxa.symm

end Transposed

/-- A ready `DQT` whose elements are all defined leaves the memory of R237. -/
theorem exec_dqt {i : Instr} {asym : Bool} {o : Orient} {et : ElemType} {s : State}
    (hjob : jobOf i = some (.dqt asym o et)) (hready : Claim.Ready (.dqt asym o et) s)
    (hdef : Claim.DqtDefined asym o et s.ctx s.mem) :
    ∃ m, exec i s = .next (complete false { s with mem := m }) ∧ memWf m ∧
      Claim.DqtResult asym o et s.ctx s.mem m := by
  obtain ⟨cells, hcells, hexec⟩ := exec_of_ready hjob hready fun t _ => jobTileCells_dqt_isSome hdef t
  obtain ⟨hbr, hbc⟩ := blockSides_pos (by simpa [jobEmpty] using hready.passes.1) o
  refine ⟨writeCells s.mem cells, hexec, memWf_writeCells hready.memory cells,
    dqtResult_writeCells hready.memory hready.apart hdef (fun x hx => ?_) fun row col k hrow hcol hk =>
      exists_cell_dqt hcells hbr hbc hrow hcol hk⟩
  obtain ⟨t, -, cs, hcs, hx⟩ := (mem_collectCells hcells).mp hx
  exact dqtCell_of_mem_tile hcs hx

/-! ### A zero scale (R238) -/

/-- The value of a sign and a magnitude taken from an integer. -/
theorem value_sign_natAbs (v : Int) : value { neg := decide (v < 0), mag := v.natAbs } = v := by
  simp only [value, decide_eq_true_eq]
  split <;> omega

/-- A sum that is a binary32 value is not rounded; when it is zero, it is `+0.0` unless both terms are negative. -/
theorem fadd_of_isBinary32 {a b : Flt} {v : Int} (hsum : value a + value b = v) (hneg : (a.neg && b.neg) = false)
    (hv : Claim.IsBinary32 { neg := decide (v < 0), mag := v.natAbs }) :
    fadd a b = some { neg := decide (v < 0), mag := v.natAbs } := by
  have hsign : (if v = 0 then a.neg && b.neg else decide (v < 0)) = decide (v < 0) := by
    split
    · next hzero => rw [hneg, hzero]; rfl
    · rfl
  rw [fadd, hsum]
  simpa only [hsign, Nat.mul_one] using round32_of_isBinary32 hv one_pos

/-- The difference of two small integers is exact, and `+0.0` when they are equal. -/
theorem fsub_ofNat_ofNat {q z : Nat} (hq : q ≤ 2 ^ 24) (hz : z ≤ 2 ^ 24) :
    ∃ d, fsub (ofNat q) (ofNat z) = some d ∧ value d = (unitOne : Int) * ((q : Int) - z) ∧
      (q = z → d.neg = false) := by
  have hsum : value (ofNat q) + value (fneg (ofNat z)) = (unitOne : Int) * ((q : Int) - z) := by
    rw [value_fneg, value_ofNat, value_ofNat]
    push_cast
    ring
  have hmag : ((unitOne : Int) * ((q : Int) - z)).natAbs = (ofNat (gap q z)).mag := by
    rw [Int.natAbs_mul, Int.natAbs_natCast]
    rfl
  have hgap := (isBinary32_iff _).mp (isBinary32_ofNat (show gap q z ≤ 2 ^ 24 by unfold gap; omega))
  refine ⟨_, fadd_of_isBinary32 hsum rfl ((isBinary32_iff _).mpr (hmag ▸ hgap)), value_sign_natAbs _, fun h => ?_⟩
  rw [h, Int.sub_self, Int.mul_zero]
  rfl

theorem quantParams_of_isZero (asym : Bool) (w : Width) {x : Flt} (h : isZero x = true) :
    ∃ p, quantParams asym w x x = some p ∧ isZero p.1 = true := by
  cases asym with
  | false => exact ⟨_, Option.map_eq_some_iff.mpr ⟨_, range2scale_of_isZero h w, rfl⟩, rfl⟩
  | true => exact ⟨_, range2scalezp_of_isZero h h w, rfl⟩

end Sys2Proof.Machine

namespace Sys2Proof.Proofs

open Sys2Proof.Machine

/-- Settles O41: the cells of the tiles are those of R237, every byte of every element has one, and the Matrix is the
only buffer written. -/
theorem dqtWritesItsResult : Obligations.DqtWritesItsResult :=
  fun _ _ _ => ⟨exec_dqt rfl, exec_dqt rfl⟩

/-- Settles O45: the scan of a zero block keeps its first zero as both ends; the difference of a code and a zero point is
exact, and its product with a zero is a zero. -/
theorem zeroScaleDequantizesToZero : Obligations.ZeroScaleDequantizesToZero := by
  refine ⟨fun asym w xs hne hzero => ?_, fun q z scale hq hz hscale => ?_⟩
  · obtain ⟨x, rest, rfl⟩ := List.exists_cons_of_ne_nil hne
    obtain ⟨p, hp, hscale⟩ := quantParams_of_isZero asym w (hzero x List.mem_cons_self)
    exact ⟨x, x, p, blockScan_of_isZero hzero, hp, hscale⟩
  · obtain ⟨d, hd, hvalue, hsign⟩ :=
      fsub_ofNat_ofNat (hq.trans (by decide : 15 ≤ 2 ^ 24)) (hz.trans (by decide : 255 ≤ 2 ^ 24))
    exact ⟨d, _, hd, hvalue, hsign, fmul_of_mag_eq_zero d (beq_iff_eq.mp hscale), rfl, rfl⟩

end Sys2Proof.Proofs
end

section
/-! The row-major quantizer (R254 to R258): the cells of a tile are those of R258, every place of R258 has one, and so
`QDQC.S` and `QDQC.A` leave the memory that R258 describes. -/

namespace Sys2Proof.Machine

/-! ### Parts that all exist -/

theorem collect_eq_some_map {α β : Type} {f : α → Option β} {g : α → β} {l : List α}
    (h : ∀ a ∈ l, f a = some (g a)) : collect f l = some (l.map g) :=
  collect_eq_some.mpr (List.forall₂_map_right_iff.mpr (List.forall₂_same.mpr h))

/-! ### A stored value read back (R62) -/

/-- A value whose bytes are those of its place in a written buffer reads back whole. -/
theorem memRead_of_valued {j : Job} {c : HostRegs} {byte : Nat → Nat → Option Byte} {m : Memory}
    {cells : List Host.Cell} (hwf : memWf m) (hclash : anyClash (jobExtents j c) = false)
    (hcells : ∀ x ∈ cells, Valued j c byte x) {i base size p n v : Nat}
    (he : (jobExtents j c)[i]? = some ⟨base, size, true⟩) (hv : v < 256 ^ n) (hplace : ∀ k < n, p + k < size)
    (hbyte : ∀ k < n, byte i (p + k) = some (BitVec.ofNat 8 (v / 256 ^ k)))
    (hall : ∀ k < n, ∃ x ∈ cells, x.1 = base + p + k) : memRead (writeCells m cells) (base + p) n = v := by
  have hread (k : Nat) (hk : k < n) :
      readByte (writeCells m cells) (base + p + k) = BitVec.ofNat 8 (v / 256 ^ k) := by
    have hx := hall k hk
    rw [Nat.add_assoc] at hx ⊢
    exact Option.some.inj
      ((readByte_of_valued hwf hclash hcells he (hplace k hk) hx).symm.trans (hbyte k hk))
  rw [memRead_of_bytes hread, Nat.mod_eq_of_lt hv]

section RowMajor

variable {c : HostRegs} {m : Memory} {asym : Bool} {w : Width} {et : ElemType} {t : Tile}

/-! ### The tile of a row, of a column and of a column group (R254) -/

theorem div_blksz {row : Nat} (hrow : row ∈ span (rowMajorBounds c t).r0 (rowMajorBounds c t).r1) :
    row / c.blksz.toNat = t.r := by
  obtain ⟨-, -, hspan, -⟩ := rowMajorBounds_le (c := c) t
  obtain ⟨hlow, hhigh⟩ := mem_span.mp hrow
  exact Nat.div_eq_of_lt_le hlow (by rw [Nat.add_one_mul]; omega)

/-- The column groups of a tile (R256, R257). -/
def columnGroups (c : HostRegs) (w : Width) (t : Tile) : List Nat :=
  span ((rowMajorBounds c t).c0 / perByte w) ((rowMajorBounds c t).c1 / perByte w)

/-- A column of a group of a tile is a column of the tile. -/
theorem group_col_mem {g i : Nat} (hg : g ∈ columnGroups c w t) (hi : i < perByte w) :
    g * perByte w + i ∈ span (rowMajorBounds c t).c0 (rowMajorBounds c t).c1 := by
  obtain ⟨hlow, hhigh⟩ := mem_span.mp hg
  obtain ⟨hfirst, hlast⟩ := group_bounds hlow hhigh
  exact mem_span.mpr (by omega)

theorem group_lt {g : Nat} (hg : g ∈ columnGroups c w t) : g < c.cols.toNat / perByte w :=
  (mem_span.mp hg).2.trans_le (Nat.div_le_div_right (Nat.min_le_right _ _))

theorem group_col_lt {g i n p : Nat} (hg : g < n / p) (hi : i < p) : g * p + i < n := by
  have hlast := (Nat.le_div_iff_mul_le (Nat.zero_lt_of_lt hi)).mp hg
  rw [Nat.add_one_mul] at hlast
  omega

theorem mem_rowMajorTiles {mr col : Nat} (hr : mr < ceilDiv c.rows.toNat c.blksz.toNat) (hcol : col < c.cols.toNat) :
    ⟨mr, col / qdqTileCols⟩ ∈ rowMajorTiles c :=
  mem_tileGrid.mpr ⟨hr, div_lt_ceilDiv (by decide) hcol⟩

/-- Every block of rows and every column meet in a tile. -/
theorem exists_rowMajorTile {mr col : Nat} (hr : mr < ceilDiv c.rows.toNat c.blksz.toNat) (hcol : col < c.cols.toNat) :
    ∃ t ∈ rowMajorTiles c, t.r = mr ∧ col ∈ span (rowMajorBounds c t).c0 (rowMajorBounds c t).c1 := by
  refine ⟨_, mem_rowMajorTiles hr hcol, rfl, mem_span.mpr ?_⟩
  simp only [rowMajorBounds, qdqTileCols]
  omega

/-- The tile of the first column of a group has the whole group, since 16 columns are whole groups. -/
theorem exists_rowMajorTile_of_group {mr g : Nat} (hr : mr < ceilDiv c.rows.toNat c.blksz.toNat)
    (hg : g < c.cols.toNat / perByte w) : ∃ t ∈ rowMajorTiles c, t.r = mr ∧ g ∈ columnGroups c w t := by
  have hcol : g * perByte w < c.cols.toNat := group_col_lt hg (perByte_pos w)
  refine ⟨_, mem_rowMajorTiles hr hcol, rfl, mem_span.mpr ?_⟩
  cases w <;> simp only [rowMajorBounds, qdqTileCols, perByte, qbits] at hg ⊢ <;> omega

theorem mem_span_of_div_blksz {row : Nat} (hb : 0 < c.blksz.toNat) (hrow : row < c.rows.toNat)
    (ht : t.r = row / c.blksz.toNat) : row ∈ span (rowMajorBounds c t).r0 (rowMajorBounds c t).r1 := by
  simp only [mem_span, rowMajorBounds, ht, lt_min_iff]
  exact ⟨Nat.div_mul_le_self row _, Nat.lt_div_mul_add hb, hrow⟩

/-! ### The blocks of a tile (R255) -/

theorem blksz_pos_of_mem (ht : t ∈ rowMajorTiles c) : 0 < c.blksz.toNat :=
  (lt_ceilDiv_iff.mp (mem_tileGrid.mp ht).1).1

/-- The rows of a block are consecutive (R159, R258). -/
theorem columnBlock_eq (hb : 0 < c.blksz.toNat) (mr col : Nat) :
    Claim.columnBlock c mr col =
      (span (mr * c.blksz.toNat) (min (mr * c.blksz.toNat + c.blksz.toNat) c.rows.toNat)).map fun row =>
        (row, col) := by
  rw [Claim.columnBlock, filter_range_div hb]

theorem blockParam_qdqcBlock (ht : t ∈ rowMajorTiles c) (col : Nat) :
    blockParam (jobMode (.qdqc asym w et)) (elemRead et m) (qdqcBlock c et t col) =
      (Claim.params c m asym w et (Claim.columnBlock c t.r col)).map fun p => { scale := p.1, zp := p.2 } := by
  refine blockParam_eq_params (q := jobMode (.qdqc asym w et)) ?_
  rw [columnBlock_eq (blksz_pos_of_mem ht), List.map_map]
  rfl

/-- A tile has one block per column. -/
theorem qdqcTile_blocks_getElem? {col : Nat} (hcol : col ∈ span (rowMajorBounds c t).c0 (rowMajorBounds c t).c1) :
    (qdqcTile c w asym et t).blocks[col - (rowMajorBounds c t).c0]? = some (qdqcBlock c et t col) := by
  obtain ⟨hlow, hhigh⟩ := mem_span.mp hcol
  have hindex := Nat.add_sub_cancel' hlow
  simp only [qdqcTile, List.getElem?_map, getElem?_span (hindex.symm ▸ hhigh), hindex, Option.map_some]

/-! ### The packed bytes of a tile (R256, R257) -/

/-- The packed byte of a row and a column group of a tile. -/
def qdqcDataByte (c : HostRegs) (w : Width) (et : ElemType) (t : Tile) (row g : Nat) : Nat × List Slot :=
  (packedAddr c ((row * c.cols.toNat + g * perByte w) / perByte w),
    (List.range (perByte w)).map fun i =>
      .elem (rowMajorAddr c (esz et) row (g * perByte w + i)) (g * perByte w + i - (rowMajorBounds c t).c0))

theorem mem_qdqcTile_dataBytes {d : Nat × List Slot} :
    d ∈ (qdqcTile c w asym et t).dataBytes ↔
      ∃ row g, row ∈ span (rowMajorBounds c t).r0 (rowMajorBounds c t).r1 ∧
        g ∈ columnGroups c w t ∧ d = qdqcDataByte c w et t row g := by
  simp only [qdqcTile, List.mem_flatMap, List.mem_map]
  constructor
  · rintro ⟨row, hrow, g, hg, rfl⟩
    exact ⟨row, g, hrow, hg, rfl⟩
  · rintro ⟨row, g, hrow, hg, rfl⟩
    exact ⟨row, hrow, g, hg, rfl⟩

/-- The zero-point byte of a column group of a tile, with the accumulators in its slots. -/
def qdqcZpByte (c : HostRegs) (w : Width) (t : Tile) (g : Nat) : Nat × List Nat :=
  (zpByteAddr c ((t.r * c.cols.toNat + g * perByte w) / perByte w),
    (List.range (perByte w)).map fun i => g * perByte w + i - (rowMajorBounds c t).c0)

theorem mem_qdqcTile_zpBytes {z : Nat × List Nat} :
    z ∈ (qdqcTile c w asym et t).zpBytes ↔
      asym = true ∧ ∃ g ∈ columnGroups c w t, z = qdqcZpByte c w t g := by
  cases asym with
  | false => simp [qdqcTile]
  | true =>
    simp only [qdqcTile, if_true, List.mem_map, true_and, eq_comm (a := z)]
    rfl

/-! ### The bytes of R258 -/

/-- The stored scale of block row `mr` of a column. -/
def qdqcScale (asym : Bool) (w : Width) (et : ElemType) (c : HostRegs) (m : Memory) (mr col : Nat) : Option Nat :=
  (Claim.params c m asym w et (Claim.columnBlock c mr col)).bind fun p => elemBits et p.1

/-- The zero-point byte of block row `mr` of column group `g`. -/
def qdqcZeroPoints (asym : Bool) (w : Width) (et : ElemType) (c : HostRegs) (m : Memory) (mr g : Nat) : Option Byte :=
  Claim.packed w
    ((List.range (perByte w)).map fun i =>
      (Claim.params c m asym w et (Claim.columnBlock c mr (g * perByte w + i))).map Prod.snd)

/-- The code of element `(row, col)`. -/
def qdqcCode (asym : Bool) (w : Width) (et : ElemType) (c : HostRegs) (m : Memory) (row col : Nat) : Option Nat :=
  Claim.code c m asym w et (Claim.columnBlock c (row / c.blksz.toNat) col) (row, col)

/-- The packed byte of a row of column group `g`. -/
def qdqcCodes (asym : Bool) (w : Width) (et : ElemType) (c : HostRegs) (m : Memory) (row g : Nat) : Option Byte :=
  Claim.packed w ((List.range (perByte w)).map fun i => qdqcCode asym w et c m row (g * perByte w + i))

/-- The cells of R258. -/
inductive QdqcCell (asym : Bool) (w : Width) (et : ElemType) (c : HostRegs) (m : Memory) : Host.Cell → Prop where
  | scale {mr col k v : Nat} (hr : mr < ceilDiv c.rows.toNat c.blksz.toNat) (hcol : col < c.cols.toNat)
      (hk : k < esz et) (hv : qdqcScale asym w et c m mr col = some v) :
      QdqcCell asym w et c m
        (c.scAddr.toNat + (mr * c.cols.toNat + col) * esz et + k, BitVec.ofNat 8 (v / 256 ^ k))
  | zeroPoints {mr g : Nat} {v : Byte} (hasym : asym = true) (hr : mr < ceilDiv c.rows.toNat c.blksz.toNat)
      (hg : g < c.cols.toNat / perByte w) (hv : qdqcZeroPoints asym w et c m mr g = some v) :
      QdqcCell asym w et c m (c.zpAddr.toNat + (mr * c.cols.toNat + g * perByte w) / perByte w, v)
  | codes {row g : Nat} {v : Byte} (hrow : row < c.rows.toNat) (hg : g < c.cols.toNat / perByte w)
      (hv : qdqcCodes asym w et c m row g = some v) :
      QdqcCell asym w et c m (c.pkAddr.toNat + (row * c.cols.toNat + g * perByte w) / perByte w, v)

/-! ### The cells of a tile -/

section Tile

variable {ps : List BlockParam} (ht : t ∈ rowMajorTiles c)
  (hps : collect (blockParam (jobMode (.qdqc asym w et)) (elemRead et m)) (qdqcTile c w asym et t).blocks = some ps)

include ht hps

/-- The block of a column of a tile with parameters has those of R258. -/
theorem exists_params_qdqc {col : Nat} (hcol : col ∈ span (rowMajorBounds c t).c0 (rowMajorBounds c t).c1) :
    ∃ scale zp, Claim.params c m asym w et (Claim.columnBlock c t.r col) = some (scale, zp) ∧
      ps[col - (rowMajorBounds c t).c0]? = some ⟨scale, zp⟩ := by
  obtain ⟨p, hp, hpk⟩ := blockParam_of_getElem? hps (qdqcTile_blocks_getElem? hcol)
  rw [blockParam_qdqcBlock ht] at hp
  obtain ⟨⟨scale, zp⟩, hparams, rfl⟩ := Option.map_eq_some_iff.mp hp
  exact ⟨scale, zp, hparams, hpk⟩

/-- The slot of an element of the tile holds its code. -/
theorem slotValue_elem_qdqc {rs : List Flt} (hrs : collect (storedRecip (jobMode (.qdqc asym w et))) ps = some rs)
    {row col : Nat} (hrow : row ∈ span (rowMajorBounds c t).r0 (rowMajorBounds c t).r1)
    (hcol : col ∈ span (rowMajorBounds c t).c0 (rowMajorBounds c t).c1) :
    slotValue (jobMode (.qdqc asym w et)) (elemRead et m) rs
        (accumulators (jobMode (.qdqc asym w et)) (qdqcTile c w asym et t) ps)
        (.elem (rowMajorAddr c (esz et) row col) (col - (rowMajorBounds c t).c0)) =
      qdqcCode asym w et c m row col := by
  obtain ⟨scale, zp, hparams, hp⟩ := exists_params_qdqc ht hps hcol
  have hr := collect_getElem? hrs (col - (rowMajorBounds c t).c0)
  rw [hp, Option.bind_some, storedRecip_eq_bind] at hr
  rw [qdqcCode, div_blksz hrow, code_eq_bind hparams, slotValue_elem_eq_bind, getD_accumulators, hp, hr]
  rfl

/-- A packed byte of the tile is that of R258. -/
theorem dataCell_qdqc {rs : List Flt} (hrs : collect (storedRecip (jobMode (.qdqc asym w et))) ps = some rs)
    {row g : Nat} (hrow : row ∈ span (rowMajorBounds c t).r0 (rowMajorBounds c t).r1)
    (hg : g ∈ columnGroups c w t) :
    dataCell (jobMode (.qdqc asym w et)) (elemRead et m) rs
        (accumulators (jobMode (.qdqc asym w et)) (qdqcTile c w asym et t) ps) (qdqcDataByte c w et t row g) =
      (qdqcCodes asym w et c m row g).map fun v =>
        (c.pkAddr.toNat + (row * c.cols.toNat + g * perByte w) / perByte w, v) := by
  rw [dataCell, qdqcCodes, Claim.packed, Option.map_map, qdqcDataByte, collect_map, collect_map]
  refine congrArg _ (collect_congr fun i hi => ?_)
  exact slotValue_elem_qdqc ht hps hrs hrow (group_col_mem hg (List.mem_range.mp hi))

/-- A zero-point byte of the tile is that of R258. -/
theorem qdqcZeroPoints_eq {g : Nat} (hg : g ∈ columnGroups c w t) :
    qdqcZeroPoints asym w et c m t.r g =
      some (pack w ((qdqcZpByte c w t g).2.map fun k =>
        (accumulators (jobMode (.qdqc asym w et)) (qdqcTile c w asym et t) ps).getD k (mid w))) := by
  rw [qdqcZeroPoints, Claim.packed, qdqcZpByte, collect_map, List.map_map, collect_eq_some_map fun i hi => ?_]
  · rfl
  · obtain ⟨scale, zp, hparams, hp⟩ := exists_params_qdqc ht hps (group_col_mem hg (List.mem_range.mp hi))
    have hacc := getD_accumulators (jobMode (.qdqc asym w et)) (qdqcTile c w asym et t) ps
      (g * perByte w + i - (rowMajorBounds c t).c0)
    rw [hp] at hacc
    exact (congrArg (Option.map Prod.snd) hparams).trans (congrArg some hacc.symm)

end Tile

theorem qdqcCell_of_mem_tile (ht : t ∈ rowMajorTiles c) {cells : List Host.Cell}
    (h : jobTileCells (.qdqc asym w et) c m t = some cells) {x : Host.Cell} (hx : x ∈ cells) :
    QdqcCell asym w et c m x := by
  obtain ⟨hr, -⟩ := mem_tileGrid.mp ht
  obtain ⟨hr1, hc1, -⟩ := rowMajorBounds_le (c := c) t
  obtain ⟨ps, sc, rs, d, hps, hsc, hrs, hd, rfl⟩ := quantTileCells_eq_some h
  rcases List.mem_append.mp hx with hx | hx
  · rcases List.mem_append.mp hx with hx | hx
    · obtain ⟨b, hb, p, v, k, hp, hv, hk, rfl⟩ := mem_scaleCells hps hsc hx
      obtain ⟨col, hcol, rfl⟩ := List.mem_map.mp hb
      obtain ⟨pair, hparams, rfl⟩ := Option.map_eq_some_iff.mp ((blockParam_qdqcBlock ht col).symm.trans hp)
      exact .scale hr ((mem_span.mp hcol).2.trans_le hc1) hk (by rw [qdqcScale, hparams]; exact hv)
    · obtain ⟨z, hz, rfl⟩ := List.mem_map.mp hx
      obtain ⟨hasym, g, hg, rfl⟩ := mem_qdqcTile_zpBytes.mp hz
      exact .zeroPoints hasym hr (group_lt hg) (qdqcZeroPoints_eq ht hps hg)
  · obtain ⟨y, hy, hcell⟩ := mem_of_collect hd hx
    obtain ⟨row, g, hrow, hg, rfl⟩ := mem_qdqcTile_dataBytes.mp hy
    obtain ⟨v, hv, rfl⟩ := Option.map_eq_some_iff.mp ((dataCell_qdqc ht hps hrs hrow hg).symm.trans hcell)
    exact .codes ((mem_span.mp hrow).2.trans_le hr1) (group_lt hg) hv

/-! ### Every tile has its cells -/

theorem exists_params_of_qdqcDefined (hdef : Claim.QdqcDefined asym w et c m) {mr col : Nat}
    (hr : mr < ceilDiv c.rows.toNat c.blksz.toNat) (hcol : col < c.cols.toNat) :
    ∃ scale zp, Claim.params c m asym w et (Claim.columnBlock c mr col) = some (scale, zp) ∧
      (elemBits et scale).isSome = true := by
  obtain ⟨v, hv⟩ := Option.isSome_iff_exists.mp (hdef.scales mr hr col hcol)
  obtain ⟨⟨scale, zp⟩, hparams, hbits⟩ := Option.bind_eq_some_iff.mp hv
  exact ⟨scale, zp, hparams, Option.isSome_of_eq_some hbits⟩

/-- The scale of a block has a reciprocal when an element has a code under it. -/
theorem recip_isSome_of_code {block : List (Nat × Nat)} {x : Nat × Nat} {scale : Flt} {zp : Nat}
    (hparams : Claim.params c m asym w et block = some (scale, zp))
    (hcode : (Claim.code c m asym w et block x).isSome = true) : ((elemRound et scale).bind rcp).isSome = true := by
  rw [code_eq_bind hparams] at hcode
  obtain ⟨code, hcode⟩ := Option.isSome_iff_exists.mp hcode
  obtain ⟨v, -, hcode⟩ := Option.bind_eq_some_iff.mp hcode
  obtain ⟨r, hr, -⟩ := Option.bind_eq_some_iff.mp hcode
  exact Option.isSome_of_eq_some hr

/-- The first element of a block has a code. -/
theorem recip_isSome_of_qdqcDefined (hdef : Claim.QdqcDefined asym w et c m) {mr col : Nat} {scale : Flt} {zp : Nat}
    (hr : mr < ceilDiv c.rows.toNat c.blksz.toNat) (hcol : col < c.cols.toNat)
    (hparams : Claim.params c m asym w et (Claim.columnBlock c mr col) = some (scale, zp)) :
    ((elemRound et scale).bind rcp).isSome = true := by
  obtain ⟨hb, hrow⟩ := lt_ceilDiv_iff.mp hr
  have hcode := hdef.codes _ hrow _ hcol
  rw [Nat.mul_div_cancel _ hb] at hcode
  exact recip_isSome_of_code hparams hcode

theorem qdqcCodes_isSome (hdef : Claim.QdqcDefined asym w et c m) {row g : Nat} (hrow : row < c.rows.toNat)
    (hg : g < c.cols.toNat / perByte w) : (qdqcCodes asym w et c m row g).isSome = true := by
  rw [qdqcCodes, Claim.packed, Option.isSome_map, collect_isSome_iff, List.forall_mem_map]
  exact fun i hi => hdef.codes row hrow _ (group_col_lt hg (List.mem_range.mp hi))

theorem jobTileCells_qdqc_isSome (hdef : Claim.QdqcDefined asym w et c m) (ht : t ∈ rowMajorTiles c) :
    (jobTileCells (.qdqc asym w et) c m t).isSome = true := by
  obtain ⟨hr, -⟩ := mem_tileGrid.mp ht
  obtain ⟨hr1, hc1, -⟩ := rowMajorBounds_le (c := c) t
  refine quantTileCells_isSome (fun b hb => ?_) fun ps rs hps hrs => collect_isSome_iff.mpr fun d hd => ?_
  · obtain ⟨col, hcol, rfl⟩ := List.mem_map.mp hb
    have hcol := (mem_span.mp hcol).2.trans_le hc1
    obtain ⟨scale, zp, hparams, hbits⟩ := exists_params_of_qdqcDefined hdef hr hcol
    refine ⟨⟨scale, zp⟩, (blockParam_qdqcBlock ht col).trans (by rw [hparams]; rfl), hbits, ?_⟩
    rw [storedRecip_eq_bind]
    exact recip_isSome_of_qdqcDefined hdef hr hcol hparams
  · obtain ⟨row, g, hrow, hg, rfl⟩ := mem_qdqcTile_dataBytes.mp hd
    refine (congrArg Option.isSome (dataCell_qdqc ht hps hrs hrow hg)).trans (Option.isSome_map.trans ?_)
    exact qdqcCodes_isSome hdef ((mem_span.mp hrow).2.trans_le hr1) (group_lt hg)

/-! ### Every place of R258 has a cell -/

theorem target_qdqc_scale {mr col k : Nat} (hr : mr < ceilDiv c.rows.toNat c.blksz.toNat) (hcol : col < c.cols.toNat)
    (hk : k < esz et) :
    ∃ t ∈ rowMajorTiles c, IsTarget et (jobWork (.qdqc asym w et) c t)
      (c.scAddr.toNat + (mr * c.cols.toNat + col) * esz et + k) := by
  obtain ⟨t, ht, rfl, hcol⟩ := exists_rowMajorTile hr hcol
  exact ⟨t, ht, .inl ⟨_, List.mem_map_of_mem hcol, Nat.le_add_right _ _, Nat.add_lt_add_left hk _⟩⟩

theorem target_qdqc_zeroPoints {mr g : Nat} (hr : mr < ceilDiv c.rows.toNat c.blksz.toNat)
    (hg : g < c.cols.toNat / perByte w) :
    ∃ t ∈ rowMajorTiles c, IsTarget et (jobWork (.qdqc true w et) c t)
      (c.zpAddr.toNat + (mr * c.cols.toNat + g * perByte w) / perByte w) := by
  obtain ⟨t, ht, rfl, hg⟩ := exists_rowMajorTile_of_group hr hg
  exact ⟨t, ht, .inr (.inl ⟨_, mem_qdqcTile_zpBytes.mpr ⟨rfl, g, hg, rfl⟩, rfl⟩)⟩

theorem target_qdqc_codes {row g : Nat} (hb : 0 < c.blksz.toNat) (hrow : row < c.rows.toNat)
    (hg : g < c.cols.toNat / perByte w) :
    ∃ t ∈ rowMajorTiles c, IsTarget et (jobWork (.qdqc asym w et) c t)
      (c.pkAddr.toNat + (row * c.cols.toNat + g * perByte w) / perByte w) := by
  obtain ⟨t, ht, htr, hg⟩ := exists_rowMajorTile_of_group (div_lt_ceilDiv hb hrow) hg
  have hd := (mem_qdqcTile_dataBytes (asym := asym) (et := et)).mpr
    ⟨row, g, mem_span_of_div_blksz hb hrow htr, hg, rfl⟩
  exact ⟨t, ht, .inr (.inr ⟨_, hd, rfl⟩)⟩

/-! ### The memory of R258 -/

/-- The byte that R258 gives for byte `k` of buffer number `i`. -/
def qdqcByte (asym : Bool) (w : Width) (et : ElemType) (c : HostRegs) (m : Memory) : Nat → Nat → Option Byte
  | 1, k => qdqcCodes asym w et c m (k / (c.cols.toNat / perByte w)) (k % (c.cols.toNat / perByte w))
  | 2, k =>
    (qdqcScale asym w et c m (k / esz et / c.cols.toNat) (k / esz et % c.cols.toNat)).map fun v =>
      BitVec.ofNat 8 (v / 256 ^ (k % esz et))
  | _, k => qdqcZeroPoints asym w et c m (k / (c.cols.toNat / perByte w)) (k % (c.cols.toNat / perByte w))

theorem qdqcByte_scale {mr col k : Nat} (hcol : col < c.cols.toNat) (hk : k < esz et) :
    qdqcByte asym w et c m 2 ((mr * c.cols.toNat + col) * esz et + k) =
      (qdqcScale asym w et c m mr col).map fun v => BitVec.ofNat 8 (v / 256 ^ k) := by
  simp only [qdqcByte, index_div_mod hk, index_div_mod hcol]

theorem qdqcByte_zeroPoints (hcols : c.cols.toNat % perByte w = 0) {mr g : Nat} (hg : g < c.cols.toNat / perByte w) :
    qdqcByte asym w et c m 3 ((mr * c.cols.toNat + g * perByte w) / perByte w) =
      qdqcZeroPoints asym w et c m mr g := by
  simp only [qdqcByte, packed_index_eq hcols (perByte_pos w), index_div_mod hg]

theorem qdqcByte_codes (hcols : c.cols.toNat % perByte w = 0) {row g : Nat} (hg : g < c.cols.toNat / perByte w) :
    qdqcByte asym w et c m 1 ((row * c.cols.toNat + g * perByte w) / perByte w) = qdqcCodes asym w et c m row g := by
  simp only [qdqcByte, packed_index_eq hcols (perByte_pos w), index_div_mod hg]

theorem qdqcScale_place_lt {mr col k : Nat} (hr : mr < ceilDiv c.rows.toNat c.blksz.toNat) (hcol : col < c.cols.toNat)
    (hk : k < esz et) : (mr * c.cols.toNat + col) * esz et + k < qdqScales c * esz et :=
  index_lt (index_lt hr hcol) hk

/-- The cells of R258 stand in the written buffers, at the places whose bytes they are. -/
theorem QdqcCell.valued {x : Host.Cell} (h : QdqcCell asym w et c m x) (hcols : c.cols.toNat % perByte w = 0) :
    Valued (.qdqc asym w et) c (qdqcByte asym w et c m) x := by
  cases h with
  | scale hr hcol hk hv =>
    rw [Nat.add_assoc]
    refine valued_offset (i := 2) rfl (qdqcScale_place_lt hr hcol hk) ?_
    rw [qdqcByte_scale hcol hk, hv]
    rfl
  | zeroPoints hasym hr hg hv =>
    subst hasym
    exact valued_offset (i := 3) rfl (packed_index_lt hr hg) ((qdqcByte_zeroPoints hcols hg).trans hv)
  | codes hrow hg hv =>
    exact valued_offset (i := 1) rfl (packed_index_lt hrow hg) ((qdqcByte_codes hcols hg).trans hv)

/-- Cells of R258 that reach every target of the tiles leave the memory of R258. -/
theorem qdqcResult_writeCells {cells : List Host.Cell} (hwf : memWf m)
    (hclash : anyClash (jobExtents (.qdqc asym w et) c) = false) (hb : 0 < c.blksz.toNat)
    (hcols : c.cols.toNat % perByte w = 0) (hdef : Claim.QdqcDefined asym w et c m)
    (hcells : ∀ x ∈ cells, QdqcCell asym w et c m x)
    (hall : ∀ a, (∃ t ∈ rowMajorTiles c, IsTarget et (jobWork (.qdqc asym w et) c t) a) →
      ∃ x ∈ cells, x.1 = a) :
    Claim.QdqcResult asym w et c m (writeCells m cells) := by
  have hvalued : ∀ x ∈ cells, Valued (.qdqc asym w et) c (qdqcByte asym w et c m) x := fun x hx =>
    (hcells x hx).valued hcols
  constructor
  case scales =>
    intro mr col hr hcol
    obtain ⟨v, hv⟩ : ∃ v, qdqcScale asym w et c m mr col = some v :=
      Option.isSome_iff_exists.mp (hdef.scales mr hr col hcol)
    obtain ⟨p, -, hbits⟩ := Option.bind_eq_some_iff.mp hv
    refine hv.trans (congrArg some (memRead_of_valued hwf hclash hvalued (i := 2) rfl (elemBits_lt hbits)
      (fun k hk => qdqcScale_place_lt hr hcol hk) (fun k hk => ?_) fun k hk =>
        hall _ (target_qdqc_scale hr hcol hk)).symm)
    rw [qdqcByte_scale hcol hk, hv]
    rfl
  case zeroPoints =>
    intro hasym mr g hr hg
    subst hasym
    have hread := readByte_of_valued hwf hclash hvalued (i := 3) rfl (packed_index_lt hr hg)
      (hall _ (target_qdqc_zeroPoints hr hg))
    rwa [qdqcByte_zeroPoints hcols hg] at hread
  case codes =>
    intro row g hrow hg
    have hread := readByte_of_valued hwf hclash hvalued (i := 1) rfl (packed_index_lt hrow hg)
      (hall _ (target_qdqc_codes hb hrow hg))
    rwa [qdqcByte_codes hcols hg] at hread
  case frame =>
    intro a hscale hzp hcode
    refine readByte_writeCells_of_not_mem hwf fun x hx hxa => ?_
    cases hcells x hx with
    | scale hr hcol hk => exact hscale _ _ _ hr hcol hk hxa.symm
    | zeroPoints hasym hr hg => exact hzp hasym _ _ hr hg hxa.symm
    | codes hrow hg => exact hcode _ _ hrow hg hxa.symm

end RowMajor

/-- A ready `QDQC` whose parts are all defined leaves the memory of R258. -/
theorem exec_qdqc {i : Instr} {asym : Bool} {w : Width} {et : ElemType} {s : State}
    (hjob : jobOf i = some (.qdqc asym w et)) (hready : Claim.Ready (.qdqc asym w et) s)
    (hdef : Claim.QdqcDefined asym w et s.ctx s.mem) :
    ∃ m, exec i s = .next (complete false { s with mem := m }) ∧ memWf m ∧
      Claim.QdqcResult asym w et s.ctx s.mem m := by
  obtain ⟨cells, hcells, hexec⟩ := exec_of_ready hjob hready fun t ht => jobTileCells_qdqc_isSome hdef ht
  obtain ⟨hb, -⟩ := blockSides_pos (by simpa [jobEmpty] using hready.passes.1) .colWise
  obtain ⟨hconfig, -, -⟩ := jobError_eq_none hready.passes.2
  refine ⟨writeCells s.mem cells, hexec, memWf_writeCells hready.memory cells,
    qdqcResult_writeCells hready.memory hready.apart hb (cols_mod_perByte hconfig) hdef (fun x hx => ?_) ?_⟩
  · obtain ⟨t, ht, cs, hcs, hx⟩ := (mem_collectCells hcells).mp hx
    exact qdqcCell_of_mem_tile ht hcs hx
  · rintro a ⟨t, ht, ha⟩
    obtain ⟨cs, hcs⟩ := collectCells_of_mem hcells ht
    obtain ⟨x, hx, hxa⟩ := exists_cell_of_target hcs ha
    exact ⟨x, (mem_collectCells hcells).mpr ⟨t, ht, cs, hcs, hx⟩, hxa⟩

end Sys2Proof.Machine

namespace Sys2Proof.Proofs

open Sys2Proof.Machine

/-- Settles O42: the cells of the tiles are those of R258, each place of R258 has one, and places do not overlap; a
width that no word encodes needs no case of its own. -/
theorem qdqcWritesItsResult : Obligations.QdqcWritesItsResult :=
  fun _ _ _ _ => ⟨exec_qdqc rfl, exec_qdqc rfl⟩

end Sys2Proof.Proofs
end

section
/-! The errors of a command (R312 to R319): the tests of R319 in the spec's own terms, the cause behind every error that
a command ends in, and what an error and an unsupported block size leave (R312, R321). -/

namespace Sys2Proof.Machine

/-! ### The tests of R319 in the spec's terms -/

/-- Test 4 of R319. -/
theorem jobEmpty_iff {j : Job} {c : HostRegs} : jobEmpty j c = true ↔ Claim.unsupported j c := by
  have hblk : (!supportedBlock c.blksz.toNat) = true ↔ c.blksz.toNat ∉ [16, 32, 64, 128, 256] := by
    rw [Bool.not_eq_true', ← Bool.not_eq_true, supportedBlock_iff]
  cases j with
  | qt | dqt | qdqc => exact hblk
  | lpack | lunpack => simp [jobEmpty, Claim.unsupported]

theorem jobEmpty_eq_false_iff {j : Job} {c : HostRegs} : jobEmpty j c = false ↔ ¬ Claim.unsupported j c := by
  rw [← Bool.not_eq_true, jobEmpty_iff]

/-- Test 5 of R319. -/
theorem jobConfigError_iff {j : Job} {c : HostRegs} : jobConfigError j c = true ↔ Claim.configCause j c := by
  cases j with
  | qt | dqt => exact (Bool.not_eq_true' _).to_iff.trans geometryFits_eq_false_iff
  | qdqc asym w et =>
    have hzp : tooLarge ≤ qdqZpBytes c w asym ↔ asym = true ∧ tooLarge ≤ qdqScales c / perByte w := by
      cases asym <;> simp [qdqZpBytes, tooLarge]
    simp only [jobConfigError, Bool.or_eq_true, decide_eq_true_eq, bne_iff_ne, hzp, or_assoc]
    rfl
  | lpack v => exact decide_eq_true_iff
  | lunpack v =>
    simp only [jobConfigError, Bool.or_eq_true, Bool.and_eq_true, decide_eq_true_eq, and_assoc]
    rfl

theorem jobConfigError_eq_false_iff {j : Job} {c : HostRegs} :
    jobConfigError j c = false ↔ ¬ Claim.configCause j c := by
  rw [← Bool.not_eq_true, jobConfigError_iff]

/-- Test 6 of R319. -/
theorem jobMisaligned_iff {j : Job} {c : HostRegs} : jobMisaligned j c = true ↔ Claim.alignCause j c := by
  cases j <;>
    simp [jobMisaligned, Claim.alignCause, Claim.elemTypeOfJob, Claim.hasScaleBuffer, Nat.dvd_iff_mod_eq_zero, esz]

theorem jobMisaligned_eq_false_iff {j : Job} {c : HostRegs} :
    jobMisaligned j c = false ↔ ¬ Claim.alignCause j c := by
  rw [← Bool.not_eq_true, jobMisaligned_iff]

/-- The extents of a command are the buffers of R66. -/
theorem bufferSizes_eq (j : Job) (c : HostRegs) :
    Claim.bufferSizes j c = (jobExtents j c).map fun e => (e.base, e.size) := by
  cases j with
  | qt asym | dqt asym | qdqc asym => cases asym <;> rfl
  | lpack | lunpack => rfl

/-- Test 7 of R319. -/
theorem not_all_extentFits_iff {j : Job} {c : HostRegs} {n : Nat} :
    (jobExtents j c).all (extentFits n) = false ↔ Claim.addressCause j c n := by
  rw [Claim.addressCause, bufferSizes_eq]
  simp [extentFits, Nat.pos_iff_ne_zero]

/-- Why tests 5 to 7 of R319 end a bulk command in error `e`: its cause is there, and none that is tested earlier. -/
def ErrorCause (j : Job) (c : HostRegs) (n : Nat) : CmdError → Prop
  | .configError => Claim.configCause j c
  | .alignError => ¬ Claim.configCause j c ∧ Claim.alignCause j c
  | .addressError => ¬ Claim.configCause j c ∧ ¬ Claim.alignCause j c ∧ Claim.addressCause j c n
  | _ => False

theorem jobError_eq_some_iff {j : Job} {c : HostRegs} {n : Nat} {e : CmdError} :
    jobError j c n = some e ↔ ErrorCause j c n e := by
  constructor
  · intro h
    rcases jobError_cases h with ⟨hconfig, rfl⟩ | ⟨hconfig, halign, rfl⟩ | ⟨hconfig, halign, haddress, rfl⟩
    · exact jobConfigError_iff.mp hconfig
    · exact ⟨jobConfigError_eq_false_iff.mp hconfig, jobMisaligned_iff.mp halign⟩
    · exact ⟨jobConfigError_eq_false_iff.mp hconfig, jobMisaligned_eq_false_iff.mp halign,
        not_all_extentFits_iff.mp haddress⟩
  · intro h
    cases e with
    | configError => simp [jobError, jobConfigError_iff.mpr h]
    | alignError => simp [jobError, jobConfigError_eq_false_iff.mpr h.1, jobMisaligned_iff.mpr h.2]
    | addressError =>
      obtain ⟨hconfig, halign, haddress⟩ := h
      simp [jobError, jobConfigError_eq_false_iff.mpr hconfig, jobMisaligned_eq_false_iff.mpr halign,
        not_all_extentFits_iff.mpr haddress]
    | illegalCommand | unimplemented | operandError => exact h.elim

/-- Tests 5 to 7 of R319 find nothing exactly when none of their causes is there. -/
theorem jobError_eq_none_iff {j : Job} {c : HostRegs} {n : Nat} :
    jobError j c n = none ↔ ¬ Claim.configCause j c ∧ ¬ Claim.alignCause j c ∧ ¬ Claim.addressCause j c n := by
  rw [← jobConfigError_eq_false_iff, ← jobMisaligned_eq_false_iff, ← not_all_extentFits_iff, Bool.not_eq_false]
  constructor
  · intro h
    obtain ⟨hconfig, halign, hfit⟩ := jobError_eq_none h
    exact ⟨hconfig, halign, List.all_eq_true.mpr hfit⟩
  · rintro ⟨hconfig, halign, hfit⟩
    simp [jobError, hconfig, halign, hfit]

/-! ### From a cause to its error -/

/-- A supported block size and a cause end a bulk command in the cause's error. -/
theorem exec_of_errorCause {i : Instr} {j : Job} {s : State} {e : CmdError} (hjob : jobOf i = some j)
    (hblk : ¬ Claim.unsupported j s.ctx) (hcause : ErrorCause j s.ctx s.plat.memBytes e) :
    exec i s = .next (raiseError e s) := by
  have hempty := jobEmpty_eq_false_iff.mpr hblk
  have herror := jobError_eq_some_iff.mpr hcause
  simp [exec_of_jobOf hjob, runBulk, hempty, herror]

theorem exec_of_unsupported {i : Instr} {j : Job} {s : State} (hjob : jobOf i = some j)
    (hblk : Claim.unsupported j s.ctx) : exec i s = .next (complete true s) := by
  simp [exec_of_jobOf hjob, runBulk, jobEmpty_iff.mpr hblk]

/-- Only a command that `BLKSZ` bears on can set `EMPTY`. -/
theorem runBulk_empty {j : Job} {s : State} (h : jobEmpty j s.ctx = false) : (runBulk j s).empty = false := by
  rcases runBulk_cases j s with ⟨hempty, -⟩ | ⟨-, e, -, heq⟩ | ⟨-, -, -, heq⟩ | ⟨-, -, -, heq⟩
  · simp [h] at hempty
  · rw [heq, raiseError_empty]
  · rcases performAll_cases j s with ⟨cells, -, hdone⟩ | ⟨-, hdone⟩ <;> rw [heq, hdone, complete_empty]
  · rw [heq, dispatchTiles_empty]

/-! ### From an error to its cause -/

/-- Why command `i` in the state `s` ends in error `e`. -/
inductive FailsBy (i : Instr) (s : State) : CmdError → Prop where
  | geom (w : Width) (o : Orient) (zpen : Bool) (hi : i = .geom w o zpen)
      (hblk : supportedBlock s.ctx.blksz.toNat = true)
      (hfits : geometryFits (contextGeometry s.ctx w o zpen) = false) : FailsBy i s .configError
  | operand : FailsBy i s .operandError
  | unimplemented : FailsBy i s .unimplemented
  | bulk (j : Job) (e : CmdError) (hjob : jobOf i = some j) (hblk : ¬ Claim.unsupported j s.ctx)
      (hcause : ErrorCause j s.ctx s.plat.memBytes e) : FailsBy i s e

theorem failsBy_of_runBulk {i : Instr} {j : Job} {s : State} {e : CmdError} (hjob : jobOf i = some j)
    (h : (runBulk j s).err = some e) : FailsBy i s e := by
  rcases runBulk_cases j s with ⟨-, heq⟩ | ⟨hempty, e', herror, heq⟩ | ⟨-, -, -, heq⟩ | ⟨-, -, -, heq⟩
  · simp [heq] at h
  · obtain rfl : e' = e := by simpa [heq] using h
    exact .bulk j e' hjob (jobEmpty_eq_false_iff.mp hempty) (jobError_eq_some_iff.mp herror)
  · rcases performAll_cases j s with ⟨cells, -, hdone⟩ | ⟨-, hdone⟩ <;> simp [heq, hdone] at h
  · simp [heq] at h

theorem failsBy_of_execGeom {w : Width} {o : Orient} {zpen : Bool} {s t : State} {e : CmdError}
    (hexec : execGeom w o zpen s = .next t) (h : t.err = some e) : FailsBy (.geom w o zpen) s e := by
  rcases execGeom_cases w o zpen s with ⟨-, -, heq⟩ | ⟨hblk, hfits, heq⟩ | ⟨-, heq⟩ <;>
    obtain rfl := Host.Outcome.next.inj (heq.symm.trans hexec)
  · simp at h
  · obtain rfl : CmdError.configError = e := by simpa using h
    exact .geom w o zpen rfl hblk hfits
  · simp at h

theorem failsBy_of_execNorm {w : Width} {s t : State} {e : CmdError} (hexec : execNorm w s = .next t)
    (h : t.err = some e) : FailsBy (.norm w) s e := by
  rcases execNorm_cases w s with ⟨-, heq⟩ | ⟨-, a, b, -, heq⟩ | ⟨-, -, heq⟩ <;>
    obtain rfl := Host.Outcome.next.inj (heq.symm.trans hexec)
  · obtain rfl : CmdError.operandError = e := by simpa using h
    exact .operand
  · simp at h
  · simp at h

theorem failsBy_of_runPack {i : Instr} {w : Width} {s : State} {e : CmdError} (h : (runPack w s).err = some e) :
    FailsBy i s e := by
  rcases runPack_cases w s with ⟨-, heq⟩ | ⟨-, heq⟩
  · simp [heq] at h
  · obtain rfl : CmdError.operandError = e := by simpa [heq] using h
    exact .operand

theorem runRange_err (asym : Bool) (w : Width) (et : ElemType) (s : State) : (runRange asym w et s).err = none := by
  rcases runRange_cases asym w et s with ⟨a, b, -, heq⟩ | ⟨-, heq⟩ <;> simp [heq]

/-- Every error of a command has one of the causes of `FailsBy`. -/
theorem failsBy_of_exec {i : Instr} {s t : State} {e : CmdError} (hexec : exec i s = .next t)
    (h : t.err = some e) : FailsBy i s e := by
  cases i with
  | geom w o zpen => exact failsBy_of_execGeom hexec h
  | norm w => exact failsBy_of_execNorm hexec h
  | r2qS w et | r2qA w et =>
    obtain rfl := Host.Outcome.next.inj hexec
    simp [runRange_err] at h
  | packQ4 | packQ2 | packQ8 =>
    obtain rfl := Host.Outcome.next.inj hexec
    exact failsBy_of_runPack h
  | unpackQ4 | unpackQ2 | unpackQ8 =>
    obtain rfl := Host.Outcome.next.inj hexec
    simp [runUnpack] at h
  | qdqr w zpen et =>
    obtain rfl := Host.Outcome.next.inj hexec
    obtain rfl : CmdError.unimplemented = e := by simpa using h
    exact .unimplemented
  | _ =>
    obtain rfl := Host.Outcome.next.inj hexec
    exact failsBy_of_runBulk rfl h

/-! ### What an end leaves -/

/-- A command that ends in error leaves its raise of that error and nothing else (R312). -/
theorem Leaves.of_phase_error {i : Instr} {s t : State} (h : Leaves i s t) (hphase : t.phase = .error) :
    ∃ e, t = raiseError e s := by
  cases h with
  | failed e => exact ⟨e, rfl⟩
  | scalar | bulk | runs => simp at hphase

end Sys2Proof.Machine

namespace Sys2Proof.Proofs

open Sys2Proof.Machine

/-- Settles O33: test 5 of R319 is the cause of R315 and comes first after the block size; `GEOM` tests its seven
values. -/
theorem configErrorCauses : Obligations.ConfigErrorCauses := by
  refine ⟨fun i j s hjob hblk hcause => exec_of_errorCause hjob hblk hcause,
    fun w o zpen s hblk hlarge =>
      execGeom_of_tooLarge (supportedBlock_iff.mpr hblk) (geometryFits_eq_false_iff.mpr hlarge),
    fun i s t hexec herr => ?_⟩
  cases failsBy_of_exec hexec herr with
  | geom w o zpen hi hblk hfits =>
    exact .inr ⟨w, o, zpen, hi, supportedBlock_iff.mp hblk, geometryFits_eq_false_iff.mp hfits⟩
  | bulk j _ hjob hblk hcause => exact .inl ⟨j, hjob, hblk, hcause⟩

/-- Settles O36, test by test. -/
theorem passingTheChecks : Obligations.PassingTheChecks :=
  fun _ _ => and_congr jobEmpty_eq_false_iff jobError_eq_none_iff

/-- Settles O38: of the ways a command can go only the raise of an error leaves the phase `ERROR`. -/
theorem errorsWriteNothing : Obligations.ErrorsWriteNothing := by
  intro i s t hexec hphase
  obtain ⟨e, rfl⟩ := (leaves_of_exec hexec).of_phase_error hphase
  simp

/-- Settles O54: a command that is one step does not run on, and results and memory are written by different
commands. -/
theorem everyCommandEnds : Obligations.EveryCommandEnds := by
  intro i s hgrain
  obtain ⟨t, hexec, hleaves⟩ := exec_leaves i s
  refine ⟨t, hexec, ?_⟩
  cases hleaves with
  | failed e => simp
  | scalar b r n => simp
  | bulk j b cells n => simp
  | runs j hjob hpasses htiled => simp [hgrain] at htiled

/-- Settles O32: test 4 of R319 comes first, and the legacy commands do not have it. -/
theorem unsupportedBlockSizeDegradesSilently : Obligations.UnsupportedBlockSizeDegradesSilently := by
  refine ⟨fun i j s => exec_of_unsupported,
    fun w o zpen s hblk => execGeom_of_unsupported (Bool.eq_false_of_not_eq_true (mt supportedBlock_iff.mp hblk)),
    fun v i s hi => ?_⟩
  obtain ⟨j, hjob, hempty⟩ : ∃ j, jobOf i = some j ∧ jobEmpty j s.ctx = false := by
    rcases hi with rfl | rfl
    · exact ⟨.lpack v, by cases v <;> rfl, rfl⟩
    · exact ⟨.lunpack v, by cases v <;> rfl, rfl⟩
  exact ⟨_, exec_of_jobOf hjob s, runBulk_empty hempty⟩

/-- Settles O34: test 6 of R319 is the cause of R316. -/
theorem alignErrorCause : Obligations.AlignErrorCause := by
  refine ⟨fun i j s hjob hblk hconfig halign => exec_of_errorCause hjob hblk ⟨hconfig, halign⟩,
    fun i s t hexec herr => ?_⟩
  cases failsBy_of_exec hexec herr with
  | bulk j _ hjob hblk hcause => exact ⟨j, hjob, hblk, hcause⟩

/-- Settles O35: test 7 of R319 is the cause of R317, on the buffers of R66. -/
theorem addressErrorCause : Obligations.AddressErrorCause := by
  refine ⟨fun i j s hjob hblk hconfig halign haddress => exec_of_errorCause hjob hblk ⟨hconfig, halign, haddress⟩,
    fun i s t hexec herr => ?_⟩
  cases failsBy_of_exec hexec herr with
  | bulk j _ hjob hblk hcause => exact ⟨j, hjob, hblk, hcause⟩

/-- Settles O37: `QDQR` examines nothing. -/
theorem qdqrAlwaysFails : Obligations.QdqrAlwaysFails := fun _ _ _ _ => rfl

/-- Settles O6: a word that no row selects does not decode, and the launch ends in the raise of `IllegalCommand`. -/
theorem illegalWordIsAnError : Obligations.IllegalWordIsAnError := by
  intro s rest w hagenda hidle hrows
  obtain ⟨e, hw⟩ := (decode_eq_error_iff w).mpr hrows
  rw [step_writeCmd hagenda hidle, launch, hw]
  rfl

end Sys2Proof.Proofs
end

section
/-! Scalar commands that meet a non-finite value (R178, R323): when the values of R162, R163 or R176 do not all exist,
the results are free. -/

namespace Sys2Proof.Machine

theorem runRange_of_eq_none {asym : Bool} {w : Width} {et : ElemType} {s : State}
    (h : rangeResults asym w et s.ctx.opa s.ctx.opb = none) : runRange asym w et s = completeUnspecified s := by
  simpa [h] using runRange_cases asym w et s

theorem execNorm_of_eq_none {w : Width} {s : State} (hzp : s.ctx.opc.toNat ≤ qmax w)
    (h : normResults w s.ctx.opa s.ctx.opb s.ctx.opc.toNat = none) :
    execNorm w s = .next (completeUnspecified s) := by
  simpa [h, hzp.not_gt, hzp] using execNorm_cases w s

/-- The values of `R2Q.S` on the operands of `c` all exist (R152, R162). -/
def SymmetricValues (w : Width) (et : ElemType) (c : HostRegs) : Prop :=
  ∃ (lo hi scale : Flt) (bits : Nat), f32 c.opa = some lo ∧ f32 c.opb = some hi ∧
    fdiv (if (value lo).natAbs ≤ (value hi).natAbs then hi else lo) (fneg (ofNat (2 ^ (qbits w - 1)))) = some scale ∧
    elemBits et scale = some bits

/-- The values of `R2Q.A` on the operands of `c` all exist (R153, R163). -/
def AsymmetricValues (w : Width) (et : ElemType) (c : HostRegs) : Prop :=
  ∃ (lo hi range scale zf : Flt) (bits : Nat), f32 c.opa = some lo ∧ f32 c.opb = some hi ∧
    fsub (if 0 < value hi then hi else ofNat 0) (if value lo < 0 then lo else ofNat 0) = some range ∧
    fdiv range (ofNat (2 ^ qbits w - 1)) = some scale ∧
    (if isZero scale = true then some (if value lo < 0 then lo else ofNat 0)
      else fdiv (fneg (if value lo < 0 then lo else ofNat 0)) scale) = some zf ∧
    elemBits et scale = some bits

/-- The values of `NORM` on the operands of `c` all exist (R171, R176). -/
def NormValues (c : HostRegs) : Prop :=
  ∃ v scale rs p x : Flt, f32 c.opa = some v ∧ f32 c.opb = some scale ∧
    (if isZero scale = true then some (ofNat 0) else fdiv (ofNat 1) scale) = some rs ∧
    fmul v rs = some p ∧ fadd p (ofNat c.opc.toNat) = some x

theorem SymmetricValues.finite {w : Width} {et : ElemType} {c : HostRegs} (h : SymmetricValues w et c) :
    f32 c.opa ≠ none ∧ f32 c.opb ≠ none := by
  obtain ⟨lo, hi, scale, bits, hlo, hhi, -⟩ := h
  simp [hlo, hhi]

theorem AsymmetricValues.finite {w : Width} {et : ElemType} {c : HostRegs} (h : AsymmetricValues w et c) :
    f32 c.opa ≠ none ∧ f32 c.opb ≠ none := by
  obtain ⟨lo, hi, range, scale, zf, bits, hlo, hhi, -⟩ := h
  simp [hlo, hhi]

theorem NormValues.finite {c : HostRegs} (h : NormValues c) : f32 c.opa ≠ none ∧ f32 c.opb ≠ none := by
  obtain ⟨v, scale, rs, p, x, hv, hscale, -⟩ := h
  simp [hv, hscale]

theorem symmetricValues_of_rangeResults {w : Width} {et : ElemType} {c : HostRegs} {r : Word × Word}
    (h : rangeResults false w et c.opa c.opb = some r) : SymmetricValues w et c := by
  obtain ⟨lo, hi, scale, zp, bits, hlo, hhi, hparams, hbits, -⟩ := rangeResults_eq_some_iff.mp h
  obtain ⟨scale', hscale, heq⟩ := Option.map_eq_some_iff.mp hparams
  obtain ⟨rfl, -⟩ := Prod.mk.inj heq
  refine ⟨lo, hi, scale', bits, hlo, hhi, ?_, hbits⟩
  simp only [value_natAbs]
  exact (range2scale_eq lo hi w).symm.trans hscale

theorem asymmetricValues_of_rangeResults {w : Width} {et : ElemType} {c : HostRegs} {r : Word × Word}
    (h : rangeResults true w et c.opa c.opb = some r) : AsymmetricValues w et c := by
  obtain ⟨lo, hi, scale, zp, bits, hlo, hhi, hparams, hbits, -⟩ := rangeResults_eq_some_iff.mp h
  obtain ⟨range, zf, hrange, hscale, hzf, -⟩ := range2scalezp_eq_some_iff.mp hparams
  exact ⟨lo, hi, range, scale, zf, bits, hlo, hhi, hrange, hscale, hzf, hbits⟩

theorem normValues_of_normResults {w : Width} {c : HostRegs} {r : Word × Word}
    (h : normResults w c.opa c.opb c.opc.toNat = some r) : NormValues c := by
  obtain ⟨v, scale, rs, code, hv, hscale, hrs, hcode, -⟩ := normResults_eq_some_iff.mp h
  obtain ⟨p, x, hp, hx, -⟩ := quantizeWith_eq_some_iff.mp hcode
  exact ⟨v, scale, rs, p, x, hv, hscale, hrs, hp, hx⟩

theorem exec_r2qS_of_not_values {w : Width} {et : ElemType} {s : State} (h : ¬ SymmetricValues w et s.ctx) :
    exec (.r2qS w et) s = .next (completeUnspecified s) :=
  (exec_r2qS w et s).trans <| congrArg Host.Outcome.next <| runRange_of_eq_none <|
    Option.eq_none_iff_forall_ne_some.mpr fun _ hr => h (symmetricValues_of_rangeResults hr)

theorem exec_r2qA_of_not_values {w : Width} {et : ElemType} {s : State} (h : ¬ AsymmetricValues w et s.ctx) :
    exec (.r2qA w et) s = .next (completeUnspecified s) :=
  (exec_r2qA w et s).trans <| congrArg Host.Outcome.next <| runRange_of_eq_none <|
    Option.eq_none_iff_forall_ne_some.mpr fun _ hr => h (asymmetricValues_of_rangeResults hr)

theorem exec_norm_of_not_values {w : Width} {s : State} (hzp : s.ctx.opc.toNat ≤ qmax w) (h : ¬ NormValues s.ctx) :
    exec (.norm w) s = .next (completeUnspecified s) :=
  (exec_norm w s).trans <| execNorm_of_eq_none hzp <|
    Option.eq_none_iff_forall_ne_some.mpr fun _ hr => h (normValues_of_normResults hr)

end Sys2Proof.Machine

namespace Sys2Proof.Proofs

open Sys2Proof.Machine

/-- Settles O31: a command has results only when its values exist, and an operand that is not finite is one of them. -/
theorem nonFiniteScalarCompletes : Obligations.NonFiniteScalarCompletes := by
  intro w et s t
  refine ⟨fun h => ?_, exec_r2qS_of_not_values, exec_r2qA_of_not_values, exec_norm_of_not_values⟩
  have hnot : ¬ (f32 s.ctx.opa ≠ none ∧ f32 s.ctx.opb ≠ none) := fun ⟨ha, hb⟩ => h.elim ha hb
  exact ⟨exec_r2qS_of_not_values (mt SymmetricValues.finite hnot),
    exec_r2qA_of_not_values (mt AsymmetricValues.finite hnot),
    fun hzp => exec_norm_of_not_values hzp (mt NormValues.finite hnot)⟩

end Sys2Proof.Proofs
end

section
/-! The running command's own steps (R32, R36): until the barrier they change memory and the tiles only, so results are
written at completion only (R348), and what a host read of an output byte rests on stays as it was at the launch
(R346). -/

namespace Sys2Proof.Machine

/-! ### Steps that change memory and tiles only -/

/-- The state `u` is `s` but for memory, the pending tiles and the tiles in flight. -/
def OnlyTiles (s u : State) : Prop := u = { s with mem := u.mem, pending := u.pending, flight := u.flight }

theorem OnlyTiles.refl (s : State) : OnlyTiles s s := rfl

theorem OnlyTiles.trans {s u v : State} (h : OnlyTiles s u) (h' : OnlyTiles u v) : OnlyTiles s v := by
  unfold OnlyTiles at h h' ⊢
  rw [h', h]

theorem onlyTiles_startTile (j : Job) (t : Tile) (s : State) : OnlyTiles s (startTile j t s) := by
  rcases startTile_cases j t s with ⟨f, -, heq⟩ | heq <;> rw [heq] <;> rfl

theorem onlyTiles_advanceTile (j : Job) (f : InFlight) (s : State) : OnlyTiles s (advanceTile j f s) := by
  obtain ⟨cells, -, heq | ⟨g, -, heq⟩⟩ := advanceTile_cases j f s <;> rw [heq] <;> rfl

theorem onlyTiles_workOn (j : Job) (t : Tile) (s : State) : OnlyTiles s (workOn j t s) := by
  rcases workOn_cases j t s with ⟨f, -, heq⟩ | ⟨-, -, heq⟩ | ⟨-, -, heq⟩
  · exact heq ▸ onlyTiles_advanceTile j f s
  · exact heq ▸ onlyTiles_startTile j t s
  · exact heq.symm ▸ OnlyTiles.refl s

/-- A step of the running command changes memory and tiles only, or it is the barrier. -/
theorem onlyTiles_progress (k : Nat) (s : State) :
    OnlyTiles s (progress k s) ∨ (s.phase = .busy ∧ s.pending = [] ∧ progress k s = finish s) := by
  rcases progress_cases k s with ⟨-, heq⟩ | ⟨hbusy, hpending, heq⟩ | ⟨-, j, -, t, -, heq⟩ | ⟨-, -, -, heq⟩
  · exact .inl (heq.symm ▸ OnlyTiles.refl s)
  · exact .inr ⟨hbusy, hpending, heq⟩
  · exact .inl (heq ▸ onlyTiles_workOn j t s)
  · exact .inl (heq.symm ▸ OnlyTiles.refl s)

/-- The barrier completes the command and writes memory at most. -/
theorem finish_eq (s : State) : ∃ m n, finish s = complete false { s with mem := m, fresh := n } := by
  rcases finish_cases s with ⟨-, heq⟩ | ⟨-, heq⟩
  · exact ⟨_, _, heq⟩
  · exact ⟨s.mem, s.fresh, heq⟩

theorem finish_phase (s : State) : (finish s).phase = .done := by
  obtain ⟨m, n, heq⟩ := finish_eq s
  rw [heq, complete_phase]

/-- While the command runs on under a schedule, memory and tiles only have changed. -/
theorem onlyTiles_schedule {s : State} {choices : List Nat} (h : (Claim.schedule s choices).phase = .busy) :
    OnlyTiles s (Claim.schedule s choices) := by
  induction choices generalizing s with
  | nil => exact OnlyTiles.refl s
  | cons k rest ih =>
    rw [Claim.schedule] at h ⊢
    rcases onlyTiles_progress k s with hstep | ⟨-, -, heq⟩
    · exact hstep.trans (ih h)
    · rw [heq, schedule_of_not_busy (by simp [finish_phase]), finish_phase] at h
      cases h

/-! ### What no step of the running command and no other move of the host touches -/

theorem progress_res (k : Nat) (s : State) : (progress k s).res = s.res := by
  rcases onlyTiles_progress k s with hstep | ⟨-, -, heq⟩
  · rw [hstep]
  · obtain ⟨m, n, hfinish⟩ := finish_eq s
    rw [heq, hfinish, complete_res]

theorem progress_agenda (k : Nat) (s : State) : (progress k s).agenda = s.agenda := by
  rcases onlyTiles_progress k s with hstep | ⟨-, -, heq⟩
  · rw [hstep]
  · obtain ⟨m, n, hfinish⟩ := finish_eq s
    rw [heq, hfinish, complete_agenda]

/-! ### Result registers (R348) -/

/-- A command that runs on or has failed has left the results as they were. -/
theorem Leaves.res {i : Instr} {s t : State} (h : Leaves i s t) (hphase : t.phase = .busy ∨ t.phase = .error) :
    t.res = s.res := by
  cases h with
  | scalar => simp at hphase
  | failed | bulk | runs => rfl

theorem launch_res {w : Word} {s t : State} (h : launch w s = .next t) (hphase : t.phase = .busy ∨ t.phase = .error) :
    t.res = s.res := by
  rcases launch_cases w s with ⟨i, -, hexec⟩ | ⟨e, -, herr⟩
  · exact (leaves_of_exec (hexec.symm.trans h)).res hphase
  · obtain rfl := Host.Outcome.next.inj (herr.symm.trans h)
    rfl

theorem hostWriteReg_res {i : Fin 32} {v : Word} {s t : State} (h : hostWriteReg i v s = .next t)
    (hphase : t.phase = .busy ∨ t.phase = .error) : t.res = s.res := by
  rcases hostWriteReg_cases i v s with ⟨-, heq⟩ | ⟨-, -, heq⟩ | ⟨-, -, heq⟩
  · obtain rfl := Host.Outcome.next.inj (heq.symm.trans h)
    rfl
  · exact launch_res (heq.symm.trans h) hphase
  · obtain rfl := Host.Outcome.next.inj (heq.symm.trans h)
    rfl

theorem hostWait_res (s : State) : (hostWait s).res = s.res := by
  rcases hostWait_cases s with ⟨-, heq⟩ | ⟨-, heq⟩
  · rw [heq, hostReadReg_res]
  · rw [heq]
    exact progress_res 0 (hostReadReg 1 s)

/-- Of the moves of the agenda only a launch and reset write results, and they leave neither `BUSY` nor `ERROR` then. -/
theorem perform_res {e : Event} {s t : State} (h : perform e s = .next t)
    (hphase : t.phase = .busy ∨ t.phase = .error) : t.res = s.res := by
  cases e with
  | writeReg i v => exact hostWriteReg_res h hphase
  | readReg i =>
    obtain rfl := Host.Outcome.next.inj h
    rfl
  | writeMem a bytes =>
    simp only [perform] at h
    split at h
    · obtain rfl := Host.Outcome.next.inj h
      rfl
    · cases h
  | readMem a n =>
    simp only [perform] at h
    split at h
    · obtain rfl := Host.Outcome.next.inj h
      rfl
    · cases h
  | wait =>
    obtain rfl := Host.Outcome.next.inj h
    exact hostWait_res s
  | reset =>
    obtain rfl := Host.Outcome.next.inj h
    simp at hphase
  | worker k =>
    obtain rfl := Host.Outcome.next.inj h
    exact progress_res k s

end Sys2Proof.Machine
end

section
/-! The host's moves at any moment: register slots (R34), buffer memory while a command runs (R346), and reset (R340,
R341). -/

namespace Sys2Proof.Machine

/-! ### Freed output buffers (R341, R346) -/

theorem mem_freeOutputs_of_inWritten {n : Nat} {es : List Extent} {a : Nat} (ha : inWritten es a = true) :
    (a, Config.freeByte n a) ∈ freeOutputs n es := by
  obtain ⟨e, he, hw, hlow, hhigh⟩ := inWritten_iff.mp ha
  refine List.mem_flatMap.mpr ⟨e, List.mem_filter.mpr ⟨he, hw⟩, List.mem_map.mpr ⟨a - e.base, ?_, ?_⟩⟩
  · exact List.mem_range.mpr (by omega)
  · rw [Nat.add_sub_cancel' hlow]

theorem snd_of_mem_freeOutputs {n : Nat} {es : List Extent} {x : Host.Cell} (hx : x ∈ freeOutputs n es) :
    x.2 = Config.freeByte n x.1 := by
  obtain ⟨e, -, hx⟩ := List.mem_flatMap.mp hx
  obtain ⟨k, -, rfl⟩ := List.mem_map.mp hx
  rfl

/-- Freeing the output buffers frees their bytes and no others. -/
theorem outputsFree_writeCells {m : Memory} (hwf : memWf m) (n : Nat) (es : List Extent) :
    Claim.OutputsFree es n m (writeCells m (freeOutputs n es)) := by
  intro a
  split
  · next ha =>
    refine readByte_writeCells_of_mem hwf (mem_freeOutputs_of_inWritten ha) fun x hx hxa => ?_
    rw [snd_of_mem_freeOutputs hx, hxa]
  · next ha =>
    refine readByte_writeCells_of_not_mem hwf fun x hx hxa => ha ?_
    exact hxa ▸ inWritten_of_mem_freeOutputs hx

/-! ### Register slots (R22, R34) -/

/-- A written register reads as the value. -/
theorem readSlot_writeSlot_self {i : Fin 32} (hi : Claim.Writable i) (s : State) (v : Word) :
    readSlot { s with regs := writeSlot s.regs i v } i = v := by
  obtain ⟨n, hn⟩ := i
  obtain ⟨hlow, hhigh⟩ : 2 ≤ n ∧ n ≤ 12 := hi
  interval_cases n <;> rfl

/-- Every other slot reads as before. -/
theorem readSlot_writeSlot_of_ne {i k : Fin 32} (hk : k ≠ i) (s : State) (v : Word) :
    readSlot { s with regs := writeSlot s.regs i v } k = readSlot s k := by
  have hval : k.val ≠ i.val := fun h => hk (Fin.ext h)
  unfold writeSlot
  split <;> (unfold readSlot; split)
  all_goals try rfl
  all_goals omega

/-- A slot that is not one of 2 to 12 is not written. -/
theorem writeSlot_of_not_writable {i : Fin 32} (hi : ¬ Claim.Writable i) (r : HostRegs) (v : Word) :
    writeSlot r i v = r := by
  unfold Claim.Writable at hi
  unfold writeSlot
  split
  case h_12 => rfl
  all_goals omega

theorem step_readReg {s : State} {i : Fin 32} {rest : List Event} (h : s.agenda = .readReg i :: rest) :
    step s = .next { s with agenda := rest, readback := .reg i (readSlot s i) :: s.readback } :=
  step_of_agenda h

theorem step_writeReg_of_busy {s : State} {i : Fin 32} {v : Word} {rest : List Event}
    (h : s.agenda = .writeReg i v :: rest) (hbusy : s.phase = .busy) : step s = .next { s with agenda := rest } := by
  simp [step_of_agenda h, perform, hostWriteReg, hbusy]

theorem step_writeReg_of_not_busy {s : State} {i : Fin 32} {v : Word} {rest : List Event}
    (h : s.agenda = .writeReg i v :: rest) (hidle : s.phase ≠ .busy) (hi : i ≠ 0) :
    step s = .next { s with agenda := rest, regs := writeSlot s.regs i v } := by
  simp [step_of_agenda h, perform, hostWriteReg, hidle, hi]

theorem readSlot_of_not_implemented (s : State) {i : Fin 32} (hi : (13 ≤ i.val ∧ i.val ≤ 15) ∨ 23 ≤ i.val) :
    readSlot s i = 0 := by
  unfold readSlot
  split
  case h_21 => rfl
  all_goals omega

/-- What the host reads in the slots depends on the registers, the results and the fields of `STATUS`. -/
theorem readSlot_congr {s t : State} (hregs : s.regs = t.regs) (hres : s.res = t.res) (hphase : s.phase = t.phase)
    (hempty : s.empty = t.empty) (herr : s.err = t.err) (i : Fin 32) : readSlot s i = readSlot t i := by
  unfold readSlot statusWord
  rw [hregs, hres, hphase, hempty, herr]

/-! ### Buffer memory -/

/-- A host write to buffer memory stores its bytes, and may spoil the running command. -/
theorem step_writeMem {s : State} {a : Word} {bytes : List Byte} {rest : List Event}
    (h : s.agenda = .writeMem a bytes :: rest) (hrange : a.toNat + bytes.length ≤ s.plat.memBytes) :
    step s = .next (hostWriteMem a.toNat bytes { s with agenda := rest }) := by
  have hin : rangeExists { s with agenda := rest } a.toNat bytes.length = true := rangeExists_iff.mpr (.inr hrange)
  simp [step_of_agenda h, perform, hin]

theorem step_readMem {s : State} {a : Word} {n : Nat} {rest : List Event} (h : s.agenda = .readMem a n :: rest)
    (hrange : a.toNat + n ≤ s.plat.memBytes) : step s = .next (hostReadMem a n { s with agenda := rest }) := by
  have hin : rangeExists { s with agenda := rest } a.toNat n = true := rangeExists_iff.mpr (.inr hrange)
  simp [step_of_agenda h, perform, hin]

theorem hostReadByte_of_inWritten {s : State} {a : Nat} (ha : inWritten (runningExtents s) a = true) :
    hostReadByte s a = outputByte s a := if_pos ha

theorem hostReadByte_of_not_inWritten {s : State} {a : Nat} (ha : inWritten (runningExtents s) a = false) :
    hostReadByte s a = readByte s.mem a := by
  simp [hostReadByte, ha]

/-- An output byte of a command whose result is unspecified reads as any byte. -/
theorem hostReadByte_of_spoiled {s : State} {a : Nat} (ha : inWritten (runningExtents s) a = true)
    (h : s.spoiled = true) : hostReadByte s a = Config.freeByte s.fresh a := by
  rw [hostReadByte_of_inWritten ha, outputByte, if_pos h]

/-- An output byte of a specified command reads as its old value or as its new one. -/
theorem hostReadByte_of_result {s : State} {a : Nat} {j : Job} {cells : List Host.Cell}
    (ha : inWritten (runningExtents s) a = true) (h : s.spoiled = false) (hjob : contextJob s.ctx = some j)
    (hresult : jobResult j s.ctx s.launchMem = some cells) :
    hostReadByte s a =
      if Config.freeChoice s.fresh a = true then readByte s.launchMem a
      else readByte (writeCells s.launchMem cells) a := by
  rw [hostReadByte_of_inWritten ha]
  simp [outputByte, h, hjob, hresult]

/-- A specified command that still runs under a schedule shows its outputs as its launch has fixed them. -/
theorem hostReadByte_schedule {j : Job} {s : State} {choices : List Nat} {x : Nat} (hjob : contextJob s.ctx = some j)
    (hspecified : Specified j s) (hbusy : (Claim.schedule (dispatchTiles j s) choices).phase = .busy)
    (hx : inWritten (jobExtents j s.ctx) x = true) :
    hostReadByte (Claim.schedule (dispatchTiles j s) choices) x =
      if Config.freeChoice s.fresh x = true then readByte s.mem x else readByte (performAll j s).mem x := by
  obtain ⟨cells, hresult⟩ := Option.ne_none_iff_exists'.mp hspecified
  have hdone : performAll j s = complete false { s with mem := writeCells s.mem cells } := by
    simpa [hresult] using performAll_cases j s
  have hsame := onlyTiles_schedule hbusy
  generalize Claim.schedule (dispatchTiles j s) choices = u at hbusy hsame ⊢
  have hctx : u.ctx = s.ctx := (congrArg State.ctx hsame :)
  have hlaunch : u.launchMem = s.mem := (congrArg State.launchMem hsame :)
  have hfresh : u.fresh = s.fresh := (congrArg State.fresh hsame :)
  have hspoiled : u.spoiled = false := (congrArg State.spoiled hsame).trans (by simp [hresult])
  have hjob' : contextJob u.ctx = some j := hctx.symm ▸ hjob
  have hout : inWritten (runningExtents u) x = true := by rwa [runningExtents_of_busy hbusy hjob', hctx]
  rw [hostReadByte_of_result hout hspoiled hjob' (by rwa [hctx, hlaunch]), hlaunch, hfresh, hdone, complete_mem]

end Sys2Proof.Machine

namespace Sys2Proof.Proofs

open Sys2Proof.Machine

/-- Settles O7: the three ways of a register write, and the low field of `STATUS`. -/
theorem registerWritesAndReads : Obligations.RegisterWritesAndReads := by
  refine ⟨fun s rest i v hagenda => ⟨step_writeReg_of_busy hagenda, fun hidle hi hnot => ?_, fun hidle hi => ?_⟩,
    fun s i => readSlot_of_not_implemented s, fun s rest i => step_readReg, fun s hbusy => ?_⟩
  · rw [step_writeReg_of_not_busy hagenda hidle hi, writeSlot_of_not_writable hnot]
  · have hne : i ≠ 0 := by
      rintro rfl
      exact absurd hi.1 (by decide)
    refine ⟨_, step_writeReg_of_not_busy hagenda hidle hne, fun k => ?_⟩
    split
    · next hk => exact hk ▸ readSlot_writeSlot_self hi { s with agenda := rest } v
    · next hk => exact readSlot_writeSlot_of_ne hk { s with agenda := rest } v
  · have hstatus : (readSlot s 1).toNat = _ := statusWord_toNat s
    rw [hstatus, hbusy, phaseCode]
    split <;> omega

/-- Settles O8: the running command's own steps keep the results, and so do the moves of the agenda but for a launch
that completes at once and reset. -/
theorem resultsAreWrittenAtCompletionOnly : Obligations.ResultsAreWrittenAtCompletionOnly := by
  intro s t hstep hphase
  rcases step_cases s with ⟨-, heq⟩ | ⟨e, rest, -, heq⟩
  · obtain rfl := Host.Outcome.next.inj (heq.symm.trans hstep)
    exact progress_res 0 s
  · have hres := perform_res (heq.symm.trans hstep) hphase
    exact hres

/-- Settles O11: reset writes the free bytes of the running command's outputs and clears the rest. -/
theorem resetEvent : Obligations.ResetEvent := by
  intro s rest hagenda hwf
  obtain ⟨hzero, -⟩ := resetState
  refine ⟨Machine.resetEvent { s with agenda := rest }, step_of_agenda hagenda,
    fun i => (readSlot_congr rfl rfl rfl rfl rfl i).trans (hzero i), rfl, rfl, rfl, rfl, rfl, rfl,
    fun hidle => ?_, outputsFree_writeCells hwf s.fresh (runningExtents s)⟩
  have hnone : runningExtents { s with agenda := rest } = [] := runningExtents_of_not_busy hidle
  rw [resetEvent_mem, hnone]
  rfl

/-- Settles O16: a write is its run of bytes, a read goes by whether the byte is an output of the running command, and
what an output shows has not changed since the launch. -/
theorem hostAccessWhileBusy : Obligations.HostAccessWhileBusy := by
  refine ⟨fun s rest a bytes hagenda hwf hrange => ?_, fun s rest a n hagenda hrange => ?_,
    fun j s choices x hjob _ hspecified => hostReadByte_schedule hjob hspecified⟩
  · refine ⟨writeCells s.mem (byteCells a.toNat bytes), _, step_writeMem hagenda hrange, memWf_writeCells hwf _,
      fun k b hk => readByte_writeCells_byteCells hwf hk, fun x hx => readByte_writeCells_of_not_mem hwf fun y hy => ?_,
      (hostWriteMem_spoiled a.toNat bytes { s with agenda := rest }).trans ?_⟩
    · have := mem_byteCells hy
      omega
    · simp only [mem_span, and_assoc]
      rfl
  · refine ⟨_, step_readMem hagenda hrange, by simp, fun k hk => ⟨hostReadByte { s with agenda := rest } (a.toNat + k),
      by rw [List.getElem?_map, getElem?_span (by omega), Option.map_some], hostReadByte_of_not_inWritten,
      hostReadByte_of_spoiled, fun hout hspoiled j cells => hostReadByte_of_result hout hspoiled⟩⟩

/-- Settles O12. -/
theorem idleBlockDoesNothing : Obligations.IdleBlockDoesNothing := by
  intro s hagenda hidle
  have hprogress : progress 0 s = s := if_neg hidle
  simp [step, nextMove, hagenda, hprogress]

end Sys2Proof.Proofs
end

section
/-! A command whose result is unspecified (R67, R178, R346): as one step it frees its output buffers, and run tile by
tile it has kept to them when the barrier frees them. -/

namespace Sys2Proof.Machine

/-- The state `s` of a run of command `j` that was in the state `s₀`: its tiles are the command's, and no byte outside
the output buffers has changed. -/
structure KeepsToOutputs (j : Job) (s₀ s : State) : Prop where
  frame : OnlyTiles s₀ s
  pending : ∀ t ∈ s.pending, t ∈ jobTiles j s₀.ctx
  flight : ∀ f ∈ s.flight, f.tile ∈ jobTiles j s₀.ctx
  wf : memWf s.mem
  bytes : ∀ a, inWritten (jobExtents j s₀.ctx) a = false → readByte s.mem a = readByte s₀.mem a

section Run

variable {j : Job} {s₀ s : State}

theorem KeepsToOutputs.ctx (h : KeepsToOutputs j s₀ s) : s.ctx = s₀.ctx := (congrArg State.ctx h.frame :)

/-- Cells in the output buffers are written, and the tiles are still the command's. -/
theorem KeepsToOutputs.write (h : KeepsToOutputs j s₀ s) {cells : List Host.Cell} {pending : List Tile}
    {flight : List InFlight} (hcells : ∀ x ∈ cells, inWritten (jobExtents j s₀.ctx) x.1 = true)
    (hpending : ∀ t ∈ pending, t ∈ jobTiles j s₀.ctx) (hflight : ∀ f ∈ flight, f.tile ∈ jobTiles j s₀.ctx) :
    KeepsToOutputs j s₀ { s with mem := writeCells s.mem cells, pending := pending, flight := flight } where
  frame := h.frame.trans rfl
  pending := hpending
  flight := hflight
  wf := memWf_writeCells h.wf cells
  bytes := fun a ha => by
    rw [← h.bytes a ha]
    refine readByte_writeCells_of_not_mem h.wf ?_
    rintro x hx rfl
    simp [hcells x hx] at ha

theorem KeepsToOutputs.endTile (h : KeepsToOutputs j s₀ s) (t : Tile) {cells : List Host.Cell}
    (hcells : ∀ x ∈ cells, inWritten (jobExtents j s₀.ctx) x.1 = true) :
    KeepsToOutputs j s₀ (endTile t { s with mem := writeCells s.mem cells }) :=
  h.write hcells (fun u hu => h.pending u (List.mem_of_mem_filter hu)) fun f hf =>
    h.flight f (List.mem_of_mem_filter hf)

theorem KeepsToOutputs.advanceTile (h : KeepsToOutputs j s₀ s) {f : InFlight} (hf : f ∈ s.flight) :
    KeepsToOutputs j s₀ (advanceTile j f s) := by
  have htile := h.flight f hf
  obtain ⟨cells, htargets, hstep⟩ := advanceTile_cases j f s
  have hcells : ∀ x ∈ cells, inWritten (jobExtents j s₀.ctx) x.1 = true := fun x hx =>
    inWritten_of_target htile (h.ctx ▸ htargets x hx)
  rcases hstep with heq | ⟨g, hg, heq⟩
  · exact heq ▸ h.endTile f.tile hcells
  · rw [heq]
    refine h.write hcells h.pending fun e he => ?_
    obtain ⟨e', he', rfl⟩ := List.mem_map.mp he
    split
    · exact hg ▸ htile
    · exact h.flight e' he'

theorem KeepsToOutputs.startTile (h : KeepsToOutputs j s₀ s) {t : Tile} (ht : t ∈ s.pending) :
    KeepsToOutputs j s₀ (startTile j t s) := by
  rcases startTile_cases j t s with ⟨f, hf, heq⟩ | heq
  · rw [heq]
    refine h.write (cells := []) (by simp) h.pending fun e he => ?_
    rcases List.mem_append.mp he with he | he
    · exact h.flight e he
    · rw [List.mem_singleton.mp he, hf]
      exact h.pending t ht
  · exact heq ▸ h.endTile t (cells := []) (by simp)

/-- A step of the run keeps to the output buffers, or it is the barrier. -/
theorem KeepsToOutputs.progress (h : KeepsToOutputs j s₀ s) (hjob : contextJob s₀.ctx = some j) (k : Nat) :
    KeepsToOutputs j s₀ (progress k s) ∨ progress k s = finish s := by
  rcases progress_cases k s with ⟨-, heq⟩ | ⟨-, -, heq⟩ | ⟨-, j', hjob', t, ht, heq⟩ | ⟨-, -, -, heq⟩
  · exact .inl (heq.symm ▸ h)
  · exact .inr heq
  · obtain rfl : j = j' := Option.some.inj (hjob.symm.trans (h.ctx ▸ hjob'))
    rw [heq]
    rcases workOn_cases j t s with ⟨f, hf, hwork⟩ | ⟨-, -, hwork⟩ | ⟨-, -, hwork⟩
    · exact .inl (hwork ▸ h.advanceTile hf)
    · exact .inl (hwork ▸ h.startTile ht)
    · exact .inl (hwork.symm ▸ h)
  · exact .inl (heq.symm ▸ h)

/-- The state `t` is that of a command `j` which was in the state `s₀` and has completed with free output bytes. -/
def CompletedFree (j : Job) (s₀ t : State) : Prop :=
  ∃ m, t = complete false { s₀ with mem := m, fresh := s₀.fresh + 1 } ∧ memWf m ∧
    Claim.OutputsFree (jobExtents j s₀.ctx) s₀.fresh s₀.mem m

theorem completedFree_of_spoilOutputs (h : KeepsToOutputs j s₀ s) :
    CompletedFree j s₀ (complete false (spoilOutputs (jobExtents j s₀.ctx) s)) := by
  refine ⟨writeCells s.mem (freeOutputs s₀.fresh (jobExtents j s₀.ctx)), ?_, memWf_writeCells h.wf _, fun a => ?_⟩
  · rw [h.frame]
    rfl
  · rw [outputsFree_writeCells h.wf s₀.fresh (jobExtents j s₀.ctx) a]
    split
    · rfl
    · next ha => exact h.bytes a (Bool.eq_false_of_not_eq_true ha)

theorem KeepsToOutputs.finish (h : KeepsToOutputs j s₀ s) (hjob : contextJob s₀.ctx = some j)
    (hbusy : s₀.phase = .busy) (hspoiled : s₀.spoiled = true) : CompletedFree j s₀ (finish s) := by
  have hphase : s.phase = .busy := (congrArg State.phase h.frame).trans hbusy
  have hs : s.spoiled = true := (congrArg State.spoiled h.frame).trans hspoiled
  have hextents : runningExtents s = jobExtents j s₀.ctx := by
    rw [runningExtents_of_busy hphase (h.ctx.symm ▸ hjob), h.ctx]
  rw [Machine.finish, if_pos hs, hextents]
  exact completedFree_of_spoilOutputs h

/-- Whenever a schedule ends a run whose result is unspecified, its output bytes are free. -/
theorem KeepsToOutputs.schedule (h : KeepsToOutputs j s₀ s) (hjob : contextJob s₀.ctx = some j)
    (hbusy : s₀.phase = .busy) (hspoiled : s₀.spoiled = true) {choices : List Nat}
    (hover : (Claim.schedule s choices).phase ≠ .busy) : CompletedFree j s₀ (Claim.schedule s choices) := by
  induction choices generalizing s with
  | nil => exact absurd ((congrArg State.phase h.frame).trans hbusy) hover
  | cons k rest ih =>
    rw [Claim.schedule] at hover ⊢
    rcases h.progress hjob k with hstep | heq
    · exact ih hstep hover
    · rw [heq, schedule_of_not_busy (by simp [finish_phase])]
      exact h.finish hjob hbusy hspoiled

end Run

theorem KeepsToOutputs.refl {j : Job} {s : State} (hpending : ∀ t ∈ s.pending, t ∈ jobTiles j s.ctx)
    (hflight : ∀ f ∈ s.flight, f.tile ∈ jobTiles j s.ctx) (hwf : memWf s.mem) : KeepsToOutputs j s s :=
  ⟨OnlyTiles.refl s, hpending, hflight, hwf, fun _ _ => rfl⟩

/-- A command that has passed its checks is performed, or its tiles are dispatched. -/
theorem exec_of_passes {i : Instr} {j : Job} {s : State} (hjob : jobOf i = some j) (hpasses : Passes j s) :
    (s.grain = .atomic → exec i s = .next (performAll j s)) ∧
      (s.grain = .tiled → exec i s = .next (dispatchTiles j s)) := by
  obtain ⟨hempty, herror⟩ := hpasses
  constructor <;> intro hgrain <;> simp [exec_of_jobOf hjob, runBulk, hempty, herror, hgrain]

end Sys2Proof.Machine

namespace Sys2Proof.Proofs

open Sys2Proof.Machine

/-- Settles O46: as one step the command frees its output buffers, and tile by tile it has kept to them when the barrier
frees them. -/
theorem unspecifiedBulkCompletes : Obligations.UnspecifiedBulkCompletes := by
  intro i j s hjob hpasses hunspecified hwf
  obtain ⟨hatomic, htiled⟩ := exec_of_passes hjob hpasses
  have hresult : jobResult j s.ctx s.mem = none := not_not.mp hunspecified
  refine ⟨fun hgrain => ?_, fun hgrain hcontext => ⟨htiled hgrain, by simp [hresult], fun choices hover => ?_⟩⟩
  · have hperform : performAll j s = complete false (spoilOutputs (jobExtents j s.ctx) s) := by
      simpa [hresult] using performAll_cases j s
    rw [hatomic hgrain, hperform]
    exact ⟨_, rfl, memWf_writeCells hwf _, outputsFree_writeCells hwf s.fresh _⟩
  · have hlaunch : KeepsToOutputs j (dispatchTiles j s) (dispatchTiles j s) := .refl (fun _ h => h) (by simp) hwf
    exact hlaunch.schedule hcontext rfl (by simp [hresult]) hover

/-- Settles O59: the invariant gives the command and its tiles, and the run keeps to the output buffers. -/
theorem spoiledRunFreesItsOutputs : Obligations.SpoiledRunFreesItsOutputs := by
  intro s choices h hbusy hspoiled hover
  obtain ⟨-, j, hjob, -, -, hgrid, -⟩ := h.context hbusy
  obtain ⟨-, -, -, hpending, -⟩ := h.tiles
  obtain ⟨hwf, -⟩ := h.memory
  rw [runningExtents_of_busy hbusy hjob]
  have hrun : KeepsToOutputs j s s := .refl hgrid (fun f hf => hgrid _ (hpending f hf)) hwf
  exact hrun.schedule hjob hbusy hspoiled hover

end Sys2Proof.Proofs
end

section
/-! A running command ends (R327, R356): every step brings some tile closer to its end, and a tile has five steps. -/

namespace Sys2Proof.Machine

/-! ### Steps done -/

/-- How many of its five steps a tile in flight has behind it: to have been begun is the first. A dequantizing tile,
which has two steps only, begins with four behind it. -/
def stageDone : Stage → Nat
  | .params => 1
  | .zeroPoints => 2
  | .recips => 3
  | .codes => 4

theorem stageDone_pos (g : Stage) : 0 < stageDone g := by cases g <;> decide

theorem stageDone_le (g : Stage) : stageDone g ≤ 4 := by cases g <;> decide

theorem stageDone_nextStage {g g' : Stage} (h : Claim.nextStage g = some g') : stageDone g' = stageDone g + 1 := by
  cases g with
  | codes => cases h
  | params | zeroPoints | recips =>
    obtain rfl := Option.some.inj h
    rfl

/-- The steps that the tiles in flight have behind them. -/
def stepsDone (flight : List InFlight) : Nat := (flight.map fun f => stageDone f.stage).sum

theorem stepsDone_cons (f : InFlight) (flight : List InFlight) :
    stepsDone (f :: flight) = stageDone f.stage + stepsDone flight := List.sum_cons

theorem stepsDone_append (flight flight' : List InFlight) :
    stepsDone (flight ++ flight') = stepsDone flight + stepsDone flight' := by
  simp [stepsDone]

theorem stepsDone_le (flight : List InFlight) : stepsDone flight ≤ 4 * flight.length := by
  induction flight with
  | nil => exact Nat.le_refl 0
  | cons f flight ih =>
    have hf := stageDone_le f.stage
    rw [stepsDone_cons, List.length_cons]
    omega

/-- A tile that ends takes at most its own four steps with it. -/
theorem stepsDone_le_filter {flight : List InFlight} (h : (flight.map InFlight.tile).Nodup) (t : Tile) :
    stepsDone flight ≤ stepsDone (flight.filter fun f => f.tile != t) + 4 := by
  induction flight with
  | nil => exact Nat.zero_le _
  | cons f flight ih =>
    obtain ⟨hnew, hrest⟩ := List.nodup_cons.mp h
    by_cases hft : f.tile = t
    · have hkeep : (flight.filter fun g => g.tile != t) = flight := List.filter_eq_self.mpr fun g hg => by
        have hne : g.tile ≠ t := fun heq => hnew (hft.trans heq.symm ▸ List.mem_map_of_mem hg)
        simpa using hne
      have hf := stageDone_le f.stage
      rw [List.filter_cons_of_neg (by simp [hft]), hkeep, stepsDone_cons]
      omega
    · have := ih hrest
      rw [List.filter_cons_of_pos (by simp [hft]), stepsDone_cons, stepsDone_cons]
      omega

/-- A tile taken to its next stage has one more step behind it. -/
theorem stepsDone_lt_map {flight : List InFlight} (h : (flight.map InFlight.tile).Nodup) {f g : InFlight}
    (hf : f ∈ flight) (hg : Claim.nextStage f.stage = some g.stage) :
    stepsDone flight < stepsDone (flight.map fun e => if e.tile = f.tile then g else e) := by
  unfold stepsDone
  rw [List.map_map]
  have hnext := stageDone_nextStage hg
  refine List.sum_lt_sum _ _ (fun e he => ?_) ⟨f, hf, ?_⟩
  · simp only [Function.comp_apply]
    split
    · next heq =>
      obtain rfl : e = f := List.inj_on_of_nodup_map h he hf heq
      omega
    · exact Nat.le_refl _
  · simp only [Function.comp_apply, if_true]
    omega

/-! ### A step of the running command -/

/-- The steps still to come, counted as five for each pending tile less those done, have become fewer from tiles `p` and
`f` to tiles `p'` and `f'`. -/
def Nearer (p : List Tile) (f : List InFlight) (p' : List Tile) (f' : List InFlight) : Prop :=
  5 * p'.length + stepsDone f < 5 * p.length + stepsDone f'

theorem nearer_of_goesOn {j : Job} {t : Tile} {s : State} {pending : List Tile} {flight : List InFlight}
    (h : TilesLegal s) (ht : t ∈ s.pending) (hgo : Claim.GoesOn j t s pending flight) :
    Nearer s.pending s.flight pending flight := by
  obtain ⟨-, hnodup, hflight, -, -⟩ := h
  unfold Nearer
  cases hgo with
  | begun g _ _ _ hsame hentries =>
    have hg := stageDone_pos g.stage
    rw [hsame, hentries, stepsDone_append, stepsDone_cons]
    omega
  | advanced f g hf hbefore hafter hstage hsame hentries =>
    subst hbefore
    have hlt := stepsDone_lt_map hflight hf hstage
    rw [hsame, hentries]
    omega
  | ended _ hrest hentries =>
    have hle := stepsDone_le_filter hflight t
    have hlength : pending.length + 1 = s.pending.length := by
      rw [hrest, ← hnodup.erase_eq_filter, List.length_erase_add_one ht]
    rw [hentries]
    omega

/-- Some pending tile goes on, whichever is chosen: it has a worker, or the tile begun first goes on instead. -/
theorem Inv.exists_tileStep {s : State} {j : Job} {t : Tile} (h : Inv s) (hbusy : s.phase = .busy)
    (hjob : contextJob s.ctx = some j) (ht : t ∈ s.pending) : ∃ u ∈ s.pending, TileStep j u s (workOn j t s) := by
  obtain ⟨-, hgrid, -⟩ := h.running hbusy hjob
  by_cases hworker : HasWorker s t
  · exact ⟨t, ht, tileStep_workOn (hgrid t ht) hworker⟩
  · obtain ⟨f, more, hflight⟩ := h.exists_flight hworker
    obtain ⟨-, -, -, hpending, -⟩ := h.tiles
    have hf := hpending f (by simp [hflight])
    exact ⟨f.tile, hf, tileStep_workOn_of_not_hasWorker hflight hworker (hgrid _ hf)⟩

/-- With a tile pending a step keeps the command running and brings it nearer to its end. -/
theorem Inv.progress_nearer {s : State} (h : Inv s) (hbusy : s.phase = .busy) (hpending : s.pending ≠ []) (k : Nat) :
    (progress k s).phase = .busy ∧ Nearer s.pending s.flight (progress k s).pending (progress k s).flight := by
  rcases progress_cases k s with ⟨hidle, -⟩ | ⟨-, hnone, -⟩ | ⟨-, j, hjob, t, ht, heq⟩ | ⟨-, -, hjob, -⟩
  · exact absurd hbusy hidle
  · exact absurd hnone hpending
  · obtain ⟨u, hu, cells, pending, flight, hstep, hgo, -⟩ := h.exists_tileStep hbusy hjob ht
    rw [heq, hstep]
    exact ⟨hbusy, nearer_of_goesOn h.tiles hu hgo⟩
  · obtain ⟨-, j, hjob', -⟩ := h.context hbusy
    simp [hjob] at hjob'

theorem progress_of_pending_eq_nil {s : State} (hbusy : s.phase = .busy) (hpending : s.pending = []) (k : Nat) :
    progress k s = finish s := by
  simp [progress, hbusy, hpending]

/-- At most `n` steps are left before the barrier: five for each pending tile, less those behind the tiles in flight. -/
def Within (n : Nat) (s : State) : Prop := 5 * s.pending.length ≤ n + stepsDone s.flight

theorem within_five_mul (s : State) : Within (5 * s.pending.length) s := Nat.le_add_right _ _

/-- No tile is pending when no step is left: tiles in flight have at most four steps behind them. -/
theorem Within.pending_eq_nil {s : State} (h : Within 0 s) (hinv : Inv s) : s.pending = [] := by
  obtain ⟨-, -, hflight, hpending, -⟩ := hinv.tiles
  have hdone := stepsDone_le s.flight
  have hsub : (s.flight.map InFlight.tile).length ≤ s.pending.length :=
    (hflight.subperm fun t ht => by
      obtain ⟨f, hf, rfl⟩ := List.mem_map.mp ht
      exact hpending f hf).length_le
  rw [List.length_map] at hsub
  unfold Within at h
  exact List.length_eq_zero_iff.mp (by omega)

theorem Within.of_nearer {n : Nat} {s u : State} (h : Within (n + 1) s)
    (hnear : Nearer s.pending s.flight u.pending u.flight) : Within n u := by
  unfold Within Nearer at *
  omega

/-! ### Left alone, or waited for -/

theorem step_of_agenda_nil {s : State} (h : s.agenda = []) : step s = .next (progress 0 s) := by
  simp [step, nextMove, h]

theorem steps_succ {n : Nat} {s u : State} (h : step s = .next u) : Claim.steps (n + 1) s = Claim.steps n u := by
  simp [Claim.steps, h]

/-- A block that runs nothing and whose host does nothing stays as it is. -/
theorem steps_of_not_busy {s : State} (hagenda : s.agenda = []) (hidle : s.phase ≠ .busy) (n : Nat) :
    Claim.steps n s = some s := by
  induction n with
  | zero => rfl
  | succ n ih =>
    have hsame : progress 0 s = s := if_neg hidle
    rw [steps_succ (step_of_agenda_nil hagenda), hsame, ih]

/-- Left alone a command that is within `n` steps of its barrier is `DONE` after one more. -/
theorem exists_steps_done {n : Nat} {s : State} (h : Inv s) (hbusy : s.phase = .busy) (hagenda : s.agenda = [])
    (hn : Within n s) : ∃ t, Claim.steps (n + 1) s = some t ∧ t.phase = .done := by
  induction n generalizing s with
  | zero =>
    have hfinish := progress_of_pending_eq_nil hbusy (hn.pending_eq_nil h) 0
    exact ⟨_, steps_succ (step_of_agenda_nil hagenda), by rw [hfinish, finish_phase]⟩
  | succ n ih =>
    have hafter : (progress 0 s).agenda = [] := (progress_agenda 0 s).trans hagenda
    rw [steps_succ (step_of_agenda_nil hagenda)]
    by_cases hpending : s.pending = []
    · have hdone : (progress 0 s).phase = .done := by
        rw [progress_of_pending_eq_nil hbusy hpending, finish_phase]
      exact ⟨_, steps_of_not_busy hafter (by simp [hdone]) _, hdone⟩
    · obtain ⟨hrunning, hnear⟩ := h.progress_nearer hbusy hpending 0
      exact ih (inv_progress h 0) hrunning hafter (hn.of_nearer hnear)

/-- The state after the host has read `STATUS`, with the rest of its agenda to come. -/
def seenStatus (s : State) (rest : List Event) : State :=
  { s with agenda := rest, readback := .reg 1 (readSlot s 1) :: s.readback }

/-- The state after one round of a wait for a running command. -/
def waitRound (s : State) (rest : List Event) : State :=
  { progress 0 (seenStatus s rest) with agenda := .wait :: rest }

theorem step_wait_of_not_busy {s : State} {rest : List Event} (hagenda : s.agenda = .wait :: rest)
    (hidle : s.phase ≠ .busy) : step s = .next (seenStatus s rest) := by
  have hwait : hostWait { s with agenda := rest } = seenStatus s rest := if_neg hidle
  rw [step_of_agenda hagenda, perform, hwait]

theorem step_wait_of_busy {s : State} {rest : List Event} (hagenda : s.agenda = .wait :: rest)
    (hbusy : s.phase = .busy) : step s = .next (waitRound s rest) := by
  have hwait : hostWait { s with agenda := rest } = waitRound s rest := if_pos hbusy
  rw [step_of_agenda hagenda, perform, hwait]

/-- The round in which the command passes its barrier leaves `DONE` for the host to read. -/
theorem waitRound_of_pending_eq_nil {s : State} {rest : List Event} (hbusy : s.phase = .busy)
    (hpending : s.pending = []) :
    (waitRound s rest).phase = .done ∧ readSlot (waitRound s rest) 1 = 0x00000002#32 := by
  obtain ⟨m, n, hfinish⟩ := finish_eq (seenStatus s rest)
  have hprogress := progress_of_pending_eq_nil (s := seenStatus s rest) hbusy hpending 0
  rw [waitRound, hprogress, hfinish]
  exact ⟨rfl, readSlot_status_eq rfl⟩

theorem inv_waitRound {s : State} (h : Inv s) (rest : List Event) : Inv (waitRound s rest) :=
  (inv_progress (h.withHost rest _ s.fresh) 0).withHost _ _ _

/-- From the state `s` at most `n` steps end a wait: the command is `DONE`, and `STATUS` was last read as that. -/
def WaitEnds (n : Nat) (s : State) (rest : List Event) : Prop :=
  ∃ k t older, k ≤ n ∧ Claim.steps k s = some t ∧ t.phase = .done ∧ t.agenda = rest ∧
    t.readback = .reg 1 0x00000002#32 :: older

theorem WaitEnds.of_step {n : Nat} {s u : State} {rest : List Event} (hstep : step s = .next u)
    (h : WaitEnds n u rest) : WaitEnds (n + 1) s rest := by
  obtain ⟨k, t, older, hk, hsteps, hlast⟩ := h
  exact ⟨k + 1, t, older, by omega, (steps_succ hstep).trans hsteps, hlast⟩

/-- At its barrier the command takes one round, and the host one more look. -/
theorem waitEnds_of_pending_eq_nil {n : Nat} {s : State} {rest : List Event} (hbusy : s.phase = .busy)
    (hagenda : s.agenda = .wait :: rest) (hpending : s.pending = []) : WaitEnds (n + 2) s rest := by
  obtain ⟨hdone, hstatus⟩ := waitRound_of_pending_eq_nil (rest := rest) hbusy hpending
  have hlast := step_wait_of_not_busy (s := waitRound s rest) rfl (by simp [hdone])
  have hseen : WaitEnds n (seenStatus (waitRound s rest) rest) rest :=
    ⟨0, _, _, n.zero_le, rfl, hdone, rfl, by rw [seenStatus, hstatus]⟩
  exact .of_step (step_wait_of_busy hagenda hbusy) (.of_step hlast hseen)

/-- Waited for, a command that is within `n` steps of its barrier is read as `DONE` after two more. -/
theorem waitEnds_of_within {n : Nat} {s : State} {rest : List Event} (h : Inv s) (hbusy : s.phase = .busy)
    (hagenda : s.agenda = .wait :: rest) (hn : Within n s) : WaitEnds (n + 2) s rest := by
  induction n generalizing s with
  | zero => exact waitEnds_of_pending_eq_nil hbusy hagenda (hn.pending_eq_nil h)
  | succ n ih =>
    by_cases hpending : s.pending = []
    · exact waitEnds_of_pending_eq_nil hbusy hagenda hpending
    · have hseen : Inv (seenStatus s rest) := h.withHost rest _ s.fresh
      obtain ⟨hrunning, hnear⟩ := hseen.progress_nearer hbusy hpending 0
      exact .of_step (step_wait_of_busy hagenda hbusy) (ih (inv_waitRound h rest) hrunning rfl (hn.of_nearer hnear))

end Sys2Proof.Machine

namespace Sys2Proof.Proofs

open Sys2Proof.Machine

/-- Settles O53: every step leaves fewer of the five steps of each pending tile to come, and with none left the barrier
is next. -/
theorem runningCommandEnds : Obligations.RunningCommandEnds :=
  ⟨fun s h hbusy hagenda => exists_steps_done h hbusy hagenda (within_five_mul s),
    fun _ _ hagenda => ⟨step_wait_of_not_busy hagenda, step_wait_of_busy hagenda⟩,
    fun s _ h hbusy hagenda => waitEnds_of_within h hbusy hagenda (within_five_mul s)⟩

end Sys2Proof.Proofs
end

section
/-! The legacy GEMM-B packer (R276 to R286): the cells of a tile are the bytes of its blob, each byte that R281 and R282
name has one, and so `LPACK` leaves the memory that they describe. -/

namespace Sys2Proof.Machine

section Lpack

variable {c : HostRegs} {m : Memory} {v : Legacy} {t : Tile} {n kb : Nat}

/-! ### The block of a blob (R278) -/

theorem blkLen_pos (v : Legacy) : 0 < blkLen v := by cases v <;> decide

theorem first_row_lt (hkb : kb < kBlocks c v) : kb * blkLen v < c.rows.toNat := (lt_ceilDiv_iff.mp hkb).2

theorem legacyBlock_eq (v : Legacy) (c : HostRegs) (n kb : Nat) :
    Claim.legacyBlock v c n kb =
      (span (kb * blkLen v) (min (kb * blkLen v + blkLen v) c.rows.toNat)).map fun k => (k, n) := by
  rw [Claim.legacyBlock, filter_range_div (blkLen_pos v)]

theorem length_legacyBlock (v : Legacy) (c : HostRegs) (n kb : Nat) :
    (Claim.legacyBlock v c n kb).length = blockLen c v kb := by
  rw [legacyBlock_eq, List.length_map, length_span, blockLen]
  omega

/-- A position of a block holds an element exactly when its row exists. -/
theorem lt_blockLen_iff {j : Nat} : j < blockLen c v kb ↔ kb * blkLen v + j < c.rows.toNat ∧ j < blkLen v := by
  rw [blockLen, lt_min_iff]
  omega

/-- The scale and the zero point of the block of a blob. -/
def blobParams (v : Legacy) (c : HostRegs) (m : Memory) (n kb : Nat) : Option (Flt × Nat) :=
  Claim.params c m (legacyAsym v) .q4 .f32 (Claim.legacyBlock v c n kb)

/-- The parameters of the one block of a tile are those of its blob. -/
theorem blockParam_lpackTile (hkb : t.c < kBlocks c v) {b : Block} (hb : b ∈ (lpackTile c v t).blocks) :
    blockParam (jobMode (.lpack v)) (elemRead .f32 m) b =
      (blobParams v c m t.r t.c).map fun p => { scale := p.1, zp := p.2 } := by
  obtain rfl := List.mem_singleton.mp hb
  have hrow := first_row_lt hkb
  have hlast : t.c * blkLen v + blockLen c v t.c = min (t.c * blkLen v + blkLen v) c.rows.toNat := by
    unfold blockLen
    omega
  refine blockParam_eq_params (q := jobMode (.lpack v)) ?_
  rw [legacyBlock_eq, List.map_map, ← hlast]
  rfl

/-! ### The codes of a blob (R282, R284 to R286) -/

/-- The code of a value under a reciprocal scale and a zero point, by the mapping of the variant. -/
def mappedCode (v : Legacy) (a rs : Flt) (zp : Nat) : Option Nat :=
  if legacyAsym v then legacyAsymCode a rs zp else legacySymCode a rs

theorem codeOf_lpack (v : Legacy) (a rs : Flt) (zp : Nat) :
    codeOf (jobMode (.lpack v)) a rs zp = mappedCode v a rs zp := by
  cases v <;> rfl

/-- The value at position `j` of a block: its element, or 0.0 past its end (R284). -/
def blobValue (v : Legacy) (c : HostRegs) (m : Memory) (n kb j : Nat) : Option Flt :=
  if j < blockLen c v kb then Claim.source c m .f32 (kb * blkLen v + j, n) else some (ofNat 0)

theorem legacyCode_eq_bind (v : Legacy) (x : Option Flt) (scale : Flt) (zp : Nat) :
    Claim.legacyCode v x (some (scale, zp)) = x.bind fun a => (rcp scale).bind fun rs => mappedCode v a rs zp := by
  cases x with
  | none => rfl
  | some a =>
    simp only [Claim.legacyCode]
    cases rcp scale <;> rfl

theorem blobCode_eq_bind {scale : Flt} {zp j : Nat} (h : blobParams v c m n kb = some (scale, zp)) :
    Claim.blobCode v c m n kb j =
      (blobValue v c m n kb j).bind fun a => (rcp scale).bind fun rs => mappedCode v a rs zp := by
  rw [blobParams] at h
  simp only [Claim.blobCode, ← lt_blockLen_iff, h]
  exact legacyCode_eq_bind ..

/-- The slot of position `j` of a tile (R282). -/
def blobSlot (c : HostRegs) (v : Legacy) (t : Tile) (j : Nat) : Slot :=
  if j < blockLen c v t.c then .elem (rowMajorAddr c 4 (t.c * blkLen v + j) t.r) 0 else .zeroCode 0

theorem slotValue_blobSlot {q : QuantMode} {rs : List Flt} {zacc : List Nat} {j : Nat} :
    slotValue q (elemRead .f32 m) rs zacc (blobSlot c v t j) =
      (blobValue v c m t.r t.c j).bind fun a => rs[0]?.bind fun r => codeOf q a r (zacc.getD 0 (mid q.width)) := by
  unfold blobSlot blobValue
  split
  · exact slotValue_elem_eq_bind ..
  · rw [slotValue, Option.bind_some]
    cases rs[0]? <;> rfl

/-- The packed byte of chunk `ch` and lane `l` of a blob (R282). -/
def blobByte (v : Legacy) (c : HostRegs) (m : Memory) (n kb ch l : Nat) : Option Byte :=
  Claim.packed .q4 [Claim.blobCode v c m n kb (32 * ch + l), Claim.blobCode v c m n kb (32 * ch + l + 16)]

/-- The packed byte of chunk `ch` and lane `l` of a tile. -/
def blobDataByte (c : HostRegs) (v : Legacy) (t : Tile) (ch l : Nat) : Nat × List Slot :=
  (blobData c v t.r t.c + 16 * ch + l, [blobSlot c v t (32 * ch + l), blobSlot c v t (32 * ch + l + 16)])

theorem mem_lpackTile_dataBytes {d : Nat × List Slot} :
    d ∈ (lpackTile c v t).dataBytes ↔
      ∃ ch l, ch < ceilDiv (blockLen c v t.c) 32 ∧ l < 16 ∧ d = blobDataByte c v t ch l := by
  simp only [lpackTile, List.mem_flatMap, List.mem_map, List.mem_range]
  constructor
  · rintro ⟨ch, hch, l, hl, rfl⟩
    exact ⟨ch, l, hch, hl, rfl⟩
  · rintro ⟨ch, l, hch, hl, rfl⟩
    exact ⟨ch, hch, l, hl, rfl⟩

theorem mem_lpackTile_zpBytes {z : Nat × List Nat} :
    z ∈ (lpackTile c v t).zpBytes ↔ legacyAsym v = true ∧ z = (blobBase c v t.r t.c + 4, [0]) := by
  cases v <;> simp [lpackTile, legacyAsym]

/-! ### The bytes of a blob (R277, R281, R282) -/

/-- Byte `k` of a blob: the scale, the zero point where the variant has one, and the packed codes. -/
def blobContents (v : Legacy) (c : HostRegs) (m : Memory) (n kb k : Nat) : Option Byte :=
  if k < 4 then (blobParams v c m n kb).map fun p => BitVec.ofNat 8 ((bits32 p.1).toNat / 256 ^ k)
  else if k < 4 + legacyZ v then (blobParams v c m n kb).map fun p => BitVec.ofNat 8 p.2
  else blobByte v c m n kb ((k - (4 + legacyZ v)) / 16) ((k - (4 + legacyZ v)) % 16)

/-- How many bytes of a blob are written: chunks without an element are left alone (R291). -/
def blobUsed (v : Legacy) (c : HostRegs) (kb : Nat) : Nat := 4 + legacyZ v + 16 * ceilDiv (blockLen c v kb) 32

theorem legacyZ_of_asym (h : legacyAsym v = true) : legacyZ v = 1 := if_pos h

theorem blobUsed_le (v : Legacy) (c : HostRegs) (kb : Nat) : blobUsed v c kb ≤ blobSize v := by
  have hchunks : ceilDiv (blockLen c v kb) 32 * 32 ≤ blkLen v :=
    ceilDiv_mul_le_of_dvd (by decide) (by cases v <;> decide) (Nat.min_le_left _ _)
  unfold blobUsed blobSize
  omega

theorem blobContents_scale {k : Nat} (hk : k < 4) :
    blobContents v c m n kb k =
      (blobParams v c m n kb).map fun p => BitVec.ofNat 8 ((bits32 p.1).toNat / 256 ^ k) := if_pos hk

theorem blobContents_zeroPoint (hasym : legacyAsym v = true) :
    blobContents v c m n kb 4 = (blobParams v c m n kb).map fun p => BitVec.ofNat 8 p.2 := by
  simp [blobContents, legacyZ_of_asym hasym]

theorem blobContents_codes {ch l : Nat} (hl : l < 16) :
    blobContents v c m n kb (4 + legacyZ v + (16 * ch + l)) = blobByte v c m n kb ch l := by
  rw [blobContents, if_neg (by omega), if_neg (by omega), Nat.add_sub_cancel_left,
    show (16 * ch + l) / 16 = ch by omega, show (16 * ch + l) % 16 = l by omega]

/-- A cell that R281 and R282 ask for. -/
inductive BlobCell (v : Legacy) (c : HostRegs) (m : Memory) : Host.Cell → Prop where
  | byte {n kb k : Nat} {b : Byte} (hn : n < c.cols.toNat) (hkb : kb < kBlocks c v) (hk : k < blobUsed v c kb)
      (hb : blobContents v c m n kb k = some b) : BlobCell v c m (blobBase c v n kb + k, b)

/-! ### The cells of a tile -/

/-- A tile has the parameters of its blob, as its only block's. -/
theorem exists_blobParams (hkb : t.c < kBlocks c v) {ps : List BlockParam}
    (hps : collect (blockParam (jobMode (.lpack v)) (elemRead .f32 m)) (lpackTile c v t).blocks = some ps) :
    ∃ scale zp, blobParams v c m t.r t.c = some (scale, zp) ∧ ps = [⟨scale, zp⟩] := by
  obtain ⟨p, rest, hp, hrest, rfl⟩ := collect_cons_eq_some.mp hps
  obtain rfl : [] = rest := Option.some.inj hrest
  rw [blockParam_lpackTile hkb (List.mem_singleton_self _)] at hp
  obtain ⟨⟨scale, zp⟩, hparams, rfl⟩ := Option.map_eq_some_iff.mp hp
  exact ⟨scale, zp, hparams, rfl⟩

/-- A packed byte of the tile is that of R282. -/
theorem dataCell_lpack (hkb : t.c < kBlocks c v) {ps : List BlockParam} {rs : List Flt}
    (hps : collect (blockParam (jobMode (.lpack v)) (elemRead .f32 m)) (lpackTile c v t).blocks = some ps)
    (hrs : collect (storedRecip (jobMode (.lpack v))) ps = some rs) (ch l : Nat) :
    dataCell (jobMode (.lpack v)) (elemRead .f32 m) rs (accumulators (jobMode (.lpack v)) (lpackTile c v t) ps)
        (blobDataByte c v t ch l) =
      (blobByte v c m t.r t.c ch l).map fun b => (blobData c v t.r t.c + 16 * ch + l, b) := by
  obtain ⟨scale, zp, hparams, rfl⟩ := exists_blobParams hkb hps
  have hr : rs[0]? = rcp scale := by
    rw [collect_getElem? hrs, List.getElem?_cons_zero, Option.bind_some, storedRecip_eq_bind]
    rfl
  have hslot (j : Nat) : slotValue (jobMode (.lpack v)) (elemRead .f32 m) rs
      (accumulators (jobMode (.lpack v)) (lpackTile c v t) [⟨scale, zp⟩]) (blobSlot c v t j) =
        Claim.blobCode v c m t.r t.c j := by
    rw [slotValue_blobSlot, blobCode_eq_bind hparams, hr, getD_accumulators]
    simp [codeOf_lpack]
  rw [dataCell, blobByte, Claim.packed, Option.map_map, ← hslot, ← hslot]
  exact congrArg _ (collect_map id _ [blobSlot c v t (32 * ch + l), blobSlot c v t (32 * ch + l + 16)]).symm

theorem blobCell_of_mem_tile (ht : t ∈ legacyTiles c v) {cells : List Host.Cell}
    (h : jobTileCells (.lpack v) c m t = some cells) {x : Host.Cell} (hx : x ∈ cells) : BlobCell v c m x := by
  obtain ⟨hn, hkb⟩ := mem_tileGrid.mp ht
  obtain ⟨ps, sc, rs, d, hps, hsc, hrs, hd, rfl⟩ := quantTileCells_eq_some h
  rcases List.mem_append.mp hx with hx | hx
  · rcases List.mem_append.mp hx with hx | hx
    · obtain ⟨b, hb, p, bits, k, hp, hbits, hk, rfl⟩ := mem_scaleCells hps hsc hx
      obtain ⟨pair, hparams, rfl⟩ := Option.map_eq_some_iff.mp ((blockParam_lpackTile hkb hb).symm.trans hp)
      obtain rfl := List.mem_singleton.mp hb
      obtain rfl : (bits32 pair.1).toNat = bits := Option.some.inj hbits
      have hk : k < 4 := hk
      refine .byte hn hkb (by unfold blobUsed; omega) ?_
      rw [blobContents_scale hk, hparams, Option.map_some]
    · obtain ⟨z, hz, rfl⟩ := List.mem_map.mp hx
      obtain ⟨hasym, rfl⟩ := mem_lpackTile_zpBytes.mp hz
      obtain ⟨scale, zp, hparams, rfl⟩ := exists_blobParams hkb hps
      have hz := legacyZ_of_asym hasym
      refine .byte hn hkb (by unfold blobUsed; omega) ?_
      rw [blobContents_zeroPoint hasym, hparams, Option.map_some, List.map_singleton, getD_accumulators]
      simp [pack, packSum]
  · obtain ⟨y, hy, hcell⟩ := mem_of_collect hd hx
    obtain ⟨ch, l, hch, hl, rfl⟩ := mem_lpackTile_dataBytes.mp hy
    obtain ⟨b, hb, rfl⟩ := Option.map_eq_some_iff.mp ((dataCell_lpack hkb hps hrs ch l).symm.trans hcell)
    have hplace : blobData c v t.r t.c + 16 * ch + l = blobBase c v t.r t.c + (4 + legacyZ v + (16 * ch + l)) := by
      unfold blobData
      omega
    rw [hplace]
    exact .byte hn hkb (by unfold blobUsed; omega) ((blobContents_codes hl).trans hb)

/-! ### Every tile has its cells -/

/-- The first position of a block has a code, so its scale has a reciprocal. -/
theorem rcp_isSome_of_lpackDefined (hdef : Claim.LpackDefined v c m) (hn : n < c.cols.toNat) (hkb : kb < kBlocks c v)
    {scale : Flt} {zp : Nat} (hparams : blobParams v c m n kb = some (scale, zp)) : (rcp scale).isSome = true := by
  have hlen : 0 < blockLen c v kb := lt_blockLen_iff.mpr ⟨first_row_lt hkb, blkLen_pos v⟩
  have hchunk : 0 < ceilDiv (blockLen c v kb) 32 := lt_ceilDiv_iff.mpr ⟨by decide, by omega⟩
  have hcode := hdef.codes n hn kb hkb 0 (by rw [length_legacyBlock]; omega)
  rw [blobCode_eq_bind hparams] at hcode
  obtain ⟨code, hcode⟩ := Option.isSome_iff_exists.mp hcode
  obtain ⟨a, -, hcode⟩ := Option.bind_eq_some_iff.mp hcode
  obtain ⟨r, hr, -⟩ := Option.bind_eq_some_iff.mp hcode
  exact Option.isSome_of_eq_some hr

theorem blobByte_isSome (hdef : Claim.LpackDefined v c m) (hn : n < c.cols.toNat) (hkb : kb < kBlocks c v) {ch l : Nat}
    (hch : ch < ceilDiv (blockLen c v kb) 32) (hl : l < 16) : (blobByte v c m n kb ch l).isSome = true := by
  have hcode (j : Nat) (hj : j < 32 * ceilDiv (blockLen c v kb) 32) : (Claim.blobCode v c m n kb j).isSome = true :=
    hdef.codes n hn kb hkb j (by rwa [length_legacyBlock])
  rw [blobByte, Claim.packed, Option.isSome_map, collect_isSome_iff]
  intro a ha
  rcases List.mem_pair.mp ha with rfl | rfl
  · exact hcode _ (by omega)
  · exact hcode _ (by omega)

theorem jobTileCells_lpack_isSome (hdef : Claim.LpackDefined v c m) (ht : t ∈ legacyTiles c v) :
    (jobTileCells (.lpack v) c m t).isSome = true := by
  obtain ⟨hn, hkb⟩ := mem_tileGrid.mp ht
  refine quantTileCells_isSome (fun b hb => ?_) fun ps rs hps hrs => collect_isSome_iff.mpr fun d hd => ?_
  · obtain ⟨⟨scale, zp⟩, hparams⟩ := Option.isSome_iff_exists.mp (hdef.scales t.r hn t.c hkb)
    refine ⟨⟨scale, zp⟩, (blockParam_lpackTile hkb hb).trans (by rw [blobParams, hparams]; rfl), rfl, ?_⟩
    rw [storedRecip_eq_bind]
    exact rcp_isSome_of_lpackDefined hdef hn hkb hparams
  · obtain ⟨ch, l, hch, hl, rfl⟩ := mem_lpackTile_dataBytes.mp hd
    refine (congrArg Option.isSome (dataCell_lpack hkb hps hrs ch l)).trans (Option.isSome_map.trans ?_)
    exact blobByte_isSome hdef hn hkb hch hl

/-! ### The memory of R281 and R282 -/

/-- Every byte of a blob that is used is a target of the blob's tile. -/
theorem target_lpack {k : Nat} (hk : k < blobUsed v c t.c) :
    IsTarget .f32 (jobWork (.lpack v) c t) (blobBase c v t.r t.c + k) := by
  by_cases hscale : k < 4
  · exact .inl ⟨_, List.mem_singleton_self _, Nat.le_add_right _ _, Nat.add_lt_add_left hscale _⟩
  · by_cases hzp : k < 4 + legacyZ v
    · have hasym : legacyAsym v = true := by
        by_contra hsym
        simp only [legacyZ, hsym] at hzp
        exact hscale hzp
      have hz := legacyZ_of_asym hasym
      obtain rfl : k = 4 := by omega
      exact .inr (.inl ⟨_, mem_lpackTile_zpBytes.mpr ⟨hasym, rfl⟩, rfl⟩)
    · unfold blobUsed at hk
      refine .inr (.inr ⟨_, mem_lpackTile_dataBytes.mpr
        ⟨(k - (4 + legacyZ v)) / 16, (k - (4 + legacyZ v)) % 16, by omega, by omega, rfl⟩, ?_⟩)
      simp only [blobDataByte, blobData]
      omega

/-- The byte that R281 and R282 give for byte `k` of the PackedBuffer, buffer number 1 and the only one written. -/
def lpackByte (v : Legacy) (c : HostRegs) (m : Memory) (_ k : Nat) : Option Byte :=
  blobContents v c m (k / blobSize v / kBlocks c v) (k / blobSize v % kBlocks c v) (k % blobSize v)

theorem lpackByte_blob (i : Nat) {k : Nat} (hkb : kb < kBlocks c v) (hk : k < blobSize v) :
    lpackByte v c m i ((n * kBlocks c v + kb) * blobSize v + k) = blobContents v c m n kb k := by
  simp only [lpackByte, index_div_mod hk, index_div_mod hkb]

theorem blob_place_lt {k : Nat} (hn : n < c.cols.toNat) (hkb : kb < kBlocks c v) (hk : k < blobSize v) :
    (n * kBlocks c v + kb) * blobSize v + k < legacyBytes c v := index_lt (index_lt hn hkb) hk

theorem BlobCell.valued {x : Host.Cell} (h : BlobCell v c m x) : Valued (.lpack v) c (lpackByte v c m) x := by
  cases h with
  | byte hn hkb hk hb =>
    have hsize := hk.trans_le (blobUsed_le v c _)
    rw [blobBase, Nat.add_assoc]
    exact valued_offset (i := 1) rfl (blob_place_lt hn hkb hsize) ((lpackByte_blob 1 hkb hsize).trans hb)

/-- Cells of R281 and R282 that reach every used byte of every blob leave the bytes of the blobs. -/
theorem readByte_blob {cells : List Host.Cell} (hwf : memWf m) (hclash : anyClash (jobExtents (.lpack v) c) = false)
    (hcells : ∀ x ∈ cells, BlobCell v c m x) {k : Nat} (hn : n < c.cols.toNat) (hkb : kb < kBlocks c v)
    (hk : k < blobUsed v c kb) (hall : ∃ x ∈ cells, x.1 = blobBase c v n kb + k) :
    blobContents v c m n kb k = some (readByte (writeCells m cells) (blobBase c v n kb + k)) := by
  have hsize := hk.trans_le (blobUsed_le v c kb)
  rw [blobBase, Nat.add_assoc] at hall ⊢
  rw [← lpackByte_blob 1 hkb hsize]
  exact readByte_of_valued hwf hclash (fun x hx => (hcells x hx).valued) (i := 1) rfl (blob_place_lt hn hkb hsize) hall

/-- Memory that has the bytes of the blobs, and elsewhere is as before, is that of R281 and R282. -/
theorem lpackResult_of_blobs {m' : Memory} (hdef : Claim.LpackDefined v c m)
    (hblob : ∀ n kb k, n < c.cols.toNat → kb < kBlocks c v → k < blobUsed v c kb →
      blobContents v c m n kb k = some (readByte m' (blobBase c v n kb + k)))
    (hframe : ∀ a, (∀ n kb k, n < c.cols.toNat → kb < kBlocks c v → k < blobUsed v c kb → a ≠ blobBase c v n kb + k) →
      readByte m' a = readByte m a) :
    Claim.LpackResult v c m m' := by
  constructor
  case scales =>
    intro n kb hn hkb
    obtain ⟨⟨scale, zp⟩, hparams⟩ := Option.isSome_iff_exists.mp (hdef.scales n hn kb hkb)
    have hbyte (k : Nat) (hk : k < 4) :
        readByte m' (blobBase c v n kb + k) = BitVec.ofNat 8 ((bits32 scale).toNat / 256 ^ k) := by
      have hread := hblob n kb k hn hkb (by unfold blobUsed; omega)
      rw [blobContents_scale hk, blobParams, hparams] at hread
      exact (Option.some.inj hread).symm
    rw [hparams]
    exact congrArg some ((memRead_of_bytes hbyte).trans (Nat.mod_eq_of_lt (bits32 scale).isLt)).symm
  case zeroPoints =>
    intro hasym n kb hn hkb
    have hz := legacyZ_of_asym hasym
    have hread := hblob n kb 4 hn hkb (by unfold blobUsed; omega)
    rwa [blobContents_zeroPoint hasym, blobParams, hasym] at hread
  case codes =>
    intro n kb ch l hn hkb hch hl
    rw [length_legacyBlock] at hch
    have hread := hblob n kb (4 + legacyZ v + (16 * ch + l)) hn hkb (by unfold blobUsed; omega)
    rw [blobContents_codes hl, ← Nat.add_assoc, ← Nat.add_assoc, ← Nat.add_assoc] at hread
    exact hread
  case frame =>
    intro a ha
    refine hframe a fun n kb k hn hkb hk => ha n kb k hn hkb ?_
    rwa [length_legacyBlock]

end Lpack

theorem jobOf_lpackInstr (v : Legacy) : jobOf (Claim.lpackInstr v) = some (.lpack v) := by cases v <;> rfl

end Sys2Proof.Machine

namespace Sys2Proof.Proofs

open Sys2Proof.Machine

/-- Settles O43: the cells of the tiles are the used bytes of the blobs, each of them has one, and the PackedBuffer is
the only buffer written. -/
theorem lpackWritesItsResult : Obligations.LpackWritesItsResult := by
  intro v s hready hdef
  obtain ⟨cells, hcells, hexec⟩ :=
    exec_of_ready (jobOf_lpackInstr v) hready fun t ht => jobTileCells_lpack_isSome hdef ht
  have hblob : ∀ x ∈ cells, BlobCell v s.ctx s.mem x := fun x hx => by
    obtain ⟨t, ht, cs, hcs, hx⟩ := (mem_collectCells hcells).mp hx
    exact blobCell_of_mem_tile ht hcs hx
  refine ⟨_, hexec, memWf_writeCells hready.memory cells,
    lpackResult_of_blobs hdef (fun n kb k hn hkb hk => ?_) fun a ha => ?_⟩
  · obtain ⟨cs, hcs⟩ := collectCells_of_mem hcells (mem_tileGrid.mpr ⟨hn, hkb⟩ : (⟨n, kb⟩ : Tile) ∈ _)
    obtain ⟨x, hx, hxa⟩ := exists_cell_of_target hcs (target_lpack hk)
    exact readByte_blob hready.memory hready.apart hblob hn hkb hk
      ⟨x, (mem_collectCells hcells).mpr ⟨_, mem_tileGrid.mpr ⟨hn, hkb⟩, cs, hcs, hx⟩, hxa⟩
  · refine readByte_writeCells_of_not_mem hready.memory fun x hx hxa => ?_
    cases hblob x hx with
    | byte hn hkb hk => exact ha _ _ _ hn hkb hk hxa.symm

end Sys2Proof.Proofs
end

section
/-! The legacy GEMM-B unpacker (R287): the cells of a tile are those of its elements, every element of the row-major
Matrix has them, and so `LUNPACK` leaves the memory that R287 describes. -/

namespace Sys2Proof.Machine

section Lunpack

variable {c : HostRegs} {m : Memory} {v : Legacy} {t : Tile}

/-! ### The elements of a tile -/

theorem mem_lunpackTile {d : DeqElem} :
    d ∈ lunpackTile c v t ↔ ∃ j, j < blockLen c v t.c ∧ d = lunpackElem c v t.r t.c j := by
  simp only [lunpackTile, List.mem_map, List.mem_range, eq_comm (a := d)]

/-- The value of an element of a tile is that of R287; its zero point is a whole byte, or the implied 8. -/
theorem deqValue_lunpackElem (n k : Nat) :
    deqValue .f32 m (lunpackElem c v n (k / blkLen v) (k % blkLen v)) = Claim.legacyDequantized v c m k n := by
  have hslot : k % blkLen v % 32 / 16 < perByte .q4 := Nat.div_lt_of_lt_mul (Nat.mod_lt _ (by decide))
  rw [deqValue_eq]
  simp only [Claim.legacyDequantized, getD_unpack .q4 _ hslot]
  cases v <;> rfl

/-- The pattern that R287 gives for element `(k, n)`. -/
def lunpackBits (v : Legacy) (c : HostRegs) (m : Memory) (k n : Nat) : Option Nat :=
  (Claim.legacyDequantized v c m k n).map fun x => (bits32 x).toNat

theorem deqBits_lunpackElem (n k : Nat) :
    (deqValue .f32 m (lunpackElem c v n (k / blkLen v) (k % blkLen v))).bind (elemBits .f32) =
      lunpackBits v c m k n := by
  rw [deqValue_lunpackElem, lunpackBits]
  cases Claim.legacyDequantized v c m k n <;> rfl

theorem lunpackBits_lt {k n bits : Nat} (h : lunpackBits v c m k n = some bits) : bits < 256 ^ 4 := by
  obtain ⟨x, -, rfl⟩ := Option.map_eq_some_iff.mp h
  exact (bits32 x).isLt

/-- Position `j` of a block is row `kb * BlkLen + j`. -/
theorem row_div_mod {kb j : Nat} (hj : j < blockLen c v kb) :
    kb * blkLen v + j < c.rows.toNat ∧ (kb * blkLen v + j) / blkLen v = kb ∧ (kb * blkLen v + j) % blkLen v = j := by
  obtain ⟨hrow, hj⟩ := lt_blockLen_iff.mp hj
  exact ⟨hrow, index_div_mod hj⟩

/-- Every element of a row-major Matrix is in a tile. -/
theorem exists_lunpackTile {k n : Nat} (hk : k < c.rows.toNat) (hn : n < c.cols.toNat) :
    ∃ t ∈ legacyTiles c v, lunpackElem c v n (k / blkLen v) (k % blkLen v) ∈ lunpackTile c v t := by
  have hpos := blkLen_pos v
  refine ⟨⟨n, k / blkLen v⟩, mem_tileGrid.mpr ⟨hn, div_lt_ceilDiv hpos hk⟩, mem_lunpackTile.mpr ⟨_, ?_, rfl⟩⟩
  rw [lt_blockLen_iff, Nat.mul_comm, Nat.div_add_mod]
  exact ⟨hk, Nat.mod_lt k hpos⟩

theorem lunpackElem_dst (n k : Nat) :
    (lunpackElem c v n (k / blkLen v) (k % blkLen v)).dst = c.matAddr.toNat + (k * c.ld.toNat + n) * 4 := by
  rw [lunpackElem, Nat.mul_comm, Nat.div_add_mod]
  rfl

/-! ### The cells of a tile -/

/-- A cell that R287 asks for: one byte of an element of the row-major Matrix. -/
inductive LunpackCell (v : Legacy) (c : HostRegs) (m : Memory) : Host.Cell → Prop where
  | elem {k n i bits : Nat} (hk : k < c.rows.toNat) (hn : n < c.cols.toNat) (hi : i < 4)
      (hbits : lunpackBits v c m k n = some bits) :
      LunpackCell v c m (c.matAddr.toNat + (k * c.ld.toNat + n) * 4 + i, BitVec.ofNat 8 (bits / 256 ^ i))

/-- The elements of a tile as rows of its column. -/
theorem exists_row_of_mem_lunpackTile {d : DeqElem} (hd : d ∈ lunpackTile c v t) :
    ∃ k < c.rows.toNat, d = lunpackElem c v t.r (k / blkLen v) (k % blkLen v) := by
  obtain ⟨j, hj, rfl⟩ := mem_lunpackTile.mp hd
  obtain ⟨hrow, hdiv, hmod⟩ := row_div_mod hj
  exact ⟨_, hrow, by rw [hdiv, hmod]⟩

theorem lunpackCell_of_mem_tile (ht : t ∈ legacyTiles c v) {cells : List Host.Cell}
    (h : jobTileCells (.lunpack v) c m t = some cells) {x : Host.Cell} (hx : x ∈ cells) : LunpackCell v c m x := by
  obtain ⟨hn, -⟩ := mem_tileGrid.mp ht
  obtain ⟨d, hd, bits, i, hbits, hi, rfl⟩ := mem_deqCells h hx
  obtain ⟨k, hk, rfl⟩ := exists_row_of_mem_lunpackTile hd
  rw [lunpackElem_dst]
  exact .elem hk hn hi ((deqBits_lunpackElem t.r k).symm.trans hbits)

theorem jobTileCells_lunpack_isSome (hdef : Claim.LunpackDefined v c m) (ht : t ∈ legacyTiles c v) :
    (jobTileCells (.lunpack v) c m t).isSome = true := by
  obtain ⟨hn, -⟩ := mem_tileGrid.mp ht
  refine isSome_collectCells_iff.mpr fun d hd => ?_
  obtain ⟨k, hk, rfl⟩ := exists_row_of_mem_lunpackTile hd
  rw [deqCells_eq_map, Option.isSome_map]
  exact (congrArg Option.isSome (deqBits_lunpackElem t.r k)).trans (Option.isSome_map.trans (hdef k hk t.r hn))

/-- Every byte of every element has a cell among those of the tiles. -/
theorem exists_cell_lunpack {cells : List Host.Cell}
    (h : collectCells (jobTileCells (.lunpack v) c m) (legacyTiles c v) = some cells) {k n i : Nat}
    (hk : k < c.rows.toNat) (hn : n < c.cols.toNat) (hi : i < 4) :
    ∃ x ∈ cells, x.1 = c.matAddr.toNat + (k * c.ld.toNat + n) * 4 + i := by
  obtain ⟨t, ht, hd⟩ := exists_lunpackTile (v := v) hk hn
  obtain ⟨cs, hcs⟩ := collectCells_of_mem h ht
  obtain ⟨x, hx, hxa⟩ := exists_cell_of_deqElem hcs hd (show i < esz .f32 from hi)
  exact ⟨x, (mem_collectCells h).mpr ⟨t, ht, cs, hcs, hx⟩, by rw [hxa, lunpackElem_dst]⟩

/-! ### The memory of R287 -/

/-- The byte that R287 gives for byte `i` of the Matrix, which is buffer number 0 and the only one written. In a Matrix
of one row `LD` need not reach the number of columns. -/
def lunpackByte (v : Legacy) (c : HostRegs) (m : Memory) (_ i : Nat) : Option Byte :=
  (if c.rows.toNat ≤ 1 then lunpackBits v c m 0 (i / 4)
    else lunpackBits v c m (i / 4 / c.ld.toNat) (i / 4 % c.ld.toNat)).map fun bits =>
    BitVec.ofNat 8 (bits / 256 ^ (i % 4))

/-- Rows do not overlap when there are two, by the check of R315 on `LD`. -/
theorem cols_le_ld (hconfig : jobConfigError (.lunpack v) c = false) {n : Nat} (hrows : ¬ c.rows.toNat ≤ 1)
    (hn : n < c.cols.toNat) : n < c.ld.toNat := by
  simp only [jobConfigError, Bool.or_eq_false_iff, Bool.and_eq_false_iff, decide_eq_false_iff_not] at hconfig
  omega

theorem lunpackByte_elem (hconfig : jobConfigError (.lunpack v) c = false) {k n i : Nat} (buffer : Nat)
    (hk : k < c.rows.toNat) (hn : n < c.cols.toNat) (hi : i < 4) :
    lunpackByte v c m buffer ((k * c.ld.toNat + n) * 4 + i) =
      (lunpackBits v c m k n).map fun bits => BitVec.ofNat 8 (bits / 256 ^ i) := by
  obtain ⟨hdiv, hmod⟩ := index_div_mod (i := k * c.ld.toNat + n) hi
  rw [lunpackByte, hdiv, hmod]
  split
  · next hone =>
    obtain rfl : k = 0 := by omega
    rw [Nat.zero_mul, Nat.zero_add]
  · next hrows =>
    obtain ⟨hrow, hcol⟩ := index_div_mod (i := k) (cols_le_ld hconfig hrows hn)
    rw [hrow, hcol]

theorem lunpack_place_lt {k n i : Nat} (hk : k < c.rows.toNat) (hn : n < c.cols.toNat) (hi : i < 4) :
    (k * c.ld.toNat + n) * 4 + i < rowMajorBytes c 4 := by
  have hlast : k * c.ld.toNat ≤ (c.rows.toNat - 1) * c.ld.toNat := Nat.mul_le_mul_right _ (by omega)
  rw [rowMajorBytes, if_neg (by omega)]
  exact index_lt (by omega) hi

theorem LunpackCell.valued {x : Host.Cell} (h : LunpackCell v c m x)
    (hconfig : jobConfigError (.lunpack v) c = false) : Valued (.lunpack v) c (lunpackByte v c m) x := by
  cases h with
  | elem hk hn hi hbits =>
    rw [Nat.add_assoc]
    refine valued_offset (i := 0) rfl (lunpack_place_lt hk hn hi) ?_
    rw [lunpackByte_elem hconfig 0 hk hn hi, hbits]
    rfl

/-- Cells of R287 that reach every byte of every element leave the memory of R287. -/
theorem lunpackResult_writeCells {cells : List Host.Cell} (hwf : memWf m)
    (hclash : anyClash (jobExtents (.lunpack v) c) = false) (hconfig : jobConfigError (.lunpack v) c = false)
    (hdef : Claim.LunpackDefined v c m) (hcells : ∀ x ∈ cells, LunpackCell v c m x)
    (hall : ∀ k n i, k < c.rows.toNat → n < c.cols.toNat → i < 4 →
      ∃ x ∈ cells, x.1 = c.matAddr.toNat + (k * c.ld.toNat + n) * 4 + i) :
    Claim.LunpackResult v c m (writeCells m cells) := by
  constructor
  case elements =>
    intro k n hk hn
    obtain ⟨bits, hbits⟩ : ∃ bits, lunpackBits v c m k n = some bits :=
      Option.isSome_iff_exists.mp (Option.isSome_map.trans (hdef k hk n hn))
    refine hbits.trans (congrArg some (memRead_of_valued hwf hclash (fun x hx => (hcells x hx).valued hconfig) (i := 0)
      rfl (lunpackBits_lt hbits) (fun i hi => lunpack_place_lt hk hn hi) (fun i hi => ?_) fun i hi =>
        hall k n i hk hn hi).symm)
    rw [lunpackByte_elem hconfig 0 hk hn hi, hbits]
    rfl
  case frame =>
    intro a hframe
    refine readByte_writeCells_of_not_mem hwf fun x hx hxa => ?_
    cases hcells x hx with
    | elem hk hn hi => exact hframe _ _ _ hk hn hi hxa.symm

end Lunpack

theorem jobOf_lunpackInstr (v : Legacy) : jobOf (Claim.lunpackInstr v) = some (.lunpack v) := by cases v <;> rfl

end Sys2Proof.Machine

namespace Sys2Proof.Proofs

open Sys2Proof.Machine

/-- Settles O44: the cells of the tiles are those of R287, every byte of every element has one, and rows do not overlap,
so the Matrix has one place for each. -/
theorem lunpackWritesItsResult : Obligations.LunpackWritesItsResult := by
  intro v s hready hdef
  obtain ⟨cells, hcells, hexec⟩ :=
    exec_of_ready (jobOf_lunpackInstr v) hready fun t ht => jobTileCells_lunpack_isSome hdef ht
  obtain ⟨hconfig, -, -⟩ := jobError_eq_none hready.passes.2
  refine ⟨writeCells s.mem cells, hexec, memWf_writeCells hready.memory cells,
    lunpackResult_writeCells hready.memory hready.apart hconfig hdef (fun x hx => ?_) fun k n i hk hn hi =>
      exists_cell_lunpack hcells hk hn hi⟩
  obtain ⟨t, ht, cs, hcs, hx⟩ := (mem_collectCells hcells).mp hx
  exact lunpackCell_of_mem_tile ht hcs hx

end Sys2Proof.Proofs
end
